-- ==== Sys2Proof/Word.lean ====
section
/-! DEFINITION. The words of the machine (00_scope.md R6, R8). -/

namespace Sys2Proof

/-- A register, an address or an ARM instruction: 32 bits. -/
abbrev Word := BitVec 32

/-- A halfword, a THUMB instruction or a 16-bit I/O register. -/
abbrev Half := BitVec 16

/-- The unit of storage. -/
abbrev Byte := BitVec 8

end Sys2Proof
end

