-- ==== Sys2Proof/Syntax.lean ====
section
/-! DEFINITION. The instructions, one constructor for each row of spec/opcode_table.json, in its order, with the fields
the row names (30_encoding.md R302, R330). Bits the processor ignores are kept, so that no bit of a word is lost. -/

namespace Sys2Proof

/-- A 4-bit register field: R0 to R15. -/
abbrev Reg := BitVec 4

/-- A 3-bit register field of a THUMB format: R0 to R7. -/
abbrev LowReg := BitVec 3

/-- The sixteen conditions, in the order of their codes (30_encoding.md R301). -/
inductive Cond where
  | eq | ne | cs | cc | mi | pl | vs | vc | hi | ls | ge | lt | gt | le | al | nv
deriving DecidableEq, Repr

/-- The barrel shifter's four types, in the order of their codes (30_encoding.md R306). -/
inductive ShiftType where
  | lsl | lsr | asr | ror
deriving DecidableEq, Repr

/-- The second operand of a data-processing instruction (46_arm_dataproc.md R700). -/
inductive Operand2 where
  /-- `ROR(imm8, 2·rot)` (R701). -/
  | imm (rot : BitVec 4) (imm8 : BitVec 8)
  /-- `Rm` shifted by an immediate amount (R702). -/
  | shiftImm (amount : BitVec 5) (type : ShiftType) (rm : Reg)
  /-- `Rm` shifted by the low byte of `Rs` (R703). -/
  | shiftReg (rs : Reg) (type : ShiftType) (rm : Reg)
deriving DecidableEq, Repr

/-- The offset of a word or byte transfer (30_encoding.md R308). -/
inductive Offset where
  | imm (offset12 : BitVec 12)
  | reg (amount : BitVec 5) (type : ShiftType) (rm : Reg)
deriving DecidableEq, Repr

/-- The offset of a halfword or signed transfer (30_encoding.md R309). -/
inductive HalfOffset where
  | imm (offset8 : BitVec 8)
  /-- Bits 11:8 are ignored and kept. -/
  | reg (ignored : BitVec 4) (rm : Reg)
deriving DecidableEq, Repr

/-- The instructions. `c` is the condition, `p`, `u`, `w` the P, U and W bits, `sf` the S bit. The constructors that begin
with `t` are the THUMB rows. -/
inductive Instr where
  -- ARM branch and exchange, block data transfer, branch (41_arm_branch.md, 42_arm_block_transfer.md)
  | bx (c : Cond) (rn : Reg)
  | stmda (c : Cond) (w : Bool) (rn : Reg) (list : BitVec 16)
  | stmia (c : Cond) (w : Bool) (rn : Reg) (list : BitVec 16)
  | stmdb (c : Cond) (w : Bool) (rn : Reg) (list : BitVec 16)
  | stmib (c : Cond) (w : Bool) (rn : Reg) (list : BitVec 16)
  | stmdaUser (c : Cond) (w : Bool) (rn : Reg) (list : BitVec 16)
  | stmiaUser (c : Cond) (w : Bool) (rn : Reg) (list : BitVec 16)
  | stmdbUser (c : Cond) (w : Bool) (rn : Reg) (list : BitVec 16)
  | stmibUser (c : Cond) (w : Bool) (rn : Reg) (list : BitVec 16)
  | ldmda (c : Cond) (w : Bool) (rn : Reg) (list : BitVec 16)
  | ldmia (c : Cond) (w : Bool) (rn : Reg) (list : BitVec 16)
  | ldmdb (c : Cond) (w : Bool) (rn : Reg) (list : BitVec 16)
  | ldmib (c : Cond) (w : Bool) (rn : Reg) (list : BitVec 16)
  | ldmdaUser (c : Cond) (w : Bool) (rn : Reg) (list : BitVec 16)
  | ldmiaUser (c : Cond) (w : Bool) (rn : Reg) (list : BitVec 16)
  | ldmdbUser (c : Cond) (w : Bool) (rn : Reg) (list : BitVec 16)
  | ldmibUser (c : Cond) (w : Bool) (rn : Reg) (list : BitVec 16)
  | b (c : Cond) (offset24 : BitVec 24)
  | bl (c : Cond) (offset24 : BitVec 24)
  -- software interrupt, undefined and coprocessor space (45_arm_psr_swi.md)
  | swi (c : Cond) (comment24 : BitVec 24)
  | undefined (c : Cond) (bits24to5 : BitVec 20) (bits3to0 : BitVec 4)
  | ldcStc (c : Cond) (bits24to0 : BitVec 25)
  | cdpMcrMrc (c : Cond) (bits23to0 : BitVec 24)
  -- single data transfer (43_arm_single_transfer.md)
  | ldrt (c : Cond) (u : Bool) (rn rd : Reg) (offset : Offset)
  | strt (c : Cond) (u : Bool) (rn rd : Reg) (offset : Offset)
  | ldrbt (c : Cond) (u : Bool) (rn rd : Reg) (offset : Offset)
  | strbt (c : Cond) (u : Bool) (rn rd : Reg) (offset : Offset)
  | ldr (c : Cond) (p u w : Bool) (rn rd : Reg) (offset : Offset)
  | ldrb (c : Cond) (p u w : Bool) (rn rd : Reg) (offset : Offset)
  | str (c : Cond) (p u w : Bool) (rn rd : Reg) (offset : Offset)
  | strb (c : Cond) (p u w : Bool) (rn rd : Reg) (offset : Offset)
  | swp (c : Cond) (rn rd rm : Reg)
  | swpb (c : Cond) (rn rd rm : Reg)
  -- multiply (44_arm_multiply.md); `mul`'s `rn` is ignored
  | mul (c : Cond) (sf : Bool) (rd rn rs rm : Reg)
  | mla (c : Cond) (sf : Bool) (rd rn rs rm : Reg)
  | umull (c : Cond) (sf : Bool) (hi lo rs rm : Reg)
  | umlal (c : Cond) (sf : Bool) (hi lo rs rm : Reg)
  | smull (c : Cond) (sf : Bool) (hi lo rs rm : Reg)
  | smlal (c : Cond) (sf : Bool) (hi lo rs rm : Reg)
  -- halfword and signed transfer (43_arm_single_transfer.md)
  | ldrh (c : Cond) (p u w : Bool) (rn rd : Reg) (offset : HalfOffset)
  | strh (c : Cond) (p u w : Bool) (rn rd : Reg) (offset : HalfOffset)
  | ldrsb (c : Cond) (p u w : Bool) (rn rd : Reg) (offset : HalfOffset)
  | ldrsh (c : Cond) (p u w : Bool) (rn rd : Reg) (offset : HalfOffset)
  -- PSR transfer (45_arm_psr_swi.md)
  | mrsCpsr (c : Cond) (rd : Reg)
  | mrsSpsr (c : Cond) (rd : Reg)
  | msrCpsrReg (c : Cond) (mask : BitVec 4) (rm : Reg)
  | msrSpsrReg (c : Cond) (mask : BitVec 4) (rm : Reg)
  | msrCpsrImm (c : Cond) (mask : BitVec 4) (rot : BitVec 4) (imm8 : BitVec 8)
  | msrSpsrImm (c : Cond) (mask : BitVec 4) (rot : BitVec 4) (imm8 : BitVec 8)
  -- encodings no rule gives a meaning (30_encoding.md R326); the bits their masks leave free are kept
  | unallocMulSpace (c : Cond) (bits24to8 : BitVec 17) (bits6to5 : BitVec 2) (bits3to0 : BitVec 4)
  | unallocPsrSpace (c : Cond) (bit25 : Bool) (bits22to21 : BitVec 2) (bits19to0 : BitVec 20)
  -- data processing (46_arm_dataproc.md); `rd` of the compares and `rn` of the moves are ignored
  | and (c : Cond) (sf : Bool) (rn rd : Reg) (op2 : Operand2)
  | eor (c : Cond) (sf : Bool) (rn rd : Reg) (op2 : Operand2)
  | sub (c : Cond) (sf : Bool) (rn rd : Reg) (op2 : Operand2)
  | rsb (c : Cond) (sf : Bool) (rn rd : Reg) (op2 : Operand2)
  | add (c : Cond) (sf : Bool) (rn rd : Reg) (op2 : Operand2)
  | adc (c : Cond) (sf : Bool) (rn rd : Reg) (op2 : Operand2)
  | sbc (c : Cond) (sf : Bool) (rn rd : Reg) (op2 : Operand2)
  | rsc (c : Cond) (sf : Bool) (rn rd : Reg) (op2 : Operand2)
  | tst (c : Cond) (rn rd : Reg) (op2 : Operand2)
  | teq (c : Cond) (rn rd : Reg) (op2 : Operand2)
  | cmp (c : Cond) (rn rd : Reg) (op2 : Operand2)
  | cmn (c : Cond) (rn rd : Reg) (op2 : Operand2)
  | orr (c : Cond) (sf : Bool) (rn rd : Reg) (op2 : Operand2)
  | mov (c : Cond) (sf : Bool) (rn rd : Reg) (op2 : Operand2)
  | bic (c : Cond) (sf : Bool) (rn rd : Reg) (op2 : Operand2)
  | mvn (c : Cond) (sf : Bool) (rn rd : Reg) (op2 : Operand2)
  -- THUMB formats 1 to 4 (47_thumb_alu.md)
  | tLslImm (offset5 : BitVec 5) (rs rd : LowReg)
  | tLsrImm (offset5 : BitVec 5) (rs rd : LowReg)
  | tAsrImm (offset5 : BitVec 5) (rs rd : LowReg)
  | tAddReg (rn rs rd : LowReg)
  | tSubReg (rn rs rd : LowReg)
  | tAddImm3 (imm3 : BitVec 3) (rs rd : LowReg)
  | tSubImm3 (imm3 : BitVec 3) (rs rd : LowReg)
  | tMovImm8 (rd : LowReg) (imm8 : BitVec 8)
  | tCmpImm8 (rd : LowReg) (imm8 : BitVec 8)
  | tAddImm8 (rd : LowReg) (imm8 : BitVec 8)
  | tSubImm8 (rd : LowReg) (imm8 : BitVec 8)
  | tAnd (rs rd : LowReg)
  | tEor (rs rd : LowReg)
  | tLslReg (rs rd : LowReg)
  | tLsrReg (rs rd : LowReg)
  | tAsrReg (rs rd : LowReg)
  | tAdc (rs rd : LowReg)
  | tSbc (rs rd : LowReg)
  | tRorReg (rs rd : LowReg)
  | tTst (rs rd : LowReg)
  | tNeg (rs rd : LowReg)
  | tCmpReg (rs rd : LowReg)
  | tCmn (rs rd : LowReg)
  | tOrr (rs rd : LowReg)
  | tMul (rs rd : LowReg)
  | tBic (rs rd : LowReg)
  | tMvn (rs rd : LowReg)
  -- THUMB format 5: `s` is H2:Rs and `d` is H1:Rd; `tBx`'s `d` is ignored (R780)
  | tAddHi (s d : Reg)
  | tCmpHi (s d : Reg)
  | tMovHi (s d : Reg)
  | tBx (s d : Reg)
  -- THUMB formats 6 to 11 (48_thumb_memory.md)
  | tLdrPc (rd : LowReg) (imm8 : BitVec 8)
  | tStrReg (ro rb rd : LowReg)
  | tStrbReg (ro rb rd : LowReg)
  | tLdrReg (ro rb rd : LowReg)
  | tLdrbReg (ro rb rd : LowReg)
  | tStrhReg (ro rb rd : LowReg)
  | tLdsbReg (ro rb rd : LowReg)
  | tLdrhReg (ro rb rd : LowReg)
  | tLdshReg (ro rb rd : LowReg)
  | tStrImm (offset5 : BitVec 5) (rb rd : LowReg)
  | tLdrImm (offset5 : BitVec 5) (rb rd : LowReg)
  | tStrbImm (offset5 : BitVec 5) (rb rd : LowReg)
  | tLdrbImm (offset5 : BitVec 5) (rb rd : LowReg)
  | tStrhImm (offset5 : BitVec 5) (rb rd : LowReg)
  | tLdrhImm (offset5 : BitVec 5) (rb rd : LowReg)
  | tStrSp (rd : LowReg) (imm8 : BitVec 8)
  | tLdrSp (rd : LowReg) (imm8 : BitVec 8)
  -- THUMB formats 12 and 13 (47_thumb_alu.md)
  | tAddPc (rd : LowReg) (imm8 : BitVec 8)
  | tAddSp (rd : LowReg) (imm8 : BitVec 8)
  | tAddSpImm (imm7 : BitVec 7)
  | tSubSpImm (imm7 : BitVec 7)
  -- THUMB formats 14 and 15 (48_thumb_memory.md)
  | tPush (r : Bool) (list : BitVec 8)
  | tPop (r : Bool) (list : BitVec 8)
  | tStmia (rb : LowReg) (list : BitVec 8)
  | tLdmia (rb : LowReg) (list : BitVec 8)
  -- THUMB undefined halfwords (49_thumb_branch.md R864)
  | tUndefDE (low8 : BitVec 8)
  | tUndefE8 (low11 : BitVec 11)
  | tUndefB1 (low8 : BitVec 8)
  | tUndefB2 (low9 : BitVec 9)
  | tUndefB6 (low9 : BitVec 9)
  | tUndefB8 (low10 : BitVec 10)
  | tUndefBE (low9 : BitVec 9)
  -- THUMB formats 17, 16, 18, 19 (49_thumb_branch.md)
  | tSwi (value8 : BitVec 8)
  | tBCond (c : Cond) (soffset8 : BitVec 8)
  | tB (offset11 : BitVec 11)
  | tBlFirst (offset11 : BitVec 11)
  | tBlSecond (offset11 : BitVec 11)
deriving DecidableEq, Repr

end Sys2Proof
end

