-- ==== Sys2Proof/WellFormed.lean ====
section
/-! DEFINITION. The operands each instruction admits. Nearly every field value is admitted; the checks below separate a
row of the opcode table from the rows that come before it in the resolution order (30_encoding.md R303, R326, R333). -/

namespace Sys2Proof

/-- A word or byte transfer that is not a T form: P = 1, or W = 0 (43_arm_single_transfer.md R550). -/
def transferFieldsOk (p w : Bool) : Bool := p || !w

/-- The condition of a THUMB conditional branch: 1110 is undefined and 1111 is SWI (49_thumb_branch.md R850). -/
def branchCondOk (c : Cond) : Bool := c != .al && c != .nv

/-- Words with bits 27:25 = 000, bit 7 = 1 and bit 4 = 1 that no class gives a meaning (30_encoding.md R326 a, b). The
payload is bits 24:8, 6:5 and 3:0 of the word; `x` is bits 24:0. -/
def unallocMulFieldsOk (bits24to8 : BitVec 17) (bits6to5 : BitVec 2) (bits3to0 : BitVec 4) : Bool :=
  let x : BitVec 25 := bits24to8 ++ 1#1 ++ bits6to5 ++ 1#1 ++ bits3to0
  if bits6to5 = 0#2 then
    let swap := x.extractLsb' 23 2 = 0b10#2 ∧ x.extractLsb' 20 2 = 0b00#2 ∧ x.extractLsb' 8 4 = 0#4
    let multiply := x.extractLsb' 22 3 = 0b000#3
    let multiplyLong := x.extractLsb' 23 2 = 0b01#2
    !(decide swap || decide multiply || decide multiplyLong)
  else
    -- the signed stores: L = 0 and S = 1
    x.extractLsb' 20 1 = 0#1 && x.extractLsb' 6 1 = 1#1

/-- TST, TEQ, CMP or CMN with S = 0 that is not BX, MRS or MSR and not in the space above (30_encoding.md R326 c). -/
def unallocPsrFieldsOk (bit25 : Bool) (bits22to21 : BitVec 2) (bits19to0 : BitVec 20) : Bool :=
  let msr := bits22to21.extractLsb' 0 1 = 1#1
  if bit25 then
    !(decide (msr ∧ bits19to0.extractLsb' 12 4 = 0xF#4))
  else
    let mulSpace := bits19to0.extractLsb' 7 1 = 1#1 ∧ bits19to0.extractLsb' 4 1 = 1#1
    let bx := bits22to21 = 0b01#2 ∧ bits19to0.extractLsb' 4 16 = 0xFFF1#16
    let mrs := ¬msr ∧ bits19to0.extractLsb' 16 4 = 0xF#4 ∧ bits19to0.extractLsb' 0 12 = 0#12
    let msrReg := msr ∧ bits19to0.extractLsb' 4 12 = 0xF00#12
    !(decide mulSpace || decide bx || decide mrs || decide msrReg)

/-- An instruction whose operands its encoding admits. -/
def Instr.wellFormed : Instr → Bool
  | .ldr _ p _ w _ _ _ | .ldrb _ p _ w _ _ _ | .str _ p _ w _ _ _ | .strb _ p _ w _ _ _ => transferFieldsOk p w
  | .unallocMulSpace _ x y z => unallocMulFieldsOk x y z
  | .unallocPsrSpace _ x y z => unallocPsrFieldsOk x y z
  | .tBCond c _ => branchCondOk c
  | _ => true

end Sys2Proof
end

