-- ==== Sys2Proof/Decode.lean ====
section
/-! DEFINITION. The decoder and the encoder (30_encoding.md). Decoding is total on words and halfwords: R303 and R333 select
some row for each of them. A decoder of bytes stands over both; it rejects, by name, only bytes that end too early. The
tests follow the resolution order of R303, arranged by bits 27:25 (ARM) and by the leading bits (THUMB). -/

namespace Sys2Proof

/-! ## Fields -/

/-- The code of a condition (R301). -/
def Cond.code : Cond → BitVec 4
  | .eq => 0x0#4 | .ne => 0x1#4 | .cs => 0x2#4 | .cc => 0x3#4 | .mi => 0x4#4 | .pl => 0x5#4 | .vs => 0x6#4 | .vc => 0x7#4
  | .hi => 0x8#4 | .ls => 0x9#4 | .ge => 0xA#4 | .lt => 0xB#4 | .gt => 0xC#4 | .le => 0xD#4 | .al => 0xE#4 | .nv => 0xF#4

/-- The condition of a code (R301). -/
def Cond.ofCode (b : BitVec 4) : Cond :=
  match b.toNat with
  | 0x0 => .eq | 0x1 => .ne | 0x2 => .cs | 0x3 => .cc | 0x4 => .mi | 0x5 => .pl | 0x6 => .vs | 0x7 => .vc
  | 0x8 => .hi | 0x9 => .ls | 0xA => .ge | 0xB => .lt | 0xC => .gt | 0xD => .le | 0xE => .al | _ => .nv

/-- The code of a shift type (R306). -/
def ShiftType.code : ShiftType → BitVec 2
  | .lsl => 0b00#2 | .lsr => 0b01#2 | .asr => 0b10#2 | .ror => 0b11#2

/-- The shift type of a code (R306). -/
def ShiftType.ofCode (b : BitVec 2) : ShiftType :=
  match b.toNat with
  | 0 => .lsl | 1 => .lsr | 2 => .asr | _ => .ror

/-- Bit `i` of a word as a truth value. -/
def bit {n : Nat} (w : BitVec n) (i : Nat) : Bool := w.getLsbD i

/-- A truth value as one bit. -/
def flag (b : Bool) : BitVec 1 := if b then 1#1 else 0#1

/-- Bits 3:0, 11:8, 15:12 and 19:16 of an ARM word. -/
def nib0 (w : Word) : Reg := w.extractLsb' 0 4
def nib8 (w : Word) : Reg := w.extractLsb' 8 4
def nib12 (w : Word) : Reg := w.extractLsb' 12 4
def nib16 (w : Word) : Reg := w.extractLsb' 16 4

/-! ## ARM -/

/-- The second operand of class 10 (R302): rotated immediate, shift by an immediate, shift by a register. -/
def decodeOperand2 (w : Word) : Operand2 :=
  if bit w 25 then .imm (w.extractLsb' 8 4) (w.extractLsb' 0 8)
  else if bit w 4 then .shiftReg (nib8 w) (.ofCode (w.extractLsb' 5 2)) (nib0 w)
  else .shiftImm (w.extractLsb' 7 5) (.ofCode (w.extractLsb' 5 2)) (nib0 w)

/-- Class 10, by the opcode field 24:21 (R304). The compares are decoded here for S = 1 only. -/
def decodeDataProc (c : Cond) (w : Word) : Instr :=
  let sf := bit w 20
  let rn := nib16 w
  let rd := nib12 w
  let op2 := decodeOperand2 w
  match (w.extractLsb' 21 4).toNat with
  | 0 => .and c sf rn rd op2
  | 1 => .eor c sf rn rd op2
  | 2 => .sub c sf rn rd op2
  | 3 => .rsb c sf rn rd op2
  | 4 => .add c sf rn rd op2
  | 5 => .adc c sf rn rd op2
  | 6 => .sbc c sf rn rd op2
  | 7 => .rsc c sf rn rd op2
  | 8 => .tst c rn rd op2
  | 9 => .teq c rn rd op2
  | 10 => .cmp c rn rd op2
  | 11 => .cmn c rn rd op2
  | 12 => .orr c sf rn rd op2
  | 13 => .mov c sf rn rd op2
  | 14 => .bic c sf rn rd op2
  | _ => .mvn c sf rn rd op2

/-- The offset of class 8 (R309). -/
def decodeHalfOffset (w : Word) : HalfOffset :=
  if bit w 22 then .imm (nib8 w ++ nib0 w) else .reg (nib8 w) (nib0 w)

/-- Bits 27:25 = 000, bit 7 = 1, bit 4 = 1: swap, multiply, multiply long, halfword and signed transfer (classes 6, 7a, 7b,
8), and the words no class gives a meaning (R326 a, b). -/
def decodeMulSpace (c : Cond) (w : Word) : Instr :=
  let rn := nib16 w
  let rd := nib12 w
  let p := bit w 24
  let u := bit w 23
  let wb := bit w 21
  let load := bit w 20
  let sf := bit w 20
  let unalloc := Instr.unallocMulSpace c (w.extractLsb' 8 17) (w.extractLsb' 5 2) (nib0 w)
  match (w.extractLsb' 5 2).toNat with
  | 0 =>
    if w.extractLsb' 23 2 = 0b10#2 ∧ w.extractLsb' 20 2 = 0b00#2 ∧ w.extractLsb' 8 4 = 0#4 then
      if bit w 22 then .swpb c rn rd (nib0 w) else .swp c rn rd (nib0 w)
    else if w.extractLsb' 22 3 = 0b000#3 then
      if bit w 21 then .mla c sf rn rd (nib8 w) (nib0 w) else .mul c sf rn rd (nib8 w) (nib0 w)
    else if w.extractLsb' 23 2 = 0b01#2 then
      match (w.extractLsb' 21 2).toNat with
      | 0 => .umull c sf rn rd (nib8 w) (nib0 w)
      | 1 => .umlal c sf rn rd (nib8 w) (nib0 w)
      | 2 => .smull c sf rn rd (nib8 w) (nib0 w)
      | _ => .smlal c sf rn rd (nib8 w) (nib0 w)
    else unalloc
  | 1 => if load then .ldrh c p u wb rn rd (decodeHalfOffset w) else .strh c p u wb rn rd (decodeHalfOffset w)
  | 2 => if load then .ldrsb c p u wb rn rd (decodeHalfOffset w) else unalloc
  | _ => if load then .ldrsh c p u wb rn rd (decodeHalfOffset w) else unalloc

/-- Bits 27:26 = 00, 24:23 = 10, bit 20 = 0: BX, MRS, MSR (classes 1, 9a, 9b, 9c), and the words no class gives a meaning
(R326 c). -/
def decodePsrSpace (c : Cond) (w : Word) : Instr :=
  let spsr := bit w 22
  let unalloc := Instr.unallocPsrSpace c (bit w 25) (w.extractLsb' 21 2) (w.extractLsb' 0 20)
  if bit w 25 then
    if w.extractLsb' 21 1 = 1#1 ∧ w.extractLsb' 12 4 = 0xF#4 then
      if spsr then .msrSpsrImm c (nib16 w) (nib8 w) (w.extractLsb' 0 8)
      else .msrCpsrImm c (nib16 w) (nib8 w) (w.extractLsb' 0 8)
    else unalloc
  else if w.extractLsb' 21 2 = 0b01#2 ∧ w.extractLsb' 4 16 = 0xFFF1#16 then .bx c (nib0 w)
  else if w.extractLsb' 21 1 = 0#1 ∧ w.extractLsb' 16 4 = 0xF#4 ∧ w.extractLsb' 0 12 = 0#12 then
    if spsr then .mrsSpsr c (nib12 w) else .mrsCpsr c (nib12 w)
  else if w.extractLsb' 21 1 = 1#1 ∧ w.extractLsb' 4 12 = 0xF00#12 then
    if spsr then .msrSpsrReg c (nib16 w) (nib0 w) else .msrCpsrReg c (nib16 w) (nib0 w)
  else unalloc

/-- Bits 27:26 = 00. -/
def decodeDataSpace (c : Cond) (w : Word) : Instr :=
  if bit w 25 = false ∧ bit w 7 ∧ bit w 4 then decodeMulSpace c w
  else if w.extractLsb' 23 2 = 0b10#2 ∧ bit w 20 = false then decodePsrSpace c w
  else decodeDataProc c w

/-- Class 5: LDR, LDRB, STR, STRB, and with P = 0, W = 1 their T forms (R302, R555). -/
def decodeTransfer (c : Cond) (w : Word) : Instr :=
  let p := bit w 24
  let u := bit w 23
  let byte := bit w 22
  let wb := bit w 21
  let rn := nib16 w
  let rd := nib12 w
  let off : Offset :=
    if bit w 25 then .reg (w.extractLsb' 7 5) (.ofCode (w.extractLsb' 5 2)) (nib0 w) else .imm (w.extractLsb' 0 12)
  if p = false ∧ wb then
    match bit w 20, byte with
    | true, false => .ldrt c u rn rd off
    | false, false => .strt c u rn rd off
    | true, true => .ldrbt c u rn rd off
    | false, true => .strbt c u rn rd off
  else
    match bit w 20, byte with
    | true, false => .ldr c p u wb rn rd off
    | true, true => .ldrb c p u wb rn rd off
    | false, false => .str c p u wb rn rd off
    | false, true => .strb c p u wb rn rd off

/-- Class 2: LDM and STM, by the bits L, S, P, U (42_arm_block_transfer.md). -/
def decodeBlock (c : Cond) (w : Word) : Instr :=
  let wb := bit w 21
  let rn := nib16 w
  let list := w.extractLsb' 0 16
  match bit w 20, bit w 22, bit w 24, bit w 23 with
  | false, false, false, false => .stmda c wb rn list
  | false, false, false, true => .stmia c wb rn list
  | false, false, true, false => .stmdb c wb rn list
  | false, false, true, true => .stmib c wb rn list
  | false, true, false, false => .stmdaUser c wb rn list
  | false, true, false, true => .stmiaUser c wb rn list
  | false, true, true, false => .stmdbUser c wb rn list
  | false, true, true, true => .stmibUser c wb rn list
  | true, false, false, false => .ldmda c wb rn list
  | true, false, false, true => .ldmia c wb rn list
  | true, false, true, false => .ldmdb c wb rn list
  | true, false, true, true => .ldmib c wb rn list
  | true, true, false, false => .ldmdaUser c wb rn list
  | true, true, false, true => .ldmiaUser c wb rn list
  | true, true, true, false => .ldmdbUser c wb rn list
  | true, true, true, true => .ldmibUser c wb rn list

/-- The instruction of an ARM word (R303). -/
def decodeArm (w : Word) : Instr :=
  let c := Cond.ofCode (w.extractLsb' 28 4)
  match (w.extractLsb' 25 3).toNat with
  | 0b000 => decodeDataSpace c w
  | 0b001 => decodeDataSpace c w
  | 0b010 => decodeTransfer c w
  | 0b011 => if bit w 4 then .undefined c (w.extractLsb' 5 20) (nib0 w) else decodeTransfer c w
  | 0b100 => decodeBlock c w
  | 0b101 => if bit w 24 then .bl c (w.extractLsb' 0 24) else .b c (w.extractLsb' 0 24)
  | 0b110 => .ldcStc c (w.extractLsb' 0 25)
  | _ => if bit w 24 then .swi c (w.extractLsb' 0 24) else .cdpMcrMrc c (w.extractLsb' 0 24)

/-! ## THUMB -/

/-- Bits 2:0, 5:3, 8:6 and 10:8 of a halfword. -/
def low0 (h : Half) : LowReg := h.extractLsb' 0 3
def low3 (h : Half) : LowReg := h.extractLsb' 3 3
def low6 (h : Half) : LowReg := h.extractLsb' 6 3
def low8 (h : Half) : LowReg := h.extractLsb' 8 3

/-- Format 4, by the field 9:6 (R331). -/
def decodeThumbAlu (h : Half) : Instr :=
  match (h.extractLsb' 6 4).toNat with
  | 0 => .tAnd (low3 h) (low0 h)
  | 1 => .tEor (low3 h) (low0 h)
  | 2 => .tLslReg (low3 h) (low0 h)
  | 3 => .tLsrReg (low3 h) (low0 h)
  | 4 => .tAsrReg (low3 h) (low0 h)
  | 5 => .tAdc (low3 h) (low0 h)
  | 6 => .tSbc (low3 h) (low0 h)
  | 7 => .tRorReg (low3 h) (low0 h)
  | 8 => .tTst (low3 h) (low0 h)
  | 9 => .tNeg (low3 h) (low0 h)
  | 10 => .tCmpReg (low3 h) (low0 h)
  | 11 => .tCmn (low3 h) (low0 h)
  | 12 => .tOrr (low3 h) (low0 h)
  | 13 => .tMul (low3 h) (low0 h)
  | 14 => .tBic (low3 h) (low0 h)
  | _ => .tMvn (low3 h) (low0 h)

/-- Format 5: the source is H2 with bits 5:3, the destination H1 with bits 2:0. -/
def decodeThumbHi (h : Half) : Instr :=
  let s : Reg := h.extractLsb' 3 4
  let d : Reg := h.extractLsb' 7 1 ++ low0 h
  match (h.extractLsb' 8 2).toNat with
  | 0 => .tAddHi s d
  | 1 => .tCmpHi s d
  | 2 => .tMovHi s d
  | _ => .tBx s d

/-- Bits 15:13 = 000: formats 1 and 2. -/
def decodeThumb000 (h : Half) : Instr :=
  match (h.extractLsb' 11 2).toNat with
  | 0 => .tLslImm (h.extractLsb' 6 5) (low3 h) (low0 h)
  | 1 => .tLsrImm (h.extractLsb' 6 5) (low3 h) (low0 h)
  | 2 => .tAsrImm (h.extractLsb' 6 5) (low3 h) (low0 h)
  | _ =>
    match (h.extractLsb' 9 2).toNat with
    | 0 => .tAddReg (low6 h) (low3 h) (low0 h)
    | 1 => .tSubReg (low6 h) (low3 h) (low0 h)
    | 2 => .tAddImm3 (h.extractLsb' 6 3) (low3 h) (low0 h)
    | _ => .tSubImm3 (h.extractLsb' 6 3) (low3 h) (low0 h)

/-- Bits 15:13 = 001: format 3. -/
def decodeThumb001 (h : Half) : Instr :=
  match (h.extractLsb' 11 2).toNat with
  | 0 => .tMovImm8 (low8 h) (h.extractLsb' 0 8)
  | 1 => .tCmpImm8 (low8 h) (h.extractLsb' 0 8)
  | 2 => .tAddImm8 (low8 h) (h.extractLsb' 0 8)
  | _ => .tSubImm8 (low8 h) (h.extractLsb' 0 8)

/-- Bits 15:13 = 010: formats 4 to 8. -/
def decodeThumb010 (h : Half) : Instr :=
  if bit h 12 then
    match (h.extractLsb' 9 3).toNat with
    | 0b000 => .tStrReg (low6 h) (low3 h) (low0 h)
    | 0b010 => .tStrbReg (low6 h) (low3 h) (low0 h)
    | 0b100 => .tLdrReg (low6 h) (low3 h) (low0 h)
    | 0b110 => .tLdrbReg (low6 h) (low3 h) (low0 h)
    | 0b001 => .tStrhReg (low6 h) (low3 h) (low0 h)
    | 0b011 => .tLdsbReg (low6 h) (low3 h) (low0 h)
    | 0b101 => .tLdrhReg (low6 h) (low3 h) (low0 h)
    | _ => .tLdshReg (low6 h) (low3 h) (low0 h)
  else if bit h 11 then .tLdrPc (low8 h) (h.extractLsb' 0 8)
  else if bit h 10 then decodeThumbHi h
  else decodeThumbAlu h

/-- Bits 15:13 = 011: format 9. -/
def decodeThumb011 (h : Half) : Instr :=
  match (h.extractLsb' 11 2).toNat with
  | 0b00 => .tStrImm (h.extractLsb' 6 5) (low3 h) (low0 h)
  | 0b01 => .tLdrImm (h.extractLsb' 6 5) (low3 h) (low0 h)
  | 0b10 => .tStrbImm (h.extractLsb' 6 5) (low3 h) (low0 h)
  | _ => .tLdrbImm (h.extractLsb' 6 5) (low3 h) (low0 h)

/-- Bits 15:13 = 100: formats 10 and 11. -/
def decodeThumb100 (h : Half) : Instr :=
  match (h.extractLsb' 11 2).toNat with
  | 0b00 => .tStrhImm (h.extractLsb' 6 5) (low3 h) (low0 h)
  | 0b01 => .tLdrhImm (h.extractLsb' 6 5) (low3 h) (low0 h)
  | 0b10 => .tStrSp (low8 h) (h.extractLsb' 0 8)
  | _ => .tLdrSp (low8 h) (h.extractLsb' 0 8)

/-- Bits 15:12 = 1011: formats 13 and 14, and undefined halfwords (R334), by bits 11:8. -/
def decodeThumb1011 (h : Half) : Instr :=
  match (h.extractLsb' 8 4).toNat with
  | 0x0 => if bit h 7 then .tSubSpImm (h.extractLsb' 0 7) else .tAddSpImm (h.extractLsb' 0 7)
  | 0x1 => .tUndefB1 (h.extractLsb' 0 8)
  | 0x2 | 0x3 => .tUndefB2 (h.extractLsb' 0 9)
  | 0x4 | 0x5 => .tPush (bit h 8) (h.extractLsb' 0 8)
  | 0x6 | 0x7 => .tUndefB6 (h.extractLsb' 0 9)
  | 0x8 | 0x9 | 0xA | 0xB => .tUndefB8 (h.extractLsb' 0 10)
  | 0xC | 0xD => .tPop (bit h 8) (h.extractLsb' 0 8)
  | _ => .tUndefBE (h.extractLsb' 0 9)

/-- Bits 15:13 = 101: formats 12 to 14. -/
def decodeThumb101 (h : Half) : Instr :=
  if bit h 12 then decodeThumb1011 h
  else if bit h 11 then .tAddSp (low8 h) (h.extractLsb' 0 8)
  else .tAddPc (low8 h) (h.extractLsb' 0 8)

/-- Bits 15:13 = 110: formats 15 to 17. Condition 1111 is SWI and 1110 is undefined (R333, R334). -/
def decodeThumb110 (h : Half) : Instr :=
  if bit h 12 then
    match Cond.ofCode (h.extractLsb' 8 4) with
    | .nv => .tSwi (h.extractLsb' 0 8)
    | .al => .tUndefDE (h.extractLsb' 0 8)
    | c => .tBCond c (h.extractLsb' 0 8)
  else if bit h 11 then .tLdmia (low8 h) (h.extractLsb' 0 8)
  else .tStmia (low8 h) (h.extractLsb' 0 8)

/-- Bits 15:13 = 111: formats 18 and 19, and undefined halfwords. -/
def decodeThumb111 (h : Half) : Instr :=
  match (h.extractLsb' 11 2).toNat with
  | 0b00 => .tB (h.extractLsb' 0 11)
  | 0b01 => .tUndefE8 (h.extractLsb' 0 11)
  | 0b10 => .tBlFirst (h.extractLsb' 0 11)
  | _ => .tBlSecond (h.extractLsb' 0 11)

/-- The instruction of a THUMB halfword (R330, R333, R334). -/
def decodeThumb (h : Half) : Instr :=
  match (h.extractLsb' 13 3).toNat with
  | 0b000 => decodeThumb000 h
  | 0b001 => decodeThumb001 h
  | 0b010 => decodeThumb010 h
  | 0b011 => decodeThumb011 h
  | 0b100 => decodeThumb100 h
  | 0b101 => decodeThumb101 h
  | 0b110 => decodeThumb110 h
  | _ => decodeThumb111 h

/-! ## Bytes -/

/-- Why bytes decode to no instruction. -/
inductive DecodeError where
  /-- Fewer bytes than the state's instruction length (R300). -/
  | truncated
deriving DecidableEq, Repr

/-- The instruction at the front of a list of bytes, little-endian (20_memory.md R208), and the bytes after it; `thumb` is
CPSR.T (R300). -/
def decode (thumb : Bool) (bytes : List Byte) : Except DecodeError (Instr × List Byte) :=
  match thumb, bytes with
  | true, b0 :: b1 :: rest => .ok (decodeThumb (b1 ++ b0), rest)
  | false, b0 :: b1 :: b2 :: b3 :: rest => .ok (decodeArm (b3 ++ b2 ++ b1 ++ b0), rest)
  | _, _ => .error .truncated

/-- The little-endian bytes of `w`'s low `8 * k` bits. -/
def layBytes (w : Nat) : Nat → List Byte
  | 0 => []
  | k + 1 => BitVec.ofNat 8 w :: layBytes (w / 256) k

/-- The instruction the decoder reads from an instruction whose bits are `w`, as spec/opcode_table.json numbers them. A row
of 16 bits or fewer is a THUMB halfword, a longer one an ARM word. -/
def decodeTableWord (nbits w : Nat) : Option Instr :=
  let thumb := decide (nbits ≤ 16)
  match decode thumb (layBytes w (if thumb then 2 else 4)) with
  | .ok (i, _) => some i
  | .error _ => none

/-! ## The encoder -/

/-- The code of an instruction: a word or a halfword (R300). -/
inductive Code where
  | arm (w : Word)
  | thumb (h : Half)
deriving DecidableEq, Repr

/-- Bit 25 and bits 11:0 of a second operand (R302). -/
def operand2Bit25 : Operand2 → BitVec 1
  | .imm _ _ => 1#1
  | .shiftImm _ _ _ | .shiftReg _ _ _ => 0#1

def operand2Bits : Operand2 → BitVec 12
  | .imm rot imm8 => rot ++ imm8
  | .shiftImm a t rm => a ++ t.code ++ 0#1 ++ rm
  | .shiftReg rs t rm => rs ++ 0#1 ++ t.code ++ 1#1 ++ rm

/-- A data-processing word (R302): condition, opcode, S, registers and the second operand. -/
def armDataProc (c : Cond) (op : BitVec 4) (sf : Bool) (rn rd : Reg) (op2 : Operand2) : Word :=
  c.code ++ 0b00#2 ++ operand2Bit25 op2 ++ op ++ flag sf ++ rn ++ rd ++ operand2Bits op2

/-- Bit 25 and bits 11:0 of a word or byte transfer's offset (R308). -/
def offsetBit25 : Offset → BitVec 1
  | .imm _ => 0#1
  | .reg _ _ _ => 1#1

def offsetBits : Offset → BitVec 12
  | .imm o => o
  | .reg a t rm => a ++ t.code ++ 0#1 ++ rm

/-- A word or byte transfer (R302). -/
def armTransfer (c : Cond) (p u byte w load : Bool) (rn rd : Reg) (off : Offset) : Word :=
  c.code ++ 0b01#2 ++ offsetBit25 off ++ flag p ++ flag u ++ flag byte ++ flag w ++ flag load ++ rn ++ rd ++ offsetBits off

/-- A halfword or signed transfer with the field SH (R302, R309). -/
def armHalf (c : Cond) (p u w load : Bool) (sh : BitVec 2) (rn rd : Reg) (off : HalfOffset) : Word :=
  match off with
  | .imm o =>
    c.code ++ 0b000#3 ++ flag p ++ flag u ++ 1#1 ++ flag w ++ flag load ++ rn ++ rd ++ o.extractLsb' 4 4 ++ 1#1 ++ sh ++
      1#1 ++ o.extractLsb' 0 4
  | .reg g rm =>
    c.code ++ 0b000#3 ++ flag p ++ flag u ++ 0#1 ++ flag w ++ flag load ++ rn ++ rd ++ g ++ 1#1 ++ sh ++ 1#1 ++ rm

/-- A block transfer (R302). -/
def armBlock (c : Cond) (p u s w load : Bool) (rn : Reg) (list : BitVec 16) : Word :=
  c.code ++ 0b100#3 ++ flag p ++ flag u ++ flag s ++ flag w ++ flag load ++ rn ++ list

/-- A multiply or multiply long; `op` is bits 27:21 (R302). -/
def armMultiply (c : Cond) (op : BitVec 7) (sf : Bool) (hi lo rs rm : Reg) : Word :=
  c.code ++ op ++ flag sf ++ hi ++ lo ++ rs ++ 0b1001#4 ++ rm

/-- The code of an instruction, from the same tables. -/
def encode : Instr → Code
  | .bx c rn => .arm (c.code ++ 0x12FFF1#24 ++ rn)
  | .stmda c w rn list => .arm (armBlock c false false false w false rn list)
  | .stmia c w rn list => .arm (armBlock c false true false w false rn list)
  | .stmdb c w rn list => .arm (armBlock c true false false w false rn list)
  | .stmib c w rn list => .arm (armBlock c true true false w false rn list)
  | .stmdaUser c w rn list => .arm (armBlock c false false true w false rn list)
  | .stmiaUser c w rn list => .arm (armBlock c false true true w false rn list)
  | .stmdbUser c w rn list => .arm (armBlock c true false true w false rn list)
  | .stmibUser c w rn list => .arm (armBlock c true true true w false rn list)
  | .ldmda c w rn list => .arm (armBlock c false false false w true rn list)
  | .ldmia c w rn list => .arm (armBlock c false true false w true rn list)
  | .ldmdb c w rn list => .arm (armBlock c true false false w true rn list)
  | .ldmib c w rn list => .arm (armBlock c true true false w true rn list)
  | .ldmdaUser c w rn list => .arm (armBlock c false false true w true rn list)
  | .ldmiaUser c w rn list => .arm (armBlock c false true true w true rn list)
  | .ldmdbUser c w rn list => .arm (armBlock c true false true w true rn list)
  | .ldmibUser c w rn list => .arm (armBlock c true true true w true rn list)
  | .b c o => .arm (c.code ++ 0b1010#4 ++ o)
  | .bl c o => .arm (c.code ++ 0b1011#4 ++ o)
  | .swi c o => .arm (c.code ++ 0b1111#4 ++ o)
  | .undefined c x y => .arm (c.code ++ 0b011#3 ++ x ++ 1#1 ++ y)
  | .ldcStc c x => .arm (c.code ++ 0b110#3 ++ x)
  | .cdpMcrMrc c x => .arm (c.code ++ 0b1110#4 ++ x)
  | .ldrt c u rn rd o => .arm (armTransfer c false u false true true rn rd o)
  | .strt c u rn rd o => .arm (armTransfer c false u false true false rn rd o)
  | .ldrbt c u rn rd o => .arm (armTransfer c false u true true true rn rd o)
  | .strbt c u rn rd o => .arm (armTransfer c false u true true false rn rd o)
  | .ldr c p u w rn rd o => .arm (armTransfer c p u false w true rn rd o)
  | .ldrb c p u w rn rd o => .arm (armTransfer c p u true w true rn rd o)
  | .str c p u w rn rd o => .arm (armTransfer c p u false w false rn rd o)
  | .strb c p u w rn rd o => .arm (armTransfer c p u true w false rn rd o)
  | .swp c rn rd rm => .arm (c.code ++ 0b00010000#8 ++ rn ++ rd ++ 0x09#8 ++ rm)
  | .swpb c rn rd rm => .arm (c.code ++ 0b00010100#8 ++ rn ++ rd ++ 0x09#8 ++ rm)
  | .mul c sf rd rn rs rm => .arm (armMultiply c 0b0000000#7 sf rd rn rs rm)
  | .mla c sf rd rn rs rm => .arm (armMultiply c 0b0000001#7 sf rd rn rs rm)
  | .umull c sf hi lo rs rm => .arm (armMultiply c 0b0000100#7 sf hi lo rs rm)
  | .umlal c sf hi lo rs rm => .arm (armMultiply c 0b0000101#7 sf hi lo rs rm)
  | .smull c sf hi lo rs rm => .arm (armMultiply c 0b0000110#7 sf hi lo rs rm)
  | .smlal c sf hi lo rs rm => .arm (armMultiply c 0b0000111#7 sf hi lo rs rm)
  | .ldrh c p u w rn rd o => .arm (armHalf c p u w true 0b01#2 rn rd o)
  | .strh c p u w rn rd o => .arm (armHalf c p u w false 0b01#2 rn rd o)
  | .ldrsb c p u w rn rd o => .arm (armHalf c p u w true 0b10#2 rn rd o)
  | .ldrsh c p u w rn rd o => .arm (armHalf c p u w true 0b11#2 rn rd o)
  | .mrsCpsr c rd => .arm (c.code ++ 0b00010000#8 ++ 0xF#4 ++ rd ++ 0x000#12)
  | .mrsSpsr c rd => .arm (c.code ++ 0b00010100#8 ++ 0xF#4 ++ rd ++ 0x000#12)
  | .msrCpsrReg c m rm => .arm (c.code ++ 0b00010010#8 ++ m ++ 0xF00#12 ++ rm)
  | .msrSpsrReg c m rm => .arm (c.code ++ 0b00010110#8 ++ m ++ 0xF00#12 ++ rm)
  | .msrCpsrImm c m rot i => .arm (c.code ++ 0b00110010#8 ++ m ++ 0xF#4 ++ rot ++ i)
  | .msrSpsrImm c m rot i => .arm (c.code ++ 0b00110110#8 ++ m ++ 0xF#4 ++ rot ++ i)
  | .unallocMulSpace c x y z => .arm (c.code ++ 0b000#3 ++ x ++ 1#1 ++ y ++ 1#1 ++ z)
  | .unallocPsrSpace c i x y => .arm (c.code ++ 0b00#2 ++ flag i ++ 0b10#2 ++ x ++ 0#1 ++ y)
  | .and c sf rn rd o => .arm (armDataProc c 0#4 sf rn rd o)
  | .eor c sf rn rd o => .arm (armDataProc c 1#4 sf rn rd o)
  | .sub c sf rn rd o => .arm (armDataProc c 2#4 sf rn rd o)
  | .rsb c sf rn rd o => .arm (armDataProc c 3#4 sf rn rd o)
  | .add c sf rn rd o => .arm (armDataProc c 4#4 sf rn rd o)
  | .adc c sf rn rd o => .arm (armDataProc c 5#4 sf rn rd o)
  | .sbc c sf rn rd o => .arm (armDataProc c 6#4 sf rn rd o)
  | .rsc c sf rn rd o => .arm (armDataProc c 7#4 sf rn rd o)
  | .tst c rn rd o => .arm (armDataProc c 8#4 true rn rd o)
  | .teq c rn rd o => .arm (armDataProc c 9#4 true rn rd o)
  | .cmp c rn rd o => .arm (armDataProc c 10#4 true rn rd o)
  | .cmn c rn rd o => .arm (armDataProc c 11#4 true rn rd o)
  | .orr c sf rn rd o => .arm (armDataProc c 12#4 sf rn rd o)
  | .mov c sf rn rd o => .arm (armDataProc c 13#4 sf rn rd o)
  | .bic c sf rn rd o => .arm (armDataProc c 14#4 sf rn rd o)
  | .mvn c sf rn rd o => .arm (armDataProc c 15#4 sf rn rd o)
  | .tLslImm o rs rd => .thumb (0b00000#5 ++ o ++ rs ++ rd)
  | .tLsrImm o rs rd => .thumb (0b00001#5 ++ o ++ rs ++ rd)
  | .tAsrImm o rs rd => .thumb (0b00010#5 ++ o ++ rs ++ rd)
  | .tAddReg x rs rd => .thumb (0b0001100#7 ++ x ++ rs ++ rd)
  | .tSubReg x rs rd => .thumb (0b0001101#7 ++ x ++ rs ++ rd)
  | .tAddImm3 x rs rd => .thumb (0b0001110#7 ++ x ++ rs ++ rd)
  | .tSubImm3 x rs rd => .thumb (0b0001111#7 ++ x ++ rs ++ rd)
  | .tMovImm8 rd i => .thumb (0b00100#5 ++ rd ++ i)
  | .tCmpImm8 rd i => .thumb (0b00101#5 ++ rd ++ i)
  | .tAddImm8 rd i => .thumb (0b00110#5 ++ rd ++ i)
  | .tSubImm8 rd i => .thumb (0b00111#5 ++ rd ++ i)
  | .tAnd rs rd => .thumb (0b0100000000#10 ++ rs ++ rd)
  | .tEor rs rd => .thumb (0b0100000001#10 ++ rs ++ rd)
  | .tLslReg rs rd => .thumb (0b0100000010#10 ++ rs ++ rd)
  | .tLsrReg rs rd => .thumb (0b0100000011#10 ++ rs ++ rd)
  | .tAsrReg rs rd => .thumb (0b0100000100#10 ++ rs ++ rd)
  | .tAdc rs rd => .thumb (0b0100000101#10 ++ rs ++ rd)
  | .tSbc rs rd => .thumb (0b0100000110#10 ++ rs ++ rd)
  | .tRorReg rs rd => .thumb (0b0100000111#10 ++ rs ++ rd)
  | .tTst rs rd => .thumb (0b0100001000#10 ++ rs ++ rd)
  | .tNeg rs rd => .thumb (0b0100001001#10 ++ rs ++ rd)
  | .tCmpReg rs rd => .thumb (0b0100001010#10 ++ rs ++ rd)
  | .tCmn rs rd => .thumb (0b0100001011#10 ++ rs ++ rd)
  | .tOrr rs rd => .thumb (0b0100001100#10 ++ rs ++ rd)
  | .tMul rs rd => .thumb (0b0100001101#10 ++ rs ++ rd)
  | .tBic rs rd => .thumb (0b0100001110#10 ++ rs ++ rd)
  | .tMvn rs rd => .thumb (0b0100001111#10 ++ rs ++ rd)
  | .tAddHi s d => .thumb (0b01000100#8 ++ d.extractLsb' 3 1 ++ s ++ d.extractLsb' 0 3)
  | .tCmpHi s d => .thumb (0b01000101#8 ++ d.extractLsb' 3 1 ++ s ++ d.extractLsb' 0 3)
  | .tMovHi s d => .thumb (0b01000110#8 ++ d.extractLsb' 3 1 ++ s ++ d.extractLsb' 0 3)
  | .tBx s d => .thumb (0b01000111#8 ++ d.extractLsb' 3 1 ++ s ++ d.extractLsb' 0 3)
  | .tLdrPc rd i => .thumb (0b01001#5 ++ rd ++ i)
  | .tStrReg ro rb rd => .thumb (0b0101000#7 ++ ro ++ rb ++ rd)
  | .tStrbReg ro rb rd => .thumb (0b0101010#7 ++ ro ++ rb ++ rd)
  | .tLdrReg ro rb rd => .thumb (0b0101100#7 ++ ro ++ rb ++ rd)
  | .tLdrbReg ro rb rd => .thumb (0b0101110#7 ++ ro ++ rb ++ rd)
  | .tStrhReg ro rb rd => .thumb (0b0101001#7 ++ ro ++ rb ++ rd)
  | .tLdsbReg ro rb rd => .thumb (0b0101011#7 ++ ro ++ rb ++ rd)
  | .tLdrhReg ro rb rd => .thumb (0b0101101#7 ++ ro ++ rb ++ rd)
  | .tLdshReg ro rb rd => .thumb (0b0101111#7 ++ ro ++ rb ++ rd)
  | .tStrImm o rb rd => .thumb (0b01100#5 ++ o ++ rb ++ rd)
  | .tLdrImm o rb rd => .thumb (0b01101#5 ++ o ++ rb ++ rd)
  | .tStrbImm o rb rd => .thumb (0b01110#5 ++ o ++ rb ++ rd)
  | .tLdrbImm o rb rd => .thumb (0b01111#5 ++ o ++ rb ++ rd)
  | .tStrhImm o rb rd => .thumb (0b10000#5 ++ o ++ rb ++ rd)
  | .tLdrhImm o rb rd => .thumb (0b10001#5 ++ o ++ rb ++ rd)
  | .tStrSp rd i => .thumb (0b10010#5 ++ rd ++ i)
  | .tLdrSp rd i => .thumb (0b10011#5 ++ rd ++ i)
  | .tAddPc rd i => .thumb (0b10100#5 ++ rd ++ i)
  | .tAddSp rd i => .thumb (0b10101#5 ++ rd ++ i)
  | .tAddSpImm i => .thumb (0b101100000#9 ++ i)
  | .tSubSpImm i => .thumb (0b101100001#9 ++ i)
  | .tPush r l => .thumb (0b1011010#7 ++ flag r ++ l)
  | .tPop r l => .thumb (0b1011110#7 ++ flag r ++ l)
  | .tStmia rb l => .thumb (0b11000#5 ++ rb ++ l)
  | .tLdmia rb l => .thumb (0b11001#5 ++ rb ++ l)
  | .tUndefDE x => .thumb (0xDE#8 ++ x)
  | .tUndefE8 x => .thumb (0b11101#5 ++ x)
  | .tUndefB1 x => .thumb (0xB1#8 ++ x)
  | .tUndefB2 x => .thumb (0b1011001#7 ++ x)
  | .tUndefB6 x => .thumb (0b1011011#7 ++ x)
  | .tUndefB8 x => .thumb (0b101110#6 ++ x)
  | .tUndefBE x => .thumb (0b1011111#7 ++ x)
  | .tSwi v => .thumb (0xDF#8 ++ v)
  | .tBCond c o => .thumb (0b1101#4 ++ c.code ++ o)
  | .tB o => .thumb (0b11100#5 ++ o)
  | .tBlFirst o => .thumb (0b11110#5 ++ o)
  | .tBlSecond o => .thumb (0b11111#5 ++ o)

end Sys2Proof
end

