-- ==== Sys2Proof/Config.lean ====
section
/-! DEFINITION. The open parameters of 00_scope.md R7 and the free values (draws). Each is opaque: no proof can see a
value of it, so a theorem about the machine holds for every value. `BIOS_IMAGE` and `ROM_IMAGE` are arguments of
`Machine.powerOn` (Machine/System.lean), and `BACKUP_KIND` is derived from the cartridge there. -/

namespace Sys2Proof

/-- The free byte the `n`-th draw yields: a byte read from an unmapped address (20_memory.md R203), from a FIFO port
(61_io_registers.md R955), or a pixel byte of a line in display mode 2, 5, 6 or 7 (63_ppu.md R1114). Log entry 1. -/
opaque Config.freeByte : Nat → Byte

/-- Byte `k` of the frame buffer where no line has been rendered over it yet (10_state.md R122, D65). Log entry 2. -/
opaque Config.freeFrameByte : Nat → Byte

/-- `COLOR5TO8` on the channel values 1 to 30, which the spec leaves open (63_ppu.md R1107, D55). Log entry 3. -/
opaque Config.colourInner : BitVec 5 → Byte

/-- `COLOR5TO8`, with the two values the spec fixes: 0 gives 0 and 31 gives 255 (63_ppu.md R1107). -/
def Config.colour5to8 (c : BitVec 5) : Byte :=
  if c = 0#5 then 0#8 else if c = 31#5 then 255#8 else Config.colourInner c

/-- How far `FIFO_CAPACITY` lies above 17, its least value (62_dma.md R1020, D47). Log entry 4. -/
opaque Config.fifoExtra : Nat

/-- `FIFO_CAPACITY`, an integer of at least 17 (62_dma.md R1020). -/
def Config.fifoCapacity : Nat := 17 + Config.fifoExtra

/-- `IMMEDIATE_REPEAT`: true is `rearm`, false is `stop` (62_dma.md R1008, D44). Log entry 5. -/
opaque Config.immediateRearm : Bool

end Sys2Proof
end

