-- ==== Sys2Proof/Machine/State.lean ====
section
/-! DEFINITION. The state of the machine as plain data (10_state.md), the ways a step stops, and the state after reset. -/

namespace Sys2Proof.Machine

/-! ## Processor -/

/-- The seven legal modes (10_state.md R101). -/
inductive Mode where
  | usr | fiq | irq | svc | abt | und | sys
deriving DecidableEq, Repr

/-- CPSR (R105). Bits 27:8 read 0 and are never written, so they have no field. The mode field is one of the seven legal
values in every state, since R102 stops the machine before any other value is used; log entry 14. -/
structure Cpsr where
  n : Bool
  z : Bool
  c : Bool
  v : Bool
  i : Bool
  f : Bool
  t : Bool
  mode : Mode
deriving DecidableEq, Repr

/-- A saved status register (R106). Its mode field may hold any five bits (45_arm_psr_swi.md R651). -/
structure Spsr where
  n : Bool
  z : Bool
  c : Bool
  v : Bool
  i : Bool
  f : Bool
  t : Bool
  m : BitVec 5
deriving DecidableEq, Repr

/-- The five saved status registers (R106). -/
structure SpsrBank where
  fiq : Spsr
  irq : Spsr
  svc : Spsr
  abt : Spsr
  und : Spsr
deriving DecidableEq, Repr

/-! ## Memory -/

/-- Memory in canonical form: addresses strictly rising, no byte 0. An address not listed reads 0 (R122, D7, D28; log entry
7). A key is the base of a region plus an offset into it (20_memory.md R201). -/
abbrev Memory := List Host.Cell

/-! ## Peripherals -/

/-- IE, IF and IME (R110). -/
structure IrqBlock where
  ie : Half
  ifl : Half
  ime : Half
deriving DecidableEq, Repr

/-- The size of a DMA unit: 2 or 4 bytes (R112). -/
inductive UnitSize where
  | half | word
deriving DecidableEq, Repr

/-- How an address moves after a DMA unit (R112). -/
inductive AddrStep where
  | inc | dec | fixed | incReload
deriving DecidableEq, Repr

/-- A DMA start condition (R112). -/
inductive DmaStart where
  | immediate | vblank | hblank | special
deriving DecidableEq, Repr

/-- The lifecycle of a DMA channel (62_dma.md R1001). -/
inductive DmaPhase where
  | idle | wait | triggered | active
deriving DecidableEq, Repr

/-- A DMA channel (R112): its registers, then the fields latched on entering Wait, the current addresses, the lifecycle, and
the cycle accumulator, which no rule reads (D39). -/
structure DmaChannel where
  sad : Word
  dad : Word
  cntL : Half
  cntH : Half
  size : UnitSize
  srcStep : AddrStep
  dstStep : AddrStep
  count : Nat
  rep : Bool
  irq : Bool
  start : DmaStart
  curSrc : Word
  curDst : Word
  phase : DmaPhase
  cycles : Nat
deriving DecidableEq, Repr

/-- A timer (R113): reload latch, counter, TMxCNT_H, cycle accumulator. -/
structure Timer where
  reload : Half
  counter : Half
  ctl : Half
  acc : Nat
deriving DecidableEq, Repr

/-- A rotation/scale parameter set: PA to PD and the reference point (R114). -/
structure Affine where
  pa : Half
  pb : Half
  pc : Half
  pd : Half
  x : Word
  y : Word
deriving DecidableEq, Repr

/-- A pixel of the frame buffer: four bytes in the order R, G, B, A (63_ppu.md R1107). -/
structure Pixel where
  r : Byte
  g : Byte
  b : Byte
  a : Byte
deriving DecidableEq, Repr

/-- The picture processor (R114). Bits 2:0 of `dispstat` are the status flags, and so their previous values (R1102).
`oamSnap` is keyed by offset and reads 0 where not listed. `frame` lists the lines rendered so far by rising line number;
the pixels of a line not listed are the free bytes of `Config.freeFrameByte` (R122, D65). -/
structure Ppu where
  lc : Nat
  vcount : Nat
  dispcnt : Half
  dispstat : Half
  bgcnt : Vector Half 4
  bghofs : Vector Half 4
  bgvofs : Vector Half 4
  bg2 : Affine
  bg3 : Affine
  oamSnap : Memory
  frame : List (Nat × List Pixel)
deriving DecidableEq, Repr

/-- The sound registers, of which this block stores the bytes (R119, 61_io_registers.md R967, R968). -/
structure Sound where
  cnt1L : Half
  cnt1H : Half
  cnt1X : Half
  cnt2L : Half
  cnt2H : Half
  cnt3L : Half
  cnt3H : Half
  cnt3X : Half
  cnt4L : Half
  cnt4H : Half
  cntL : Half
  cntH : Half
  cntX : Half
  bias : Half
  wave : Vector Half 8
deriving DecidableEq, Repr

/-- A sound FIFO: the queued bytes, head first, and its DMA-sound slot (R116). -/
structure Fifo where
  bytes : List Byte
  slot : Byte
deriving DecidableEq, Repr

/-- The keypad (R117). -/
structure Keypad where
  keyinput : BitVec 10
  keycnt : Half
deriving DecidableEq, Repr

/-- The two backup devices (20_memory.md R216). -/
inductive BackupKind where
  | sram | flash128k
deriving DecidableEq, Repr

/-- The backup device: its kind, the position in a Flash command sequence, the ID mode (20_memory.md R215). Its bytes stand
in the memory. -/
structure Backup where
  kind : BackupKind
  seq : Fin 3
  idMode : Bool
deriving DecidableEq, Repr

/-! ## The state -/

/-- All the state of the block.
`regs` holds the thirty registers other than R15 (R100): places 0 to 14 are R0 to R14 of the user bank, 15 to 21 R8_fiq to
R14_fiq, then R13 and R14 of irq (22, 23), svc (24, 25), abt (26, 27) and und (28, 29). `pendingPC` is the value an
instruction has written to R15 and the end of the step refills from (40_cpu_step.md R402, R406). `started` and `draws` are the
model's own: whether `start()` has run (log entry 8), and how many free values have been drawn (log entry 1). -/
structure State where
  regs : Vector Word 30
  r15 : Word
  cpsr : Cpsr
  spsr : SpsrBank
  pipeDecode : Word
  pipeFetch : Word
  pendingPC : Option Word
  mem : Memory
  shadow : Memory
  dirty : List Nat
  irq : IrqBlock
  dma : Vector DmaChannel 4
  timers : Vector Timer 4
  ppu : Ppu
  sound : Sound
  fifoA : Fifo
  fifoB : Fifo
  keypad : Keypad
  backup : Backup
  started : Bool
  draws : Nat
deriving DecidableEq, Repr

/-! ## How a step stops -/

/-- The register combinations and writes the spec refuses as `Unpredictable`. -/
inductive Unpredictable where
  /-- R15 as an operand or destination of a multiply (44_arm_multiply.md R600). -/
  | multiplyR15
  /-- RdHi = RdLo (R600). -/
  | multiplySameHiLo
  /-- R15 as an operand or destination of SWP or SWPB (43_arm_single_transfer.md R565). -/
  | swapR15
  /-- R15 as the destination of MRS or the operand of MSR (45_arm_psr_swi.md R650, R652, R653). -/
  | statusR15
  /-- An MSR that would change T (R651). -/
  | msrState
  /-- A transfer that writes back to R15 (R501, R550, R556). -/
  | writebackR15
deriving DecidableEq, Repr

/-- The model faults of 60_exceptions.md R912. Each ends the run in the step it occurs; each is safe, since the spec itself stops
the machine there. -/
inductive Fault where
  /-- CPSR.M would hold the illegal value `m`: raised by MSR and by a CPSR restore (10_state.md R102). Safe. -/
  | invalidMode (m : BitVec 5)
  /-- An SPSR access in User or System mode: raised by MRS, MSR and a CPSR restore (R106). Safe. -/
  | noSpsr
  /-- An encoding no rule gives a meaning: raised by the two UNALLOCATED rows (30_encoding.md R326). Safe. -/
  | unallocated
  /-- Raised by multiplies, swaps, PSR transfers and transfers with writeback. Safe. -/
  | unpredictable (why : Unpredictable)
deriving DecidableEq, Repr

/-- The refusals. -/
inductive Refusal where
  /-- An instruction without a meaning yet: raised by an arm of `exec` that has none. Safe. -/
  | notModelled (mnemonic : String)
  /-- A host call out of order: raised by `hostCall` (65_system.md R1259, D70). Safe: the spec refuses it. -/
  | hostMisuse
deriving DecidableEq, Repr

/-- The outcome of an instruction or a step. -/
abbrev Result := Host.Outcome State Fault Refusal

/-! ## Reset -/

/-- A status register with every bit 0 (R122). -/
def Spsr.zero : Spsr := ⟨false, false, false, false, false, false, false, 0#5⟩

/-- A channel as constructed: every register, latch and address 0, Idle (R122; the latched fields, log entry 11). -/
def DmaChannel.reset : DmaChannel :=
  { sad := 0#32, dad := 0#32, cntL := 0#16, cntH := 0#16, size := .half, srcStep := .inc, dstStep := .inc, count := 0,
    rep := false, irq := false, start := .immediate, curSrc := 0#32, curDst := 0#32, phase := .idle, cycles := 0 }

/-- A timer as constructed (R122). -/
def Timer.reset : Timer := { reload := 0#16, counter := 0#16, ctl := 0#16, acc := 0 }

/-- A parameter set as constructed (R122). -/
def Affine.zero : Affine := ⟨0#16, 0#16, 0#16, 0#16, 0#32, 0#32⟩

/-- The picture processor as constructed (R122, D52). -/
def Ppu.reset : Ppu :=
  { lc := 0, vcount := 0, dispcnt := 0#16, dispstat := 0#16, bgcnt := #v[0#16, 0#16, 0#16, 0#16],
    bghofs := #v[0#16, 0#16, 0#16, 0#16], bgvofs := #v[0#16, 0#16, 0#16, 0#16], bg2 := .zero, bg3 := .zero, oamSnap := [],
    frame := [] }

/-- The sound registers as constructed (R122). -/
def Sound.reset : Sound :=
  { cnt1L := 0#16, cnt1H := 0#16, cnt1X := 0#16, cnt2L := 0#16, cnt2H := 0#16, cnt3L := 0#16, cnt3H := 0#16,
    cnt3X := 0#16, cnt4L := 0#16, cnt4H := 0#16, cntL := 0#16, cntH := 0#16, cntX := 0#16, bias := 0#16,
    wave := #v[0#16, 0#16, 0#16, 0#16, 0#16, 0#16, 0#16, 0#16] }

/-- The state after `start()` with an empty BIOS image and an empty cartridge (10_state.md R122, 70_reset_and_hazards.md R1300).
The two images are inputs of the host: `powerOn` (Machine/System.lean) takes them, and log entry 6 says how a program comes to
run. -/
def State.reset : State :=
  { regs := #v[
      0#32, 0#32, 0#32, 0#32, 0#32, 0#32, 0#32, 0#32, 0#32, 0#32, 0#32, 0#32, 0#32, 0x03007F00#32, 0x08000000#32,
      0#32, 0#32, 0#32, 0#32, 0#32, 0#32, 0#32,
      0#32, 0#32, 0x03007F00#32, 0#32, 0#32, 0#32, 0#32, 0#32],
    r15 := 0x08000008#32,
    cpsr := { n := false, z := false, c := false, v := false, i := false, f := false, t := false, mode := .sys },
    spsr := { fiq := .zero, irq := .zero, svc := .zero, abt := .zero, und := .zero },
    pipeDecode := 0#32, pipeFetch := 0#32, pendingPC := none,
    mem := [], shadow := [], dirty := [],
    irq := { ie := 0#16, ifl := 0#16, ime := 0#16 },
    dma := #v[.reset, .reset, .reset, .reset],
    timers := #v[.reset, .reset, .reset, .reset],
    ppu := .reset, sound := .reset,
    fifoA := { bytes := [], slot := 0#8 }, fifoB := { bytes := [], slot := 0#8 },
    keypad := { keyinput := 0x3FF#10, keycnt := 0#16 },
    backup := { kind := .sram, seq := 0, idMode := false },
    started := true, draws := 0 }

end Sys2Proof.Machine
end

