-- ==== Sys2Proof/Machine/Mem.lean ====
section
/-! DEFINITION. Memory by canonical address (20_memory.md R201 to R205) and the free values (draws). -/

namespace Sys2Proof.Machine

/-- The byte at a canonical address; 0 where none is listed. -/
def Memory.read : Memory → Nat → Byte
  | [], _ => 0#8
  | (k, v) :: m, a => if k = a then v else Memory.read m a

/-- Memory with the byte at one address replaced, in canonical form. -/
def Memory.write : Memory → Nat → Byte → Memory
  | [], a, b => if b = 0#8 then [] else [(a, b)]
  | (k, v) :: m, a, b =>
    if a < k then if b = 0#8 then (k, v) :: m else (a, b) :: (k, v) :: m
    else if a = k then if b = 0#8 then m else (a, b) :: m
    else (k, v) :: Memory.write m a b

/-- The first address listed lies above `k`. -/
def Memory.above (k : Nat) : Memory → Bool
  | [] => true
  | (k', _) :: _ => decide (k < k')

/-- The canonical form: addresses strictly rising, no byte 0. -/
def Memory.wf : Memory → Bool
  | [] => true
  | (k, v) :: m => v != 0#8 && Memory.above k m && Memory.wf m

/-- Memory with bytes stored at consecutive addresses from `a`. -/
def Memory.load (m : Memory) (a : Nat) : List Byte → Memory
  | [] => m
  | b :: bs => Memory.load (Memory.write m a b) (a + 1) bs

/-- Memory with nothing listed in `[lo, hi)`. -/
def Memory.clear (m : Memory) (lo hi : Nat) : Memory := m.filter fun c => decide ¬(lo ≤ c.1 ∧ c.1 < hi)

/-- Memory whose `size` bytes from `base` are an image, clamped to `size`, and 0 past it (65_system.md R1258, D28). -/
def Memory.install (m : Memory) (base size : Nat) (image : List Byte) : Memory :=
  Memory.load (Memory.clear m base (base + size)) base (image.take size)

/-- A free byte: the next draw (00_scope.md R7; log entry 1). -/
def draw (s : State) : Byte × State :=
  (Config.freeByte s.draws, { s with draws := s.draws + 1 })

/-- The regions of the address space (20_memory.md R201). -/
inductive Region where
  | bios | ewram | iwram | io | pram | vram | oam | rom | backup
deriving DecidableEq, Repr

/-- The first canonical address of a region. -/
def Region.base : Region → Nat
  | .bios => 0x00000000
  | .ewram => 0x02000000
  | .iwram => 0x03000000
  | .io => 0x04000000
  | .pram => 0x05000000
  | .vram => 0x06000000
  | .oam => 0x07000000
  | .rom => 0x08000000
  | .backup => 0x0E000000

/-- The offset of a VRAM address: 128 KiB, of which the last 32 KiB fold onto the 32 KiB before (R201, D27). -/
def vramOffset (a : Nat) : Nat :=
  let o := a % 0x20000
  if 0x18000 ≤ o then o - 0x8000 else o

/-- The routing of an address to a region and an offset into it; none where unmapped (R201). -/
def route (addr : Word) : Option (Region × Nat) :=
  let a := addr.toNat
  let low := a % 0x1000000
  match a / 0x1000000 with
  | 0x00 => if low < 0x4000 then some (.bios, low) else none
  | 0x02 => some (.ewram, a % 0x40000)
  | 0x03 => some (.iwram, a % 0x8000)
  | 0x04 => if low < 0x400 then some (.io, low) else none
  | 0x05 => some (.pram, a % 0x400)
  | 0x06 => some (.vram, vramOffset a)
  | 0x07 => some (.oam, a % 0x400)
  | 0x08 | 0x09 | 0x0A | 0x0B | 0x0C | 0x0D => some (.rom, a % 0x2000000)
  | 0x0E => some (.backup, a % 0x10000)
  | _ => none

/-- A word-aligned and a halfword-aligned address (R209). -/
def alignWord (a : Word) : Word := a &&& 0xFFFFFFFC#32
def alignHalf (a : Word) : Word := a &&& 0xFFFFFFFE#32

end Sys2Proof.Machine
end

