-- ==== Sys2Proof/Machine/Dma.lean ====
section
/-! DEFINITION. The interrupt flags, the sound FIFOs and the DMA channels (62_dma.md), as far as they need no bus. -/

namespace Sys2Proof.Machine

/-! ## Interrupt flags -/

/-- Bit `n` of IF set (60_exceptions.md R906). -/
def raiseIrq (n : Nat) (s : State) : State :=
  { s with irq := { s.irq with ifl := s.irq.ifl ||| (1#16 <<< n) } }

/-! ## Sound FIFOs -/

/-- The two FIFOs (R1020). -/
inductive FifoId where
  | a | b
deriving DecidableEq, Repr

def getFifo : FifoId → State → Fifo
  | .a, s => s.fifoA
  | .b, s => s.fifoB

def setFifo (id : FifoId) (f : Fifo) (s : State) : State :=
  match id with
  | .a => { s with fifoA := f }
  | .b => { s with fifoB := f }

/-- A push: at the tail, dropped when the FIFO is full (R1021). -/
def pushByte (b : Byte) (f : Fifo) : Fifo :=
  if f.bytes.length < Config.fifoCapacity then { f with bytes := f.bytes ++ [b] } else f

/-- A pop: the head goes to the slot; an empty FIFO is unchanged (R1022). -/
def popByte (f : Fifo) : Fifo :=
  match f.bytes with
  | [] => f
  | b :: rest => { bytes := rest, slot := b }

/-! ## DMA channels -/

def getDma (i : Fin 4) (s : State) : DmaChannel := s.dma.get i

def setDma (i : Fin 4) (c : DmaChannel) (s : State) : State := { s with dma := s.dma.set i c }

/-- The word count of a channel: CNT_L, 14 bits wide on channels 0 to 2, with 0 the largest count (R1002, D40). -/
def dmaCount (i : Fin 4) (cntL : Half) : Nat :=
  if i = 3 then (if cntL = 0#16 then 0x10000 else cntL.toNat)
  else if cntL.toNat % 0x4000 = 0 then 0x4000 else cntL.toNat % 0x4000

/-- The start condition of control bits 13:12 (R1003). -/
def dmaStart (h : Half) : DmaStart :=
  match (h.extractLsb' 12 2).toNat with
  | 0 => .immediate | 1 => .vblank | 2 => .hblank | _ => .special

/-- The source mode of control bits 8:7; 3 acts as increment (R1002, D42). -/
def dmaSrcStep (h : Half) : AddrStep :=
  match (h.extractLsb' 7 2).toNat with
  | 0 => .inc | 1 => .dec | 2 => .fixed | _ => .inc

/-- The destination mode of control bits 6:5; 3 is increment and reload, valid only with repeat (R1002). -/
def dmaDstStep (h : Half) : AddrStep :=
  match (h.extractLsb' 5 2).toNat with
  | 0 => .inc | 1 => .dec | 2 => .fixed | _ => if h.getLsbD 9 then .incReload else .inc

/-- Sound-FIFO mode: Special start on channel 1 or 2 (R1002). -/
def soundFifoMode (i : Fin 4) (start : DmaStart) : Bool := decide (start = .special ∧ (i = 1 ∨ i = 2))

/-- Entering Wait: the registers are captured and the control word decoded (R1002). -/
def dmaLatch (i : Fin 4) (c : DmaChannel) : DmaChannel :=
  let start := dmaStart c.cntH
  let fifo := soundFifoMode i start
  { c with
    size := if fifo || c.cntH.getLsbD 10 then .word else .half
    srcStep := dmaSrcStep c.cntH
    dstStep := if fifo then .fixed else dmaDstStep c.cntH
    count := if fifo then 4 else dmaCount i c.cntL
    rep := c.cntH.getLsbD 9
    irq := c.cntH.getLsbD 14
    start := start
    curSrc := c.sad
    curDst := c.dad
    phase := .wait }

/-- The effect of a commit of CNT_H on its channel: 0→1 of enable latches, 1→0 goes Idle, else nothing (R970, R1002, R1009). -/
def dmaEnableChange (i : Fin 4) (old new : Half) (c : DmaChannel) : DmaChannel :=
  match old.getLsbD 15, new.getLsbD 15 with
  | false, true => dmaLatch i c
  | true, false => { c with phase := .idle }
  | _, _ => c

/-- The FIFO a channel serves, by its latched destination (R1004, D45). -/
def servedFifo (i : Fin 4) (c : DmaChannel) : Option FifoId :=
  if soundFifoMode i c.start then
    if c.curDst = 0x040000A0#32 then some .a
    else if c.curDst = 0x040000A4#32 then some .b
    else none
  else none

/-- The sound-FIFO start condition: the served FIFO's depth is 16 or less (R1023). -/
def fifoRequest (i : Fin 4) (s : State) : Bool :=
  match servedFifo i (getDma i s) with
  | some id => decide ((getFifo id s).bytes.length ≤ 16)
  | none => false

/-- Wait becomes Triggered; any other phase is kept. -/
def dmaTrigger (c : DmaChannel) : DmaChannel :=
  if c.phase = .wait then { c with phase := .triggered } else c

/-- Channel `i` triggered where a condition on it holds. -/
def triggerIf (p : Fin 4 → State → Bool) (i : Fin 4) (s : State) : State :=
  if p i s then setDma i (dmaTrigger (getDma i s)) s else s

/-- Every channel for which a condition holds, in ascending order, triggered. -/
def triggerAll (p : Fin 4 → State → Bool) (s : State) : State :=
  triggerIf p 3 (triggerIf p 2 (triggerIf p 1 (triggerIf p 0 s)))

/-- The start condition the promotion phase observes (R1003, R1005). -/
def startObserved (i : Fin 4) (s : State) : Bool :=
  decide ((getDma i s).start = .immediate) || fifoRequest i s

/-- The lowest-numbered channel in a phase. -/
def firstInPhase (p : DmaPhase) (s : State) : Option (Fin 4) :=
  if (getDma 0 s).phase = p then some 0
  else if (getDma 1 s).phase = p then some 1
  else if (getDma 2 s).phase = p then some 2
  else if (getDma 3 s).phase = p then some 3
  else none

/-- The channel the orchestrator steps (65_system.md R1251). At most one is Active (R1005). -/
def activeChannel (s : State) : Option (Fin 4) := firstInPhase .active s

/-- The grant of the promotion phase: with no channel Active, the lowest-numbered Triggered one becomes Active (R1005). -/
def dmaGrant (s : State) : State :=
  match activeChannel s with
  | some _ => s
  | none =>
    match firstInPhase .triggered s with
    | some i => setDma i { getDma i s with phase := .active } s
    | none => s

/-- The promotion phase (R1005). -/
def dmaPromote (s : State) : State := dmaGrant (triggerAll startObserved s)

/-- A FIFO reset: the FIFO is emptied and the waiting channels that serve it are triggered (R1030). -/
def fifoReset (id : FifoId) (s : State) : State :=
  triggerAll (fun i t => servedFifo i (getDma i t) = some id) (setFifo id { getFifo id s with bytes := [] } s)

/-- The address after a unit (R1006). -/
def dmaAdjust (a : Word) (size : UnitSize) (m : AddrStep) : Word :=
  let k : Word := match size with
    | .half => 2#32
    | .word => 4#32
  match m with
  | .inc | .incReload => a + k
  | .dec => a - k
  | .fixed => a

/-- The channel and the flags after its last unit (R1008, R1011). -/
def dmaComplete (i : Fin 4) (s : State) : State :=
  let s := if (getDma i s).irq then raiseIrq (8 + i.val) s else s
  let c := getDma i s
  if c.rep = true ∧ (c.start ≠ .immediate ∨ Config.immediateRearm = true) then
    setDma i { c with
      count := if soundFifoMode i c.start then 4 else dmaCount i c.cntL
      curDst := if c.dstStep = .incReload then c.dad else c.curDst
      phase := .wait } s
  else
    setDma i { c with cntH := c.cntH &&& 0x7FFF#16, phase := .idle } s

/-- The bookkeeping of a unit: both addresses move, the count falls, the last unit completes (R1006). A channel that its own
write has taken out of Active, so that the commit has set its phase and latched fields, is left as it is (R1009; log entry 9). -/
def dmaUnitDone (i : Fin 4) (s : State) : State :=
  let c := getDma i s
  if c.phase = .active then
    let s := setDma i { c with
      curSrc := dmaAdjust c.curSrc c.size c.srcStep
      curDst := dmaAdjust c.curDst c.size c.dstStep
      count := c.count - 1 } s
    if c.count - 1 = 0 then dmaComplete i s else s
  else s

end Sys2Proof.Machine
end

