-- ==== Sys2Proof/Machine/IoRegs.lean ====
section
/-! DEFINITION. The I/O register file: the known registers, their reads, the shadow buffer and the commit
(61_io_registers.md). -/

namespace Sys2Proof.Machine

/-- The known registers, in ascending order of their offsets (R960). -/
inductive IoReg where
  | dispcnt | dispstat | vcount
  | bgcnt (k : Fin 4)
  | bghofs (k : Fin 4) | bgvofs (k : Fin 4)
  | bg2pa | bg2pb | bg2pc | bg2pd | bg2x | bg2y
  | bg3pa | bg3pb | bg3pc | bg3pd | bg3x | bg3y
  | sound1cntL | sound1cntH | sound1cntX | sound2cntL | sound2cntH | sound3cntL | sound3cntH | sound3cntX
  | sound4cntL | sound4cntH | soundcntL | soundcntH | soundcntX | soundbias
  | waveRam (k : Fin 8)
  | fifo (id : FifoId)
  | dmaSad (i : Fin 4) | dmaDad (i : Fin 4) | dmaCntL (i : Fin 4) | dmaCntH (i : Fin 4)
  | tmCntL (i : Fin 4) | tmCntH (i : Fin 4)
  | keyinput | keycnt
  | ie | ifl | ime
deriving DecidableEq, Repr

/-- The registers of the picture processor, of the sound block, of the DMA channels and timers, and the rest. -/
def displayIoRegs : List IoReg :=
  [.dispcnt, .dispstat, .vcount, .bgcnt 0, .bgcnt 1, .bgcnt 2, .bgcnt 3,
   .bghofs 0, .bgvofs 0, .bghofs 1, .bgvofs 1, .bghofs 2, .bgvofs 2, .bghofs 3, .bgvofs 3,
   .bg2pa, .bg2pb, .bg2pc, .bg2pd, .bg2x, .bg2y, .bg3pa, .bg3pb, .bg3pc, .bg3pd, .bg3x, .bg3y]

def soundIoRegs : List IoReg :=
  [.sound1cntL, .sound1cntH, .sound1cntX, .sound2cntL, .sound2cntH, .sound3cntL, .sound3cntH, .sound3cntX,
   .sound4cntL, .sound4cntH, .soundcntL, .soundcntH, .soundcntX, .soundbias,
   .waveRam 0, .waveRam 1, .waveRam 2, .waveRam 3, .waveRam 4, .waveRam 5, .waveRam 6, .waveRam 7, .fifo .a, .fifo .b]

def dmaIoRegs : List IoReg :=
  [.dmaSad 0, .dmaDad 0, .dmaCntL 0, .dmaCntH 0, .dmaSad 1, .dmaDad 1, .dmaCntL 1, .dmaCntH 1,
   .dmaSad 2, .dmaDad 2, .dmaCntL 2, .dmaCntH 2, .dmaSad 3, .dmaDad 3, .dmaCntL 3, .dmaCntH 3]

def timerIoRegs : List IoReg :=
  [.tmCntL 0, .tmCntH 0, .tmCntL 1, .tmCntH 1, .tmCntL 2, .tmCntH 2, .tmCntL 3, .tmCntH 3]

def controlIoRegs : List IoReg := [.keyinput, .keycnt, .ie, .ifl, .ime]

/-- The registers in the order a commit visits them (R952, D36). -/
def allIoRegs : List IoReg :=
  displayIoRegs ++ (soundIoRegs ++ (dmaIoRegs ++ (timerIoRegs ++ controlIoRegs)))

/-- The offset of a register (R960). -/
def ioOffset : IoReg → Nat
  | .dispcnt => 0x000
  | .dispstat => 0x004
  | .vcount => 0x006
  | .bgcnt k => 0x008 + 2 * k.val
  | .bghofs k => 0x010 + 4 * k.val
  | .bgvofs k => 0x012 + 4 * k.val
  | .bg2pa => 0x020
  | .bg2pb => 0x022
  | .bg2pc => 0x024
  | .bg2pd => 0x026
  | .bg2x => 0x028
  | .bg2y => 0x02C
  | .bg3pa => 0x030
  | .bg3pb => 0x032
  | .bg3pc => 0x034
  | .bg3pd => 0x036
  | .bg3x => 0x038
  | .bg3y => 0x03C
  | .sound1cntL => 0x060
  | .sound1cntH => 0x062
  | .sound1cntX => 0x064
  | .sound2cntL => 0x068
  | .sound2cntH => 0x06C
  | .sound3cntL => 0x070
  | .sound3cntH => 0x072
  | .sound3cntX => 0x074
  | .sound4cntL => 0x078
  | .sound4cntH => 0x07C
  | .soundcntL => 0x080
  | .soundcntH => 0x082
  | .soundcntX => 0x084
  | .soundbias => 0x088
  | .waveRam k => 0x090 + 2 * k.val
  | .fifo .a => 0x0A0
  | .fifo .b => 0x0A4
  | .dmaSad i => 0x0B0 + 12 * i.val
  | .dmaDad i => 0x0B4 + 12 * i.val
  | .dmaCntL i => 0x0B8 + 12 * i.val
  | .dmaCntH i => 0x0BA + 12 * i.val
  | .tmCntL i => 0x100 + 4 * i.val
  | .tmCntH i => 0x102 + 4 * i.val
  | .keyinput => 0x130
  | .keycnt => 0x132
  | .ie => 0x200
  | .ifl => 0x202
  | .ime => 0x208

/-- The width of a register in bytes (R960). -/
def ioWidth : IoReg → Nat
  | .bg2x | .bg2y | .bg3x | .bg3y | .fifo _ | .dmaSad _ | .dmaDad _ => 4
  | _ => 2

/-- The bits a commit writes (R960). IF, the FIFO ports and the read-only registers are not merged. -/
def ioWritable : IoReg → Word
  | .bg2x | .bg2y | .bg3x | .bg3y | .dmaSad _ | .dmaDad _ => 0xFFFFFFFF#32
  | .dispstat => 0xFFF8#32
  | .vcount | .keyinput | .fifo _ | .ifl => 0#32
  | _ => 0xFFFF#32

/-- A halfword as a register value, and back. -/
def wide (h : Half) : Word := h.setWidth 32
def narrow (w : Word) : Half := w.setWidth 16

/-- The state a commit merges into (R952, R960). The read-only registers and the FIFO ports have none of their own here. -/
def ioStored (r : IoReg) (s : State) : Word :=
  match r with
  | .dispcnt => wide s.ppu.dispcnt
  | .dispstat => wide s.ppu.dispstat
  | .vcount => BitVec.ofNat 32 s.ppu.vcount
  | .bgcnt k => wide (s.ppu.bgcnt.get k)
  | .bghofs k => wide (s.ppu.bghofs.get k)
  | .bgvofs k => wide (s.ppu.bgvofs.get k)
  | .bg2pa => wide s.ppu.bg2.pa
  | .bg2pb => wide s.ppu.bg2.pb
  | .bg2pc => wide s.ppu.bg2.pc
  | .bg2pd => wide s.ppu.bg2.pd
  | .bg2x => s.ppu.bg2.x
  | .bg2y => s.ppu.bg2.y
  | .bg3pa => wide s.ppu.bg3.pa
  | .bg3pb => wide s.ppu.bg3.pb
  | .bg3pc => wide s.ppu.bg3.pc
  | .bg3pd => wide s.ppu.bg3.pd
  | .bg3x => s.ppu.bg3.x
  | .bg3y => s.ppu.bg3.y
  | .sound1cntL => wide s.sound.cnt1L
  | .sound1cntH => wide s.sound.cnt1H
  | .sound1cntX => wide s.sound.cnt1X
  | .sound2cntL => wide s.sound.cnt2L
  | .sound2cntH => wide s.sound.cnt2H
  | .sound3cntL => wide s.sound.cnt3L
  | .sound3cntH => wide s.sound.cnt3H
  | .sound3cntX => wide s.sound.cnt3X
  | .sound4cntL => wide s.sound.cnt4L
  | .sound4cntH => wide s.sound.cnt4H
  | .soundcntL => wide s.sound.cntL
  | .soundcntH => wide s.sound.cntH
  | .soundcntX => wide s.sound.cntX
  | .soundbias => wide s.sound.bias
  | .waveRam k => wide (s.sound.wave.get k)
  | .fifo _ => 0#32
  | .dmaSad i => (getDma i s).sad
  | .dmaDad i => (getDma i s).dad
  | .dmaCntL i => wide (getDma i s).cntL
  | .dmaCntH i => wide (getDma i s).cntH
  | .tmCntL i => wide (s.timers.get i).reload
  | .tmCntH i => wide (s.timers.get i).ctl
  | .keyinput => s.keypad.keyinput.setWidth 32
  | .keycnt => wide s.keypad.keycnt
  | .ie => wide s.irq.ie
  | .ifl => wide s.irq.ifl
  | .ime => wide s.irq.ime

def setPpu (p : Ppu) (s : State) : State := { s with ppu := p }
def setBg2 (a : Affine) (s : State) : State := setPpu { s.ppu with bg2 := a } s
def setBg3 (a : Affine) (s : State) : State := setPpu { s.ppu with bg3 := a } s
def setSound (x : Sound) (s : State) : State := { s with sound := x }
def getTimer (i : Fin 4) (s : State) : Timer := s.timers.get i
def setTimer (i : Fin 4) (t : Timer) (s : State) : State := { s with timers := s.timers.set i t }

/-- The state with a register's stored value replaced. The read-only registers and the FIFO ports keep theirs. -/
def ioSetStored (r : IoReg) (v : Word) (s : State) : State :=
  let h := narrow v
  match r with
  | .dispcnt => setPpu { s.ppu with dispcnt := h } s
  | .dispstat => setPpu { s.ppu with dispstat := h } s
  | .vcount => s
  | .bgcnt k => setPpu { s.ppu with bgcnt := s.ppu.bgcnt.set k h } s
  | .bghofs k => setPpu { s.ppu with bghofs := s.ppu.bghofs.set k h } s
  | .bgvofs k => setPpu { s.ppu with bgvofs := s.ppu.bgvofs.set k h } s
  | .bg2pa => setBg2 { s.ppu.bg2 with pa := h } s
  | .bg2pb => setBg2 { s.ppu.bg2 with pb := h } s
  | .bg2pc => setBg2 { s.ppu.bg2 with pc := h } s
  | .bg2pd => setBg2 { s.ppu.bg2 with pd := h } s
  | .bg2x => setBg2 { s.ppu.bg2 with x := v } s
  | .bg2y => setBg2 { s.ppu.bg2 with y := v } s
  | .bg3pa => setBg3 { s.ppu.bg3 with pa := h } s
  | .bg3pb => setBg3 { s.ppu.bg3 with pb := h } s
  | .bg3pc => setBg3 { s.ppu.bg3 with pc := h } s
  | .bg3pd => setBg3 { s.ppu.bg3 with pd := h } s
  | .bg3x => setBg3 { s.ppu.bg3 with x := v } s
  | .bg3y => setBg3 { s.ppu.bg3 with y := v } s
  | .sound1cntL => setSound { s.sound with cnt1L := h } s
  | .sound1cntH => setSound { s.sound with cnt1H := h } s
  | .sound1cntX => setSound { s.sound with cnt1X := h } s
  | .sound2cntL => setSound { s.sound with cnt2L := h } s
  | .sound2cntH => setSound { s.sound with cnt2H := h } s
  | .sound3cntL => setSound { s.sound with cnt3L := h } s
  | .sound3cntH => setSound { s.sound with cnt3H := h } s
  | .sound3cntX => setSound { s.sound with cnt3X := h } s
  | .sound4cntL => setSound { s.sound with cnt4L := h } s
  | .sound4cntH => setSound { s.sound with cnt4H := h } s
  | .soundcntL => setSound { s.sound with cntL := h } s
  | .soundcntH => setSound { s.sound with cntH := h } s
  | .soundcntX => setSound { s.sound with cntX := h } s
  | .soundbias => setSound { s.sound with bias := h } s
  | .waveRam k => setSound { s.sound with wave := s.sound.wave.set k h } s
  | .fifo _ => s
  | .dmaSad i => setDma i { getDma i s with sad := v } s
  | .dmaDad i => setDma i { getDma i s with dad := v } s
  | .dmaCntL i => setDma i { getDma i s with cntL := h } s
  | .dmaCntH i => setDma i { getDma i s with cntH := h } s
  | .tmCntL i => setTimer i { getTimer i s with reload := h } s
  | .tmCntH i => setTimer i { getTimer i s with ctl := h } s
  | .keyinput => s
  | .keycnt => { s with keypad := { s.keypad with keycnt := h } }
  | .ie => { s with irq := { s.irq with ie := h } }
  | .ifl => { s with irq := { s.irq with ifl := h } }
  | .ime => { s with irq := { s.irq with ime := h } }

/-- The live value of a register; none for a FIFO port, whose bytes are draws (R955, R960). -/
def ioRead (r : IoReg) (s : State) : Option Word :=
  match r with
  | .fifo _ => none
  | .tmCntL i => some (wide (getTimer i s).counter)
  | r => some (ioStored r s)

/-- The known register an offset lies in. -/
def ioAt (o : Nat) : Option IoReg :=
  allIoRegs.find? (fun r => decide (ioOffset r ≤ o ∧ o < ioOffset r + ioWidth r))

/-- Byte `k` of a word, the least significant first. -/
def byteOf (w : Word) (k : Nat) : Byte := (w >>> (8 * k)).setWidth 8

/-- A byte read from the I/O window (R955, R956). -/
def ioReadByte (o : Nat) (s : State) : Byte × State :=
  match ioAt o with
  | none => (0xFF#8, s)
  | some r =>
    match ioRead r s with
    | some v => (byteOf v (o - ioOffset r), s)
    | none => draw s

/-! ## Write8 and Commit -/

/-- An offset added to the sorted list of dirty offsets. -/
def addDirty (o : Nat) : List Nat → List Nat
  | [] => [o]
  | k :: ks => if o < k then o :: k :: ks else if o = k then k :: ks else k :: addDirty o ks

/-- `Write8`: the byte goes to the shadow buffer and is marked dirty (R951). -/
def ioWrite8 (o : Nat) (b : Byte) (s : State) : State :=
  { s with shadow := Memory.write s.shadow o b, dirty := addDirty o s.dirty }

/-- The offset is dirty. -/
def isDirty (s : State) (o : Nat) : Bool := s.dirty.contains o

/-- The mask of a register: FF in each dirty byte (R952). -/
def ioMask (r : IoReg) (s : State) : Word :=
  let at' (k : Nat) : Word := if isDirty s (ioOffset r + k) then 0xFF#32 <<< (8 * k) else 0#32
  if ioWidth r = 4 then at' 0 ||| at' 1 ||| at' 2 ||| at' 3 else at' 0 ||| at' 1

/-- The shadow value of a register, little-endian (R952). -/
def ioShadow (r : IoReg) (s : State) : Word :=
  let at' (k : Nat) : Word := (Memory.read s.shadow (ioOffset r + k)).setWidth 32 <<< (8 * k)
  if ioWidth r = 4 then at' 0 ||| at' 1 ||| at' 2 ||| at' 3 else at' 0 ||| at' 1

/-- The default merge (R952). -/
def ioMerge (r : IoReg) (old value mask : Word) : Word :=
  (old &&& ~~~(mask &&& ioWritable r)) ||| (value &&& mask &&& ioWritable r)

/-- The dirty bytes of a FIFO port pushed in ascending address order (R969). -/
def ioPush (id : FifoId) (value mask : Word) (s : State) : State :=
  let push (k : Nat) (f : Fifo) : Fifo := if mask.getLsbD (8 * k) then pushByte (byteOf value k) f else f
  setFifo id (push 3 (push 2 (push 1 (push 0 (getFifo id s))))) s

/-- TMxCNT_H with enable 0→1: the reload latch goes to the counter and the accumulator to 0 (R971, 64_timers.md R1204). -/
def timerEnableChange (old new : Half) (t : Timer) : Timer :=
  if old.getLsbD 7 = false ∧ new.getLsbD 7 = true then { t with counter := t.reload, acc := 0 } else t

/-- The commit of one register whose mask is not 0 (R952, R961 to R977). -/
def ioCommitReg (r : IoReg) (value mask : Word) (s : State) : State :=
  let old := ioStored r s
  let new := ioMerge r old value mask
  let merged := ioSetStored r new s
  match r with
  | .fifo id => ioPush id value mask s
  | .ifl => { s with irq := { s.irq with ifl := s.irq.ifl &&& ~~~narrow (value &&& mask) } }
  | .soundcntH =>
    let written (b : Nat) : Bool := mask.getLsbD b && value.getLsbD b
    let s1 := if written 11 then fifoReset .a merged else merged
    if written 15 then fifoReset .b s1 else s1
  | .dmaCntH i => setDma i (dmaEnableChange i (narrow old) (narrow new) (getDma i merged)) merged
  | .tmCntH i => setTimer i (timerEnableChange (narrow old) (narrow new) (getTimer i merged)) merged
  | _ => merged

/-- One register's turn in a commit. -/
def ioCommitOne (s : State) (r : IoReg) : State :=
  let mask := ioMask r s
  if mask = 0#32 then s else ioCommitReg r (ioShadow r s) mask s

/-- `Commit`, at the end of a bus transaction (R952). -/
def ioCommit (s : State) : State :=
  if s.dirty = [] then s else { allIoRegs.foldl ioCommitOne s with dirty := [] }

end Sys2Proof.Machine
end

