-- ==== Sys2Proof/Machine/Bus.lean ====
section
/-! DEFINITION. The bus: byte accesses routed to a region, and the primitives of 20_memory.md R204 to R206. A read may draw free
values, so it answers the state as well. -/

namespace Sys2Proof.Machine

/-! ## Backup device -/

/-- The address of a backup byte: SRAM is masked to 32 KiB (R214, R215). -/
def backupKey (k : BackupKind) (o : Nat) : Nat :=
  match k with
  | .sram => Region.backup.base + o % 0x8000
  | .flash128k => Region.backup.base + o

/-- A read of the backup region (R214, R215). -/
def backupRead (o : Nat) (s : State) : Byte :=
  if s.backup.kind = .flash128k ∧ s.backup.idMode = true ∧ o = 0 then 0x62#8
  else if s.backup.kind = .flash128k ∧ s.backup.idMode = true ∧ o = 1 then 0x13#8
  else Memory.read s.mem (backupKey s.backup.kind o)

/-- A byte stored in the backup memory. -/
def backupStore (o : Nat) (b : Byte) (s : State) : State :=
  { s with mem := Memory.write s.mem (backupKey s.backup.kind o) b }

/-- A write to the backup region: SRAM stores; the Flash follows its command sequences and stores the rest (R214, R215). -/
def backupWrite (o : Nat) (b : Byte) (s : State) : State :=
  match s.backup.kind with
  | .sram => backupStore o b s
  | .flash128k =>
    if s.backup.seq = 0 ∧ o = 0x5555 ∧ b = 0xAA#8 then { s with backup := { s.backup with seq := 1 } }
    else if s.backup.seq = 1 ∧ o = 0x2AAA ∧ b = 0x55#8 then { s with backup := { s.backup with seq := 2 } }
    else if s.backup.seq = 2 ∧ o = 0x5555 ∧ b = 0x90#8 then { s with backup := { s.backup with seq := 0, idMode := true } }
    else if s.backup.seq = 2 ∧ o = 0x5555 ∧ b = 0xF0#8 then { s with backup := { s.backup with seq := 0, idMode := false } }
    else backupStore o b { s with backup := { s.backup with seq := 0 } }

/-! ## Reads -/

/-- `read8` (R204). -/
def read8 (addr : Word) (s : State) : Byte × State :=
  match route addr with
  | none => draw s
  | some (.io, o) => ioReadByte o s
  | some (.backup, o) => (backupRead o s, s)
  | some (r, o) => (Memory.read s.mem (r.base + o), s)

/-- `read16`: two bytes, the lower address the less significant (R204, R208). -/
def read16 (addr : Word) (s : State) : Half × State :=
  let p0 := read8 addr s
  let p1 := read8 (addr + 1#32) p0.2
  (p1.1 ++ p0.1, p1.2)

/-- `read32` (R204, R208). -/
def read32 (addr : Word) (s : State) : Word × State :=
  let p0 := read8 addr s
  let p1 := read8 (addr + 1#32) p0.2
  let p2 := read8 (addr + 2#32) p1.2
  let p3 := read8 (addr + 3#32) p2.2
  (p3.1 ++ p2.1 ++ p1.1 ++ p0.1, p3.2)

/-! ## Writes -/

/-- A byte stored at a canonical address. -/
def storeMem (key : Nat) (b : Byte) (s : State) : State := { s with mem := Memory.write s.mem key b }

/-- One byte of a wide write: no expansion; I/O bytes go to the shadow buffer (R206). -/
def putByte (addr : Word) (b : Byte) (s : State) : State :=
  match route addr with
  | none => s
  | some (.bios, _) => s
  | some (.rom, _) => s
  | some (.io, o) => ioWrite8 o b s
  | some (.backup, o) => backupWrite o b s
  | some (r, o) => storeMem (r.base + o) b s

/-- A byte stored in both bytes of its halfword (R205). -/
def putReplicated (r : Region) (o : Nat) (b : Byte) (s : State) : State :=
  storeMem (r.base + (o - o % 2) + 1) b (storeMem (r.base + (o - o % 2)) b s)

/-- The display is in a bitmap mode: 3, 4 or 5 (R205, D27). -/
def bitmapMode (s : State) : Bool :=
  let m := (s.ppu.dispcnt.extractLsb' 0 3).toNat
  decide (3 ≤ m ∧ m ≤ 5)

/-- The end of the part of VRAM that takes byte writes (R205). -/
def vramByteLimit (s : State) : Nat := if bitmapMode s then 0x14000 else 0x10000

/-- The byte of a transaction of width 8, before its commit (R205). -/
def putByte8 (addr : Word) (b : Byte) (s : State) : State :=
  match route addr with
  | some (.pram, o) => putReplicated .pram o b s
  | some (.vram, o) => if o < vramByteLimit s then putReplicated .vram o b s else s
  | some (.oam, _) => s
  | _ => putByte addr b s

/-- `write8` (R205, R207). -/
def write8 (addr : Word) (b : Byte) (s : State) : State := ioCommit (putByte8 addr b s)

/-- `write16`: the two bytes in ascending order, then one commit (R206, R207). -/
def write16 (addr : Word) (v : Half) (s : State) : State :=
  ioCommit (putByte (addr + 1#32) (v.extractLsb' 8 8) (putByte addr (v.extractLsb' 0 8) s))

/-- `write32` (R206, R207). -/
def write32 (addr : Word) (v : Word) (s : State) : State :=
  let s0 := putByte addr (v.extractLsb' 0 8) s
  let s1 := putByte (addr + 1#32) (v.extractLsb' 8 8) s0
  let s2 := putByte (addr + 2#32) (v.extractLsb' 16 8) s1
  ioCommit (putByte (addr + 3#32) (v.extractLsb' 24 8) s2)

end Sys2Proof.Machine
end

