-- ==== Sys2Proof/Machine/Ops.lean ====
section
/-! DEFINITION. The shared operations of the processor: registers by bank, status registers, taking an exception and returning
from one, and the end of an instruction (10_state.md, 40_cpu_step.md, 60_exceptions.md). -/

namespace Sys2Proof.Machine

/-! ## Registers -/

/-- The place of a register other than R15 in the bank of a mode (R100, R101, R103). -/
def bankIndex (m : Mode) (r : Reg) : Nat :=
  let n := r.toNat
  match m with
  | .usr | .sys => n
  | .fiq => if 8 ≤ n then n + 7 else n
  | .irq => if 13 ≤ n then n + 9 else n
  | .svc => if 13 ≤ n then n + 11 else n
  | .abt => if 13 ≤ n then n + 13 else n
  | .und => if 13 ≤ n then n + 15 else n

/-- The same as a place of the register file. -/
def regPlace (m : Mode) (r : Reg) : Fin 30 := Fin.ofNat 30 (bankIndex m r)

/-- A register read in the bank of a mode; R15 reads A + 8 or A + 4 (R403). -/
def readRegIn (m : Mode) (r : Reg) (s : State) : Word :=
  if r = 15#4 then s.r15 else s.regs.get (regPlace m r)

/-- A register other than R15 written in the bank of a mode. -/
def setRegIn (m : Mode) (r : Reg) (v : Word) (s : State) : State :=
  { s with regs := s.regs.set (regPlace m r) v }

/-- A register written in the bank of a mode; a write of R15 is held for the end of the instruction (R406). -/
def writeRegIn (m : Mode) (r : Reg) (v : Word) (s : State) : State :=
  if r = 15#4 then { s with pendingPC := some v } else setRegIn m r v s

/-- `R[i]`: the bank of the current mode (R103). -/
def readReg (r : Reg) (s : State) : Word := readRegIn s.cpsr.mode r s
def writeReg (r : Reg) (v : Word) (s : State) : State := writeRegIn s.cpsr.mode r v s

/-- `Ruser[i]`: the user bank whatever the mode (R104). -/
def readUserReg (r : Reg) (s : State) : Word := readRegIn .usr r s
def writeUserReg (r : Reg) (v : Word) (s : State) : State := writeRegIn .usr r v s

/-- A low register of a THUMB format. -/
def lowReg (r : LowReg) : Reg := r.setWidth 4

/-! ## Status registers -/

/-- The mode field of a mode (R101). -/
def modeBits : Mode → BitVec 5
  | .usr => 0x10#5 | .fiq => 0x11#5 | .irq => 0x12#5 | .svc => 0x13#5 | .abt => 0x17#5 | .und => 0x1B#5 | .sys => 0x1F#5

/-- The mode of a mode field; none where illegal (R101, R102). -/
def modeOfBits (b : BitVec 5) : Option Mode :=
  match b.toNat with
  | 0x10 => some .usr | 0x11 => some .fiq | 0x12 => some .irq | 0x13 => some .svc | 0x17 => some .abt
  | 0x1B => some .und | 0x1F => some .sys | _ => none

/-- Every mode but User is privileged (R101). -/
def privileged (m : Mode) : Bool := decide (m ≠ .usr)

/-- CPSR with its mode field as bits: the form an SPSR saves (R903). -/
def saveCpsr (c : Cpsr) : Spsr := ⟨c.n, c.z, c.c, c.v, c.i, c.f, c.t, modeBits c.mode⟩

/-- A status register as a word; bits 27:8 read 0 (R105, D4). -/
def statusWord (p : Spsr) : Word :=
  let b (x : Bool) : BitVec 1 := BitVec.ofBool x
  b p.n ++ b p.z ++ b p.c ++ b p.v ++ 0#20 ++ b p.i ++ b p.f ++ b p.t ++ p.m

/-- CPSR as a word. -/
def cpsrWord (s : State) : Word := statusWord (saveCpsr s.cpsr)

/-- The fields of a status register from a word; bits 27:8 are ignored (R105, D4). -/
def statusOfWord (w : Word) : Spsr :=
  ⟨w.getLsbD 31, w.getLsbD 30, w.getLsbD 29, w.getLsbD 28, w.getLsbD 7, w.getLsbD 6, w.getLsbD 5, w.extractLsb' 0 5⟩

/-- The SPSR of a mode; none in User and System mode (R106). -/
def spsrOf (m : Mode) (s : State) : Option Spsr :=
  match m with
  | .usr | .sys => none
  | .fiq => some s.spsr.fiq
  | .irq => some s.spsr.irq
  | .svc => some s.spsr.svc
  | .abt => some s.spsr.abt
  | .und => some s.spsr.und

/-- The SPSR of a mode written; User and System mode have none. -/
def setSpsrOf (m : Mode) (p : Spsr) (s : State) : State :=
  match m with
  | .usr | .sys => s
  | .fiq => { s with spsr := { s.spsr with fiq := p } }
  | .irq => { s with spsr := { s.spsr with irq := p } }
  | .svc => { s with spsr := { s.spsr with svc := p } }
  | .abt => { s with spsr := { s.spsr with abt := p } }
  | .und => { s with spsr := { s.spsr with und := p } }

/-- CPSR replaced. -/
def setCpsr (c : Cpsr) (s : State) : State := { s with cpsr := c }

/-- CPSR written from a saved form: the machine stops where the mode field is illegal (R102). -/
def loadCpsr (p : Spsr) (s : State) : Result :=
  match modeOfBits p.m with
  | some m => .next (setCpsr ⟨p.n, p.z, p.c, p.v, p.i, p.f, p.t, m⟩ s)
  | none => .fault (.invalidMode p.m)

/-- Returning from an exception: CPSR is restored from the current mode's SPSR (R106, R910). The write of R15 is the caller's. -/
def restoreCpsr (s : State) : Result :=
  match spsrOf s.cpsr.mode s with
  | none => .fault .noSpsr
  | some p => loadCpsr p s

/-! ## Conditions -/

/-- `ConditionPasses` (R301, R404). -/
def conditionPasses (c : Cond) (p : Cpsr) : Bool :=
  match c with
  | .eq => p.z
  | .ne => !p.z
  | .cs => p.c
  | .cc => !p.c
  | .mi => p.n
  | .pl => !p.n
  | .vs => p.v
  | .vc => !p.v
  | .hi => p.c && !p.z
  | .ls => !p.c || p.z
  | .ge => p.n == p.v
  | .lt => p.n != p.v
  | .gt => !p.z && p.n == p.v
  | .le => p.z || p.n != p.v
  | .al => true
  | .nv => false

/-! ## Exceptions -/

/-- The kinds of exception (R900). -/
inductive ExceptionKind where
  | reset | undefined | swi | prefetchAbort | dataAbort | irq | fiq
deriving DecidableEq, Repr

/-- The vector of a kind (R900). -/
def vectorOf : ExceptionKind → Word
  | .reset => 0x00000000#32
  | .undefined => 0x00000004#32
  | .swi => 0x00000008#32
  | .prefetchAbort => 0x0000000C#32
  | .dataAbort => 0x00000010#32
  | .irq => 0x00000018#32
  | .fiq => 0x0000001C#32

/-- The entry mode of a kind (R900). -/
def entryMode : ExceptionKind → Mode
  | .reset => .svc
  | .undefined => .und
  | .swi => .svc
  | .prefetchAbort => .abt
  | .dataAbort => .abt
  | .irq => .irq
  | .fiq => .fiq

/-- The kinds that set F (R900). -/
def setsF : ExceptionKind → Bool
  | .reset | .fiq => true
  | _ => false

/-- The return address of an exception: R15 − 4 in ARM state, (R15 − 2) | 1 in THUMB state (R903, R904). -/
def returnAddress (s : State) : Word :=
  if s.cpsr.t then (s.r15 - 2#32) ||| 1#32 else s.r15 - 4#32

/-- `EnterException` (R903). The refill from the vector is the end of the step. -/
def enterException (k : ExceptionKind) (s : State) : State :=
  let m := entryMode k
  let ret := returnAddress s
  let s1 := setSpsrOf m (saveCpsr s.cpsr) s
  let s2 := setCpsr { s.cpsr with mode := m, i := true, f := s.cpsr.f || setsF k, t := false } s1
  let s3 := setRegIn m 14#4 ret s2
  { s3 with pendingPC := some (vectorOf k) }

/-! ## The pipeline -/

/-- The fetch size (R401). -/
def fetchSize (s : State) : Word := if s.cpsr.t then 2#32 else 4#32

/-- `Fetch` (R401): a word, or a halfword extended with zeros. -/
def fetch (a : Word) (s : State) : Word × State :=
  if s.cpsr.t then
    let p := read16 a s
    (p.1.setWidth 32, p.2)
  else read32 a s

/-- The address a refill starts at (R406, D9). -/
def alignFetch (v : Word) (s : State) : Word := if s.cpsr.t then alignHalf v else alignWord v

/-- `Refill` (R406). -/
def refill (v : Word) (s : State) : State :=
  let a := alignFetch v s
  let fs := fetchSize s
  let d := fetch a s
  let f := fetch (a + fs) d.2
  { f.2 with pipeDecode := d.1, pipeFetch := f.1, r15 := a + fs + fs }

/-- The normal advance (R407). -/
def advance (s : State) : State :=
  let f := fetch s.r15 s
  { f.2 with pipeDecode := s.pipeFetch, pipeFetch := f.1, r15 := s.r15 + fetchSize s }

/-- The end of an instruction: a refill if it wrote R15, else the advance (R402). -/
def finish (s : State) : State :=
  match s.pendingPC with
  | some v => refill v { s with pendingPC := none }
  | none => advance s

/-- A second operation after a first that answered a next state. -/
def andThen (r : Result) (f : State → Result) : Result :=
  match r with
  | .next s => f s
  | .fault x => .fault x
  | .refused x => .refused x

/-- A THUMB instruction: its effect, then the end of the instruction (R402). -/
def runThumb (body : State → Result) (s : State) : Result :=
  andThen (body { s with pendingPC := none }) (fun t => .next (finish t))

/-- An ARM instruction: with its condition failed, the pipeline advances and nothing else happens (R402, R405). -/
def runArm (c : Cond) (body : State → Result) (s : State) : Result :=
  if conditionPasses c s.cpsr then runThumb body s else .next (finish { s with pendingPC := none })

/-- An instruction that raises an exception does nothing else (R901). -/
def raiseException (k : ExceptionKind) (s : State) : Result := .next (enterException k s)

end Sys2Proof.Machine
end

