-- ==== Sys2Proof/Machine/Flags.lean ====
section
/-! DEFINITION. Arithmetic with its flags (46_arm_dataproc.md R704, R705; 44_arm_multiply.md R601). -/

namespace Sys2Proof.Machine

/-- A 32-bit result with the carry and overflow that go with it. -/
structure AluResult where
  res : Word
  c : Bool
  v : Bool
deriving DecidableEq, Repr

/-- `AddWithCarry` (R704). -/
def addWithCarry (x y : Word) (cin : Bool) : AluResult :=
  let u := x.toNat + y.toNat + cin.toNat
  let i := x.toInt + y.toInt + cin.toNat
  { res := BitVec.ofNat 32 u
    c := decide (2 ^ 32 ≤ u)
    v := decide (i < -2 ^ 31 ∨ 2 ^ 31 ≤ i) }

/-- `x − y` and `x − y − NOT c`, through NOT y (R704). -/
def subtract (x y : Word) : AluResult := addWithCarry x (~~~y) true
def subtractCarry (x y : Word) (c : Bool) : AluResult := addWithCarry x (~~~y) c

/-- A logical result: C from the shifter, V as it was (R705). -/
def logical (res : Word) (sc : Bool) (s : State) : AluResult := ⟨res, sc, s.cpsr.v⟩

/-- N, Z, C and V of a result (R705). -/
def setFlags (r : AluResult) (s : State) : State :=
  setCpsr { s.cpsr with n := r.res.msb, z := decide (r.res = 0#32), c := r.c, v := r.v } s

/-- N and Z of a result; C and V as they were (R601). -/
def setNZ (n z : Bool) (s : State) : State := setCpsr { s.cpsr with n := n, z := z } s

/-- A result written to a register with the flags it sets: every THUMB arithmetic instruction (47_thumb_alu.md). -/
def writeAndFlag (rd : Reg) (r : AluResult) (s : State) : Result := .next (setFlags r (writeReg rd r.res s))

/-- A compare: flags, and no register (46_arm_dataproc.md R706). -/
def compareFlags (r : AluResult) (s : State) : Result := .next (setFlags r s)

/-- The result of a data-processing opcode that writes Rd: with S and Rd = 15 CPSR is restored, with S else the flags are set
(R705). -/
def dataProcess (sf : Bool) (rd : Reg) (r : AluResult) (s : State) : Result :=
  if sf = true ∧ rd = 15#4 then restoreCpsr (writeReg rd r.res s)
  else if sf then writeAndFlag rd r s
  else .next (writeReg rd r.res s)

end Sys2Proof.Machine
end

