-- ==== Sys2Proof/Machine/Operands.lean ====
section
/-! DEFINITION. The barrel shifter and the operand forms (30_encoding.md R305 to R310, 46_arm_dataproc.md R700 to R703), and
the loads and stores with their alignment rules (43_arm_single_transfer.md). -/

namespace Sys2Proof.Machine

/-! ## Shifter -/

/-- A value shifted by 1 to 31 places, with the last bit shifted out (R702, R703). -/
def shiftBy (t : ShiftType) (v : Word) (n : Nat) : Word × Bool :=
  match t with
  | .lsl => (v <<< n, v.getLsbD (32 - n))
  | .lsr => (v >>> n, v.getLsbD (n - 1))
  | .asr => (v.sshiftRight n, v.getLsbD (n - 1))
  | .ror => (v.rotateRight n, v.getLsbD (n - 1))

/-- Bit 31 in every place. -/
def signFill (v : Word) : Word := if v.msb then 0xFFFFFFFF#32 else 0#32

/-- A shift by an immediate, where the amount 0 is read anew for each type but LSL (R702). -/
def shiftImmediate (t : ShiftType) (v : Word) (amount : BitVec 5) (c : Bool) : Word × Bool :=
  if amount = 0#5 then
    match t with
    | .lsl => (v, c)
    | .lsr => (0#32, v.msb)
    | .asr => (signFill v, v.msb)
    | .ror => (BitVec.ofBool c ++ v.extractLsb' 1 31, v.getLsbD 0)
  else shiftBy t v amount.toNat

/-- A shift by the low byte of a register (R703). -/
def shiftRegister (t : ShiftType) (v : Word) (amount : Byte) (c : Bool) : Word × Bool :=
  let n := amount.toNat
  if n = 0 then (v, c)
  else if n < 32 then shiftBy t v n
  else
    match t with
    | .lsl => (0#32, decide (n = 32) && v.getLsbD 0)
    | .lsr => (0#32, decide (n = 32) && v.msb)
    | .asr => (signFill v, v.msb)
    | .ror => if n % 32 = 0 then (v, v.msb) else shiftBy .ror v (n % 32)

/-- An 8-bit immediate rotated right by twice the rotation field (R305). -/
def rotatedImmediate (rot : BitVec 4) (imm8 : BitVec 8) : Word := (imm8.setWidth 32).rotateRight (2 * rot.toNat)

/-- `Operand2`: the operand and the shifter carry-out (R700 to R703). -/
def operand2 (o : Operand2) (s : State) : Word × Bool :=
  match o with
  | .imm rot imm8 =>
    let v := rotatedImmediate rot imm8
    (v, if rot = 0#4 then s.cpsr.c else v.msb)
  | .shiftImm amount t rm => shiftImmediate t (readReg rm s) amount s.cpsr.c
  | .shiftReg rs t rm => shiftRegister t (readReg rm s) ((readReg rs s).setWidth 8) s.cpsr.c

/-! ## Addresses -/

/-- The offset of a word or byte transfer (R308). -/
def offsetValue (o : Offset) (s : State) : Word :=
  match o with
  | .imm k => k.setWidth 32
  | .reg amount t rm => (shiftImmediate t (readReg rm s) amount s.cpsr.c).1

/-- The offset of a halfword or signed transfer (R309). -/
def halfOffsetValue (o : HalfOffset) (s : State) : Word :=
  match o with
  | .imm k => k.setWidth 32
  | .reg _ rm => readReg rm s

/-- `pre`: the base with the offset added or subtracted (43_arm_single_transfer.md R550). -/
def offsetAddress (u : Bool) (base off : Word) : Word := if u then base + off else base - off

/-- The address accessed: `pre` with P = 1, the base with P = 0 (R550). -/
def transferAddress (p u : Bool) (base off : Word) : Word := if p then offsetAddress u base off else base

/-- The base is written back: P = 0 or W = 1 (R550). -/
def writesBack (p w : Bool) : Bool := !p || w

/-- A branch offset of n bits, in units of 2^k bytes, sign-extended (R307, R332). -/
def branchOffset {n : Nat} (o : BitVec n) (k : Nat) : Word := o.signExtend 32 <<< k

/-- An unsigned immediate offset in units of 2^k bytes (R332). -/
def scaledOffset {n : Nat} (o : BitVec n) (k : Nat) : Word := o.setWidth 32 <<< k

/-! ## Loads and stores -/

/-- A word load: the aligned word rotated right by 8 for each low address unit (R551). -/
def loadWord (a : Word) (s : State) : Word × State :=
  let p := read32 (alignWord a) s
  (p.1.rotateRight (8 * (a.toNat % 4)), p.2)

/-- A halfword load: the aligned halfword, rotated right by 8 at an odd address (R557, D23). -/
def loadHalf (a : Word) (s : State) : Word × State :=
  let p := read16 (alignHalf a) s
  let h : Word := p.1.setWidth 32
  (if a.getLsbD 0 then h.rotateRight 8 else h, p.2)

/-- A byte load (R552). -/
def loadByte (a : Word) (s : State) : Word × State :=
  let p := read8 a s
  (p.1.setWidth 32, p.2)

/-- A signed byte load (R559). -/
def loadSignedByte (a : Word) (s : State) : Word × State :=
  let p := read8 a s
  (p.1.signExtend 32, p.2)

/-- A signed halfword load: the aligned halfword, shifted right by 8 at an odd address (R560). -/
def loadSignedHalf (a : Word) (s : State) : Word × State :=
  let p := read16 (alignHalf a) s
  let h : Word := p.1.signExtend 32
  (if a.getLsbD 0 then h.sshiftRight 8 else h, p.2)

/-- A word, halfword and byte store, at the aligned address (R553, R554, R558). -/
def storeWord (a v : Word) (s : State) : State := write32 (alignWord a) v s
def storeHalf (a v : Word) (s : State) : State := write16 (alignHalf a) (v.setWidth 16) s
def storeByte (a v : Word) (s : State) : State := write8 a (v.setWidth 8) s

/-- An ARM load with its addressing: the writeback first, so that a loaded Rd = Rn overwrites it (R551). -/
def transferLoad (load : Word → State → Word × State) (p u w : Bool) (rn rd : Reg) (off : Word) (s : State) : Result :=
  if writesBack p w = true ∧ rn = 15#4 then .fault (.unpredictable .writebackR15)
  else
    let base := readReg rn s
    let x := load (transferAddress p u base off) s
    let s1 := if writesBack p w then writeReg rn (offsetAddress u base off) x.2 else x.2
    .next (writeReg rd x.1 s1)

/-- An ARM store with its addressing: the value is read before the writeback (R553). -/
def transferStore (store : Word → Word → State → State) (p u w : Bool) (rn rd : Reg) (off : Word) (s : State) : Result :=
  if writesBack p w = true ∧ rn = 15#4 then .fault (.unpredictable .writebackR15)
  else
    let base := readReg rn s
    let s1 := store (transferAddress p u base off) (readReg rd s) s
    .next (if writesBack p w then writeReg rn (offsetAddress u base off) s1 else s1)

/-- A THUMB load and store: no writeback (48_thumb_memory.md). -/
def thumbLoad (load : Word → State → Word × State) (rd : Reg) (a : Word) (s : State) : Result :=
  let x := load a s
  .next (writeReg rd x.1 x.2)

def thumbStore (store : Word → Word → State → State) (rd : Reg) (a : Word) (s : State) : Result :=
  .next (store a (readReg rd s) s)

end Sys2Proof.Machine
end

