-- ==== Sys2Proof/Machine/BlockTransfer.lean ====
section
/-! DEFINITION. ARM block data transfer (42_arm_block_transfer.md). -/

namespace Sys2Proof.Machine

/-! ## Shared operations -/

/-- The sixteen registers in ascending order. -/
def allRegs : List Reg := [0, 1, 2, 3, 4, 5, 6, 7, 8, 9, 10, 11, 12, 13, 14, 15]

/-- The registers of a list, ascending; the empty list stands for R15 alone (R500, R502). -/
def blockRegs (list : BitVec 16) : List Reg :=
  if list = 0#16 then [15#4] else allRegs.filter (fun r => list.getLsbD r.toNat)

/-- The bytes the base moves by: four for each register, 0x40 for the empty list (R500, R502). -/
def blockStride (list : BitVec 16) : Word :=
  if list = 0#16 then 0x40#32 else BitVec.ofNat 32 (4 * (blockRegs list).length)

/-- The first address (R500). -/
def blockStart (p u : Bool) (base : Word) (list : BitVec 16) : Word :=
  if u then base + (if p then 4#32 else 0#32) else base - blockStride list + (if p then 0#32 else 4#32)

/-- The base after the transfer (R500). -/
def blockNewBase (u : Bool) (base : Word) (list : BitVec 16) : Word :=
  if u then base + blockStride list else base - blockStride list

/-- The values an STM stores: with W, a base that is not the first register stores its new value (R503). -/
def blockValue (get : Reg → Word) (w : Bool) (rn : Reg) (newbase : Word) (first : Bool) (r : Reg) : Word :=
  if r = rn ∧ w = true ∧ first = false then newbase else get r

def blockValues (get : Reg → Word) (w : Bool) (rn : Reg) (newbase : Word) : List Reg → List Word
  | [] => []
  | r :: rs => blockValue get w rn newbase true r :: rs.map (blockValue get w rn newbase false)

/-- Words stored at consecutive addresses, each its own transaction at the aligned address (R500, R503). -/
def storeWords (a : Word) : List Word → State → State
  | [], s => s
  | v :: vs, s => storeWords (a + 4#32) vs (storeWord a v s)

/-- `n` words loaded from consecutive aligned addresses, without rotation (R505). -/
def loadWords (a : Word) : Nat → State → List Word × State
  | 0, s => ([], s)
  | n + 1, s =>
    let x := read32 (alignWord a) s
    let y := loadWords (a + 4#32) n x.2
    (x.1 :: y.1, y.2)

/-- Loaded words written to registers in ascending order (R505). -/
def writeRegs (write : Reg → Word → State → State) : List Reg → List Word → State → State
  | r :: rs, v :: vs, s => writeRegs write rs vs (write r v s)
  | _, _, s => s

/-- STM; `get` reads the current bank or the user bank (R503, R504). -/
def storeMultiple (get : Reg → State → Word) (p u w : Bool) (rn : Reg) (list : BitVec 16) (s : State) : Result :=
  if w = true ∧ rn = 15#4 then .fault (.unpredictable .writebackR15)
  else
    let base := readReg rn s
    let newbase := blockNewBase u base list
    let vals := blockValues (fun r => get r s) w rn newbase (blockRegs list)
    let s1 := storeWords (blockStart p u base list) vals s
    .next (if w then writeReg rn newbase s1 else s1)

/-- LDM; `write` writes the current bank or the user bank. The writeback comes first, so a loaded base overwrites it (R505,
R506). -/
def loadMultiple (write : Reg → Word → State → State) (p u w : Bool) (rn : Reg) (list : BitVec 16) (s : State) : Result :=
  if w = true ∧ rn = 15#4 then .fault (.unpredictable .writebackR15)
  else
    let base := readReg rn s
    let x := loadWords (blockStart p u base list) (blockRegs list).length s
    let s1 := if w then writeReg rn (blockNewBase u base list) x.2 else x.2
    .next (writeRegs write (blockRegs list) x.1 s1)

/-- LDM with S = 1: with R15 in the list the current bank is loaded and CPSR restored from the SPSR, else the user bank is
loaded (R506). -/
def loadMultipleUser (p u w : Bool) (rn : Reg) (list : BitVec 16) (s : State) : Result :=
  if (blockRegs list).contains 15#4 then andThen (loadMultiple writeReg p u w rn list s) restoreCpsr
  else loadMultiple writeUserReg p u w rn list s

/-! ## Instructions -/

/-- STMDA (R503). -/
def execStmda (c : Cond) (w : Bool) (rn : Reg) (list : BitVec 16) : State → Result :=
  runArm c (storeMultiple readReg false false w rn list)

/-- STMIA (R503). -/
def execStmia (c : Cond) (w : Bool) (rn : Reg) (list : BitVec 16) : State → Result :=
  runArm c (storeMultiple readReg false true w rn list)

/-- STMDB (R503). -/
def execStmdb (c : Cond) (w : Bool) (rn : Reg) (list : BitVec 16) : State → Result :=
  runArm c (storeMultiple readReg true false w rn list)

/-- STMIB (R503). -/
def execStmib (c : Cond) (w : Bool) (rn : Reg) (list : BitVec 16) : State → Result :=
  runArm c (storeMultiple readReg true true w rn list)

/-- STMDA^ (R504). -/
def execStmdaUser (c : Cond) (w : Bool) (rn : Reg) (list : BitVec 16) : State → Result :=
  runArm c (storeMultiple readUserReg false false w rn list)

/-- STMIA^ (R504). -/
def execStmiaUser (c : Cond) (w : Bool) (rn : Reg) (list : BitVec 16) : State → Result :=
  runArm c (storeMultiple readUserReg false true w rn list)

/-- STMDB^ (R504). -/
def execStmdbUser (c : Cond) (w : Bool) (rn : Reg) (list : BitVec 16) : State → Result :=
  runArm c (storeMultiple readUserReg true false w rn list)

/-- STMIB^ (R504). -/
def execStmibUser (c : Cond) (w : Bool) (rn : Reg) (list : BitVec 16) : State → Result :=
  runArm c (storeMultiple readUserReg true true w rn list)

/-- LDMDA (R505). -/
def execLdmda (c : Cond) (w : Bool) (rn : Reg) (list : BitVec 16) : State → Result :=
  runArm c (loadMultiple writeReg false false w rn list)

/-- LDMIA (R505). -/
def execLdmia (c : Cond) (w : Bool) (rn : Reg) (list : BitVec 16) : State → Result :=
  runArm c (loadMultiple writeReg false true w rn list)

/-- LDMDB (R505). -/
def execLdmdb (c : Cond) (w : Bool) (rn : Reg) (list : BitVec 16) : State → Result :=
  runArm c (loadMultiple writeReg true false w rn list)

/-- LDMIB (R505). -/
def execLdmib (c : Cond) (w : Bool) (rn : Reg) (list : BitVec 16) : State → Result :=
  runArm c (loadMultiple writeReg true true w rn list)

/-- LDMDA^ (R506). -/
def execLdmdaUser (c : Cond) (w : Bool) (rn : Reg) (list : BitVec 16) : State → Result :=
  runArm c (loadMultipleUser false false w rn list)

/-- LDMIA^ (R506). -/
def execLdmiaUser (c : Cond) (w : Bool) (rn : Reg) (list : BitVec 16) : State → Result :=
  runArm c (loadMultipleUser false true w rn list)

/-- LDMDB^ (R506). -/
def execLdmdbUser (c : Cond) (w : Bool) (rn : Reg) (list : BitVec 16) : State → Result :=
  runArm c (loadMultipleUser true false w rn list)

/-- LDMIB^ (R506). -/
def execLdmibUser (c : Cond) (w : Bool) (rn : Reg) (list : BitVec 16) : State → Result :=
  runArm c (loadMultipleUser true true w rn list)

end Sys2Proof.Machine
end

