-- ==== Sys2Proof/Machine/Branch.lean ====
section
/-! DEFINITION. ARM branches (41_arm_branch.md). -/

namespace Sys2Proof.Machine

/-- Branch and exchange: bit 0 of the target becomes T (R450). -/
def branchExchange (target : Word) (s : State) : Result :=
  .next (writeReg 15#4 (if target.getLsbD 0 then alignHalf target else target)
    (setCpsr { s.cpsr with t := target.getLsbD 0 } s))

/-- BX (R450). -/
def execBx (c : Cond) (rn : Reg) : State → Result :=
  runArm c (fun s => branchExchange (readReg rn s) s)

/-- B (R451). -/
def execB (c : Cond) (offset24 : BitVec 24) : State → Result :=
  runArm c (fun s => .next (writeReg 15#4 (s.r15 + branchOffset offset24 2) s))

/-- BL (R452). -/
def execBl (c : Cond) (offset24 : BitVec 24) : State → Result :=
  runArm c (fun s => .next (writeReg 15#4 (s.r15 + branchOffset offset24 2) (writeReg 14#4 (s.r15 - 4#32) s)))

end Sys2Proof.Machine
end

