-- ==== Sys2Proof/Machine/DataProc.lean ====
section
/-! DEFINITION. The sixteen ARM data-processing operations (46_arm_dataproc.md). -/

namespace Sys2Proof.Machine

/-- The operands of an opcode that reads Rn: R[n] and the second operand, with the result of a logical function (R705). -/
def logicalOf (f : Word → Word → Word) (rn : Reg) (op2 : Operand2) (s : State) : AluResult :=
  let x := operand2 op2 s
  logical (f (readReg rn s) x.1) x.2 s

/-- The result of an arithmetic function (R705). -/
def arithmeticOf (f : Word → Word → AluResult) (rn : Reg) (op2 : Operand2) (s : State) : AluResult :=
  f (readReg rn s) (operand2 op2 s).1

/-- The result of a move, which ignores Rn (R706). -/
def moveOf (f : Word → Word) (op2 : Operand2) (s : State) : AluResult :=
  let x := operand2 op2 s
  logical (f x.1) x.2 s

/-- AND (R707). -/
def execAnd (c : Cond) (sf : Bool) (rn rd : Reg) (op2 : Operand2) : State → Result :=
  runArm c (fun s => dataProcess sf rd (logicalOf (fun a x => a &&& x) rn op2 s) s)

/-- EOR (R708). -/
def execEor (c : Cond) (sf : Bool) (rn rd : Reg) (op2 : Operand2) : State → Result :=
  runArm c (fun s => dataProcess sf rd (logicalOf (fun a x => a ^^^ x) rn op2 s) s)

/-- SUB (R709). -/
def execSub (c : Cond) (sf : Bool) (rn rd : Reg) (op2 : Operand2) : State → Result :=
  runArm c (fun s => dataProcess sf rd (arithmeticOf (fun a x => subtract a x) rn op2 s) s)

/-- RSB (R710). -/
def execRsb (c : Cond) (sf : Bool) (rn rd : Reg) (op2 : Operand2) : State → Result :=
  runArm c (fun s => dataProcess sf rd (arithmeticOf (fun a x => subtract x a) rn op2 s) s)

/-- ADD (R711). -/
def execAdd (c : Cond) (sf : Bool) (rn rd : Reg) (op2 : Operand2) : State → Result :=
  runArm c (fun s => dataProcess sf rd (arithmeticOf (fun a x => addWithCarry a x false) rn op2 s) s)

/-- ADC (R712). -/
def execAdc (c : Cond) (sf : Bool) (rn rd : Reg) (op2 : Operand2) : State → Result :=
  runArm c (fun s => dataProcess sf rd (arithmeticOf (fun a x => addWithCarry a x s.cpsr.c) rn op2 s) s)

/-- SBC (R713). -/
def execSbc (c : Cond) (sf : Bool) (rn rd : Reg) (op2 : Operand2) : State → Result :=
  runArm c (fun s => dataProcess sf rd (arithmeticOf (fun a x => subtractCarry a x s.cpsr.c) rn op2 s) s)

/-- RSC (R714). -/
def execRsc (c : Cond) (sf : Bool) (rn rd : Reg) (op2 : Operand2) : State → Result :=
  runArm c (fun s => dataProcess sf rd (arithmeticOf (fun a x => subtractCarry x a s.cpsr.c) rn op2 s) s)

/-- TST (R715); Rd is ignored (R706). -/
def execTst (c : Cond) (rn : Reg) (op2 : Operand2) : State → Result :=
  runArm c (fun s => compareFlags (logicalOf (fun a x => a &&& x) rn op2 s) s)

/-- TEQ (R716); Rd is ignored (R706). -/
def execTeq (c : Cond) (rn : Reg) (op2 : Operand2) : State → Result :=
  runArm c (fun s => compareFlags (logicalOf (fun a x => a ^^^ x) rn op2 s) s)

/-- CMP (R717); Rd is ignored (R706). -/
def execCmp (c : Cond) (rn : Reg) (op2 : Operand2) : State → Result :=
  runArm c (fun s => compareFlags (arithmeticOf (fun a x => subtract a x) rn op2 s) s)

/-- CMN (R718); Rd is ignored (R706). -/
def execCmn (c : Cond) (rn : Reg) (op2 : Operand2) : State → Result :=
  runArm c (fun s => compareFlags (arithmeticOf (fun a x => addWithCarry a x false) rn op2 s) s)

/-- ORR (R719). -/
def execOrr (c : Cond) (sf : Bool) (rn rd : Reg) (op2 : Operand2) : State → Result :=
  runArm c (fun s => dataProcess sf rd (logicalOf (fun a x => a ||| x) rn op2 s) s)

/-- MOV (R720); Rn is ignored (R706). -/
def execMov (c : Cond) (sf : Bool) (rd : Reg) (op2 : Operand2) : State → Result :=
  runArm c (fun s => dataProcess sf rd (moveOf (fun x => x) op2 s) s)

/-- BIC (R721). -/
def execBic (c : Cond) (sf : Bool) (rn rd : Reg) (op2 : Operand2) : State → Result :=
  runArm c (fun s => dataProcess sf rd (logicalOf (fun a x => a &&& ~~~x) rn op2 s) s)

/-- MVN (R722); Rn is ignored (R706). -/
def execMvn (c : Cond) (sf : Bool) (rd : Reg) (op2 : Operand2) : State → Result :=
  runArm c (fun s => dataProcess sf rd (moveOf (fun x => ~~~x) op2 s) s)

end Sys2Proof.Machine
end

