-- ==== Sys2Proof/Machine/Multiply.lean ====
section
/-! DEFINITION. ARM multiply and multiply long, and the unallocated multiply space (44_arm_multiply.md). -/

namespace Sys2Proof.Machine

/-- A 32-bit product written with its flags: N and Z with S, C and V kept (R601). -/
def writeProduct (sf : Bool) (rd : Reg) (res : Word) (s : State) : Result :=
  let t := writeReg rd res s
  .next (if sf then setNZ res.msb (decide (res = 0#32)) t else t)

/-- A 64-bit product written to RdLo and RdHi with its flags (R601, R604). -/
def writeLongProduct (sf : Bool) (hi lo : Reg) (p : BitVec 64) (s : State) : Result :=
  let t := writeReg hi (p.extractLsb' 32 32) (writeReg lo (p.extractLsb' 0 32) s)
  .next (if sf then setNZ p.msb (decide (p = 0#64)) t else t)

/-- The registers of a long multiply are refused where one is R15 or both destinations are one register (R600, D19); else
the product of the operands read first is written. -/
def multiplyLong (product : Word → Word → BitVec 64 → BitVec 64) (sf : Bool) (hi lo rs rm : Reg) (s : State) : Result :=
  if hi = 15#4 ∨ lo = 15#4 ∨ rs = 15#4 ∨ rm = 15#4 then .fault (.unpredictable .multiplyR15)
  else if hi = lo then .fault (.unpredictable .multiplySameHiLo)
  else writeLongProduct sf hi lo (product (readReg rm s) (readReg rs s) (readReg hi s ++ readReg lo s)) s

/-- MUL (R602). -/
def execMul (c : Cond) (sf : Bool) (rd rs rm : Reg) : State → Result :=
  runArm c (fun s =>
    if rd = 15#4 ∨ rs = 15#4 ∨ rm = 15#4 then .fault (.unpredictable .multiplyR15)
    else writeProduct sf rd (readReg rm s * readReg rs s) s)

/-- MLA (R603). -/
def execMla (c : Cond) (sf : Bool) (rd rn rs rm : Reg) : State → Result :=
  runArm c (fun s =>
    if rd = 15#4 ∨ rn = 15#4 ∨ rs = 15#4 ∨ rm = 15#4 then .fault (.unpredictable .multiplyR15)
    else writeProduct sf rd (readReg rm s * readReg rs s + readReg rn s) s)

/-- UMULL (R604). -/
def execUmull (c : Cond) (sf : Bool) (hi lo rs rm : Reg) : State → Result :=
  runArm c (multiplyLong (fun x y _ => x.setWidth 64 * y.setWidth 64) sf hi lo rs rm)

/-- UMLAL (R605). -/
def execUmlal (c : Cond) (sf : Bool) (hi lo rs rm : Reg) : State → Result :=
  runArm c (multiplyLong (fun x y acc => x.setWidth 64 * y.setWidth 64 + acc) sf hi lo rs rm)

/-- SMULL (R606). -/
def execSmull (c : Cond) (sf : Bool) (hi lo rs rm : Reg) : State → Result :=
  runArm c (multiplyLong (fun x y _ => x.signExtend 64 * y.signExtend 64) sf hi lo rs rm)

/-- SMLAL (R607). -/
def execSmlal (c : Cond) (sf : Bool) (hi lo rs rm : Reg) : State → Result :=
  runArm c (multiplyLong (fun x y acc => x.signExtend 64 * y.signExtend 64 + acc) sf hi lo rs rm)

/-- A word of the multiply, swap and halfword space no rule gives a meaning: `fault Unallocated` (30_encoding.md R326 a, b). -/
def execUnallocMulSpace (c : Cond) : State → Result :=
  runArm c (fun _ => .fault .unallocated)

end Sys2Proof.Machine
end

