-- ==== Sys2Proof/Machine/Psr.lean ====
section
/-! DEFINITION. PSR transfer, software interrupt, undefined and coprocessor space (45_arm_psr_swi.md). -/

namespace Sys2Proof.Machine

/-- The bits an MSR writes: the bytes its field mask selects, without bits 27:8 (R651, D4). -/
def msrMask (f : BitVec 4) : Word :=
  let byte (i : Nat) (m : Word) : Word := if f.getLsbD i then m else 0#32
  (byte 3 0xFF000000#32 ||| byte 2 0x00FF0000#32 ||| byte 1 0x0000FF00#32 ||| byte 0 0x000000FF#32) &&& 0xF00000FF#32

/-- A word with the masked bits replaced. -/
def mergeBits (old val m : Word) : Word := (old &&& ~~~m) ||| (val &&& m)

/-- `PsrWrite` to CPSR: in User mode the flags byte only; a change of T and an illegal mode stop the machine, T first (R651,
D5, D6). -/
def writeCpsr (val : Word) (f : BitVec 4) (s : State) : Result :=
  let m := if privileged s.cpsr.mode then msrMask f else msrMask f &&& 0xF0000000#32
  let new := statusOfWord (mergeBits (cpsrWord s) val m)
  if new.t ≠ s.cpsr.t then .fault (.unpredictable .msrState) else loadCpsr new s

/-- `PsrWrite` to the current mode's SPSR, which takes any mode field (R651, D3). -/
def writeSpsr (val : Word) (f : BitVec 4) (s : State) : Result :=
  match spsrOf s.cpsr.mode s with
  | none => .fault .noSpsr
  | some p => .next (setSpsrOf s.cpsr.mode (statusOfWord (mergeBits (statusWord p) val (msrMask f))) s)

/-- MRS from CPSR (R650). -/
def execMrsCpsr (c : Cond) (rd : Reg) : State → Result :=
  runArm c (fun s =>
    if rd = 15#4 then .fault (.unpredictable .statusR15) else .next (writeReg rd (cpsrWord s) s))

/-- MRS from SPSR (R650). -/
def execMrsSpsr (c : Cond) (rd : Reg) : State → Result :=
  runArm c (fun s =>
    if rd = 15#4 then .fault (.unpredictable .statusR15)
    else
      match spsrOf s.cpsr.mode s with
      | none => .fault .noSpsr
      | some p => .next (writeReg rd (statusWord p) s))

/-- MSR CPSR, register (R652). -/
def execMsrCpsrReg (c : Cond) (mask : BitVec 4) (rm : Reg) : State → Result :=
  runArm c (fun s =>
    if rm = 15#4 then .fault (.unpredictable .statusR15) else writeCpsr (readReg rm s) mask s)

/-- MSR SPSR, register (R653). -/
def execMsrSpsrReg (c : Cond) (mask : BitVec 4) (rm : Reg) : State → Result :=
  runArm c (fun s =>
    if rm = 15#4 then .fault (.unpredictable .statusR15) else writeSpsr (readReg rm s) mask s)

/-- MSR CPSR, immediate (R654). -/
def execMsrCpsrImm (c : Cond) (mask rot : BitVec 4) (imm8 : BitVec 8) : State → Result :=
  runArm c (writeCpsr (rotatedImmediate rot imm8) mask)

/-- MSR SPSR, immediate (R655). -/
def execMsrSpsrImm (c : Cond) (mask rot : BitVec 4) (imm8 : BitVec 8) : State → Result :=
  runArm c (writeSpsr (rotatedImmediate rot imm8) mask)

/-- SWI (R657). -/
def execSwi (c : Cond) : State → Result := runArm c (raiseException .swi)

/-- The undefined class (R659). -/
def execUndefined (c : Cond) : State → Result := runArm c (raiseException .undefined)

/-- LDC and STC: there is no coprocessor (R658, D12). -/
def execLdcStc (c : Cond) : State → Result := runArm c (raiseException .undefined)

/-- CDP, MCR and MRC (R658, D12). -/
def execCdpMcrMrc (c : Cond) : State → Result := runArm c (raiseException .undefined)

/-- A word of the PSR space no rule gives a meaning: `fault Unallocated` (30_encoding.md R326 c). -/
def execUnallocPsrSpace (c : Cond) : State → Result :=
  runArm c (fun _ => .fault .unallocated)

end Sys2Proof.Machine
end

