-- ==== Sys2Proof/Machine/SingleTransfer.lean ====
section
/-! DEFINITION. ARM single data transfer, halfword and signed transfer, and swap (43_arm_single_transfer.md). -/

namespace Sys2Proof.Machine

/-! ## Word and byte -/

/-- LDRT: P = 0, W = 1; the access is the plain one (R555, D31). -/
def execLdrt (c : Cond) (u : Bool) (rn rd : Reg) (o : Offset) : State → Result :=
  runArm c (fun s => transferLoad loadWord false u true rn rd (offsetValue o s) s)

/-- STRT (R555). -/
def execStrt (c : Cond) (u : Bool) (rn rd : Reg) (o : Offset) : State → Result :=
  runArm c (fun s => transferStore storeWord false u true rn rd (offsetValue o s) s)

/-- LDRBT (R555). -/
def execLdrbt (c : Cond) (u : Bool) (rn rd : Reg) (o : Offset) : State → Result :=
  runArm c (fun s => transferLoad loadByte false u true rn rd (offsetValue o s) s)

/-- STRBT (R555). -/
def execStrbt (c : Cond) (u : Bool) (rn rd : Reg) (o : Offset) : State → Result :=
  runArm c (fun s => transferStore storeByte false u true rn rd (offsetValue o s) s)

/-- LDR (R551). -/
def execLdr (c : Cond) (p u w : Bool) (rn rd : Reg) (o : Offset) : State → Result :=
  runArm c (fun s => transferLoad loadWord p u w rn rd (offsetValue o s) s)

/-- LDRB (R552). -/
def execLdrb (c : Cond) (p u w : Bool) (rn rd : Reg) (o : Offset) : State → Result :=
  runArm c (fun s => transferLoad loadByte p u w rn rd (offsetValue o s) s)

/-- STR (R553). -/
def execStr (c : Cond) (p u w : Bool) (rn rd : Reg) (o : Offset) : State → Result :=
  runArm c (fun s => transferStore storeWord p u w rn rd (offsetValue o s) s)

/-- STRB (R554). -/
def execStrb (c : Cond) (p u w : Bool) (rn rd : Reg) (o : Offset) : State → Result :=
  runArm c (fun s => transferStore storeByte p u w rn rd (offsetValue o s) s)

/-! ## Halfword and signed -/

/-- LDRH (R557). -/
def execLdrh (c : Cond) (p u w : Bool) (rn rd : Reg) (o : HalfOffset) : State → Result :=
  runArm c (fun s => transferLoad loadHalf p u w rn rd (halfOffsetValue o s) s)

/-- STRH (R558). -/
def execStrh (c : Cond) (p u w : Bool) (rn rd : Reg) (o : HalfOffset) : State → Result :=
  runArm c (fun s => transferStore storeHalf p u w rn rd (halfOffsetValue o s) s)

/-- LDRSB (R559). -/
def execLdrsb (c : Cond) (p u w : Bool) (rn rd : Reg) (o : HalfOffset) : State → Result :=
  runArm c (fun s => transferLoad loadSignedByte p u w rn rd (halfOffsetValue o s) s)

/-- LDRSH (R560). -/
def execLdrsh (c : Cond) (p u w : Bool) (rn rd : Reg) (o : HalfOffset) : State → Result :=
  runArm c (fun s => transferLoad loadSignedHalf p u w rn rd (halfOffsetValue o s) s)

/-! ## Swap -/

/-- A load and then a store at one address, in one step; R15 is refused in every place (R565, D19). -/
def swapWith (load : Word → State → Word × State) (store : Word → Word → State → State) (rn rd rm : Reg) (s : State) :
    Result :=
  if rn = 15#4 ∨ rd = 15#4 ∨ rm = 15#4 then .fault (.unpredictable .swapR15)
  else
    let a := readReg rn s
    let x := load a s
    .next (writeReg rd x.1 (store a (readReg rm s) x.2))

/-- SWP (R565). -/
def execSwp (c : Cond) (rn rd rm : Reg) : State → Result :=
  runArm c (swapWith loadWord storeWord rn rd rm)

/-- SWPB (R565). -/
def execSwpb (c : Cond) (rn rd rm : Reg) : State → Result :=
  runArm c (swapWith loadByte storeByte rn rd rm)

end Sys2Proof.Machine
end

