-- ==== Sys2Proof/Machine/ThumbAlu.lean ====
section
/-! DEFINITION. THUMB register and ALU instructions: formats 1 to 5, 12 and 13 (47_thumb_alu.md). -/

namespace Sys2Proof.Machine

/-- A low register read. -/
def readLow (r : LowReg) (s : State) : Word := readReg (lowReg r) s

/-- A shift of a low register by an immediate (R750). -/
def thumbShiftImm (t : ShiftType) (offset5 : BitVec 5) (rs : LowReg) (s : State) : AluResult :=
  let x := shiftImmediate t (readLow rs s) offset5 s.cpsr.c
  logical x.1 x.2 s

/-- A shift of a low register by the low byte of another (R763). -/
def thumbShiftReg (t : ShiftType) (rs rd : LowReg) (s : State) : AluResult :=
  let x := shiftRegister t (readLow rd s) ((readLow rs s).setWidth 8) s.cpsr.c
  logical x.1 x.2 s

/-- LSL Rd, Rs, #offset5 (R750). -/
def execTLslImm (offset5 : BitVec 5) (rs rd : LowReg) : State → Result :=
  runThumb (fun s =>
    writeAndFlag (lowReg rd) (thumbShiftImm .lsl offset5 rs s) s)

/-- LSR Rd, Rs, #offset5 (R751). -/
def execTLsrImm (offset5 : BitVec 5) (rs rd : LowReg) : State → Result :=
  runThumb (fun s =>
    writeAndFlag (lowReg rd) (thumbShiftImm .lsr offset5 rs s) s)

/-- ASR Rd, Rs, #offset5 (R752). -/
def execTAsrImm (offset5 : BitVec 5) (rs rd : LowReg) : State → Result :=
  runThumb (fun s =>
    writeAndFlag (lowReg rd) (thumbShiftImm .asr offset5 rs s) s)

/-- ADD Rd, Rs, Rn (R753). -/
def execTAddReg (rn rs rd : LowReg) : State → Result :=
  runThumb (fun s =>
    writeAndFlag (lowReg rd) (addWithCarry (readLow rs s) (readLow rn s) false) s)

/-- SUB Rd, Rs, Rn (R754). -/
def execTSubReg (rn rs rd : LowReg) : State → Result :=
  runThumb (fun s =>
    writeAndFlag (lowReg rd) (subtract (readLow rs s) (readLow rn s)) s)

/-- ADD Rd, Rs, #imm3 (R755). -/
def execTAddImm3 (imm3 : BitVec 3) (rs rd : LowReg) : State → Result :=
  runThumb (fun s =>
    writeAndFlag (lowReg rd) (addWithCarry (readLow rs s) (imm3.setWidth 32) false) s)

/-- SUB Rd, Rs, #imm3 (R756). -/
def execTSubImm3 (imm3 : BitVec 3) (rs rd : LowReg) : State → Result :=
  runThumb (fun s =>
    writeAndFlag (lowReg rd) (subtract (readLow rs s) (imm3.setWidth 32)) s)

/-- MOV Rd, #imm8 (R757). -/
def execTMovImm8 (rd : LowReg) (imm8 : BitVec 8) : State → Result :=
  runThumb (fun s =>
    writeAndFlag (lowReg rd) (logical (imm8.setWidth 32) s.cpsr.c s) s)

/-- CMP Rd, #imm8 (R758). -/
def execTCmpImm8 (rd : LowReg) (imm8 : BitVec 8) : State → Result :=
  runThumb (fun s =>
    compareFlags (subtract (readLow rd s) (imm8.setWidth 32)) s)

/-- ADD Rd, #imm8 (R759). -/
def execTAddImm8 (rd : LowReg) (imm8 : BitVec 8) : State → Result :=
  runThumb (fun s =>
    writeAndFlag (lowReg rd) (addWithCarry (readLow rd s) (imm8.setWidth 32) false) s)

/-- SUB Rd, #imm8 (R760). -/
def execTSubImm8 (rd : LowReg) (imm8 : BitVec 8) : State → Result :=
  runThumb (fun s =>
    writeAndFlag (lowReg rd) (subtract (readLow rd s) (imm8.setWidth 32)) s)

/-- AND Rd, Rs (R761). -/
def execTAnd (rs rd : LowReg) : State → Result :=
  runThumb (fun s => writeAndFlag (lowReg rd) (logical (readLow rd s &&& readLow rs s) s.cpsr.c s) s)

/-- EOR Rd, Rs (R762). -/
def execTEor (rs rd : LowReg) : State → Result :=
  runThumb (fun s => writeAndFlag (lowReg rd) (logical (readLow rd s ^^^ readLow rs s) s.cpsr.c s) s)

/-- LSL Rd, Rs (R763). -/
def execTLslReg (rs rd : LowReg) : State → Result :=
  runThumb (fun s => writeAndFlag (lowReg rd) (thumbShiftReg .lsl rs rd s) s)

/-- LSR Rd, Rs (R764). -/
def execTLsrReg (rs rd : LowReg) : State → Result :=
  runThumb (fun s => writeAndFlag (lowReg rd) (thumbShiftReg .lsr rs rd s) s)

/-- ASR Rd, Rs (R765). -/
def execTAsrReg (rs rd : LowReg) : State → Result :=
  runThumb (fun s => writeAndFlag (lowReg rd) (thumbShiftReg .asr rs rd s) s)

/-- ADC Rd, Rs (R766). -/
def execTAdc (rs rd : LowReg) : State → Result :=
  runThumb (fun s => writeAndFlag (lowReg rd) (addWithCarry (readLow rd s) (readLow rs s) s.cpsr.c) s)

/-- SBC Rd, Rs (R767). -/
def execTSbc (rs rd : LowReg) : State → Result :=
  runThumb (fun s => writeAndFlag (lowReg rd) (subtractCarry (readLow rd s) (readLow rs s) s.cpsr.c) s)

/-- ROR Rd, Rs (R768). -/
def execTRorReg (rs rd : LowReg) : State → Result :=
  runThumb (fun s => writeAndFlag (lowReg rd) (thumbShiftReg .ror rs rd s) s)

/-- TST Rd, Rs (R769). -/
def execTTst (rs rd : LowReg) : State → Result :=
  runThumb (fun s => compareFlags (logical (readLow rd s &&& readLow rs s) s.cpsr.c s) s)

/-- NEG Rd, Rs (R770). -/
def execTNeg (rs rd : LowReg) : State → Result :=
  runThumb (fun s => writeAndFlag (lowReg rd) (subtract 0#32 (readLow rs s)) s)

/-- CMP Rd, Rs (R771). -/
def execTCmpReg (rs rd : LowReg) : State → Result :=
  runThumb (fun s => compareFlags (subtract (readLow rd s) (readLow rs s)) s)

/-- CMN Rd, Rs (R772). -/
def execTCmn (rs rd : LowReg) : State → Result :=
  runThumb (fun s => compareFlags (addWithCarry (readLow rd s) (readLow rs s) false) s)

/-- ORR Rd, Rs (R773). -/
def execTOrr (rs rd : LowReg) : State → Result :=
  runThumb (fun s => writeAndFlag (lowReg rd) (logical (readLow rd s ||| readLow rs s) s.cpsr.c s) s)

/-- MUL Rd, Rs (R774). -/
def execTMul (rs rd : LowReg) : State → Result :=
  runThumb (fun s => writeAndFlag (lowReg rd) (logical (readLow rs s * readLow rd s) s.cpsr.c s) s)

/-- BIC Rd, Rs (R775). -/
def execTBic (rs rd : LowReg) : State → Result :=
  runThumb (fun s => writeAndFlag (lowReg rd) (logical (readLow rd s &&& ~~~(readLow rs s)) s.cpsr.c s) s)

/-- MVN Rd, Rs (R776). -/
def execTMvn (rs rd : LowReg) : State → Result :=
  runThumb (fun s => writeAndFlag (lowReg rd) (logical (~~~(readLow rs s)) s.cpsr.c s) s)

/-- ADD Rd, Rs with any registers (R777). -/
def execTAddHi (rs rd : Reg) : State → Result :=
  runThumb (fun s => .next (writeReg rd (readReg rd s + readReg rs s) s))

/-- CMP Rd, Rs with any registers (R778). -/
def execTCmpHi (rs rd : Reg) : State → Result :=
  runThumb (fun s => compareFlags (subtract (readReg rd s) (readReg rs s)) s)

/-- MOV Rd, Rs with any registers (R779). -/
def execTMovHi (rs rd : Reg) : State → Result :=
  runThumb (fun s => .next (writeReg rd (readReg rs s) s))

/-- BX Rs; the destination field is ignored (R780). -/
def execTBx (rs : Reg) : State → Result :=
  runThumb (fun s => branchExchange (readReg rs s) s)

/-- ADD Rd, PC, #imm: the word-aligned PC (R781). -/
def execTAddPc (rd : LowReg) (imm8 : BitVec 8) : State → Result :=
  runThumb (fun s => .next (writeReg (lowReg rd) (alignWord s.r15 + scaledOffset imm8 2) s))

/-- ADD Rd, SP, #imm (R782). -/
def execTAddSp (rd : LowReg) (imm8 : BitVec 8) : State → Result :=
  runThumb (fun s => .next (writeReg (lowReg rd) (readReg 13#4 s + scaledOffset imm8 2) s))

/-- ADD SP, #imm (R783). -/
def execTAddSpImm (imm7 : BitVec 7) : State → Result :=
  runThumb (fun s => .next (writeReg 13#4 (readReg 13#4 s + scaledOffset imm7 2) s))

/-- SUB SP, #imm (R784). -/
def execTSubSpImm (imm7 : BitVec 7) : State → Result :=
  runThumb (fun s => .next (writeReg 13#4 (readReg 13#4 s - scaledOffset imm7 2) s))

end Sys2Proof.Machine
end

