-- ==== Sys2Proof/Machine/ThumbBranch.lean ====
section
/-! DEFINITION. THUMB branches, SWI and undefined halfwords: formats 16 to 19 (49_thumb_branch.md). -/

namespace Sys2Proof.Machine

/-- B<cond>: with its condition failed, only the pipeline advances (R850). -/
def execTBCond (c : Cond) (soffset8 : BitVec 8) : State → Result :=
  runThumb (fun s =>
    if conditionPasses c s.cpsr then .next (writeReg 15#4 (s.r15 + branchOffset soffset8 1) s) else .next s)

/-- SWI (R851). -/
def execTSwi : State → Result :=
  runThumb (raiseException .swi)

/-- B (R852). -/
def execTB (offset11 : BitVec 11) : State → Result :=
  runThumb (fun s => .next (writeReg 15#4 (s.r15 + branchOffset offset11 1) s))

/-- BL, first half: R14 gets the PC plus the high part of the offset (R862). -/
def execTBlFirst (offset11 : BitVec 11) : State → Result :=
  runThumb (fun s => .next (writeReg 14#4 (s.r15 + branchOffset offset11 12) s))

/-- BL, second half: the branch, and the link (A + 2) | 1 (R863). -/
def execTBlSecond (offset11 : BitVec 11) : State → Result :=
  runThumb (fun s =>
    .next (writeReg 15#4 (alignHalf (readReg 14#4 s + scaledOffset offset11 1))
      (writeReg 14#4 ((s.r15 - 2#32) ||| 1#32) s)))

/-- The undefined halfwords 0xDE00 to 0xDEFF (R864). -/
def execTUndefDE : State → Result :=
  runThumb (raiseException .undefined)

/-- The undefined halfwords 0xE800 to 0xEFFF (R864). -/
def execTUndefE8 : State → Result :=
  runThumb (raiseException .undefined)

/-- The undefined halfwords 0xB100 to 0xB1FF (R864). -/
def execTUndefB1 : State → Result :=
  runThumb (raiseException .undefined)

/-- The undefined halfwords 0xB200 to 0xB3FF (R864). -/
def execTUndefB2 : State → Result :=
  runThumb (raiseException .undefined)

/-- The undefined halfwords 0xB600 to 0xB7FF (R864). -/
def execTUndefB6 : State → Result :=
  runThumb (raiseException .undefined)

/-- The undefined halfwords 0xB800 to 0xBBFF (R864). -/
def execTUndefB8 : State → Result :=
  runThumb (raiseException .undefined)

/-- The undefined halfwords 0xBE00 to 0xBFFF (R864). -/
def execTUndefBE : State → Result :=
  runThumb (raiseException .undefined)

end Sys2Proof.Machine
end

