-- ==== Sys2Proof/Machine/ThumbMem.lean ====
section
/-! DEFINITION. THUMB load and store: formats 6 to 11, 14 and 15 (48_thumb_memory.md). -/

namespace Sys2Proof.Machine

/-- The register list of PUSH and of POP (R817, R818). -/
def pushList (r : Bool) (list : BitVec 8) : BitVec 16 := 0#1 ++ BitVec.ofBool r ++ 0#6 ++ list
def popList (r : Bool) (list : BitVec 8) : BitVec 16 := BitVec.ofBool r ++ 0#7 ++ list

/-- LDR Rd, [PC, #imm]: the word-aligned PC (R800). -/
def execTLdrPc (rd : LowReg) (imm8 : BitVec 8) : State → Result :=
  runThumb (fun s => thumbLoad loadWord (lowReg rd) (alignWord s.r15 + scaledOffset imm8 2) s)

/-- STR Rd, [Rb, Ro] (R801). -/
def execTStrReg (ro rb rd : LowReg) : State → Result :=
  runThumb (fun s => thumbStore storeWord (lowReg rd) (readLow rb s + readLow ro s) s)

/-- STRB Rd, [Rb, Ro] (R802). -/
def execTStrbReg (ro rb rd : LowReg) : State → Result :=
  runThumb (fun s => thumbStore storeByte (lowReg rd) (readLow rb s + readLow ro s) s)

/-- LDR Rd, [Rb, Ro] (R803). -/
def execTLdrReg (ro rb rd : LowReg) : State → Result :=
  runThumb (fun s => thumbLoad loadWord (lowReg rd) (readLow rb s + readLow ro s) s)

/-- LDRB Rd, [Rb, Ro] (R804). -/
def execTLdrbReg (ro rb rd : LowReg) : State → Result :=
  runThumb (fun s => thumbLoad loadByte (lowReg rd) (readLow rb s + readLow ro s) s)

/-- STRH Rd, [Rb, Ro] (R805). -/
def execTStrhReg (ro rb rd : LowReg) : State → Result :=
  runThumb (fun s => thumbStore storeHalf (lowReg rd) (readLow rb s + readLow ro s) s)

/-- LDSB Rd, [Rb, Ro] (R806). -/
def execTLdsbReg (ro rb rd : LowReg) : State → Result :=
  runThumb (fun s => thumbLoad loadSignedByte (lowReg rd) (readLow rb s + readLow ro s) s)

/-- LDRH Rd, [Rb, Ro] (R807). -/
def execTLdrhReg (ro rb rd : LowReg) : State → Result :=
  runThumb (fun s => thumbLoad loadHalf (lowReg rd) (readLow rb s + readLow ro s) s)

/-- LDSH Rd, [Rb, Ro] (R808). -/
def execTLdshReg (ro rb rd : LowReg) : State → Result :=
  runThumb (fun s => thumbLoad loadSignedHalf (lowReg rd) (readLow rb s + readLow ro s) s)

/-- STR Rd, [Rb, #imm] (R809). -/
def execTStrImm (offset5 : BitVec 5) (rb rd : LowReg) : State → Result :=
  runThumb (fun s => thumbStore storeWord (lowReg rd) (readLow rb s + scaledOffset offset5 2) s)

/-- LDR Rd, [Rb, #imm] (R810). -/
def execTLdrImm (offset5 : BitVec 5) (rb rd : LowReg) : State → Result :=
  runThumb (fun s => thumbLoad loadWord (lowReg rd) (readLow rb s + scaledOffset offset5 2) s)

/-- STRB Rd, [Rb, #imm] (R811). -/
def execTStrbImm (offset5 : BitVec 5) (rb rd : LowReg) : State → Result :=
  runThumb (fun s => thumbStore storeByte (lowReg rd) (readLow rb s + scaledOffset offset5 0) s)

/-- LDRB Rd, [Rb, #imm] (R812). -/
def execTLdrbImm (offset5 : BitVec 5) (rb rd : LowReg) : State → Result :=
  runThumb (fun s => thumbLoad loadByte (lowReg rd) (readLow rb s + scaledOffset offset5 0) s)

/-- STRH Rd, [Rb, #imm] (R813). -/
def execTStrhImm (offset5 : BitVec 5) (rb rd : LowReg) : State → Result :=
  runThumb (fun s => thumbStore storeHalf (lowReg rd) (readLow rb s + scaledOffset offset5 1) s)

/-- LDRH Rd, [Rb, #imm] (R814). -/
def execTLdrhImm (offset5 : BitVec 5) (rb rd : LowReg) : State → Result :=
  runThumb (fun s => thumbLoad loadHalf (lowReg rd) (readLow rb s + scaledOffset offset5 1) s)

/-- STR Rd, [SP, #imm] (R815). -/
def execTStrSp (rd : LowReg) (imm8 : BitVec 8) : State → Result :=
  runThumb (fun s => thumbStore storeWord (lowReg rd) (readReg 13#4 s + scaledOffset imm8 2) s)

/-- LDR Rd, [SP, #imm] (R816). -/
def execTLdrSp (rd : LowReg) (imm8 : BitVec 8) : State → Result :=
  runThumb (fun s => thumbLoad loadWord (lowReg rd) (readReg 13#4 s + scaledOffset imm8 2) s)

/-- PUSH: STMDB R13! of the low registers and, with R, R14 (R817). -/
def execTPush (r : Bool) (list : BitVec 8) : State → Result :=
  runThumb (storeMultiple readReg true false true 13#4 (pushList r list))

/-- POP: LDMIA R13! of the low registers and, with R, R15 (R818). -/
def execTPop (r : Bool) (list : BitVec 8) : State → Result :=
  runThumb (loadMultiple writeReg false true true 13#4 (popList r list))

/-- STMIA Rb! (R819). -/
def execTStmia (rb : LowReg) (list : BitVec 8) : State → Result :=
  runThumb (storeMultiple readReg false true true (lowReg rb) (list.setWidth 16))

/-- LDMIA Rb! (R820). -/
def execTLdmia (rb : LowReg) (list : BitVec 8) : State → Result :=
  runThumb (loadMultiple writeReg false true true (lowReg rb) (list.setWidth 16))

end Sys2Proof.Machine
end

