-- ==== Sys2Proof/Machine/Dispatch.lean ====
section
/-! DEFINITION. The meaning of each instruction, one arm per constructor (spec/opcode_table.json). -/

namespace Sys2Proof.Machine

/-- One instruction, with the end of the instruction: the pipeline's advance or refill (40_cpu_step.md R402). -/
def exec (i : Instr) (s : State) : Host.Outcome State Fault Refusal :=
  match i with
  | .bx c rn => Sys2Proof.Machine.execBx c rn s
  | .stmda c w rn list => Sys2Proof.Machine.execStmda c w rn list s
  | .stmia c w rn list => Sys2Proof.Machine.execStmia c w rn list s
  | .stmdb c w rn list => Sys2Proof.Machine.execStmdb c w rn list s
  | .stmib c w rn list => Sys2Proof.Machine.execStmib c w rn list s
  | .stmdaUser c w rn list => Sys2Proof.Machine.execStmdaUser c w rn list s
  | .stmiaUser c w rn list => Sys2Proof.Machine.execStmiaUser c w rn list s
  | .stmdbUser c w rn list => Sys2Proof.Machine.execStmdbUser c w rn list s
  | .stmibUser c w rn list => Sys2Proof.Machine.execStmibUser c w rn list s
  | .ldmda c w rn list => Sys2Proof.Machine.execLdmda c w rn list s
  | .ldmia c w rn list => Sys2Proof.Machine.execLdmia c w rn list s
  | .ldmdb c w rn list => Sys2Proof.Machine.execLdmdb c w rn list s
  | .ldmib c w rn list => Sys2Proof.Machine.execLdmib c w rn list s
  | .ldmdaUser c w rn list => Sys2Proof.Machine.execLdmdaUser c w rn list s
  | .ldmiaUser c w rn list => Sys2Proof.Machine.execLdmiaUser c w rn list s
  | .ldmdbUser c w rn list => Sys2Proof.Machine.execLdmdbUser c w rn list s
  | .ldmibUser c w rn list => Sys2Proof.Machine.execLdmibUser c w rn list s
  | .b c offset24 => Sys2Proof.Machine.execB c offset24 s
  | .bl c offset24 => Sys2Proof.Machine.execBl c offset24 s
  | .swi c _ => Sys2Proof.Machine.execSwi c s
  | .undefined c _ _ => Sys2Proof.Machine.execUndefined c s
  | .ldcStc c _ => Sys2Proof.Machine.execLdcStc c s
  | .cdpMcrMrc c _ => Sys2Proof.Machine.execCdpMcrMrc c s
  | .ldrt c u rn rd o => Sys2Proof.Machine.execLdrt c u rn rd o s
  | .strt c u rn rd o => Sys2Proof.Machine.execStrt c u rn rd o s
  | .ldrbt c u rn rd o => Sys2Proof.Machine.execLdrbt c u rn rd o s
  | .strbt c u rn rd o => Sys2Proof.Machine.execStrbt c u rn rd o s
  | .ldr c p u w rn rd o => Sys2Proof.Machine.execLdr c p u w rn rd o s
  | .ldrb c p u w rn rd o => Sys2Proof.Machine.execLdrb c p u w rn rd o s
  | .str c p u w rn rd o => Sys2Proof.Machine.execStr c p u w rn rd o s
  | .strb c p u w rn rd o => Sys2Proof.Machine.execStrb c p u w rn rd o s
  | .swp c rn rd rm => Sys2Proof.Machine.execSwp c rn rd rm s
  | .swpb c rn rd rm => Sys2Proof.Machine.execSwpb c rn rd rm s
  | .mul c sf rd _ rs rm => Sys2Proof.Machine.execMul c sf rd rs rm s
  | .mla c sf rd rn rs rm => Sys2Proof.Machine.execMla c sf rd rn rs rm s
  | .umull c sf hi lo rs rm => Sys2Proof.Machine.execUmull c sf hi lo rs rm s
  | .umlal c sf hi lo rs rm => Sys2Proof.Machine.execUmlal c sf hi lo rs rm s
  | .smull c sf hi lo rs rm => Sys2Proof.Machine.execSmull c sf hi lo rs rm s
  | .smlal c sf hi lo rs rm => Sys2Proof.Machine.execSmlal c sf hi lo rs rm s
  | .ldrh c p u w rn rd o => Sys2Proof.Machine.execLdrh c p u w rn rd o s
  | .strh c p u w rn rd o => Sys2Proof.Machine.execStrh c p u w rn rd o s
  | .ldrsb c p u w rn rd o => Sys2Proof.Machine.execLdrsb c p u w rn rd o s
  | .ldrsh c p u w rn rd o => Sys2Proof.Machine.execLdrsh c p u w rn rd o s
  | .mrsCpsr c rd => Sys2Proof.Machine.execMrsCpsr c rd s
  | .mrsSpsr c rd => Sys2Proof.Machine.execMrsSpsr c rd s
  | .msrCpsrReg c mask rm => Sys2Proof.Machine.execMsrCpsrReg c mask rm s
  | .msrSpsrReg c mask rm => Sys2Proof.Machine.execMsrSpsrReg c mask rm s
  | .msrCpsrImm c mask rot imm8 => Sys2Proof.Machine.execMsrCpsrImm c mask rot imm8 s
  | .msrSpsrImm c mask rot imm8 => Sys2Proof.Machine.execMsrSpsrImm c mask rot imm8 s
  | .unallocMulSpace c _ _ _ => Sys2Proof.Machine.execUnallocMulSpace c s
  | .unallocPsrSpace c _ _ _ => Sys2Proof.Machine.execUnallocPsrSpace c s
  | .and c sf rn rd op2 => Sys2Proof.Machine.execAnd c sf rn rd op2 s
  | .eor c sf rn rd op2 => Sys2Proof.Machine.execEor c sf rn rd op2 s
  | .sub c sf rn rd op2 => Sys2Proof.Machine.execSub c sf rn rd op2 s
  | .rsb c sf rn rd op2 => Sys2Proof.Machine.execRsb c sf rn rd op2 s
  | .add c sf rn rd op2 => Sys2Proof.Machine.execAdd c sf rn rd op2 s
  | .adc c sf rn rd op2 => Sys2Proof.Machine.execAdc c sf rn rd op2 s
  | .sbc c sf rn rd op2 => Sys2Proof.Machine.execSbc c sf rn rd op2 s
  | .rsc c sf rn rd op2 => Sys2Proof.Machine.execRsc c sf rn rd op2 s
  | .tst c rn _ op2 => Sys2Proof.Machine.execTst c rn op2 s
  | .teq c rn _ op2 => Sys2Proof.Machine.execTeq c rn op2 s
  | .cmp c rn _ op2 => Sys2Proof.Machine.execCmp c rn op2 s
  | .cmn c rn _ op2 => Sys2Proof.Machine.execCmn c rn op2 s
  | .orr c sf rn rd op2 => Sys2Proof.Machine.execOrr c sf rn rd op2 s
  | .mov c sf _ rd op2 => Sys2Proof.Machine.execMov c sf rd op2 s
  | .bic c sf rn rd op2 => Sys2Proof.Machine.execBic c sf rn rd op2 s
  | .mvn c sf _ rd op2 => Sys2Proof.Machine.execMvn c sf rd op2 s
  | .tLslImm offset5 rs rd => Sys2Proof.Machine.execTLslImm offset5 rs rd s
  | .tLsrImm offset5 rs rd => Sys2Proof.Machine.execTLsrImm offset5 rs rd s
  | .tAsrImm offset5 rs rd => Sys2Proof.Machine.execTAsrImm offset5 rs rd s
  | .tAddReg rn rs rd => Sys2Proof.Machine.execTAddReg rn rs rd s
  | .tSubReg rn rs rd => Sys2Proof.Machine.execTSubReg rn rs rd s
  | .tAddImm3 imm3 rs rd => Sys2Proof.Machine.execTAddImm3 imm3 rs rd s
  | .tSubImm3 imm3 rs rd => Sys2Proof.Machine.execTSubImm3 imm3 rs rd s
  | .tMovImm8 rd imm8 => Sys2Proof.Machine.execTMovImm8 rd imm8 s
  | .tCmpImm8 rd imm8 => Sys2Proof.Machine.execTCmpImm8 rd imm8 s
  | .tAddImm8 rd imm8 => Sys2Proof.Machine.execTAddImm8 rd imm8 s
  | .tSubImm8 rd imm8 => Sys2Proof.Machine.execTSubImm8 rd imm8 s
  | .tAnd rs rd => Sys2Proof.Machine.execTAnd rs rd s
  | .tEor rs rd => Sys2Proof.Machine.execTEor rs rd s
  | .tLslReg rs rd => Sys2Proof.Machine.execTLslReg rs rd s
  | .tLsrReg rs rd => Sys2Proof.Machine.execTLsrReg rs rd s
  | .tAsrReg rs rd => Sys2Proof.Machine.execTAsrReg rs rd s
  | .tAdc rs rd => Sys2Proof.Machine.execTAdc rs rd s
  | .tSbc rs rd => Sys2Proof.Machine.execTSbc rs rd s
  | .tRorReg rs rd => Sys2Proof.Machine.execTRorReg rs rd s
  | .tTst rs rd => Sys2Proof.Machine.execTTst rs rd s
  | .tNeg rs rd => Sys2Proof.Machine.execTNeg rs rd s
  | .tCmpReg rs rd => Sys2Proof.Machine.execTCmpReg rs rd s
  | .tCmn rs rd => Sys2Proof.Machine.execTCmn rs rd s
  | .tOrr rs rd => Sys2Proof.Machine.execTOrr rs rd s
  | .tMul rs rd => Sys2Proof.Machine.execTMul rs rd s
  | .tBic rs rd => Sys2Proof.Machine.execTBic rs rd s
  | .tMvn rs rd => Sys2Proof.Machine.execTMvn rs rd s
  | .tAddHi rs rd => Sys2Proof.Machine.execTAddHi rs rd s
  | .tCmpHi rs rd => Sys2Proof.Machine.execTCmpHi rs rd s
  | .tMovHi rs rd => Sys2Proof.Machine.execTMovHi rs rd s
  | .tBx rs _ => Sys2Proof.Machine.execTBx rs s
  | .tLdrPc rd imm8 => Sys2Proof.Machine.execTLdrPc rd imm8 s
  | .tStrReg ro rb rd => Sys2Proof.Machine.execTStrReg ro rb rd s
  | .tStrbReg ro rb rd => Sys2Proof.Machine.execTStrbReg ro rb rd s
  | .tLdrReg ro rb rd => Sys2Proof.Machine.execTLdrReg ro rb rd s
  | .tLdrbReg ro rb rd => Sys2Proof.Machine.execTLdrbReg ro rb rd s
  | .tStrhReg ro rb rd => Sys2Proof.Machine.execTStrhReg ro rb rd s
  | .tLdsbReg ro rb rd => Sys2Proof.Machine.execTLdsbReg ro rb rd s
  | .tLdrhReg ro rb rd => Sys2Proof.Machine.execTLdrhReg ro rb rd s
  | .tLdshReg ro rb rd => Sys2Proof.Machine.execTLdshReg ro rb rd s
  | .tStrImm offset5 rb rd => Sys2Proof.Machine.execTStrImm offset5 rb rd s
  | .tLdrImm offset5 rb rd => Sys2Proof.Machine.execTLdrImm offset5 rb rd s
  | .tStrbImm offset5 rb rd => Sys2Proof.Machine.execTStrbImm offset5 rb rd s
  | .tLdrbImm offset5 rb rd => Sys2Proof.Machine.execTLdrbImm offset5 rb rd s
  | .tStrhImm offset5 rb rd => Sys2Proof.Machine.execTStrhImm offset5 rb rd s
  | .tLdrhImm offset5 rb rd => Sys2Proof.Machine.execTLdrhImm offset5 rb rd s
  | .tStrSp rd imm8 => Sys2Proof.Machine.execTStrSp rd imm8 s
  | .tLdrSp rd imm8 => Sys2Proof.Machine.execTLdrSp rd imm8 s
  | .tAddPc rd imm8 => Sys2Proof.Machine.execTAddPc rd imm8 s
  | .tAddSp rd imm8 => Sys2Proof.Machine.execTAddSp rd imm8 s
  | .tAddSpImm imm7 => Sys2Proof.Machine.execTAddSpImm imm7 s
  | .tSubSpImm imm7 => Sys2Proof.Machine.execTSubSpImm imm7 s
  | .tPush r list => Sys2Proof.Machine.execTPush r list s
  | .tPop r list => Sys2Proof.Machine.execTPop r list s
  | .tStmia rb list => Sys2Proof.Machine.execTStmia rb list s
  | .tLdmia rb list => Sys2Proof.Machine.execTLdmia rb list s
  | .tUndefDE _ => Sys2Proof.Machine.execTUndefDE s
  | .tUndefE8 _ => Sys2Proof.Machine.execTUndefE8 s
  | .tUndefB1 _ => Sys2Proof.Machine.execTUndefB1 s
  | .tUndefB2 _ => Sys2Proof.Machine.execTUndefB2 s
  | .tUndefB6 _ => Sys2Proof.Machine.execTUndefB6 s
  | .tUndefB8 _ => Sys2Proof.Machine.execTUndefB8 s
  | .tUndefBE _ => Sys2Proof.Machine.execTUndefBE s
  | .tSwi _ => Sys2Proof.Machine.execTSwi s
  | .tBCond c soffset8 => Sys2Proof.Machine.execTBCond c soffset8 s
  | .tB offset11 => Sys2Proof.Machine.execTB offset11 s
  | .tBlFirst offset11 => Sys2Proof.Machine.execTBlFirst offset11 s
  | .tBlSecond offset11 => Sys2Proof.Machine.execTBlSecond offset11 s

end Sys2Proof.Machine
end

