-- ==== Sys2Proof/Machine/Ppu.lean ====
section
/-! DEFINITION. The picture processor (63_ppu.md): timing and status, backgrounds, sprites, composition. -/

namespace Sys2Proof.Machine

/-! ## What the renderer reads (R1105) -/

/-- A VRAM byte, with the bus's fold. -/
def vram8 (s : State) (o : Nat) : Byte := Memory.read s.mem (Region.vram.base + vramOffset o)

/-- A VRAM halfword. -/
def vram16 (s : State) (o : Nat) : Half := vram8 s (o + 1) ++ vram8 s o

/-- A palette halfword. -/
def pram16 (s : State) (o : Nat) : Half :=
  Memory.read s.mem (Region.pram.base + o + 1) ++ Memory.read s.mem (Region.pram.base + o)

/-- A halfword of the OAM snapshot. -/
def oams16 (s : State) (o : Nat) : Half := Memory.read s.ppu.oamSnap (o + 1) ++ Memory.read s.ppu.oamSnap o

/-- A field of a halfword as a number. -/
def fieldOf (h : Half) (lo len : Nat) : Nat := (h.extractLsb' lo len).toNat

/-- The display mode (61_io_registers.md R961). -/
def displayMode (s : State) : Nat := fieldOf s.ppu.dispcnt 0 3

/-- The low or high four bits of a byte of 16-colour pixels: the even pixel is the low one (R1109, R1119). -/
def nibbleOf (b : Byte) (x : Nat) : Nat := if x % 2 = 0 then b.toNat % 16 else b.toNat / 16

/-! ## Backgrounds -/

/-- The character and screen base of a layer (R964, R1109). -/
def charBase (cnt : Half) : Nat := fieldOf cnt 2 2 * 0x4000
def screenBase (cnt : Half) : Nat := fieldOf cnt 8 5 * 0x800

/-- A text background's pixel: its colour, none where transparent (R1109, R1110). -/
def bgText (l : Fin 4) (x y : Nat) (s : State) : Option Half :=
  let cnt := s.ppu.bgcnt.get l
  let w := if fieldOf cnt 14 1 = 1 then 512 else 256
  let h := if fieldOf cnt 15 1 = 1 then 512 else 256
  let px := (x + (s.ppu.bghofs.get l).toNat) % w
  let py := (y + (s.ppu.bgvofs.get l).toNat) % h
  let blk := px / 256 + (py / 256) * (w / 256)
  let e := vram16 s (screenBase cnt + blk * 0x800 + (py % 256 / 8) * 64 + (px % 256 / 8) * 2)
  let tile := fieldOf e 0 10
  let bank := fieldOf e 12 4
  let tx := if e.getLsbD 10 then 7 - px % 8 else px % 8
  let ty := if e.getLsbD 11 then 7 - py % 8 else py % 8
  if cnt.getLsbD 7 then
    let idx := (vram8 s (charBase cnt + tile * 64 + ty * 8 + tx)).toNat
    if idx = 0 then none else some (pram16 s (2 * idx))
  else
    let idx := nibbleOf (vram8 s (charBase cnt + tile * 32 + ty * 4 + tx / 2)) tx
    if idx = 0 then none else some (pram16 s (2 * (bank * 16 + idx)))

/-- A rotation/scale parameter and a reference point as integers (R966, R1111). -/
def param (h : Half) : Int := h.toInt
def refPoint (w : Word) : Int := (w.extractLsb' 0 28).toInt

/-- A coordinate brought into a layer of size `n`: wrapped with the wrap bit, none outside without it (R1111). -/
def wrapCoord (wrap : Bool) (n : Nat) (t : Int) : Option Nat :=
  if 0 ≤ t ∧ t < n then some t.toNat else if wrap then some (t % n).toNat else none

/-- The rotation/scale background of mode 1 (R1111). -/
def bgAffine (x y : Nat) (s : State) : Option Half :=
  let cnt := s.ppu.bgcnt.get 2
  let a := s.ppu.bg2
  let size := 128 * 2 ^ fieldOf cnt 14 2
  let u : Int := param a.pa * x + param a.pb * y + refPoint a.x
  let v : Int := param a.pc * x + param a.pd * y + refPoint a.y
  match wrapCoord (cnt.getLsbD 13) size (u / 256), wrapCoord (cnt.getLsbD 13) size (v / 256) with
  | some tu, some tv =>
    let tile := (vram8 s (screenBase cnt + (tv / 8) * (size / 8) + tu / 8)).toNat
    let idx := (vram8 s (charBase cnt + tile * 64 + (tv % 8) * 8 + tu % 8)).toNat
    if idx = 0 then none else some (pram16 s (2 * idx))
  | _, _ => none

/-- The direct-colour bitmap of mode 3, always opaque (R1112). -/
def bgMode3 (x y : Nat) (s : State) : Option Half := some (vram16 s (2 * (240 * y + x)))

/-- The paletted bitmap of mode 4 (R1113). -/
def bgMode4 (x y : Nat) (s : State) : Option Half :=
  let base := if s.ppu.dispcnt.getLsbD 4 then 0xA000 else 0
  let idx := (vram8 s (base + 240 * y + x)).toNat
  if idx = 0 then none else some (pram16 s (2 * idx))

/-- The layers of a mode (R1108). -/
def layersOf (mode : Nat) : List (Fin 4) :=
  match mode with
  | 0 => [0, 1, 2, 3]
  | 1 => [0, 1, 2]
  | 3 => [2]
  | 4 => [2]
  | _ => []

/-- The pixel of a layer in a mode (R1108). -/
def bgPixel (mode : Nat) (l : Fin 4) (x y : Nat) (s : State) : Option Half :=
  match mode with
  | 0 => bgText l x y s
  | 1 => if l = 2 then bgAffine x y s else bgText l x y s
  | 3 => bgMode3 x y s
  | 4 => bgMode4 x y s
  | _ => none

/-- A layer's priority (R964). -/
def bgPriority (s : State) (l : Fin 4) : Nat := fieldOf (s.ppu.bgcnt.get l) 0 2

/-- The layers of a mode by ascending priority, then ascending number (R1106). -/
def orderedLayers (mode : Nat) (s : State) : List (Fin 4) :=
  let at' (p : Nat) := (layersOf mode).filter (fun l => bgPriority s l = p)
  at' 0 ++ (at' 1 ++ (at' 2 ++ at' 3))

/-! ## Sprites -/

/-- The width and height of a sprite by shape and size; none for shape 3 (R1116, D60). -/
def spriteSize (shape size : Nat) : Option (Nat × Nat) :=
  match shape, size with
  | 0, 0 => some (8, 8)
  | 0, 1 => some (16, 16)
  | 0, 2 => some (32, 32)
  | 0, _ => some (64, 64)
  | 1, 0 => some (16, 8)
  | 1, 1 => some (32, 8)
  | 1, 2 => some (32, 16)
  | 1, _ => some (64, 32)
  | 2, 0 => some (8, 16)
  | 2, 1 => some (8, 32)
  | 2, 2 => some (16, 32)
  | 2, _ => some (32, 64)
  | _, _ => none

/-- The offset of the sprite tiles (R1118). -/
def objOrigin (s : State) : Nat := if displayMode s = 3 ∨ displayMode s = 4 then 0x14000 else 0x10000

/-- `SpritePixel`: the palette index, and the colour (R1119). -/
def spritePixel (a0 a2 : Half) (sx sy w : Nat) (s : State) : Nat × Half :=
  let n := fieldOf a2 0 10
  let tcx := sx / 8
  let tcy := sy / 8
  let px := sx % 8
  let py := sy % 8
  let oneD := s.ppu.dispcnt.getLsbD 6
  if a0.getLsbD 13 then
    let t := n / 2 + tcy * (if oneD then w / 8 else 16) + tcx
    let idx := (vram8 s (objOrigin s + 64 * t + 8 * py + px)).toNat
    (idx, pram16 s (0x200 + 2 * idx))
  else
    let t := n + tcy * (if oneD then w / 8 else 32) + tcx
    let idx := nibbleOf (vram8 s (objOrigin s + 32 * t + 4 * py + px / 2)) px
    (idx, pram16 s (0x200 + 2 * (fieldOf a2 12 4 * 16 + idx)))

/-- A coordinate inside a sprite. -/
def insideObj (t : Int) (n : Nat) : Option Nat := if 0 ≤ t ∧ t < n then some t.toNat else none

/-- The object-space point of a screen point, with (dx, dy) the point less the rectangle's corner: by flip, or by the parameter
group around the centre (R1115, R1117). -/
def objPoint (a0 a1 : Half) (w h bw bh : Nat) (dx dy : Nat) (s : State) : Option (Nat × Nat) :=
  if a0.getLsbD 8 then
    let g := fieldOf a1 9 5
    let pa := param (oams16 s (0x06 + 0x20 * g))
    let pb := param (oams16 s (0x0E + 0x20 * g))
    let pc := param (oams16 s (0x16 + 0x20 * g))
    let pd := param (oams16 s (0x1E + 0x20 * g))
    let cx : Int := (dx : Int) - (bw / 2 : Nat)
    let cy : Int := (dy : Int) - (bh / 2 : Nat)
    match insideObj ((pa * cx + pb * cy) / 256 + (w / 2 : Nat)) w, insideObj ((pc * cx + pd * cy) / 256 + (h / 2 : Nat)) h with
    | some sx, some sy => some (sx, sy)
    | _, _ => none
  else
    some (if a1.getLsbD 12 then w - 1 - dx else dx, if a1.getLsbD 13 then h - 1 - dy else dy)

/-- What sprite `k` draws at a screen point: the colour and the priority, none where it draws nothing (R1117, D61, D64). -/
def spriteAt (k x y : Nat) (s : State) : Option (Half × Nat) :=
  let a0 := oams16 s (8 * k)
  let a1 := oams16 s (8 * k + 2)
  let a2 := oams16 s (8 * k + 4)
  let rot := a0.getLsbD 8
  if rot = false ∧ a0.getLsbD 9 = true then none
  else
    match spriteSize (fieldOf a0 14 2) (fieldOf a1 14 2) with
    | none => none
    | some (w, h) =>
      let double := rot && a0.getLsbD 9
      let bw := if double then 2 * w else w
      let bh := if double then 2 * h else h
      let y0 : Int := if 160 ≤ fieldOf a0 0 8 then (fieldOf a0 0 8 : Int) - 256 else fieldOf a0 0 8
      let x0 : Int := (a1.extractLsb' 0 9).toInt
      match insideObj (x - x0) bw, insideObj (y - y0) bh with
      | some dx, some dy =>
        match objPoint a0 a1 w h bw bh dx dy s with
        | none => none
        | some (sx, sy) =>
          let p := spritePixel a0 a2 sx sy w s
          if p.1 = 0 then none else some (p.2, fieldOf a2 10 2)
      | _, _ => none

/-- `Place`: a drawn pixel replaces the present one only at a strictly higher priority (R1120). -/
def placeObj (cur new : Option (Half × Nat)) : Option (Half × Nat) :=
  match cur, new with
  | none, n => n
  | some c, some n => if n.2 < c.2 then some n else some c
  | some c, none => some c

/-- The sprite pixel at a screen point, the 128 entries visited in index order (R1106, R1117; per pixel, log entry 16). -/
def objPixel (x y : Nat) (s : State) : Option Half :=
  ((List.range 128).foldl (fun cur k => placeObj cur (spriteAt k x y s)) none).map Prod.fst

/-! ## Composition -/

/-- A colour in the frame buffer's format (R1107). -/
def pixelOf (c : Half) : Pixel :=
  { r := Config.colour5to8 (c.extractLsb' 0 5), g := Config.colour5to8 (c.extractLsb' 5 5),
    b := Config.colour5to8 (c.extractLsb' 10 5), a := 0xFF#8 }

/-- The colour at a screen point: the sprite pixel, else the first opaque background, else the backdrop (R1106). -/
def composed (x y : Nat) (s : State) : Half :=
  match objPixel x y s with
  | some c => c
  | none =>
    match (orderedLayers (displayMode s) s).findSome? (fun l => bgPixel (displayMode s) l x y s) with
    | some c => c
    | none => pram16 s 0

/-- `n` pixels of free bytes, drawn in ascending address order (R1114). -/
def drawPixels : Nat → State → List Pixel × State
  | 0, s => ([], s)
  | n + 1, s =>
    let r := draw s
    let g := draw r.2
    let b := draw g.2
    let a := draw b.2
    let rest := drawPixels n a.2
    (⟨r.1, g.1, b.1, a.1⟩ :: rest.1, rest.2)

/-- A line put into the list of rendered lines. -/
def putLine (y : Nat) (ps : List Pixel) : List (Nat × List Pixel) → List (Nat × List Pixel)
  | [] => [(y, ps)]
  | (k, qs) :: rest =>
    if y < k then (y, ps) :: (k, qs) :: rest
    else if y = k then (y, ps) :: rest
    else (k, qs) :: putLine y ps rest

/-- `RenderLine` (R1106, R1114). -/
def renderLine (y : Nat) (s : State) : State :=
  let m := displayMode s
  let x :=
    if m = 2 ∨ 5 ≤ m then drawPixels 240 s
    else ((List.range 240).map (fun x => pixelOf (composed x y s)), s)
  setPpu { x.2.ppu with frame := putLine y x.1 x.2.ppu.frame } x.2

/-- The pixels of a rendered line. -/
def frameLine (y : Nat) : List (Nat × List Pixel) → Option (List Pixel)
  | [] => none
  | (k, ps) :: rest => if k = y then some ps else frameLine y rest

/-- Byte `c` (0 R, 1 G, 2 B, 3 A) of a pixel. -/
def pixelByte (p : Pixel) (c : Nat) : Byte :=
  match c with
  | 0 => p.r | 1 => p.g | 2 => p.b | _ => p.a

/-- Byte `k` of the frame buffer, k = 4·(240·y + x) + c; free where line y has not been rendered (R1107, D65; log entry 2). -/
def frameByte (s : State) (k : Nat) : Byte :=
  match frameLine (k / 960) s.ppu.frame with
  | none => Config.freeFrameByte k
  | some ps =>
    match ps[k % 960 / 4]? with
    | some p => pixelByte p (k % 4)
    | none => Config.freeFrameByte k

/-! ## Timing and status -/

/-- `OamSnapshot`: the bytes of OAM by offset (R1104). -/
def oamSnapshot (s : State) : State :=
  let cells := s.mem.filter (fun c => decide (Region.oam.base ≤ c.1 ∧ c.1 < Region.oam.base + 0x400))
  setPpu { s.ppu with oamSnap := cells.map (fun c => (c.1 - Region.oam.base, c.2)) } s

/-- `Rise`: a flag going 0→1 raises its interrupt if enabled, and triggers the waiting channels of its start condition (R1102,
R1103). -/
def statusRise (prev new enable : Bool) (ifBit : Nat) (start : Option DmaStart) (s : State) : State :=
  if prev = false ∧ new = true then
    let s1 := if enable then raiseIrq ifBit s else s
    match start with
    | none => s1
    | some d => triggerAll (fun i t => decide ((getDma i t).start = d)) s1
  else s

/-- The three flags in bits 2:0 of DISPSTAT. -/
def withFlags (dispstat : Half) (vb hb vm : Bool) : Half :=
  (dispstat &&& 0xFFF8#16) ||| (0#13 ++ BitVec.ofBool vm ++ BitVec.ofBool hb ++ BitVec.ofBool vb)

/-- `UpdateStatus` (R1102). -/
def updateStatus (s : State) : State :=
  let d := s.ppu.dispstat
  let vb := decide (160 ≤ s.ppu.vcount)
  let hb := decide (960 ≤ s.ppu.lc)
  let vm := decide (s.ppu.vcount = fieldOf d 8 8)
  let s1 := statusRise (d.getLsbD 0) vb (d.getLsbD 3) 0 (some .vblank) s
  let s2 := statusRise (d.getLsbD 1) hb (d.getLsbD 4) 1 (some .hblank) s1
  let s3 := statusRise (d.getLsbD 2) vm (d.getLsbD 5) 2 none s2
  setPpu { s3.ppu with dispstat := withFlags d vb hb vm } s3

/-- The wrap at the end of a line (R1101). -/
def lineWrap (s : State) : State :=
  if s.ppu.lc = 1232 then
    let v := (s.ppu.vcount + 1) % 228
    let s1 := setPpu { s.ppu with lc := 0, vcount := v } s
    if v = 0 then oamSnapshot s1 else s1
  else s

/-- `PpuStep` (R1101). -/
def ppuStep (s : State) : State :=
  let s1 := setPpu { s.ppu with lc := s.ppu.lc + 1 } s
  let s2 := if s1.ppu.lc = 960 ∧ s1.ppu.vcount < 160 then renderLine s1.ppu.vcount s1 else s1
  updateStatus (lineWrap s2)

end Sys2Proof.Machine
end

