-- ==== Sys2Proof/Machine/Timers.lean ====
section
/-! DEFINITION. The timers (64_timers.md). -/

namespace Sys2Proof.Machine

/-- The prescaler's divisor (64_timers.md R1201). -/
def prescaler (ctl : Half) : Nat :=
  match (ctl.extractLsb' 0 2).toNat with
  | 0 => 1 | 1 => 64 | 2 => 256 | _ => 1024

/-- A FIFO popped where a bit of SOUNDCNT_H selects timer `i` (R1203). -/
def popIfSelected (id : FifoId) (b : Nat) (i : Fin 4) (s : State) : State :=
  if (s.sound.cntH.getLsbD b).toNat = i.val then setFifo id (popByte (getFifo id s)) s else s

/-- `FifoTick`, for timers 0 and 1 only (R1202, R1203). -/
def fifoTick (i : Fin 4) (s : State) : State :=
  if i = 0 ∨ i = 1 then popIfSelected .b 14 i (popIfSelected .a 10 i s) else s

/-- A timer that counts the overflows of the one before it: enabled, with the cascade bit (R1202, D50). -/
def cascades (t : Timer) : Bool := t.ctl.getLsbD 2 && t.ctl.getLsbD 7

/-- An overflow but for its cascade: reload, IF bit, FIFO pops (R1202). -/
def timerOverflow (i : Fin 4) (s : State) : State :=
  let t := getTimer i s
  let s1 := setTimer i { t with counter := t.reload } s
  fifoTick i (if t.ctl.getLsbD 6 then raiseIrq (3 + i.val) s1 else s1)

/-- `Tick` of the first timer of a chain of linked timers; an overflow ticks the next one where it cascades (R1201, R1202). -/
def timerTick : List (Fin 4) → State → State
  | [], s => s
  | i :: rest, s =>
    let t := getTimer i s
    if t.counter = 0xFFFF#16 then
      let s1 := timerOverflow i s
      match rest with
      | [] => s1
      | j :: _ => if cascades (getTimer j s1) then timerTick rest s1 else s1
    else setTimer i { t with counter := t.counter + 1#16 } s

/-- A timer and the timers its forward links reach (R1200). -/
def timerChain (i : Fin 4) : List (Fin 4) :=
  match i with
  | 0 => [0, 1, 2, 3]
  | 1 => [1, 2, 3]
  | 2 => [2, 3]
  | 3 => [3]

/-- `TimerStep` (R1201). -/
def timerStep (i : Fin 4) (s : State) : State :=
  let t := getTimer i s
  if t.ctl.getLsbD 7 = true ∧ t.ctl.getLsbD 2 = false then
    if prescaler t.ctl ≤ t.acc + 1 then timerTick (timerChain i) (setTimer i { t with acc := 0 } s)
    else setTimer i { t with acc := t.acc + 1 } s
  else s

/-- The four timers of a master cycle, in order (65_system.md R1251). -/
def timersStep (s : State) : State := timerStep 3 (timerStep 2 (timerStep 1 (timerStep 0 s)))

end Sys2Proof.Machine
end

