-- ==== Sys2Proof/Machine/System.lean ====
section
/-! DEFINITION. The processor step, the DMA step, the master cycle, and the host interface (40_cpu_step.md, 62_dma.md,
65_system.md, 70_reset_and_hazards.md). -/

namespace Sys2Proof.Machine

/-! ## The processor step -/

/-- The interrupt check (60_exceptions.md R905). -/
def irqPending (s : State) : Bool := !s.cpsr.i && s.irq.ime.getLsbD 0 && decide (s.irq.ie &&& s.irq.ifl ≠ 0#16)

/-- The instruction in the decode slot, read in the current state (40_cpu_step.md R402). -/
def currentInstr (s : State) : Instr :=
  if s.cpsr.t then decodeThumb (s.pipeDecode.setWidth 16) else decodeArm s.pipeDecode

/-- An interrupt entry takes the place of the instruction in the step (R402, D10). -/
def enterIrq (s : State) : State := finish (enterException .irq s)

/-- `CpuStep` (R402). -/
def cpuStep (s : State) : Result := if irqPending s then .next (enterIrq s) else exec (currentInstr s) s

/-! ## The DMA step -/

/-- The copy of one unit: a read and a write, each one transaction, at aligned addresses (62_dma.md R1006, D41). -/
def dmaCopy (c : DmaChannel) (s : State) : State :=
  match c.size with
  | .word =>
    let x := read32 (alignWord c.curSrc) s
    write32 (alignWord c.curDst) x.1 x.2
  | .half =>
    let x := read16 (alignHalf c.curSrc) s
    write16 (alignHalf c.curDst) x.1 x.2

/-- `DmaStep` (R1006). -/
def dmaStep (i : Fin 4) (s : State) : State := dmaUnitDone i (dmaCopy (getDma i s) s)

/-! ## The master cycle -/

/-- The first phase of a master cycle: the Active channel, else the processor (65_system.md R1251). -/
def busMasterStep (s : State) : Result :=
  match activeChannel s with
  | some i => .next (dmaStep i s)
  | none => cpuStep s

/-- The phases after it: promotion, picture processor, timers (R1251). The sound step changes no state of the block (D69). -/
def peripheralStep (s : State) : State := timersStep (ppuStep (dmaPromote s))

/-- `MasterCycle` (R1251). A fault stops the machine in the cycle it occurs (R1253). -/
def masterCycle (s : State) : Result := andThen (busMasterStep s) (fun t => .next (peripheralStep t))

/-! ## Keypad -/

/-- The ten logical keys (R1254). -/
inductive Key where
  | a | b | select | start | right | left | up | down | r | l
deriving DecidableEq, Repr

/-- The KEYINPUT bit of a key (R1254, D66). -/
def keyBit : Key → Nat
  | .a => 0 | .b => 1 | .select => 2 | .start => 3 | .right => 4 | .left => 5 | .up => 6 | .down => 7 | .r => 8 | .l => 9

/-- The bits of a set of keys. -/
def keyMask : List Key → BitVec 10
  | [] => 0#10
  | k :: ks => (1#10 <<< keyBit k) ||| keyMask ks

/-- The keypad interrupt condition, on the keys newly pressed (R1256). -/
def keypadIrq (old new : BitVec 10) (keycnt : Half) : Bool :=
  let sel := keycnt.extractLsb' 0 10
  let newly := old &&& ~~~new
  keycnt.getLsbD 14 && decide (newly &&& sel ≠ 0#10) && (!keycnt.getLsbD 15 || decide (~~~new &&& sel = sel))

/-- `UpdateKeys` (R1255, R1256). -/
def updateKeys (keys : List Key) (s : State) : State :=
  let old := s.keypad.keyinput
  let new := 0x3FF#10 &&& ~~~keyMask keys
  let s1 := { s with keypad := { s.keypad with keyinput := new } }
  if keypadIrq old new s.keypad.keycnt then raiseIrq 12 s1 else s1

/-! ## Host interface -/

/-- The core as constructed, before `start()` (10_state.md R122, 70_reset_and_hazards.md R1301). -/
def constructed : State :=
  { State.reset with
    regs := #v[
      0#32, 0#32, 0#32, 0#32, 0#32, 0#32, 0#32, 0#32, 0#32, 0#32, 0#32, 0#32, 0#32, 0#32, 0#32,
      0#32, 0#32, 0#32, 0#32, 0#32, 0#32, 0#32, 0#32, 0#32, 0#32, 0#32, 0#32, 0#32, 0#32, 0#32]
    r15 := 0#32
    started := false }

/-- `load_bios`: the BIOS region becomes the image, clamped to 16 KiB, and 0 past it (65_system.md R1258, D28). The rule has one load
before `start()`; that a repeated load replaces the whole region is the model's choice (DESIGN CHOICE, log entry 25). -/
def loadBios (bytes : List Byte) (s : State) : State := { s with mem := Memory.install s.mem Region.bios.base 0x4000 bytes }

/-- The tags of the backup scan: "SRAM" and "FLASH1M" in ASCII. -/
def sramTag : List Byte := [0x53#8, 0x52#8, 0x41#8, 0x4D#8]
def flashTag : List Byte := [0x46#8, 0x4C#8, 0x41#8, 0x53#8, 0x48#8, 0x31#8, 0x4D#8]

/-- `BACKUP_KIND`: Flash where "FLASH1M" occurs before any "SRAM", SRAM otherwise (20_memory.md R216, D29). -/
def scanBackup : List Byte → BackupKind
  | [] => .sram
  | b :: rest =>
    if flashTag.isPrefixOf (b :: rest) then .flash128k
    else if sramTag.isPrefixOf (b :: rest) then .sram
    else scanBackup rest

/-- `load_rom`: cartridge ROM becomes the image, clamped to 32 MiB, and 0 past it, and the image selects the backup device (R1258,
R216, D28, D29). That a repeated load replaces image and device is the model's choice (DESIGN CHOICE, log entry 25). -/
def loadRom (bytes : List Byte) (s : State) : State :=
  { s with
    mem := Memory.install s.mem Region.rom.base 0x2000000 bytes
    backup := { s.backup with kind := scanBackup (bytes.take 0x2000000) } }

/-- `start()` (70_reset_and_hazards.md R1300). -/
def start (s : State) : State :=
  let s1 := setCpsr { n := false, z := false, c := false, v := false, i := false, f := false, t := false, mode := .sys } s
  let s2 := setRegIn .usr 14#4 0x08000000#32 s1
  let s3 := setRegIn .usr 13#4 0x03007F00#32 s2
  let s4 := setRegIn .svc 13#4 0x03007F00#32 s3
  { refill 0x08000000#32 s4 with started := true }

/-- A run's first state: construct, load, start (R1301). The BIOS and the cartridge are the host's inputs (00_scope.md R7). -/
def powerOn (bios rom : List Byte) : State := start (loadRom rom (loadBios bios constructed))

/-- `n` master cycles. -/
def runCycles : Nat → State → Result
  | 0, s => .next s
  | n + 1, s => andThen (masterCycle s) (runCycles n)

/-- The master cycles of a frame (R1253). -/
def frameCycles : Nat := 280896

/-- `update(keys)` (R1253). -/
def runFrame (keys : List Key) (s : State) : Result := runCycles frameCycles (updateKeys keys s)

/-- The calls of the host that change the core (R1258). -/
inductive HostCall where
  | loadBios (bytes : List Byte)
  | loadRom (bytes : List Byte)
  | start
  | update (keys : List Key)
deriving DecidableEq, Repr

/-- A host call: the loads and `start()` before the core has started, `update` after; any other order is refused (R1259, D70;
log entry 8). R1259 and D70 do not name a repeated load before `start()` as misuse, and R1301's run has one of each: that the model
accepts a repeat, with the last image of each kind in force, is its own choice (DESIGN CHOICE, log entry 25). They do not name a
`start()` with one or both loads missing either, which R1258 has after the loads: that the model accepts it, with the empty image in
the place of each missing one, is its own choice too (DESIGN CHOICE, log entry 26). -/
def hostCall (call : HostCall) (s : State) : Result :=
  match call, s.started with
  | .loadBios bytes, false => .next (loadBios bytes s)
  | .loadRom bytes, false => .next (loadRom bytes s)
  | .start, false => .next (start s)
  | .update keys, true => runFrame keys s
  | _, _ => .refused .hostMisuse

/-- `frame_buffer()`: its byte `k` (R1258, 63_ppu.md R1107). -/
def frameBuffer (s : State) (k : Nat) : Byte := frameByte s k

/-! ## Placing an instruction -/

/-- A channel that would take the next step waits for a later one. -/
def unblock (c : DmaChannel) : DmaChannel := if c.phase = .active then { c with phase := .triggered } else c

/-- The state with an instruction where the next step takes it from: the decode slot, in THUMB state for 16 bits or fewer, else
in ARM state. An Active channel and a pending interrupt, which would take the step, are set aside; after reset there is none
(log entry 19). -/
def placeWord (s : State) (nbits w : Nat) : State :=
  let thumb := decide (nbits ≤ 16)
  let s1 := { s with
    cpsr := { s.cpsr with t := thumb }
    pipeDecode := if thumb then BitVec.ofNat 32 (w % 0x10000) else BitVec.ofNat 32 w
    dma := #v[unblock (getDma 0 s), unblock (getDma 1 s), unblock (getDma 2 s), unblock (getDma 3 s)] }
  if irqPending s1 then { s1 with irq := { s1.irq with ime := s1.irq.ime &&& 0xFFFE#16 } } else s1

end Sys2Proof.Machine
end

