-- ==== Sys2Proof/Machine/Step.lean ====
section
/-! DEFINITION. The step of the machine: one master cycle (65_system.md R1251; log entry 8). -/

namespace Sys2Proof.Machine

/-- One master cycle. -/
def step (s : State) : Host.Outcome State Fault Refusal := masterCycle s

/-- The state with an instruction placed for the next step (log entries 6 and 19). -/
def State.withFetchWord (s : State) (nbits w : Nat) : State := placeWord s nbits w

end Sys2Proof.Machine
end

