-- ==== Sys2Proof/Safety.lean ====
section
/-! DEFINITION. What claims are stated in: the invariant of the machine, and what a transition leaves unchanged. -/

namespace Sys2Proof.Safety

open Sys2Proof.Machine

/-! ## The invariant -/

/-- A FIFO holds no more bytes than its capacity (62_dma.md R1021). -/
def fifoFits (f : Fifo) : Prop := f.bytes.length ≤ Config.fifoCapacity

/-- At most one DMA channel is Active (62_dma.md R1005). -/
def oneActive (s : State) : Prop :=
  ∀ i j : Fin 4, (getDma i s).phase = .active → (getDma j s).phase = .active → i = j

/-- R15 is aligned for the state the processor is in (20_memory.md R209, 40_cpu_step.md R406, R407). -/
def pcAligned (s : State) : Prop := if s.cpsr.t then s.r15.getLsbD 0 = false else s.r15.extractLsb' 0 2 = 0#2

/-- The machine between steps: every memory in canonical form, no I/O byte awaiting a commit (10_state.md R115), no write of R15
pending, the picture processor's counters in their ranges (R114), R15 aligned, the FIFOs within their capacity, at most one
channel Active. -/
structure Inv (s : State) : Prop where
  mem : Memory.wf s.mem = true
  shadow : Memory.wf s.shadow = true
  oamSnap : Memory.wf s.ppu.oamSnap = true
  dirty : s.dirty = []
  pending : s.pendingPC = none
  lc : s.ppu.lc < 1232
  vcount : s.ppu.vcount < 228
  pc : pcAligned s
  fifoA : fifoFits s.fifoA
  fifoB : fifoFits s.fifoB
  active : oneActive s

/-! ## Frames -/

/-- The general registers that a transition may change, by place (10_state.md R100); every other keeps its value. -/
def regsKeptExcept (ps : List (Fin 30)) (s t : State) : Prop :=
  ∀ p : Fin 30, p ∉ ps → t.regs.get p = s.regs.get p

/-- Every bit of CPSR but N, Z, C and V is unchanged. -/
def controlKept (s t : State) : Prop :=
  t.cpsr.i = s.cpsr.i ∧ t.cpsr.f = s.cpsr.f ∧ t.cpsr.t = s.cpsr.t ∧ t.cpsr.mode = s.cpsr.mode

/-- The registers of the peripherals, the backup device's state and the model's `started` are unchanged. -/
def devicesKept (s t : State) : Prop :=
  t.shadow = s.shadow ∧ t.dirty = s.dirty ∧ t.irq = s.irq ∧ t.dma = s.dma ∧ t.timers = s.timers ∧ t.ppu = s.ppu ∧
    t.sound = s.sound ∧ t.fifoA = s.fifoA ∧ t.fifoB = s.fifoB ∧ t.keypad = s.keypad ∧ t.backup = s.backup ∧
    t.started = s.started

/-- Everything outside the processor is unchanged: every byte of memory and every device. The count of draws may grow, where the
instruction fetch at its end reads unmapped addresses (20_memory.md R203). -/
def outsideKept (s t : State) : Prop := t.mem = s.mem ∧ devicesKept s t ∧ s.draws ≤ t.draws

/-- A register-only transition: the saved status registers and everything outside the processor are unchanged, and no register
but those at the places named changes. -/
def onlyRegs (ps : List (Fin 30)) (s t : State) : Prop :=
  regsKeptExcept ps s t ∧ t.spsr = s.spsr ∧ outsideKept s t ∧ t.pendingPC = none

/-- The same with CPSR unchanged as well. -/
def onlyRegsNoFlags (ps : List (Fin 30)) (s t : State) : Prop := onlyRegs ps s t ∧ t.cpsr = s.cpsr

/-- The place a register has in the current mode's bank; R15 has none. -/
def placeOf (s : State) (r : Reg) : List (Fin 30) := if r = 15#4 then [] else [regPlace s.cpsr.mode r]

/-! ## The pipeline after an instruction -/

/-- The word is what a fetch at the address reads in the state, with some count of draws (40_cpu_step.md R401). -/
def fetched (a : Word) (t : State) (w : Word) : Prop := ∃ d, w = (fetch a { t with draws := d }).1

/-- The advance of 40_cpu_step.md R407: an instruction that ran in `s` and ended in `t` wrote no R15. -/
def advanced (s t : State) : Prop :=
  t.pipeDecode = s.pipeFetch ∧ fetched s.r15 t t.pipeFetch ∧ t.r15 = s.r15 + (if s.cpsr.t then 2#32 else 4#32)

/-- The refill of 40_cpu_step.md R406: `v` was written to R15, and `t` is the state after the refill. -/
def refilled (v : Word) (t : State) : Prop :=
  let fs : Word := if t.cpsr.t then 2#32 else 4#32
  let a : Word := if t.cpsr.t then v &&& 0xFFFFFFFE#32 else v &&& 0xFFFFFFFC#32
  fetched a t t.pipeDecode ∧ fetched (a + fs) t t.pipeFetch ∧ t.r15 = a + fs + fs

/-- A result reached its register: R15 is refilled from it, another register holds it and the pipeline advanced. -/
def wrote (rd : Reg) (v : Word) (s t : State) : Prop :=
  if rd = 15#4 then refilled v t else readReg rd t = v ∧ advanced s t

/-! ## Flags -/

/-- The integer is no 32-bit signed number (46_arm_dataproc.md R704). -/
def outOfRange (i : Int) : Bool := decide (i < -2 ^ 31 ∨ 2 ^ 31 ≤ i)

/-- A result with its carry and overflow. -/
structure Flagged where
  res : Word
  c : Bool
  v : Bool
deriving DecidableEq, Repr

/-- x + y + k as the sum of naturals and of integers (R704). -/
def sumOf (x y : Word) (k : Nat) : Flagged :=
  { res := x + y + BitVec.ofNat 32 k, c := decide (2 ^ 32 ≤ x.toNat + y.toNat + k), v := outOfRange (x.toInt + y.toInt + k) }

/-- x − y − k: C is 1 exactly when no borrow occurs (R704). -/
def differenceOf (x y : Word) (k : Nat) : Flagged :=
  { res := x - y - BitVec.ofNat 32 k, c := decide (y.toNat + k ≤ x.toNat), v := outOfRange (x.toInt - y.toInt - k) }

/-- 1 − c, the borrow of SBC and RSC. -/
def borrowOf (c : Bool) : Nat := if c then 0 else 1

/-- N, Z, C and V are those of a result. -/
def flagsOf (r : Flagged) (t : State) : Prop :=
  t.cpsr.n = r.res.msb ∧ t.cpsr.z = decide (r.res = 0#32) ∧ t.cpsr.c = r.c ∧ t.cpsr.v = r.v

/-- N and Z are those given; C and V, and the control bits, are unchanged. -/
def onlyNZ (n z : Bool) (s t : State) : Prop :=
  t.cpsr.n = n ∧ t.cpsr.z = z ∧ t.cpsr.c = s.cpsr.c ∧ t.cpsr.v = s.cpsr.v ∧ controlKept s t

/-! ## Conditions -/

/-- The condition field of an ARM instruction; THUMB instructions have none (30_encoding.md R301, 40_cpu_step.md R405). -/
def condOf : Instr → Option Cond
  | .bx c _ | .b c _ | .bl c _ | .swi c _ | .undefined c _ _ | .ldcStc c _ | .cdpMcrMrc c _ => some c
  | .stmda c _ _ _ | .stmia c _ _ _ | .stmdb c _ _ _ | .stmib c _ _ _ => some c
  | .stmdaUser c _ _ _ | .stmiaUser c _ _ _ | .stmdbUser c _ _ _ | .stmibUser c _ _ _ => some c
  | .ldmda c _ _ _ | .ldmia c _ _ _ | .ldmdb c _ _ _ | .ldmib c _ _ _ => some c
  | .ldmdaUser c _ _ _ | .ldmiaUser c _ _ _ | .ldmdbUser c _ _ _ | .ldmibUser c _ _ _ => some c
  | .ldrt c _ _ _ _ | .strt c _ _ _ _ | .ldrbt c _ _ _ _ | .strbt c _ _ _ _ => some c
  | .ldr c _ _ _ _ _ _ | .ldrb c _ _ _ _ _ _ | .str c _ _ _ _ _ _ | .strb c _ _ _ _ _ _ => some c
  | .swp c _ _ _ | .swpb c _ _ _ => some c
  | .mul c _ _ _ _ _ | .mla c _ _ _ _ _ => some c
  | .umull c _ _ _ _ _ | .umlal c _ _ _ _ _ | .smull c _ _ _ _ _ | .smlal c _ _ _ _ _ => some c
  | .ldrh c _ _ _ _ _ _ | .strh c _ _ _ _ _ _ | .ldrsb c _ _ _ _ _ _ | .ldrsh c _ _ _ _ _ _ => some c
  | .mrsCpsr c _ | .mrsSpsr c _ | .msrCpsrReg c _ _ | .msrSpsrReg c _ _ => some c
  | .msrCpsrImm c _ _ _ | .msrSpsrImm c _ _ _ | .unallocMulSpace c _ _ _ | .unallocPsrSpace c _ _ _ => some c
  | .and c _ _ _ _ | .eor c _ _ _ _ | .sub c _ _ _ _ | .rsb c _ _ _ _ | .add c _ _ _ _ | .adc c _ _ _ _ => some c
  | .sbc c _ _ _ _ | .rsc c _ _ _ _ | .orr c _ _ _ _ | .mov c _ _ _ _ | .bic c _ _ _ _ | .mvn c _ _ _ _ => some c
  | .tst c _ _ _ | .teq c _ _ _ | .cmp c _ _ _ | .cmn c _ _ _ => some c
  | _ => none

/-! ## Stores -/

/-- Where a byte of a wide write lands in the memory; nowhere for the BIOS, the cartridge ROM, the I/O window and unmapped addresses
(20_memory.md R201, R202, R206, R214, R215). -/
def byteKey (s : State) (a : Word) : List Nat :=
  match route a with
  | none => []
  | some (.bios, _) => []
  | some (.rom, _) => []
  | some (.io, _) => []
  | some (.backup, o) => [backupKey s.backup.kind o]
  | some (r, o) => [r.base + o]

/-- Where a byte write lands: both bytes of the halfword in palette RAM and VRAM, nowhere in OAM (R205). -/
def byteKeys8 (s : State) (a : Word) : List Nat :=
  match route a with
  | some (.pram, o) => [Region.pram.base + (o - o % 2), Region.pram.base + (o - o % 2) + 1]
  | some (.vram, o) => [Region.vram.base + (o - o % 2), Region.vram.base + (o - o % 2) + 1]
  | some (.oam, _) => []
  | _ => byteKey s a

def halfKeys (s : State) (a : Word) : List Nat := byteKey s a ++ byteKey s (a + 1#32)

def wordKeys (s : State) (a : Word) : List Nat := halfKeys s a ++ halfKeys s (a + 2#32)

/-- Every byte of memory but those at the addresses named is unchanged. -/
def bytesKeptExcept (ks : List Nat) (s t : State) : Prop :=
  ∀ k, k ∉ ks → Memory.read t.mem k = Memory.read s.mem k

/-- A store: memory and devices are as the bus write leaves them in `w`, no byte of memory but those named changes, and of the
processor only the registers at the places named. -/
def stored (w : State) (ks : List Nat) (ps : List (Fin 30)) (s t : State) : Prop :=
  t.mem = w.mem ∧ devicesKept w t ∧ bytesKeptExcept ks s t ∧ regsKeptExcept ps s t ∧ t.cpsr = s.cpsr ∧ t.spsr = s.spsr ∧
    t.pendingPC = none ∧ advanced s t

/-! ## Exceptions -/

/-- Exception entry (60_exceptions.md R903): the old CPSR in the SPSR of mode `m` and the return address in its R14, mode `m`,
ARM state, I set, F and the flags as they were, a refill from `vec`; nothing else changes. For Undefined, SWI and IRQ, which leave
F (R900). -/
def entered (m : Mode) (vec : Word) (s t : State) : Prop :=
  spsrOf m t = some (saveCpsr s.cpsr) ∧
    readRegIn m 14#4 t = (if s.cpsr.t then (s.r15 - 2#32) ||| 1#32 else s.r15 - 4#32) ∧
    t.cpsr = { s.cpsr with mode := m, i := true, t := false } ∧
    refilled vec t ∧ regsKeptExcept [regPlace m 14#4] s t ∧
    (∀ m', m' ≠ m → spsrOf m' t = spsrOf m' s) ∧ outsideKept s t ∧ t.pendingPC = none

/-- The instructions that raise an exception (R901), with the mode and the vector it enters. -/
def raises : Instr → Option (Mode × Word)
  | .swi _ _ | .tSwi _ => some (.svc, 0x00000008#32)
  | .undefined _ _ _ | .ldcStc _ _ | .cdpMcrMrc _ _ => some (.und, 0x00000004#32)
  | .tUndefDE _ | .tUndefE8 _ | .tUndefB1 _ | .tUndefB2 _ | .tUndefB6 _ | .tUndefB8 _ | .tUndefBE _ =>
    some (.und, 0x00000004#32)
  | _ => none

/-- The instructions that restore CPSR from the SPSR: data processing with S and Rd = 15, LDM^ with R15 in the list (R910). -/
def restores : Instr → Bool
  | .and _ sf _ rd _ | .eor _ sf _ rd _ | .sub _ sf _ rd _ | .rsb _ sf _ rd _ | .add _ sf _ rd _ | .adc _ sf _ rd _ =>
    sf && rd == 15#4
  | .sbc _ sf _ rd _ | .rsc _ sf _ rd _ | .orr _ sf _ rd _ | .mov _ sf _ rd _ | .bic _ sf _ rd _ | .mvn _ sf _ rd _ =>
    sf && rd == 15#4
  | .ldmdaUser _ _ _ list | .ldmiaUser _ _ _ list | .ldmdbUser _ _ _ list | .ldmibUser _ _ _ list =>
    (blockRegs list).contains 15#4
  | _ => false

/-! ## Shapes of statements: data processing -/

/-- A data-processing instruction that writes Rd, in every form (46_arm_dataproc.md R705): without S, with S, with S and Rd = 15
(CPSR restored, or the fault that stops the restore). `f` gives the result from R[n], the second operand and CPSR. -/
def dataProcessing (mk : Cond → Bool → Reg → Reg → Operand2 → Instr) (f : Word → Word × Bool → Cpsr → Flagged) : Prop :=
  ∀ (c : Cond) (sf : Bool) (rn rd : Reg) (o : Operand2) (s : State), conditionPasses c s.cpsr = true →
    let r := f (readReg rn s) (operand2 o s) s.cpsr
    (¬(sf = true ∧ rd = 15#4) →
      ∃ t, exec (mk c sf rn rd o) s = .next t ∧ wrote rd r.res s t ∧
        (if sf then flagsOf r t ∧ controlKept s t else t.cpsr = s.cpsr) ∧ onlyRegs (placeOf s rd) s t) ∧
    (sf = true → rd = 15#4 → ∀ p m, spsrOf s.cpsr.mode s = some p → modeOfBits p.m = some m →
      ∃ t, exec (mk c sf rn rd o) s = .next t ∧ t.cpsr = ⟨p.n, p.z, p.c, p.v, p.i, p.f, p.t, m⟩ ∧ refilled r.res t ∧
        onlyRegs [] s t) ∧
    (sf = true → rd = 15#4 → spsrOf s.cpsr.mode s = none → exec (mk c sf rn rd o) s = .fault .noSpsr) ∧
    (sf = true → rd = 15#4 → ∀ p, spsrOf s.cpsr.mode s = some p → modeOfBits p.m = none →
      exec (mk c sf rn rd o) s = .fault (.invalidMode p.m))

/-- A compare: the flags of a result and nothing else, whatever Rd (R705, R706). -/
def comparing (mk : Cond → Reg → Reg → Operand2 → Instr) (f : Word → Word × Bool → Cpsr → Flagged) : Prop :=
  ∀ (c : Cond) (rn rd : Reg) (o : Operand2) (s : State), conditionPasses c s.cpsr = true →
    ∃ t, exec (mk c rn rd o) s = .next t ∧ flagsOf (f (readReg rn s) (operand2 o s) s.cpsr) t ∧ controlKept s t ∧
      advanced s t ∧ onlyRegs [] s t

/-! ## Shapes of statements: multiply -/

/-- N and Z of a product where S is set, no flag where it is not (44_arm_multiply.md R601). -/
def productFlags (sf n z : Bool) (s t : State) : Prop := if sf then onlyNZ n z s t else t.cpsr = s.cpsr

/-- A 32-bit multiply: the product to Rd, or the refusal where one of its registers is R15 (R600 to R603). -/
def multiplies (i : Instr) (sf : Bool) (rd : Reg) (operands : List Reg) (p : Word) (s : State) : Prop :=
  (15#4 ∉ rd :: operands →
    ∃ t, exec i s = .next t ∧ readReg rd t = p ∧ productFlags sf p.msb (decide (p = 0#32)) s t ∧ advanced s t ∧
      onlyRegs [regPlace s.cpsr.mode rd] s t) ∧
  (15#4 ∈ rd :: operands → exec i s = .fault (.unpredictable .multiplyR15))

/-- A long multiply: the product to RdHi and RdLo, or the refusals (R600, R604 to R607). Where both refusals apply, the register
R15 is named first (log entry 10). -/
def multipliesLong (i : Instr) (sf : Bool) (hi lo rs rm : Reg) (p : BitVec 64) (s : State) : Prop :=
  (15#4 ∉ [hi, lo, rs, rm] → hi ≠ lo →
    ∃ t, exec i s = .next t ∧ readReg hi t = p.extractLsb' 32 32 ∧ readReg lo t = p.extractLsb' 0 32 ∧
      productFlags sf p.msb (decide (p = 0#64)) s t ∧ advanced s t ∧
      onlyRegs [regPlace s.cpsr.mode hi, regPlace s.cpsr.mode lo] s t) ∧
  (15#4 ∈ [hi, lo, rs, rm] → exec i s = .fault (.unpredictable .multiplyR15)) ∧
  (15#4 ∉ [hi, lo, rs, rm] → hi = lo → exec i s = .fault (.unpredictable .multiplySameHiLo))

/-! ## Shapes of statements: loads and stores -/

/-- The values the loads deliver (43_arm_single_transfer.md R551, R552, R557, R559, R560). -/
def valueWord (a : Word) (s : State) : Word := (read32 (a &&& 0xFFFFFFFC#32) s).1.rotateRight (8 * (a.toNat % 4))

def valueByte (a : Word) (s : State) : Word := (read8 a s).1.setWidth 32

def valueHalf (a : Word) (s : State) : Word :=
  let h : Word := (read16 (a &&& 0xFFFFFFFE#32) s).1.setWidth 32
  if a.toNat % 2 = 1 then h.rotateRight 8 else h

def valueSignedByte (a : Word) (s : State) : Word := (read8 a s).1.signExtend 32

/-- At an odd address the sign-extended high byte of the aligned halfword (R560). -/
def valueSignedHalf (a : Word) (s : State) : Word :=
  let h := (read16 (a &&& 0xFFFFFFFE#32) s).1
  if a.toNat % 2 = 1 then (h.extractLsb' 8 8).signExtend 32 else h.signExtend 32

/-- A load with the addressing of R550 and R556, at every offset and in every form that does not write R15 back: the value of the
address to Rd, the new base to Rn unless the load overwrites it. -/
def loading (i : Instr) (p u w : Bool) (rn rd : Reg) (off : Word) (value : Word → State → Word) (s : State) : Prop :=
  let base := readReg rn s
  let pre := if u then base + off else base - off
  let wb := !p || w
  ¬(wb = true ∧ rn = 15#4) →
    ∃ t, exec i s = .next t ∧ wrote rd (value (if p then pre else base) s) s t ∧
      (wb = true → rn ≠ rd → readReg rn t = pre) ∧
      onlyRegsNoFlags (placeOf s rd ++ (if wb then placeOf s rn else [])) s t

/-- A store with the addressing of R550 and R556: `write` is the bus write at an address and `keys` the bytes it may change. -/
def storing (i : Instr) (p u w : Bool) (rn rd : Reg) (off : Word) (write : Word → Word → State → State)
    (keys : State → Word → List Nat) (s : State) : Prop :=
  let base := readReg rn s
  let pre := if u then base + off else base - off
  let addr := if p then pre else base
  let wb := !p || w
  ¬(wb = true ∧ rn = 15#4) →
    ∃ t, exec i s = .next t ∧ stored (write addr (readReg rd s) s) (keys s addr) (if wb then placeOf s rn else []) s t ∧
      (wb = true → readReg rn t = pre)

/-- The bus writes of the stores, at the aligned address (R553, R554, R558). -/
def busWord (a v : Word) (s : State) : State := write32 (a &&& 0xFFFFFFFC#32) v s
def busHalf (a v : Word) (s : State) : State := write16 (a &&& 0xFFFFFFFE#32) (v.setWidth 16) s
def busByte (a v : Word) (s : State) : State := write8 a (v.setWidth 8) s

def busWordKeys (s : State) (a : Word) : List Nat := wordKeys s (a &&& 0xFFFFFFFC#32)
def busHalfKeys (s : State) (a : Word) : List Nat := halfKeys s (a &&& 0xFFFFFFFE#32)

/-- A swap: the load's value to Rd and Rm stored at the same address, or the refusal of R15 (R565). The load may draw. -/
def swapping (i : Instr) (rn rd rm : Reg) (value : Word → State → Word) (write : Word → Word → State → State)
    (keys : State → Word → List Nat) (s : State) : Prop :=
  (15#4 ∉ [rn, rd, rm] →
    ∃ t n, exec i s = .next t ∧ readReg rd t = value (readReg rn s) s ∧
      stored (write (readReg rn s) (readReg rm s) { s with draws := s.draws + n }) (keys s (readReg rn s))
        [regPlace s.cpsr.mode rd] s t) ∧
  (15#4 ∈ [rn, rd, rm] → exec i s = .fault (.unpredictable .swapR15))

/-! ## Shapes of statements: block transfers -/

/-- The bytes the base moves by, the first address, and the base after the transfer (42_arm_block_transfer.md R500, R502). -/
def strideOf (list : BitVec 16) : Word := if list = 0#16 then 0x40#32 else BitVec.ofNat 32 (4 * (blockRegs list).length)

def startOf (p u : Bool) (base : Word) (list : BitVec 16) : Word :=
  match p, u with
  | false, true => base
  | true, true => base + 4#32
  | false, false => base - strideOf list + 4#32
  | true, false => base - strideOf list

def newBaseOf (u : Bool) (base : Word) (list : BitVec 16) : Word := if u then base + strideOf list else base - strideOf list

/-- The aligned address of the k-th word. -/
def wordAddr (start : Word) (k : Nat) : Word := (start + BitVec.ofNat 32 (4 * k)) &&& 0xFFFFFFFC#32

/-- Words written one after another, each its own transaction (R503, 20_memory.md R207). -/
def wordsWritten (start : Word) (vals : List Word) (s : State) : State :=
  vals.zipIdx.foldl (fun u x => write32 (wordAddr start x.2) x.1 u) s

def wordsKeys (s : State) (start : Word) (n : Nat) : List Nat :=
  (List.range n).flatMap (fun k => wordKeys s (wordAddr start k))

/-- The values of an STM: a base that is not the first register stores its new value with W (R503). -/
def storedValues (get : Reg → State → Word) (w : Bool) (rn : Reg) (newbase : Word) (list : BitVec 16) (s : State) :
    List Word :=
  (blockRegs list).zipIdx.map (fun x => if x.1 = rn ∧ w = true ∧ 0 < x.2 then newbase else get x.1 s)

/-- An STM in every form that does not write R15 back (R500 to R504). -/
def storingMultiple (i : Instr) (get : Reg → State → Word) (p u w : Bool) (rn : Reg) (list : BitVec 16) (s : State) :
    Prop :=
  let base := readReg rn s
  let start := startOf p u base list
  let newbase := newBaseOf u base list
  ¬(w = true ∧ rn = 15#4) →
    ∃ t, exec i s = .next t ∧
      stored (wordsWritten start (storedValues get w rn newbase list s) s) (wordsKeys s start (blockRegs list).length)
        (if w then placeOf s rn else []) s t ∧
      (w = true → readReg rn t = newbase)

/-- What an LDM leaves in registers and memory: the words read, in ascending order, in the registers of bank `m`, R15 among them
refilled; the new base where no loaded register overwrites it; nothing else (R500 to R506). -/
def blockLoaded (m : Mode) (p u w : Bool) (rn : Reg) (list : BitVec 16) (s t : State) : Prop :=
  let base := readReg rn s
  let place (r : Reg) : List (Fin 30) := if r = 15#4 then [] else [regPlace m r]
  ∃ vals : List Word, vals.length = (blockRegs list).length ∧
    (∀ (k : Nat) (v : Word), vals[k]? = some v → ∃ d, v = (read32 (wordAddr (startOf p u base list) k) { s with draws := d }).1) ∧
    (∀ (k : Nat) (r : Reg) (v : Word), (blockRegs list)[k]? = some r → vals[k]? = some v →
      if r = 15#4 then refilled v t else readRegIn m r t = v) ∧
    (w = true → (∀ r ∈ blockRegs list, place r ≠ placeOf s rn) →
      readRegIn s.cpsr.mode rn t = newBaseOf u base list) ∧
    regsKeptExcept ((blockRegs list).flatMap place ++ (if w then placeOf s rn else [])) s t ∧
    t.spsr = s.spsr ∧ outsideKept s t ∧ t.pendingPC = none

/-- An LDM into the registers of bank `m`, in every form that does not write R15 back. -/
def loadingMultiple (i : Instr) (m : Mode) (p u w : Bool) (rn : Reg) (list : BitVec 16) (s : State) : Prop :=
  ¬(w = true ∧ rn = 15#4) →
    ∃ t, exec i s = .next t ∧ blockLoaded m p u w rn list s t ∧ t.cpsr = s.cpsr ∧
      (15#4 ∉ blockRegs list → advanced s t)

/-- An LDM with S: the user-bank form, and with R15 in the list the form that restores CPSR, or the fault that stops it (R506). -/
def loadingMultipleUser (i : Instr) (p u w : Bool) (rn : Reg) (list : BitVec 16) (s : State) : Prop :=
  (15#4 ∉ blockRegs list → loadingMultiple i .usr p u w rn list s) ∧
  (15#4 ∈ blockRegs list → ¬(w = true ∧ rn = 15#4) →
    (∀ q m, spsrOf s.cpsr.mode s = some q → modeOfBits q.m = some m →
      ∃ t, exec i s = .next t ∧ blockLoaded s.cpsr.mode p u w rn list s t ∧
        t.cpsr = ⟨q.n, q.z, q.c, q.v, q.i, q.f, q.t, m⟩) ∧
    (spsrOf s.cpsr.mode s = none → exec i s = .fault .noSpsr) ∧
    (∀ q, spsrOf s.cpsr.mode s = some q → modeOfBits q.m = none → exec i s = .fault (.invalidMode q.m)))

/-! ## Shapes of statements: status registers -/

/-- The word of a status register, bit by bit (10_state.md R105). -/
def statusBits (w : Word) (p : Spsr) : Prop :=
  w.getLsbD 31 = p.n ∧ w.getLsbD 30 = p.z ∧ w.getLsbD 29 = p.c ∧ w.getLsbD 28 = p.v ∧ w.extractLsb' 8 20 = 0#20 ∧
    w.getLsbD 7 = p.i ∧ w.getLsbD 6 = p.f ∧ w.getLsbD 5 = p.t ∧ w.extractLsb' 0 5 = p.m

/-- A move from a status register (45_arm_psr_swi.md R650). -/
def movesFromStatus (i : Instr) (rd : Reg) (p : Spsr) (s : State) : Prop :=
  ∃ t, exec i s = .next t ∧ statusBits (readReg rd t) p ∧ advanced s t ∧
    onlyRegsNoFlags [regPlace s.cpsr.mode rd] s t

/-- A move to CPSR of the value `v` with the field mask `f` (R651): the flags with f[3], the control byte with f[0] in a privileged
mode, T never. -/
def movesToCpsr (i : Instr) (v : Word) (f : BitVec 4) (s : State) : Prop :=
  let flags := f.getLsbD 3
  let control := f.getLsbD 0 && decide (s.cpsr.mode ≠ .usr)
  let keep (b x : Bool) (k : Nat) : Bool := if b then v.getLsbD k else x
  let new (m : Mode) : Cpsr :=
    { n := keep flags s.cpsr.n 31, z := keep flags s.cpsr.z 30, c := keep flags s.cpsr.c 29, v := keep flags s.cpsr.v 28,
      i := keep control s.cpsr.i 7, f := keep control s.cpsr.f 6, t := s.cpsr.t, mode := m }
  let done (m : Mode) : Prop :=
    ∃ t, exec i s = .next t ∧ t.cpsr = new m ∧ advanced s t ∧ onlyRegs [] s t
  (control = false → done s.cpsr.mode) ∧
  (control = true → v.getLsbD 5 = s.cpsr.t → ∀ m, modeOfBits (v.extractLsb' 0 5) = some m → done m) ∧
  (control = true → v.getLsbD 5 ≠ s.cpsr.t → exec i s = .fault (.unpredictable .msrState)) ∧
  (control = true → v.getLsbD 5 = s.cpsr.t → modeOfBits (v.extractLsb' 0 5) = none →
    exec i s = .fault (.invalidMode (v.extractLsb' 0 5)))

/-- A move to the current mode's SPSR (R651): any mode field, and T as well. -/
def movesToSpsr (i : Instr) (v : Word) (f : BitVec 4) (s : State) : Prop :=
  let keep (b x : Bool) (k : Nat) : Bool := if b then v.getLsbD k else x
  (∀ p, spsrOf s.cpsr.mode s = some p →
    ∃ t, exec i s = .next t ∧
      spsrOf s.cpsr.mode t = some
        { n := keep (f.getLsbD 3) p.n 31, z := keep (f.getLsbD 3) p.z 30, c := keep (f.getLsbD 3) p.c 29,
          v := keep (f.getLsbD 3) p.v 28, i := keep (f.getLsbD 0) p.i 7, f := keep (f.getLsbD 0) p.f 6,
          t := keep (f.getLsbD 0) p.t 5, m := if f.getLsbD 0 then v.extractLsb' 0 5 else p.m } ∧
      (∀ m', m' ≠ s.cpsr.mode → spsrOf m' t = spsrOf m' s) ∧
      t.cpsr = s.cpsr ∧ advanced s t ∧ regsKeptExcept [] s t ∧ outsideKept s t ∧ t.pendingPC = none) ∧
  (spsrOf s.cpsr.mode s = none → exec i s = .fault .noSpsr)

/-! ## Shapes of statements: THUMB -/

/-- A THUMB instruction that writes a low register and sets all four flags as given (47_thumb_alu.md). -/
def thumbWrites (i : Instr) (rd : LowReg) (r : Flagged) (s : State) : Prop :=
  ∃ t, exec i s = .next t ∧ readReg (lowReg rd) t = r.res ∧ flagsOf r t ∧ controlKept s t ∧ advanced s t ∧
    onlyRegs (placeOf s (lowReg rd)) s t

/-- A THUMB compare. -/
def thumbCompares (i : Instr) (r : Flagged) (s : State) : Prop :=
  ∃ t, exec i s = .next t ∧ flagsOf r t ∧ controlKept s t ∧ advanced s t ∧ onlyRegs [] s t

/-- A THUMB instruction that writes a register, R15 among them, and no flag. -/
def thumbMoves (i : Instr) (rd : Reg) (v : Word) (s : State) : Prop :=
  ∃ t, exec i s = .next t ∧ wrote rd v s t ∧ onlyRegsNoFlags (placeOf s rd) s t

/-- A THUMB load and store (48_thumb_memory.md). -/
def thumbLoads (i : Instr) (rd : LowReg) (v : Word) (s : State) : Prop := thumbMoves i (lowReg rd) v s

def thumbStores (i : Instr) (rd : LowReg) (a : Word) (write : Word → Word → State → State)
    (keys : State → Word → List Nat) (s : State) : Prop :=
  ∃ t, exec i s = .next t ∧ stored (write a (readReg (lowReg rd) s) s) (keys s a) [] s t

/-! ## Shapes of statements: the bus -/

/-- The address names no storage (20_memory.md R201). -/
def unmapped (a : Word) : Prop :=
  let page := a.toNat / 0x1000000
  let low := a.toNat % 0x1000000
  (page = 0 ∧ 0x4000 ≤ low) ∨ page = 1 ∨ (page = 4 ∧ 0x400 ≤ low) ∨ 0xF ≤ page

/-- The address lies in the BIOS or the cartridge ROM (R201, R202). -/
def readOnlyMemory (a : Word) : Prop := a.toNat < 0x4000 ∨ (8 ≤ a.toNat / 0x1000000 ∧ a.toNat / 0x1000000 ≤ 0xD)

/-- The canonical address of a byte of the five writable memories (R201). -/
def ramKey (a : Word) : Option Nat :=
  let n := a.toNat
  match n / 0x1000000 with
  | 2 => some (0x02000000 + n % 0x40000)
  | 3 => some (0x03000000 + n % 0x8000)
  | 5 => some (0x05000000 + n % 0x400)
  | 6 => some (0x06000000 + (if n % 0x20000 < 0x18000 then n % 0x20000 else n % 0x20000 - 0x8000))
  | 7 => some (0x07000000 + n % 0x400)
  | _ => none

/-- The bytes named were stored, and nothing else changed. -/
def bytesWritten (bs : List (Nat × Byte)) (s t : State) : Prop :=
  t = { s with mem := t.mem } ∧ (∀ x ∈ bs, Memory.read t.mem x.1 = x.2) ∧ bytesKeptExcept (bs.map Prod.fst) s t

/-- Byte `k` of a word. -/
def byteAt (v : Word) (k : Nat) : Byte := v.extractLsb' (8 * k) 8

/-- The offset lies in one of the registers of 61_io_registers.md R960. -/
def knownOffset (o : Nat) : Bool :=
  let within (lo hi : Nat) : Bool := decide (lo ≤ o ∧ o < hi)
  within 0x000 0x002 || within 0x004 0x040 || within 0x060 0x066 || within 0x068 0x06A || within 0x06C 0x06E ||
    within 0x070 0x076 || within 0x078 0x07A || within 0x07C 0x07E || within 0x080 0x086 || within 0x088 0x08A ||
    within 0x090 0x0A8 || within 0x0B0 0x0E0 || within 0x100 0x110 || within 0x130 0x134 || within 0x200 0x204 ||
    within 0x208 0x20A

/-- The address of an offset into the I/O window. -/
def ioAddress (o : Nat) : Word := 0x04000000#32 + BitVec.ofNat 32 o

/-- The value a write of the bits `m` of `v` leaves in a register whose value was `old`: the writable bits among them as written, the
others as they were; in IF the bits written as 1 cleared (61_io_registers.md R952, R953, R960). -/
def writtenValue (r : IoReg) (old v m : Word) : Word :=
  let merged (w : Word) : Word := (v &&& w) ||| (old &&& ~~~w)
  match r with
  | .vcount | .keyinput | .fifo _ => old
  | .dispstat => merged (m &&& 0xFFF8#32)
  | .ifl => old &&& ~~~(v &&& m)
  | _ => merged m

/-- The bits of a store at offset `o` that fall into a register: those of the stored value that lie at its offset, within its width. -/
def bitsFor (r : IoReg) (o : Nat) (v : Word) : Word :=
  (if o ≤ ioOffset r then v >>> (8 * (ioOffset r - o)) else v <<< (8 * (o - ioOffset r))) &&&
    (if ioWidth r = 4 then 0xFFFFFFFF#32 else 0xFFFF#32)

/-- The bits `m` of `v` were stored at offset `o` of the I/O window: every register that has some of them takes those, every other
register keeps its value, and so do memory and the processor (R952, R953, R956). -/
def windowWritten (o : Nat) (v m : Word) (s t : State) : Prop :=
  (∀ r : IoReg, ioStored r t = writtenValue r (ioStored r s) (bitsFor r o v) (bitsFor r o m)) ∧
    t.mem = s.mem ∧ t.regs = s.regs ∧ t.cpsr = s.cpsr ∧ t.dirty = []

/-- A timer after a write of its control register: enable 0→1 loads the counter and clears the accumulator (R971, 64_timers.md R1204);
any other write leaves both (R1205). -/
def timerControlled (c : Timer) (h : Half) : Timer :=
  let starts := c.ctl.getLsbD 7 = false ∧ h.getLsbD 7 = true
  { c with ctl := h, counter := if starts then c.reload else c.counter, acc := if starts then 0 else c.acc }

/-- The timer became `c`, and nothing else changed. -/
def timerWritten (i : Fin 4) (c : Timer) (s t : State) : Prop :=
  t = { s with timers := s.timers.set i c, shadow := t.shadow }

/-- The FIFO became `f`, and nothing else changed. -/
def fifoWritten (id : FifoId) (f : Fifo) (s t : State) : Prop := t = { setFifo id f s with shadow := t.shadow }

/-- SOUNDCNT_H became `h`; FIFO A was reset where `a`, FIFO B where `b`: emptied, with its slot kept, and the waiting channels that
serve it triggered; nothing else changed (R968, 62_dma.md R1004, R1030). -/
def soundControlled (h : Half) (a b : Bool) (s t : State) : Prop :=
  let emptied (x : Bool) (f : Fifo) : Fifo := if x then { f with bytes := [] } else f
  t = { s with
    sound := { s.sound with cntH := h }, fifoA := emptied a s.fifoA, fifoB := emptied b s.fifoB, dma := t.dma, shadow := t.shadow } ∧
  ∀ i : Fin 4,
    let c := getDma i s
    let serves (p : Word) : Prop := c.start = .special ∧ (i = 1 ∨ i = 2) ∧ c.curDst = p
    getDma i t =
      if c.phase = .wait ∧ ((a = true ∧ serves 0x040000A0#32) ∨ (b = true ∧ serves 0x040000A4#32)) then
        { c with phase := .triggered }
      else c

/-- The bytes `tag` stand in an image at the offset `k`. -/
def tagAt (tag image : List Byte) (k : Nat) : Prop := tag <+: image.drop k

/-! ## Shapes of statements: DMA -/

/-- The start condition the promotion phase observes: Immediate, or a sound FIFO of depth 16 or less that the channel serves
(62_dma.md R1004, R1005, R1023). -/
def startsNow (s : State) (i : Fin 4) : Prop :=
  let c := getDma i s
  c.start = .immediate ∨
    (c.start = .special ∧ (i = 1 ∨ i = 2) ∧
      ((c.curDst = 0x040000A0#32 ∧ s.fifoA.bytes.length ≤ 16) ∨ (c.curDst = 0x040000A4#32 ∧ s.fifoB.bytes.length ≤ 16)))

/-- The address after a unit (R1006). -/
def movedBy (a : Word) (size : UnitSize) (m : AddrStep) : Word :=
  let k : Word := if size = .word then 4#32 else 2#32
  match m with
  | .inc => a + k
  | .incReload => a + k
  | .dec => a - k
  | .fixed => a

/-- The word count a latch takes from CNT_L: 14 bits on channels 0 to 2, and 0 the largest count (R1002). -/
def latchedCount (i : Fin 4) (cntL : Half) : Nat :=
  let full := if i = 3 then 0x10000 else 0x4000
  if cntL.toNat % full = 0 then full else cntL.toNat % full

/-- The channel after the latch of CNT_H = `h` (R1002). -/
def latchedChannel (i : Fin 4) (c : DmaChannel) (h : Half) : DmaChannel :=
  let pick (lo : Nat) {α : Type} (a b d e : α) : α :=
    if h.extractLsb' lo 2 = 0#2 then a else if h.extractLsb' lo 2 = 1#2 then b else if h.extractLsb' lo 2 = 2#2 then d else e
  let start := pick 12 DmaStart.immediate .vblank .hblank .special
  let fifo := start = .special ∧ (i = 1 ∨ i = 2)
  { sad := c.sad, dad := c.dad, cntL := c.cntL, cntH := h
    size := if fifo ∨ h.getLsbD 10 = true then .word else .half
    srcStep := pick 7 .inc .dec .fixed .inc
    dstStep := if fifo then .fixed else pick 5 .inc .dec .fixed (if h.getLsbD 9 then .incReload else .inc)
    count := if fifo then 4 else latchedCount i c.cntL
    rep := h.getLsbD 9, irq := h.getLsbD 14, start := start
    curSrc := c.sad, curDst := c.dad, phase := .wait, cycles := c.cycles }

/-- The channel after a write that makes its CNT_H `h`: enable 0→1 latches, 1→0 makes it Idle, else only the register changes (R970,
R1002, R1009). -/
def channelControlled (i : Fin 4) (c : DmaChannel) (h : Half) : DmaChannel :=
  if c.cntH.getLsbD 15 = false ∧ h.getLsbD 15 = true then latchedChannel i c h
  else if c.cntH.getLsbD 15 = true ∧ h.getLsbD 15 = false then { c with cntH := h, phase := .idle }
  else { c with cntH := h }

/-- The channel became `c`, and nothing else changed. -/
def channelWritten (i : Fin 4) (c : DmaChannel) (s t : State) : Prop := t = { s with dma := s.dma.set i c, shadow := t.shadow }

/-- The copy of one unit: a read and a write at aligned addresses (R1006). -/
def unitCopied (c : DmaChannel) (s : State) : State :=
  if c.size = .word then
    let x := read32 (c.curSrc &&& 0xFFFFFFFC#32) s
    write32 (c.curDst &&& 0xFFFFFFFC#32) x.1 x.2
  else
    let x := read16 (c.curSrc &&& 0xFFFFFFFE#32) s
    write16 (c.curDst &&& 0xFFFFFFFE#32) x.1 x.2

/-! ## Shapes of statements: timers, picture -/

/-- A FIFO after a pop: the head in the slot; an empty FIFO as it was (62_dma.md R1022). -/
def popped (f : Fifo) : Fifo :=
  match f.bytes with
  | [] => f
  | b :: rest => { bytes := rest, slot := b }

/-- An overflow of timer `i` but for its cascade (64_timers.md R1202, R1203). -/
def overflowed (i : Fin 4) (s : State) : State :=
  let c := getTimer i s
  let pops (k : Nat) : Bool := decide (i.val ≤ 1 ∧ (s.sound.cntH.getLsbD k).toNat = i.val)
  { s with
    timers := s.timers.set i { c with counter := c.reload }
    irq := { s.irq with ifl := if c.ctl.getLsbD 6 then s.irq.ifl ||| 1#16 <<< (3 + i.val) else s.irq.ifl }
    fifoA := if pops 10 then popped s.fifoA else s.fifoA
    fifoB := if pops 14 then popped s.fifoB else s.fifoB }

/-- The prescaler of a timer (R1201). -/
def divisorOf (ctl : Half) : Nat :=
  if ctl.extractLsb' 0 2 = 0#2 then 1 else if ctl.extractLsb' 0 2 = 1#2 then 64
  else if ctl.extractLsb' 0 2 = 2#2 then 256 else 1024

/-- A flag of DISPSTAT rises in the step from `s` to `t`. -/
def rises (k : Nat) (s t : State) : Prop := s.ppu.dispstat.getLsbD k = false ∧ t.ppu.dispstat.getLsbD k = true

/-! ## Shapes of statements: the point of a layer and of a sprite, from the formulas of 63_ppu.md -/

/-- Bits `lo` to `lo + n - 1` of a number. -/
def bitsAt (v lo n : Nat) : Nat := v / 2 ^ lo % 2 ^ n

/-- The signed number that the low `n` bits of a number stand for. -/
def signed (n v : Nat) : Int := if v % 2 ^ n < 2 ^ (n - 1) then (v % 2 ^ n : Nat) else (v % 2 ^ n : Nat) - 2 ^ n

/-- `VRAM8`, folded as the bus folds it, and `VRAM16` (R1105). -/
def vramByte (s : State) (o : Nat) : Nat :=
  (Memory.read s.mem (0x06000000 + if o % 0x20000 < 0x18000 then o % 0x20000 else o % 0x20000 - 0x8000)).toNat
def vramHalf (s : State) (o : Nat) : Nat := vramByte s o + 256 * vramByte s (o + 1)

/-- Colour `i` of palette RAM: `PRAM16(2 i)` (R1105). -/
def colourAt (s : State) (i : Nat) : Half := Memory.read s.mem (0x05000000 + 2 * i + 1) ++ Memory.read s.mem (0x05000000 + 2 * i)

/-- `OAMS16`: a halfword of the snapshot (R1105). -/
def oamHalf (s : State) (o : Nat) : Nat := (Memory.read s.ppu.oamSnap o).toNat + 256 * (Memory.read s.ppu.oamSnap (o + 1)).toNat

/-- The index of pixel `x` in a byte of two: the even one in bits 3:0. -/
def halfByte (b x : Nat) : Nat := if x % 2 = 0 then b % 16 else b / 16

/-- The display mode, and the control register of a layer (61_io_registers.md R961, R964). -/
def modeOf (s : State) : Nat := bitsAt s.ppu.dispcnt.toNat 0 3
def controlOf (l : Fin 4) (s : State) : Nat := (s.ppu.bgcnt.get l).toNat

/-- The character and screen base of a layer (R1109). -/
def characters (l : Fin 4) (s : State) : Nat := bitsAt (controlOf l s) 2 2 * 0x4000
def screens (l : Fin 4) (s : State) : Nat := bitsAt (controlOf l s) 8 5 * 0x800

/-- Text layer `l` is opaque at a point, with colour `c` (R1109, R1110). -/
def textShows (l : Fin 4) (x y : Nat) (s : State) (c : Half) : Prop :=
  let code := bitsAt (controlOf l s) 14 2
  let width := if code = 1 ∨ code = 3 then 512 else 256
  let height := if code = 2 ∨ code = 3 then 512 else 256
  let px := (x + (s.ppu.bghofs.get l).toNat) % width
  let py := (y + (s.ppu.bgvofs.get l).toNat) % height
  let block := px / 256 + py / 256 * (width / 256)
  let e := vramHalf s (screens l s + block * 0x800 + py % 256 / 8 * 64 + px % 256 / 8 * 2)
  let tile := bitsAt e 0 10
  let tx := if bitsAt e 10 1 = 1 then 7 - px % 8 else px % 8
  let ty := if bitsAt e 11 1 = 1 then 7 - py % 8 else py % 8
  let few := halfByte (vramByte s (characters l s + tile * 32 + ty * 4 + tx / 2)) tx
  let many := vramByte s (characters l s + tile * 64 + ty * 8 + tx)
  if bitsAt (controlOf l s) 7 1 = 0 then few ≠ 0 ∧ c = colourAt s (bitsAt e 12 4 * 16 + few) else many ≠ 0 ∧ c = colourAt s many

/-- The sample `t` of a layer of `n` points falls on point `c`: in range itself, else wrapped where the wrap bit is set (R1111). -/
def sampled (wrap : Bool) (n : Nat) (t : Int) (c : Nat) : Prop :=
  if 0 ≤ t ∧ t < n then t = c else wrap = true ∧ c < n ∧ ∃ q : Int, t = q * n + c

/-- The rotation/scale layer of mode 1 is opaque at a point, with colour `c` (R1111, R966). -/
def affineShows (x y : Nat) (s : State) (c : Half) : Prop :=
  let wrap := (s.ppu.bgcnt.get 2).getLsbD 13
  let size := 2 ^ (7 + bitsAt (controlOf 2 s) 14 2)
  let row (p q : Half) (base : Word) : Int :=
    signed 16 p.toNat * x + signed 16 q.toNat * y + signed 28 base.toNat
  ∃ tu tv : Nat,
    sampled wrap size (row s.ppu.bg2.pa s.ppu.bg2.pb s.ppu.bg2.x / 256) tu ∧
    sampled wrap size (row s.ppu.bg2.pc s.ppu.bg2.pd s.ppu.bg2.y / 256) tv ∧
    let tile := vramByte s (screens 2 s + tv / 8 * (size / 8) + tu / 8)
    let idx := vramByte s (characters 2 s + tile * 64 + tv % 8 * 8 + tu % 8)
    idx ≠ 0 ∧ c = colourAt s idx

/-- The bitmap of mode 4 is opaque at a point, with colour `c` (R1113). -/
def bitmapShows (x y : Nat) (s : State) (c : Half) : Prop :=
  let idx := vramByte s (0xA000 * bitsAt s.ppu.dispcnt.toNat 4 1 + 240 * y + x)
  idx ≠ 0 ∧ c = colourAt s idx

/-- The sizes of sprites by shape and size (R1116). -/
def spriteSizes : List (List (Nat × Nat)) :=
  [[(8, 8), (16, 16), (32, 32), (64, 64)], [(16, 8), (32, 8), (32, 16), (64, 32)], [(8, 16), (8, 32), (16, 32), (32, 64)]]

/-- The palette index and the palette entry of the point (sx, sy) of a sprite of width `w` (R1118, R1119). -/
def spriteTexel (a0 a2 sx sy w : Nat) (s : State) : Nat × Nat :=
  let origin := if modeOf s = 0 ∨ modeOf s = 1 then 0x10000 else 0x14000
  let oneD := bitsAt s.ppu.dispcnt.toNat 6 1
  let n := bitsAt a2 0 10
  if bitsAt a0 13 1 = 0 then
    let t := n + sy / 8 * (if oneD = 1 then w / 8 else 32) + sx / 8
    let idx := halfByte (vramByte s (origin + 32 * t + 4 * (sy % 8) + sx % 8 / 2)) sx
    (idx, 256 + (bitsAt a2 12 4 * 16 + idx))
  else
    let t := n / 2 + sy / 8 * (if oneD = 1 then w / 8 else 16) + sx / 8
    let idx := vramByte s (origin + 64 * t + 8 * (sy % 8) + sx % 8)
    (idx, 256 + idx)

/-- Sprite `k` draws colour `c` at a point, with priority `p` (R1115, R1116, R1117, R1119). -/
def spriteDraws (k x y : Nat) (s : State) (c : Half) (p : Nat) : Prop :=
  let a0 := oamHalf s (8 * k)
  let a1 := oamHalf s (8 * k + 2)
  let a2 := oamHalf s (8 * k + 4)
  let rot := bitsAt a0 8 1
  let big := bitsAt a0 9 1
  let size := (spriteSizes.getD (bitsAt a0 14 2) []).getD (bitsAt a1 14 2) (0, 0)
  let w := size.1
  let h := size.2
  let bw := if rot = 1 ∧ big = 1 then 2 * w else w
  let bh := if rot = 1 ∧ big = 1 then 2 * h else h
  let top : Int := if bitsAt a0 0 8 < 160 then (bitsAt a0 0 8 : Nat) else (bitsAt a0 0 8 : Nat) - 256
  let left : Int := signed 9 a1
  let group (o : Nat) : Int := signed 16 (oamHalf s (o + 0x20 * bitsAt a1 9 5))
  let dx : Int := x - (left + (bw / 2 : Nat))
  let dy : Int := y - (top + (bh / 2 : Nat))
  bitsAt a0 14 2 ≠ 3 ∧ ¬(rot = 0 ∧ big = 1) ∧ (left ≤ x ∧ x < left + bw) ∧ (top ≤ y ∧ y < top + bh) ∧
    ∃ sx, sx < w ∧ ∃ sy, sy < h ∧
      (if rot = 0 then
        (sx : Int) = (if bitsAt a1 12 1 = 1 then w - 1 - (x - left) else x - left) ∧
        (sy : Int) = (if bitsAt a1 13 1 = 1 then h - 1 - (y - top) else y - top)
      else
        (sx : Int) = (group 0x06 * dx + group 0x0E * dy) / 256 + (w / 2 : Nat) ∧
        (sy : Int) = (group 0x16 * dx + group 0x1E * dy) / 256 + (h / 2 : Nat)) ∧
      (spriteTexel a0 a2 sx sy w s).1 ≠ 0 ∧ c = colourAt s (spriteTexel a0 a2 sx sy w s).2 ∧ p = bitsAt a2 10 2

/-- Layer `l` comes before layer `k`: the lower priority number, then the lower layer number (R1106). -/
def inFrontOf (s : State) (l k : Fin 4) : Prop :=
  let priority (l : Fin 4) : Nat := bitsAt (controlOf l s) 0 2
  priority l < priority k ∨ (priority l = priority k ∧ l < k)

/-- Sprite `k` shows at a point: it draws there, and no sprite drawing there has a higher priority, or the same with a lower index
(R1117, R1120). -/
def spriteShows (k x y : Nat) (colour : Half) (s : State) : Prop :=
  k < 128 ∧ ∃ p, spriteAt k x y s = some (colour, p) ∧
    ∀ j c q, j < 128 → spriteAt j x y s = some (c, q) → p < q ∨ (p = q ∧ k ≤ j)

end Sys2Proof.Safety
end

