-- ==== Sys2Proof/Certificates/Slice0/Obligations.lean ====
section
/-! DEFINITION. The statements for the provers, one for each entry of OBLIGATIONS.json. Their shapes are in Sys2Proof/Safety.lean. -/

open Sys2Proof Sys2Proof.Machine Sys2Proof.Safety

/-! ## Encoding -/

/-- Words and halfwords of the spec's examples, one or more of each family, decode to the instructions they stand for
(30_encoding.md R302, R303, R330 and the examples of files 41 to 49). Cites: R302; R303; R330. Rests on inferences the spec marks
as its own: decisions D1, D12. -/
def Obligations.WordsDecode : Prop :=
  decodeArm 0xE12FFF10#32 = .bx .al 0#4 ∧
  decodeArm 0xEB00003A#32 = .bl .al 0x3A#24 ∧
  decodeArm 0xE92D4003#32 = .stmdb .al true 13#4 0x4003#16 ∧
  decodeArm 0xE8FD8000#32 = .ldmiaUser .al true 13#4 0x8000#16 ∧
  decodeArm 0xE4B10004#32 = .ldrt .al true 1#4 0#4 (.imm 4#12) ∧
  decodeArm 0xE1D100B0#32 = .ldrh .al true true false 1#4 0#4 (.imm 0#8) ∧
  decodeArm 0xE1010092#32 = .swp .al 1#4 0#4 2#4 ∧
  decodeArm 0xE0203291#32 = .mla .al false 0#4 3#4 2#4 1#4 ∧
  decodeArm 0xE0F10392#32 = .smlal .al true 1#4 0#4 3#4 2#4 ∧
  decodeArm 0xE121F000#32 = .msrCpsrReg .al 1#4 0#4 ∧
  decodeArm 0xEF060000#32 = .swi .al 0x060000#24 ∧
  decodeArm 0xE6000010#32 = .undefined .al 0#20 0#4 ∧
  decodeArm 0xE1B00211#32 = .mov .al true 0#4 0#4 (.shiftReg 2#4 .lsl 1#4) ∧
  decodeArm 0xE25EF004#32 = .sub .al true 14#4 15#4 (.imm 0#4 4#8) ∧
  decodeThumb 0x0108#16 = .tLslImm 4#5 1#3 0#3 ∧
  decodeThumb 0x1DC8#16 = .tAddImm3 7#3 1#3 0#3 ∧
  decodeThumb 0x2880#16 = .tCmpImm8 0#3 0x80#8 ∧
  decodeThumb 0x4348#16 = .tMul 1#3 0#3 ∧
  decodeThumb 0x4480#16 = .tAddHi 0#4 8#4 ∧
  decodeThumb 0x4801#16 = .tLdrPc 0#3 1#8 ∧
  decodeThumb 0x5688#16 = .tLdsbReg 2#3 1#3 0#3 ∧
  decodeThumb 0x7048#16 = .tStrbImm 1#5 1#3 0#3 ∧
  decodeThumb 0xB503#16 = .tPush true 3#8 ∧
  decodeThumb 0xCA03#16 = .tLdmia 2#3 3#8 ∧
  decodeThumb 0xD0FE#16 = .tBCond .eq 0xFE#8 ∧
  decodeThumb 0xDE00#16 = .tUndefDE 0#8 ∧
  decodeThumb 0xDF05#16 = .tSwi 5#8 ∧
  decodeThumb 0xFFFE#16 = .tBlSecond 0x7FE#11

/-- Every well-formed instruction is decoded back from its encoding, in its own state's decoder, every operand at every value.
Cites: R302; R303; R330; R333. Rests on inferences the spec marks as its own: decisions D1, D12. -/
def Obligations.DecodeEncode : Prop :=
  ∀ i : Instr, i.wellFormed = true →
    match encode i with
    | .arm w => decodeArm w = i
    | .thumb h => decodeThumb h = i

/-- Every word and every halfword decodes to a well-formed instruction that is encoded by exactly that word or halfword: no bit is
lost, and no two rows share a word. Cites: R302; R303; R326; R330; R333; R334. Rests on inferences the spec marks as its own:
decisions D1, D12, D13, D14. -/
def Obligations.EncodeDecode : Prop :=
  (∀ w : Word, (decodeArm w).wellFormed = true ∧ encode (decodeArm w) = .arm w) ∧
  (∀ h : Half, (decodeThumb h).wellFormed = true ∧ encode (decodeThumb h) = .thumb h)

/-! ## The step -/

/-- With no channel Active and no interrupt pending, where the bytes of the decode slot decode to an instruction, a step is `exec`
of that instruction followed by the promotion phase, the picture processor and the timers; a stop of the instruction stops the
step. Cites: R400; R402; R1250; R1251; R1252. Rests on inferences the spec marks as its own: decisions D10, D69. The order of the
phases is the one the spec infers. -/
def Obligations.StepRunsDecodedInstruction : Prop :=
  ∀ (s : State) (i : Instr), activeChannel s = none → irqPending s = false →
    decode s.cpsr.t (layBytes s.pipeDecode.toNat (if s.cpsr.t then 2 else 4)) = .ok (i, []) →
    i.wellFormed = true →
    step s =
      match exec i s with
      | .next u => .next (timersStep (ppuStep (dmaPromote u)))
      | .fault x => .fault x
      | .refused x => .refused x

/-- With no channel Active, I clear, bit 0 of IME set and an enabled request in IF, a step enters IRQ in place of the instruction.
Cites: R402; R903; R904; R905. Rests on inferences the spec marks as its own: decisions D10, D38. -/
def Obligations.StepEntersIrq : Prop :=
  ∀ s : State, activeChannel s = none → s.cpsr.i = false → s.irq.ime.getLsbD 0 = true →
    s.irq.ie &&& s.irq.ifl ≠ 0#16 →
    ∃ u, entered .irq 0x00000018#32 s u ∧ step s = .next (timersStep (ppuStep (dmaPromote u)))

/-- With a channel Active the processor does not step: its registers, status registers and pipeline stay, and the channel copies a
unit. Cites: R1005; R1006; R1251; R1252. Rests on inferences the spec marks as its own: decisions D40, D41, D48, D49, D69. -/
def Obligations.DmaTakesTheCycle : Prop :=
  ∀ (s : State) (i : Fin 4), activeChannel s = some i →
    ∃ t, step s = .next t ∧ t = timersStep (ppuStep (dmaPromote (dmaStep i s))) ∧
      t.regs = s.regs ∧ t.r15 = s.r15 ∧ t.cpsr = s.cpsr ∧ t.spsr = s.spsr ∧ t.pipeDecode = s.pipeDecode ∧
      t.pipeFetch = s.pipeFetch

/-! ## Conditions, registers -/

/-- The sixteen conditions by their codes: an even code below 1110 has its predicate, the odd code after it the negation, 1110
always passes and 1111 never (30_encoding.md R301, 40_cpu_step.md R404). Cites: R404; R301. Rests on inferences the spec marks as
its own: what R301 marks as general knowledge. R404 itself fixes AL and NV; the fourteen other predicates are R301's table. -/
def Obligations.ConditionsPass : Prop :=
  ∀ (p : Cpsr) (k : BitVec 4), conditionPasses (Cond.ofCode k) p =
    match (k.extractLsb' 1 3).toNat with
    | 0 => p.z ^^ k.getLsbD 0
    | 1 => p.c ^^ k.getLsbD 0
    | 2 => p.n ^^ k.getLsbD 0
    | 3 => p.v ^^ k.getLsbD 0
    | 4 => (p.c && !p.z) ^^ k.getLsbD 0
    | 5 => (p.n == p.v) ^^ k.getLsbD 0
    | 6 => (!p.z && (p.n == p.v)) ^^ k.getLsbD 0
    | _ => !k.getLsbD 0

/-- An ARM instruction whose condition fails only advances the pipeline, whatever its other bits. Cites: R405; R407; R327. Rests
on inferences the spec marks as its own: decisions D8, D11. -/
def Obligations.FailedConditionOnlyAdvances : Prop :=
  ∀ (i : Instr) (c : Cond) (s : State), condOf i = some c → conditionPasses c s.cpsr = false →
    ∃ t, exec i s = .next t ∧ advanced s t ∧ onlyRegsNoFlags [] s t

/-- Register access goes through the bank of the current mode (10_state.md R103): a register other than R15 written through one
mode is read through another exactly where the number is the same and both modes use the same bank for it, no write reaches any
other register, R15 is one register in every mode, and the mode is that of CPSR at the access. Cites: R103. Formalises R103. -/
def Obligations.RegistersAreBanked : Prop :=
  let bank (m : Mode) (r : Reg) : Mode :=
    if r.toNat < 8 then .usr
    else if r.toNat < 13 then (if m = .fiq then .fiq else .usr)
    else if m = .sys then .usr else m
  (∀ (m m' : Mode) (r r' : Reg) (v : Word) (s : State), r ≠ 15#4 → r' ≠ 15#4 →
    readRegIn m' r' (setRegIn m r v s) = if r = r' ∧ bank m r = bank m' r' then v else readRegIn m' r' s) ∧
  (∀ (m : Mode) (s : State), readRegIn m 15#4 s = s.r15) ∧
  (∀ (r : Reg) (s : State), readReg r s = readRegIn s.cpsr.mode r s) ∧
  (∀ (r : Reg) (v : Word) (s : State), r ≠ 15#4 → writeReg r v s = setRegIn s.cpsr.mode r v s)

/-! ## The second operand and addition -/

/-- The rotated immediate and its carry. Cites: R305; R701. Rests on inferences the spec marks as its own: decision D17; what R701
marks as general knowledge. -/
def Obligations.RotatedImmediate : Prop :=
  ∀ (rot : BitVec 4) (imm8 : BitVec 8) (s : State),
    let x := operand2 (.imm rot imm8) s
    (∀ k, k < 32 → x.1.getLsbD k =
      (decide ((k + 2 * rot.toNat) % 32 < 8) && imm8.getLsbD ((k + 2 * rot.toNat) % 32))) ∧
    (rot = 0#4 → x.2 = s.cpsr.c) ∧ (rot ≠ 0#4 → x.2 = x.1.getLsbD 31)

/-- A register shifted by an immediate, with the amount 0 read as the rule says; the register offset of a word or byte transfer is
the same value. Cites: R702; R306; R308. Rests on inferences the spec marks as its own: decision D17; what R702 marks as general
knowledge. -/
def Obligations.ShiftByImmediate : Prop :=
  ∀ (a : BitVec 5) (t : ShiftType) (rm : Reg) (s : State),
    let v := readReg rm s
    let x := operand2 (.shiftImm a t rm) s
    let n := a.toNat
    offsetValue (.reg a t rm) s = x.1 ∧
    match t with
    | .lsl => (n = 0 → x = (v, s.cpsr.c)) ∧
        (n ≠ 0 → x.1.toNat = v.toNat * 2 ^ n % 2 ^ 32 ∧ x.2 = v.getLsbD (32 - n))
    | .lsr => (n = 0 → x = (0#32, v.getLsbD 31)) ∧ (n ≠ 0 → x.1.toNat = v.toNat / 2 ^ n ∧ x.2 = v.getLsbD (n - 1))
    | .asr => (n = 0 → x = (if v.getLsbD 31 then 0xFFFFFFFF#32 else 0#32, v.getLsbD 31)) ∧
        (n ≠ 0 → x.1.toInt = v.toInt / 2 ^ n ∧ x.2 = v.getLsbD (n - 1))
    | .ror => (n = 0 → x = ((if s.cpsr.c then 0x80000000#32 else 0#32) ||| v >>> 1, v.getLsbD 0)) ∧
        (n ≠ 0 → (∀ k, k < 32 → x.1.getLsbD k = v.getLsbD ((k + n) % 32)) ∧ x.2 = v.getLsbD (n - 1))

/-- A register shifted by the low byte of a register, in the columns 0, 1 to 31, 32 and above of the rule. Cites: R703; R306.
Rests on inferences the spec marks as its own: decision D17; what R703 marks as general knowledge. -/
def Obligations.ShiftByRegister : Prop :=
  ∀ (rs rm : Reg) (t : ShiftType) (s : State),
    let v := readReg rm s
    let x := operand2 (.shiftReg rs t rm) s
    let n := (readReg rs s).toNat % 256
    (n = 0 → x = (v, s.cpsr.c)) ∧
    (n ≠ 0 →
      match t with
      | .lsl => (n < 32 → x.1.toNat = v.toNat * 2 ^ n % 2 ^ 32 ∧ x.2 = v.getLsbD (32 - n)) ∧
          (n = 32 → x = (0#32, v.getLsbD 0)) ∧ (32 < n → x = (0#32, false))
      | .lsr => (n < 32 → x.1.toNat = v.toNat / 2 ^ n ∧ x.2 = v.getLsbD (n - 1)) ∧
          (n = 32 → x = (0#32, v.getLsbD 31)) ∧ (32 < n → x = (0#32, false))
      | .asr => (n < 32 → x.1.toInt = v.toInt / 2 ^ n ∧ x.2 = v.getLsbD (n - 1)) ∧
          (32 ≤ n → x = (if v.getLsbD 31 then 0xFFFFFFFF#32 else 0#32, v.getLsbD 31))
      | .ror => (∀ k, k < 32 → x.1.getLsbD k = v.getLsbD ((k + n) % 32)) ∧
          x.2 = v.getLsbD (if n % 32 = 0 then 31 else n % 32 - 1))

/-- Addition with carry by its exact sums, and subtraction through NOT: its carry is 1 exactly when no borrow occurs and its
overflow is that of the exact difference. Cites: R704. Rests on inferences the spec marks as its own: what R704 marks as general
knowledge. -/
def Obligations.AdditionWithCarry : Prop :=
  ∀ (x y : Word) (c : Bool),
    (let r := addWithCarry x y c
     r.res.toNat = (x.toNat + y.toNat + c.toNat) % 2 ^ 32 ∧ (r.c = true ↔ 2 ^ 32 ≤ x.toNat + y.toNat + c.toNat) ∧
      (r.v = true ↔ ¬(-2 ^ 31 ≤ x.toInt + y.toInt + c.toNat ∧ x.toInt + y.toInt + c.toNat ≤ 2 ^ 31 - 1))) ∧
    (let r := addWithCarry x (~~~y) c
     let d := differenceOf x y (borrowOf c)
     r.res = d.res ∧ r.c = d.c ∧ r.v = d.v)

/-! ## Data processing -/

/-- AND, EOR, ORR, BIC, MOV and MVN in every form: result, N and Z of it, C of the shifter, V kept. Cites: R705; R707; R708; R719;
R720; R721; R722; R406. Rests on inferences the spec marks as its own: decision D9; what R705 marks as general knowledge. -/
def Obligations.LogicalOperations : Prop :=
  dataProcessing .and (fun a x p => ⟨a &&& x.1, x.2, p.v⟩) ∧
  dataProcessing .eor (fun a x p => ⟨a ^^^ x.1, x.2, p.v⟩) ∧
  dataProcessing .orr (fun a x p => ⟨a ||| x.1, x.2, p.v⟩) ∧
  dataProcessing .bic (fun a x p => ⟨a &&& ~~~x.1, x.2, p.v⟩) ∧
  dataProcessing .mov (fun _ x p => ⟨x.1, x.2, p.v⟩) ∧
  dataProcessing .mvn (fun _ x p => ⟨~~~x.1, x.2, p.v⟩)

/-- SUB, RSB, ADD, ADC, SBC and RSC in every form: the sum or difference with its carry and overflow. Cites: R704; R705; R709;
R710; R711; R712; R713; R714; R406. Rests on inferences the spec marks as its own: decision D9; what R704, R705 mark as general
knowledge. -/
def Obligations.ArithmeticOperations : Prop :=
  dataProcessing .sub (fun a x _ => differenceOf a x.1 0) ∧
  dataProcessing .rsb (fun a x _ => differenceOf x.1 a 0) ∧
  dataProcessing .add (fun a x _ => sumOf a x.1 0) ∧
  dataProcessing .adc (fun a x p => sumOf a x.1 p.c.toNat) ∧
  dataProcessing .sbc (fun a x p => differenceOf a x.1 (borrowOf p.c)) ∧
  dataProcessing .rsc (fun a x p => differenceOf x.1 a (borrowOf p.c))

/-- TST, TEQ, CMP and CMN set the flags and write nothing, whatever Rd. Cites: R706; R715; R716; R717; R718. Rests on inferences
the spec marks as its own: decision D18. -/
def Obligations.CompareOperations : Prop :=
  comparing .tst (fun a x p => ⟨a &&& x.1, x.2, p.v⟩) ∧
  comparing .teq (fun a x p => ⟨a ^^^ x.1, x.2, p.v⟩) ∧
  comparing .cmp (fun a x _ => differenceOf a x.1 0) ∧
  comparing .cmn (fun a x _ => sumOf a x.1 0)

/-! ## Multiply -/

/-- MUL and MLA: the product, and the sum with Rn, modulo 2^32. Cites: R600; R601; R602; R603. Rests on inferences the spec marks
as its own: decision D19. -/
def Obligations.Multiplies : Prop :=
  ∀ (c : Cond) (sf : Bool) (rd rn rs rm : Reg) (s : State), conditionPasses c s.cpsr = true →
    let x := (readReg rm s).toNat * (readReg rs s).toNat
    multiplies (.mul c sf rd rn rs rm) sf rd [rs, rm] (BitVec.ofNat 32 x) s ∧
    multiplies (.mla c sf rd rn rs rm) sf rd [rn, rs, rm] (BitVec.ofNat 32 (x + (readReg rn s).toNat)) s

/-- UMULL, UMLAL, SMULL and SMLAL: the unsigned or signed product, and its sum with RdHi:RdLo, modulo 2^64. Cites: R600; R601;
R604; R605; R606; R607. Rests on inferences the spec marks as its own: decision D19. Which stop comes first is log entry 10. -/
def Obligations.LongMultiplies : Prop :=
  ∀ (c : Cond) (sf : Bool) (hi lo rs rm : Reg) (s : State), conditionPasses c s.cpsr = true →
    let x := (readReg rm s).toNat * (readReg rs s).toNat
    let y := (readReg rm s).toInt * (readReg rs s).toInt
    let acc := (readReg hi s).toNat * 2 ^ 32 + (readReg lo s).toNat
    multipliesLong (.umull c sf hi lo rs rm) sf hi lo rs rm (BitVec.ofNat 64 x) s ∧
    multipliesLong (.umlal c sf hi lo rs rm) sf hi lo rs rm (BitVec.ofNat 64 (x + acc)) s ∧
    multipliesLong (.smull c sf hi lo rs rm) sf hi lo rs rm (BitVec.ofInt 64 y) s ∧
    multipliesLong (.smlal c sf hi lo rs rm) sf hi lo rs rm (BitVec.ofInt 64 (y + acc)) s

/-! ## Branches -/

/-- BX, B and BL: the target, the state and the link; nothing else. Cites: R450; R451; R452; R406. Rests on inferences the spec
marks as its own: decisions D9, D15. -/
def Obligations.ArmBranches : Prop :=
  ∀ (c : Cond) (rn : Reg) (o : BitVec 24) (s : State), conditionPasses c s.cpsr = true →
    let target := s.r15 + BitVec.ofInt 32 (4 * o.toInt)
    (∃ t, exec (.bx c rn) s = .next t ∧ t.cpsr = { s.cpsr with t := (readReg rn s).getLsbD 0 } ∧
      refilled (readReg rn s) t ∧ onlyRegs [] s t) ∧
    (∃ t, exec (.b c o) s = .next t ∧ refilled target t ∧ onlyRegsNoFlags [] s t) ∧
    (∃ t, exec (.bl c o) s = .next t ∧ refilled target t ∧ readReg 14#4 t = s.r15 - 4#32 ∧
      onlyRegsNoFlags (placeOf s 14#4) s t)

/-! ## Loads and stores -/

/-- LDR, LDRB, LDRT, LDRBT, LDRH, LDRSB and LDRSH in every form: value, writeback, and a load of R15 as a branch. Cites: R550;
R551; R552; R555; R556; R557; R559; R560; R209; R406. Rests on inferences the spec marks as its own: decisions D9, D20, D21, D23,
D31, D41. -/
def Obligations.ArmLoads : Prop :=
  ∀ (c : Cond) (p u w : Bool) (rn rd : Reg) (o : Offset) (h : HalfOffset) (s : State), conditionPasses c s.cpsr = true →
    loading (.ldr c p u w rn rd o) p u w rn rd (offsetValue o s) valueWord s ∧
    loading (.ldrb c p u w rn rd o) p u w rn rd (offsetValue o s) valueByte s ∧
    loading (.ldrt c u rn rd o) false u true rn rd (offsetValue o s) valueWord s ∧
    loading (.ldrbt c u rn rd o) false u true rn rd (offsetValue o s) valueByte s ∧
    loading (.ldrh c p u w rn rd h) p u w rn rd (halfOffsetValue h s) valueHalf s ∧
    loading (.ldrsb c p u w rn rd h) p u w rn rd (halfOffsetValue h s) valueSignedByte s ∧
    loading (.ldrsh c p u w rn rd h) p u w rn rd (halfOffsetValue h s) valueSignedHalf s

/-- STR, STRB, STRT, STRBT and STRH in every form: one bus write at the aligned address of the value read before the writeback.
Cites: R550; R553; R554; R555; R556; R558; R205; R206; R207; R209. Rests on inferences the spec marks as its own: decisions D20,
D23, D26, D27, D31, D41. -/
def Obligations.ArmStores : Prop :=
  ∀ (c : Cond) (p u w : Bool) (rn rd : Reg) (o : Offset) (h : HalfOffset) (s : State), conditionPasses c s.cpsr = true →
    storing (.str c p u w rn rd o) p u w rn rd (offsetValue o s) busWord busWordKeys s ∧
    storing (.strb c p u w rn rd o) p u w rn rd (offsetValue o s) busByte byteKeys8 s ∧
    storing (.strt c u rn rd o) false u true rn rd (offsetValue o s) busWord busWordKeys s ∧
    storing (.strbt c u rn rd o) false u true rn rd (offsetValue o s) busByte byteKeys8 s ∧
    storing (.strh c p u w rn rd h) p u w rn rd (halfOffsetValue h s) busHalf busHalfKeys s

/-- A load or store, single or multiple, that would write back to R15 stops. Cites: R550; R556; R501; R555. Rests on inferences
the spec marks as its own: decisions D20, D22, D31. Which fault is named where two apply is log entry 10 (DEDUCED). -/
def Obligations.WritebackToR15Stops : Prop :=
  ∀ (c : Cond) (p u w : Bool) (rd : Reg) (o : Offset) (h : HalfOffset) (list : BitVec 16) (s : State),
    conditionPasses c s.cpsr = true →
    let stop (i : Instr) : Prop := exec i s = .fault (.unpredictable .writebackR15)
    ((!p || w) = true →
      stop (.ldr c p u w 15#4 rd o) ∧ stop (.ldrb c p u w 15#4 rd o) ∧ stop (.str c p u w 15#4 rd o) ∧
      stop (.strb c p u w 15#4 rd o) ∧ stop (.ldrh c p u w 15#4 rd h) ∧ stop (.ldrsb c p u w 15#4 rd h) ∧
      stop (.ldrsh c p u w 15#4 rd h) ∧ stop (.strh c p u w 15#4 rd h)) ∧
    stop (.ldrt c u 15#4 rd o) ∧ stop (.ldrbt c u 15#4 rd o) ∧ stop (.strt c u 15#4 rd o) ∧
    stop (.strbt c u 15#4 rd o) ∧
    (∀ mk ∈ [Instr.stmda, .stmia, .stmdb, .stmib, .stmdaUser, .stmiaUser, .stmdbUser, .stmibUser,
        .ldmda, .ldmia, .ldmdb, .ldmib, .ldmdaUser, .ldmiaUser, .ldmdbUser, .ldmibUser], stop (mk c true 15#4 list))

/-- SWP and SWPB: the load and the store at one address, and the refusal of R15. Cites: R565. Rests on inferences the spec marks
as its own: decisions D19, D23. -/
def Obligations.Swaps : Prop :=
  ∀ (c : Cond) (rn rd rm : Reg) (s : State), conditionPasses c s.cpsr = true →
    swapping (.swp c rn rd rm) rn rd rm valueWord busWord busWordKeys s ∧
    swapping (.swpb c rn rd rm) rn rd rm valueByte busByte byteKeys8 s

/-! ## Block transfers -/

/-- The registers of a list: those of its bits in ascending order, R15 alone for the empty list. Cites: R310; R502. Rests on
inferences the spec marks as its own: decision D22. -/
def Obligations.BlockRegisters : Prop :=
  ∀ list : BitVec 16,
    (blockRegs list).Pairwise (fun a b => a < b) ∧
    (list = 0#16 → blockRegs list = [15#4]) ∧
    (list ≠ 0#16 → ∀ r : Reg, r ∈ blockRegs list ↔ list.getLsbD r.toNat = true)

/-- The eight STM rows, the current bank and the user bank. Cites: R500; R501; R502; R503; R504; R207. Rests on inferences the
spec marks as its own: decisions D20, D22; what R500 marks as general knowledge. -/
def Obligations.StoreMultiples : Prop :=
  ∀ (c : Cond) (w : Bool) (rn : Reg) (list : BitVec 16) (s : State), conditionPasses c s.cpsr = true →
    storingMultiple (.stmda c w rn list) readReg false false w rn list s ∧
    storingMultiple (.stmia c w rn list) readReg false true w rn list s ∧
    storingMultiple (.stmdb c w rn list) readReg true false w rn list s ∧
    storingMultiple (.stmib c w rn list) readReg true true w rn list s ∧
    storingMultiple (.stmdaUser c w rn list) (readRegIn .usr) false false w rn list s ∧
    storingMultiple (.stmiaUser c w rn list) (readRegIn .usr) false true w rn list s ∧
    storingMultiple (.stmdbUser c w rn list) (readRegIn .usr) true false w rn list s ∧
    storingMultiple (.stmibUser c w rn list) (readRegIn .usr) true true w rn list s

/-- The four LDM rows without S. Cites: R500; R501; R502; R505; R406. Rests on inferences the spec marks as its own: decisions D9,
D20, D21, D22; what R500 marks as general knowledge. -/
def Obligations.LoadMultiples : Prop :=
  ∀ (c : Cond) (w : Bool) (rn : Reg) (list : BitVec 16) (s : State), conditionPasses c s.cpsr = true →
    loadingMultiple (.ldmda c w rn list) s.cpsr.mode false false w rn list s ∧
    loadingMultiple (.ldmia c w rn list) s.cpsr.mode false true w rn list s ∧
    loadingMultiple (.ldmdb c w rn list) s.cpsr.mode true false w rn list s ∧
    loadingMultiple (.ldmib c w rn list) s.cpsr.mode true true w rn list s

/-- The four LDM rows with S: the user bank, or the current bank and the CPSR restore. Cites: R500; R501; R502; R506; R406. Rests
on inferences the spec marks as its own: decisions D3, D9, D20, D22; what R500 marks as general knowledge. -/
def Obligations.LoadMultiplesUser : Prop :=
  ∀ (c : Cond) (w : Bool) (rn : Reg) (list : BitVec 16) (s : State), conditionPasses c s.cpsr = true →
    loadingMultipleUser (.ldmdaUser c w rn list) false false w rn list s ∧
    loadingMultipleUser (.ldmiaUser c w rn list) false true w rn list s ∧
    loadingMultipleUser (.ldmdbUser c w rn list) true false w rn list s ∧
    loadingMultipleUser (.ldmibUser c w rn list) true true w rn list s

/-! ## Status registers -/

/-- MRS: the whole status register, bits 27:8 as 0; the refusal of R15 and of an SPSR that does not exist. Cites: R650; R105.
Rests on inferences the spec marks as its own: decisions D1, D3, D4, D6, D19; what R105 marks as general knowledge. Which fault is
named where two apply is log entry 10 (DEDUCED). -/
def Obligations.MoveFromStatus : Prop :=
  ∀ (c : Cond) (rd : Reg) (s : State), conditionPasses c s.cpsr = true →
    (rd ≠ 15#4 → movesFromStatus (.mrsCpsr c rd) rd (saveCpsr s.cpsr) s ∧
      (∀ p, spsrOf s.cpsr.mode s = some p → movesFromStatus (.mrsSpsr c rd) rd p s) ∧
      (spsrOf s.cpsr.mode s = none → exec (.mrsSpsr c rd) s = .fault .noSpsr)) ∧
    (rd = 15#4 → exec (.mrsCpsr c rd) s = .fault (.unpredictable .statusR15) ∧
      exec (.mrsSpsr c rd) s = .fault (.unpredictable .statusR15))

/-- MSR to CPSR, from a register and from an immediate. Cites: R651; R652; R654; R102. Rests on inferences the spec marks as its
own: decisions D2, D3, D4, D5, D6, D19. -/
def Obligations.MoveToCpsr : Prop :=
  ∀ (c : Cond) (f rot : BitVec 4) (imm8 : BitVec 8) (rm : Reg) (s : State), conditionPasses c s.cpsr = true →
    (rm ≠ 15#4 → movesToCpsr (.msrCpsrReg c f rm) (readReg rm s) f s) ∧
    (rm = 15#4 → exec (.msrCpsrReg c f rm) s = .fault (.unpredictable .statusR15)) ∧
    movesToCpsr (.msrCpsrImm c f rot imm8) (operand2 (.imm rot imm8) s).1 f s

/-- MSR to the SPSR of the current mode, from a register and from an immediate. Cites: R651; R653; R655; R106. Rests on inferences
the spec marks as its own: decisions D3, D4, D5, D6, D19; what R106 marks as general knowledge. Which fault is named where two
apply is log entry 10 (DEDUCED). -/
def Obligations.MoveToSpsr : Prop :=
  ∀ (c : Cond) (f rot : BitVec 4) (imm8 : BitVec 8) (rm : Reg) (s : State), conditionPasses c s.cpsr = true →
    (rm ≠ 15#4 → movesToSpsr (.msrSpsrReg c f rm) (readReg rm s) f s) ∧
    (rm = 15#4 → exec (.msrSpsrReg c f rm) s = .fault (.unpredictable .statusR15)) ∧
    movesToSpsr (.msrSpsrImm c f rot imm8) (operand2 (.imm rot imm8) s).1 f s

/-! ## Exceptions and stops -/

/-- SWI, the undefined class, the coprocessor space and the THUMB SWI and undefined halfwords take their exception. Cites: R657;
R658; R659; R851; R864; R901; R902; R903; R904. Rests on inferences the spec marks as its own: decisions D10, D12, D14. -/
def Obligations.ExceptionsAreTaken : Prop :=
  ∀ (i : Instr) (m : Mode) (vec : Word) (s : State), raises i = some (m, vec) →
    (∀ c, condOf i = some c → conditionPasses c s.cpsr = true) →
    ∃ t, exec i s = .next t ∧ entered m vec s t

/-- A word no rule gives a meaning stops the machine, where its condition passes. Cites: R326; R608. Rests on inferences the spec
marks as its own: decision D13. -/
def Obligations.UnallocatedStops : Prop :=
  ∀ (c : Cond) (x : BitVec 17) (y y' : BitVec 2) (z : BitVec 4) (b : Bool) (k : BitVec 20) (s : State),
    conditionPasses c s.cpsr = true →
    exec (.unallocMulSpace c x y z) s = .fault .unallocated ∧
    exec (.unallocPsrSpace c b y' k) s = .fault .unallocated

/-- The mode changes only by an exception, by MSR to CPSR with the control field in a privileged mode, or by a CPSR restore; in
User mode only by an exception (60_exceptions.md R914). Said of every instruction and of every step, in which the interrupt entry
is the one further exception. Cites: R914. Formalises R914. -/
def Obligations.ModeChangesOnlySo : Prop :=
  let so (i : Instr) (s : State) (m : Mode) : Prop :=
    (∃ vec, raises i = some (m, vec)) ∨
    (s.cpsr.mode ≠ .usr ∧
      ((∃ c f rm, i = .msrCpsrReg c f rm ∧ f.getLsbD 0 = true) ∨
        (∃ c f rot imm8, i = .msrCpsrImm c f rot imm8 ∧ f.getLsbD 0 = true) ∨
        (restores i = true ∧ ∃ p, spsrOf s.cpsr.mode s = some p ∧ modeOfBits p.m = some m)))
  (∀ (i : Instr) (s t : State), exec i s = .next t → t.cpsr.mode ≠ s.cpsr.mode → so i s t.cpsr.mode) ∧
  (∀ s t : State, step s = .next t → t.cpsr.mode ≠ s.cpsr.mode →
    activeChannel s = none ∧
      ((irqPending s = true ∧ t.cpsr.mode = .irq) ∨ (irqPending s = false ∧ so (currentInstr s) s t.cpsr.mode))) ∧
  State.reset.cpsr.mode = .sys ∧
  (∀ (r : Reg) (s : State), readReg r s = readRegIn s.cpsr.mode r s)

/-! ## THUMB -/

/-- Formats 1 and 4: shifts by an immediate and by a register, with C of the shifter. Cites: R750; R751; R752; R763; R764; R765;
R768. The rules cited carry no mark of an inference; it is derived because it joins them. -/
def Obligations.ThumbShifts : Prop :=
  ∀ (o : BitVec 5) (rs rd : LowReg) (s : State),
    let byImm (t : ShiftType) : Flagged :=
      let x := shiftImmediate t (readReg (lowReg rs) s) o s.cpsr.c
      ⟨x.1, x.2, s.cpsr.v⟩
    let byReg (t : ShiftType) : Flagged :=
      let x := shiftRegister t (readReg (lowReg rd) s) ((readReg (lowReg rs) s).setWidth 8) s.cpsr.c
      ⟨x.1, x.2, s.cpsr.v⟩
    thumbWrites (.tLslImm o rs rd) rd (byImm .lsl) s ∧ thumbWrites (.tLsrImm o rs rd) rd (byImm .lsr) s ∧
    thumbWrites (.tAsrImm o rs rd) rd (byImm .asr) s ∧ thumbWrites (.tLslReg rs rd) rd (byReg .lsl) s ∧
    thumbWrites (.tLsrReg rs rd) rd (byReg .lsr) s ∧ thumbWrites (.tAsrReg rs rd) rd (byReg .asr) s ∧
    thumbWrites (.tRorReg rs rd) rd (byReg .ror) s

/-- Formats 2, 3, 4 and 5: sums, differences and compares, with all four flags. Cites: R753; R754; R755; R756; R758; R759; R760;
R766; R767; R770; R771; R772; R778. The rules cited carry no mark of an inference; it is derived because it joins them. -/
def Obligations.ThumbArithmetic : Prop :=
  ∀ (k : BitVec 3) (i : BitVec 8) (rn rs rd : LowReg) (d e : Reg) (s : State),
    let x := readReg (lowReg rs) s
    let y := readReg (lowReg rn) s
    let z := readReg (lowReg rd) s
    thumbWrites (.tAddReg rn rs rd) rd (sumOf x y 0) s ∧
    thumbWrites (.tSubReg rn rs rd) rd (differenceOf x y 0) s ∧
    thumbWrites (.tAddImm3 k rs rd) rd (sumOf x (k.setWidth 32) 0) s ∧
    thumbWrites (.tSubImm3 k rs rd) rd (differenceOf x (k.setWidth 32) 0) s ∧
    thumbWrites (.tAddImm8 rd i) rd (sumOf z (i.setWidth 32) 0) s ∧
    thumbWrites (.tSubImm8 rd i) rd (differenceOf z (i.setWidth 32) 0) s ∧
    thumbWrites (.tAdc rs rd) rd (sumOf z x s.cpsr.c.toNat) s ∧
    thumbWrites (.tSbc rs rd) rd (differenceOf z x (borrowOf s.cpsr.c)) s ∧
    thumbWrites (.tNeg rs rd) rd (differenceOf 0#32 x 0) s ∧
    thumbCompares (.tCmpImm8 rd i) (differenceOf z (i.setWidth 32) 0) s ∧
    thumbCompares (.tCmpReg rs rd) (differenceOf z x 0) s ∧
    thumbCompares (.tCmn rs rd) (sumOf z x 0) s ∧
    thumbCompares (.tCmpHi d e) (differenceOf (readReg e s) (readReg d s) 0) s

/-- Formats 3 and 4: logical operations, moves and the multiply: N and Z of the result, C and V kept. Cites: R757; R761; R762;
R769; R773; R774; R775; R776. The rules cited carry no mark of an inference; it is derived because it joins them. -/
def Obligations.ThumbLogical : Prop :=
  ∀ (i : BitVec 8) (rs rd : LowReg) (s : State),
    let x := readReg (lowReg rs) s
    let z := readReg (lowReg rd) s
    let keep (r : Word) : Flagged := ⟨r, s.cpsr.c, s.cpsr.v⟩
    thumbWrites (.tMovImm8 rd i) rd (keep (i.setWidth 32)) s ∧
    thumbWrites (.tAnd rs rd) rd (keep (z &&& x)) s ∧ thumbWrites (.tEor rs rd) rd (keep (z ^^^ x)) s ∧
    thumbWrites (.tOrr rs rd) rd (keep (z ||| x)) s ∧ thumbWrites (.tBic rs rd) rd (keep (z &&& ~~~x)) s ∧
    thumbWrites (.tMvn rs rd) rd (keep (~~~x)) s ∧
    thumbWrites (.tMul rs rd) rd (keep (BitVec.ofNat 32 (x.toNat * z.toNat))) s ∧
    thumbCompares (.tTst rs rd) (keep (z &&& x)) s

/-- Formats 5, 12 and 13: moves and sums without flags, any register as destination, and the stack pointer. Cites: R777; R779;
R781; R782; R783; R784. Rests on inferences the spec marks as its own: what R781 marks as general knowledge. -/
def Obligations.ThumbMoves : Prop :=
  ∀ (d e : Reg) (rd : LowReg) (i : BitVec 8) (k : BitVec 7) (s : State),
    let sp := readReg 13#4 s
    thumbMoves (.tAddHi d e) e (readReg e s + readReg d s) s ∧
    thumbMoves (.tMovHi d e) e (readReg d s) s ∧
    thumbMoves (.tAddPc rd i) (lowReg rd) ((s.r15 &&& 0xFFFFFFFC#32) + BitVec.ofNat 32 (4 * i.toNat)) s ∧
    thumbMoves (.tAddSp rd i) (lowReg rd) (sp + BitVec.ofNat 32 (4 * i.toNat)) s ∧
    thumbMoves (.tAddSpImm k) 13#4 (sp + BitVec.ofNat 32 (4 * k.toNat)) s ∧
    thumbMoves (.tSubSpImm k) 13#4 (sp - BitVec.ofNat 32 (4 * k.toNat)) s

/-- Formats 6 to 11: the loads. Cites: R800; R803; R804; R806; R807; R808; R810; R812; R814; R816. Rests on inferences the spec
marks as its own: decision D23; what R800 marks as general knowledge. -/
def Obligations.ThumbLoads : Prop :=
  ∀ (i : BitVec 8) (o : BitVec 5) (ro rb rd : LowReg) (s : State),
    let b := readReg (lowReg rb) s
    let a := b + readReg (lowReg ro) s
    let sp := readReg 13#4 s
    thumbLoads (.tLdrPc rd i) rd (valueWord ((s.r15 &&& 0xFFFFFFFC#32) + BitVec.ofNat 32 (4 * i.toNat)) s) s ∧
    thumbLoads (.tLdrReg ro rb rd) rd (valueWord a s) s ∧
    thumbLoads (.tLdrbReg ro rb rd) rd (valueByte a s) s ∧
    thumbLoads (.tLdsbReg ro rb rd) rd (valueSignedByte a s) s ∧
    thumbLoads (.tLdrhReg ro rb rd) rd (valueHalf a s) s ∧
    thumbLoads (.tLdshReg ro rb rd) rd (valueSignedHalf a s) s ∧
    thumbLoads (.tLdrImm o rb rd) rd (valueWord (b + BitVec.ofNat 32 (4 * o.toNat)) s) s ∧
    thumbLoads (.tLdrbImm o rb rd) rd (valueByte (b + BitVec.ofNat 32 o.toNat) s) s ∧
    thumbLoads (.tLdrhImm o rb rd) rd (valueHalf (b + BitVec.ofNat 32 (2 * o.toNat)) s) s ∧
    thumbLoads (.tLdrSp rd i) rd (valueWord (sp + BitVec.ofNat 32 (4 * i.toNat)) s) s

/-- Formats 7 to 11: the stores. Cites: R801; R802; R805; R809; R811; R813; R815. The rules cited carry no mark of an inference;
it is derived because it joins them. -/
def Obligations.ThumbStores : Prop :=
  ∀ (i : BitVec 8) (o : BitVec 5) (ro rb rd : LowReg) (s : State),
    let b := readReg (lowReg rb) s
    let a := b + readReg (lowReg ro) s
    let sp := readReg 13#4 s
    thumbStores (.tStrReg ro rb rd) rd a busWord busWordKeys s ∧
    thumbStores (.tStrbReg ro rb rd) rd a busByte byteKeys8 s ∧
    thumbStores (.tStrhReg ro rb rd) rd a busHalf busHalfKeys s ∧
    thumbStores (.tStrImm o rb rd) rd (b + BitVec.ofNat 32 (4 * o.toNat)) busWord busWordKeys s ∧
    thumbStores (.tStrbImm o rb rd) rd (b + BitVec.ofNat 32 o.toNat) busByte byteKeys8 s ∧
    thumbStores (.tStrhImm o rb rd) rd (b + BitVec.ofNat 32 (2 * o.toNat)) busHalf busHalfKeys s ∧
    thumbStores (.tStrSp rd i) rd (sp + BitVec.ofNat 32 (4 * i.toNat)) busWord busWordKeys s

/-- Formats 14 and 15: PUSH is STMDB R13!, POP is LDMIA R13!, and STMIA and LDMIA write back. Cites: R817; R818; R819; R820; R500.
Rests on inferences the spec marks as its own: decision D21; what R500 marks as general knowledge. -/
def Obligations.ThumbMultiples : Prop :=
  ∀ (r : Bool) (list : BitVec 8) (rb : LowReg) (s : State),
    let low : BitVec 16 := list.setWidth 16
    storingMultiple (.tPush r list) readReg true false true 13#4 (if r then low ||| 0x4000#16 else low) s ∧
    loadingMultiple (.tPop r list) s.cpsr.mode false true true 13#4 (if r then low ||| 0x8000#16 else low) s ∧
    storingMultiple (.tStmia rb list) readReg false true true (lowReg rb) low s ∧
    loadingMultiple (.tLdmia rb list) s.cpsr.mode false true true (lowReg rb) low s

/-- Formats 5, 16, 18 and 19: BX, B<cond>, B and the two halves of BL. Cites: R780; R850; R852; R862; R863; R406. Rests on
inferences the spec marks as its own: decisions D9, D15, D16; what R862 marks as general knowledge. -/
def Obligations.ThumbBranches : Prop :=
  ∀ (c : Cond) (i : BitVec 8) (o : BitVec 11) (d e : Reg) (s : State),
    let lr := readReg 14#4 s
    (∃ t, exec (.tBx d e) s = .next t ∧ t.cpsr = { s.cpsr with t := (readReg d s).getLsbD 0 } ∧
      refilled (readReg d s) t ∧ onlyRegs [] s t) ∧
    (conditionPasses c s.cpsr = true → ∃ t, exec (.tBCond c i) s = .next t ∧
      refilled (s.r15 + BitVec.ofInt 32 (2 * i.toInt)) t ∧ onlyRegsNoFlags [] s t) ∧
    (conditionPasses c s.cpsr = false → ∃ t, exec (.tBCond c i) s = .next t ∧ advanced s t ∧ onlyRegsNoFlags [] s t) ∧
    (∃ t, exec (.tB o) s = .next t ∧ refilled (s.r15 + BitVec.ofInt 32 (2 * o.toInt)) t ∧ onlyRegsNoFlags [] s t) ∧
    (∃ t, exec (.tBlFirst o) s = .next t ∧ readReg 14#4 t = s.r15 + BitVec.ofInt 32 (4096 * o.toInt) ∧ advanced s t ∧
      onlyRegsNoFlags (placeOf s 14#4) s t) ∧
    (∃ t, exec (.tBlSecond o) s = .next t ∧
      refilled ((lr + BitVec.ofNat 32 (2 * o.toNat)) &&& 0xFFFFFFFE#32) t ∧
      readReg 14#4 t = (s.r15 - 2#32) ||| 1#32 ∧ onlyRegsNoFlags (placeOf s 14#4) s t)

/-! ## The bus -/

/-- Reads: each address reads the byte of its region's storage, an unmapped address a fresh draw and an unmapped write nothing;
halfwords and words are little-endian. Cites: R200; R201; R203; R204; R208; R212. Rests on inferences the spec marks as its own:
decisions D24, D25, D27, D28, D29, D30. A draw is a free value (log entry 1). -/
def Obligations.BusReads : Prop :=
  ∀ (a : Word) (b : Byte) (s : State),
    (a.toNat < 0x4000 → read8 a s = (Memory.read s.mem a.toNat, s)) ∧
    (∀ k, ramKey a = some k → read8 a s = (Memory.read s.mem k, s)) ∧
    (8 ≤ a.toNat / 0x1000000 → a.toNat / 0x1000000 ≤ 0xD →
      read8 a s = (Memory.read s.mem (0x08000000 + a.toNat % 0x2000000), s)) ∧
    (unmapped a → read8 a s = (Config.freeByte s.draws, { s with draws := s.draws + 1 }) ∧
      (s.dirty = [] → write8 a b s = s)) ∧
    ((∀ k : Nat, k < 4 → (read8 (a + BitVec.ofNat 32 k) s).2 = s) →
      (read16 a s).2 = s ∧ (read32 a s).2 = s ∧
      (∀ k : Nat, k < 2 → (read16 a s).1.extractLsb' (8 * k) 8 = (read8 (a + BitVec.ofNat 32 k) s).1) ∧
      (∀ k : Nat, k < 4 → (read32 a s).1.extractLsb' (8 * k) 8 = (read8 (a + BitVec.ofNat 32 k) s).1))

/-- Writes of each width to each region, between transactions: bytes stored, the byte expansion of palette RAM and VRAM, the
drops, and the I/O window and the backup device byte by byte. Cites: R201; R202; R205; R206; R207; R951; R952. Rests on inferences
the spec marks as its own: decisions D24, D26, D27, D28, D29, D30, D36. -/
def Obligations.BusWrites : Prop :=
  ∀ (a v : Word) (s : State), s.dirty = [] → Memory.wf s.mem = true →
    let page := a.toNat / 0x1000000
    let b := byteAt v 0
    let h : Half := v.extractLsb' 0 16
    let mode := (s.ppu.dispcnt.extractLsb' 0 3).toNat
    let limit := if 3 ≤ mode ∧ mode ≤ 5 then 0x14000 else 0x10000
    (∀ k, ramKey a = some k →
      let both := [(k - k % 2, b), (k - k % 2 + 1, b)]
      (page = 2 ∨ page = 3 → bytesWritten [(k, b)] s (write8 a b s)) ∧
      (page = 5 → bytesWritten both s (write8 a b s)) ∧
      (page = 6 → k < 0x06000000 + limit → bytesWritten both s (write8 a b s)) ∧
      (page = 6 → 0x06000000 + limit ≤ k → write8 a b s = s) ∧
      (page = 7 → write8 a b s = s) ∧
      (a.toNat % 2 = 0 → bytesWritten [(k, b), (k + 1, byteAt v 1)] s (write16 a h s)) ∧
      (a.toNat % 4 = 0 →
        bytesWritten [(k, b), (k + 1, byteAt v 1), (k + 2, byteAt v 2), (k + 3, byteAt v 3)] s (write32 a v s))) ∧
    (readOnlyMemory a ∨ unmapped a →
      write8 a b s = s ∧ (a.toNat % 2 = 0 → write16 a h s = s) ∧ (a.toNat % 4 = 0 → write32 a v s = s)) ∧
    (page = 4 → ∀ o, o = a.toNat % 0x1000000 → o < 0x400 →
      write8 a b s = ioCommit (ioWrite8 o b s) ∧
      (o % 2 = 0 → write16 a h s = ioCommit (ioWrite8 (o + 1) (byteAt v 1) (ioWrite8 o b s))) ∧
      (o % 4 = 0 → write32 a v s = ioCommit (ioWrite8 (o + 3) (byteAt v 3) (ioWrite8 (o + 2) (byteAt v 2)
        (ioWrite8 (o + 1) (byteAt v 1) (ioWrite8 o b s)))))) ∧
    (page = 0xE →
      (a.toNat % 2 = 0 → write16 a h s = write8 (a + 1#32) (byteAt v 1) (write8 a b s)) ∧
      (a.toNat % 4 = 0 → write32 a v s = write8 (a + 3#32) (byteAt v 3) (write8 (a + 2#32) (byteAt v 2)
        (write8 (a + 1#32) (byteAt v 1) (write8 a b s)))))

/-- The backup device: SRAM is 32 KiB masked; the Flash follows its command sequences, answers its two identity bytes in ID mode,
and stores every other write. Cites: R214; R215; R216. Rests on inferences the spec marks as its own: decision D29. -/
def Obligations.BackupDevices : Prop :=
  ∀ (a : Word) (b : Byte) (s : State), a.toNat / 0x1000000 = 0xE → s.dirty = [] →
    let o := a.toNat % 0x10000
    let seq (n : Fin 3) : Prop := write8 a b s = { s with backup := { s.backup with seq := n } }
    let ident (x : Bool) : Prop := write8 a b s = { s with backup := { s.backup with seq := 0, idMode := x } }
    (s.backup.kind = .sram →
      read8 a s = (Memory.read s.mem (0x0E000000 + a.toNat % 0x8000), s) ∧
      write8 a b s = { s with mem := Memory.write s.mem (0x0E000000 + a.toNat % 0x8000) b }) ∧
    (s.backup.kind = .flash128k →
      read8 a s = (if s.backup.idMode = true ∧ o = 0 then 0x62#8 else if s.backup.idMode = true ∧ o = 1 then 0x13#8
        else Memory.read s.mem (0x0E000000 + o), s) ∧
      (if s.backup.seq = 0 ∧ o = 0x5555 ∧ b = 0xAA#8 then seq 1
        else if s.backup.seq = 1 ∧ o = 0x2AAA ∧ b = 0x55#8 then seq 2
        else if s.backup.seq = 2 ∧ o = 0x5555 ∧ b = 0x90#8 then ident true
        else if s.backup.seq = 2 ∧ o = 0x5555 ∧ b = 0xF0#8 then ident false
        else write8 a b s =
          { s with mem := Memory.write s.mem (0x0E000000 + o) b, backup := { s.backup with seq := 0 } }))

/-! ## The I/O registers -/

/-- A byte of a known register reads its live value, without effect; a FIFO port reads a draw; every other offset reads 0xFF, and
a write there stays in the shadow buffer. Cites: R955; R956; R960; R971. Rests on inferences the spec marks as its own: decisions
D33, D35, D37; what R960, R971 mark as general knowledge. A draw is a free value (log entry 1). -/
def Obligations.IoRegisterReads : Prop :=
  (∀ (o : Nat) (b : Byte) (s : State), o < 0x400 → knownOffset o = false →
    read8 (ioAddress o) s = (0xFF#8, s) ∧
    (s.dirty = [] → write8 (ioAddress o) b s = { s with shadow := Memory.write s.shadow o b })) ∧
  (∀ o : Nat, knownOffset o = true ↔ ∃ r : IoReg, ioOffset r ≤ o ∧ o < ioOffset r + ioWidth r) ∧
  (∀ (r : IoReg) (k : Nat) (s : State), k < ioWidth r →
    read8 (ioAddress (ioOffset r + k)) s =
      match r with
      | .fifo _ => (Config.freeByte s.draws, { s with draws := s.draws + 1 })
      | .tmCntL i => ((getTimer i s).counter.extractLsb' (8 * k) 8, s)
      | r => ((ioStored r s).extractLsb' (8 * k) 8, s))

/-- A byte, a halfword or a word stored in the I/O window gives every register the bits that fall into it: the writable ones take
the value, every other bit stays; memory and the processor stay. A timer: a write of TMiCNT_L changes its reload latch alone; a
write of TMiCNT_H that takes enable from 0 to 1 loads the counter from the latch and clears the accumulator, any other keeps both;
a word writes the latch first. Cites: R952; R953; R954; R956; R960; R971; R975; R1204; R1205. Rests on inferences the spec marks
as its own: decisions D33, D34, D36, D37, D51; what R960, R971 mark as general knowledge. -/
def Obligations.IoRegisterWrites : Prop :=
  (∀ (o : Nat) (b : Byte) (h : Half) (v : Word) (s : State), o < 0x400 → s.dirty = [] → Memory.wf s.shadow = true →
    windowWritten o (b.setWidth 32) 0xFF#32 s (write8 (ioAddress o) b s) ∧
    (o % 2 = 0 → windowWritten o (h.setWidth 32) 0xFFFF#32 s (write16 (ioAddress o) h s)) ∧
    (o % 4 = 0 → windowWritten o v 0xFFFFFFFF#32 s (write32 (ioAddress o) v s))) ∧
  (∀ (i : Fin 4) (b : Byte) (h : Half) (v : Word) (s : State), s.dirty = [] → Memory.wf s.shadow = true →
    let c := getTimer i s
    let o := 0x100 + 4 * i.val
    timerWritten i { c with reload := h } s (write16 (ioAddress o) h s) ∧
    timerWritten i { c with reload := c.reload.extractLsb' 8 8 ++ b } s (write8 (ioAddress o) b s) ∧
    timerWritten i { c with reload := b ++ c.reload.extractLsb' 0 8 } s (write8 (ioAddress (o + 1)) b s) ∧
    timerWritten i (timerControlled c h) s (write16 (ioAddress (o + 2)) h s) ∧
    timerWritten i (timerControlled c (c.ctl.extractLsb' 8 8 ++ b)) s (write8 (ioAddress (o + 2)) b s) ∧
    timerWritten i (timerControlled c (b ++ c.ctl.extractLsb' 0 8)) s (write8 (ioAddress (o + 3)) b s) ∧
    timerWritten i (timerControlled { c with reload := v.extractLsb' 0 16 } (v.extractLsb' 16 16)) s (write32 (ioAddress o) v s))

/-- No write of any width sets a bit of IF or changes VCOUNT, the DISPSTAT flags or KEYINPUT; a write to IF clears the bits
written as 1 and keeps the others. Cites: R907; R953; R962; R963; R972; R975. Rests on inferences the spec marks as its own:
decision D34; what R962 marks as general knowledge. -/
def Obligations.LiveBitsAreReadOnly : Prop :=
  (∀ (a v : Word) (s t : State),
    t = write8 a (v.setWidth 8) s ∨ t = write16 a (v.setWidth 16) s ∨ t = write32 a v s →
      t.irq.ifl &&& ~~~s.irq.ifl = 0#16 ∧ t.ppu.vcount = s.ppu.vcount ∧ t.ppu.lc = s.ppu.lc ∧
      t.ppu.dispstat.extractLsb' 0 3 = s.ppu.dispstat.extractLsb' 0 3 ∧ t.keypad.keyinput = s.keypad.keyinput) ∧
  (∀ (v : Word) (s : State), s.dirty = [] → Memory.wf s.shadow = true →
    (write16 0x04000202#32 (v.setWidth 16) s).irq = { s.irq with ifl := s.irq.ifl &&& ~~~v.setWidth 16 } ∧
    (write8 0x04000202#32 (v.setWidth 8) s).irq = { s.irq with ifl := s.irq.ifl &&& ~~~(v &&& 0xFF#32).setWidth 16 } ∧
    (write8 0x04000203#32 (v.setWidth 8) s).irq =
      { s.irq with ifl := s.irq.ifl &&& ~~~((v &&& 0xFF#32) <<< 8).setWidth 16 })

/-! ## The sound FIFOs -/

/-- A push appends below the capacity and is dropped at it; a pop takes the head to the slot; a byte, halfword or word stored
within a port pushes its bytes in ascending address order and changes nothing else; a write of SOUNDCNT_H, by a word to SOUNDCNT_L
too, resets FIFO A where bit 11 is written as 1 and FIFO B where bit 15 is, which empties it, keeps its slot and triggers the
waiting channels that serve it. Cites: R968; R969; R1004; R1020; R1021; R1022; R1030. Rests on inferences the spec marks as its
own: decisions D45, D47, D48; what R968, R1004, R1020 mark as general knowledge. The capacity is a parameter of at least 17 (log
entry 4). -/
def Obligations.FifoQueues : Prop :=
  (∀ (b : Byte) (f : Fifo),
    pushByte b f = (if f.bytes.length < Config.fifoCapacity then { f with bytes := f.bytes ++ [b] } else f)) ∧
  (∀ f : Fifo, popByte f = popped f) ∧
  (∀ (id : FifoId) (k : Nat) (v : Word) (s : State), k < 4 → s.dirty = [] → Memory.wf s.shadow = true →
    let p := ioAddress (ioOffset (.fifo id) + k)
    let f := getFifo id s
    let push (j : Nat) (f : Fifo) : Fifo := pushByte (byteAt v j) f
    fifoWritten id (push 0 f) s (write8 p (v.setWidth 8) s) ∧
    (k % 2 = 0 → fifoWritten id (push 1 (push 0 f)) s (write16 p (v.setWidth 16) s)) ∧
    (k = 0 → fifoWritten id (push 3 (push 2 (push 1 (push 0 f)))) s (write32 p v s))) ∧
  (∀ (b : Byte) (h : Half) (v : Word) (s : State), s.dirty = [] → Memory.wf s.shadow = true →
    let old := s.sound.cntH
    soundControlled h (h.getLsbD 11) (h.getLsbD 15) s (write16 (ioAddress 0x082) h s) ∧
    soundControlled (b ++ old.extractLsb' 0 8) (b.getLsbD 3) (b.getLsbD 7) s (write8 (ioAddress 0x083) b s) ∧
    soundControlled (old.extractLsb' 8 8 ++ b) false false s (write8 (ioAddress 0x082) b s) ∧
    soundControlled (v.extractLsb' 16 16) (v.getLsbD 27) (v.getLsbD 31)
      { s with sound := { s.sound with cntL := v.extractLsb' 0 16 } } (write32 (ioAddress 0x080) v s))

/-! ## DMA -/

/-- The commit of a write to CNT_H, by halfword, by byte, or by a word to CNT_L, which writes the count first: enable 0→1 latches
the channel, 1→0 makes it Idle and keeps its latches, else only the register changes; nothing else changes. A channel that its own
unit's write has taken out of Active stops without completing. Cites: R953; R970; R1002; R1003; R1009. Rests on inferences the
spec marks as its own: decisions D33, D40, D42, D43, D46; what R970 marks as general knowledge. What the bookkeeping does for a
channel its own unit disables is log entry 9 (DEDUCED). -/
def Obligations.DmaEnable : Prop :=
  (∀ (i : Fin 4) (b : Byte) (h : Half) (v : Word) (s : State), s.dirty = [] → Memory.wf s.shadow = true →
    let c := getDma i s
    let o := 0x0B8 + 12 * i.val
    channelWritten i (channelControlled i c h) s (write16 (ioAddress (o + 2)) h s) ∧
    channelWritten i (channelControlled i c (c.cntH.extractLsb' 8 8 ++ b)) s (write8 (ioAddress (o + 2)) b s) ∧
    channelWritten i (channelControlled i c (b ++ c.cntH.extractLsb' 0 8)) s (write8 (ioAddress (o + 3)) b s) ∧
    channelWritten i (channelControlled i { c with cntL := v.extractLsb' 0 16 } (v.extractLsb' 16 16)) s
      (write32 (ioAddress o) v s)) ∧
  (∀ (i : Fin 4) (s : State), let u := unitCopied (getDma i s) s
    (getDma i u).phase ≠ .active → dmaStep i s = u)

/-- A unit of a channel that stays Active: the copy, both addresses moved, the count down by one; the last unit raises the
interrupt if latched, and repeats or ends. Cites: R1006; R1007; R1008; R1011. Rests on inferences the spec marks as its own:
decisions D40, D41, D44. The guard that the channel stays Active is log entry 9 (DEDUCED); the rearm of an Immediate channel is
the open parameter of log entry 5. -/
def Obligations.DmaUnits : Prop :=
  ∀ (i : Fin 4) (s : State),
    let c := getDma i s
    let u := unitCopied c s
    let t := dmaStep i s
    let moved : DmaChannel :=
      { getDma i u with curSrc := movedBy c.curSrc c.size c.srcStep, curDst := movedBy c.curDst c.size c.dstStep, count := c.count - 1 }
    c.phase = .active → (getDma i u).phase = .active →
    (2 ≤ c.count → t = { u with dma := u.dma.set i moved }) ∧
    (c.count = 1 →
      t = { u with dma := t.dma, irq := { u.irq with ifl := if c.irq then u.irq.ifl ||| 1#16 <<< (8 + i.val) else u.irq.ifl } } ∧
      (∀ j, j ≠ i → getDma j t = getDma j u) ∧
      (c.rep = true ∧ (c.start ≠ .immediate ∨ Config.immediateRearm = true) →
        getDma i t = { moved with
          count := if c.start = .special ∧ (i = 1 ∨ i = 2) then 4 else latchedCount i moved.cntL
          curDst := if c.dstStep = .incReload then moved.dad else moved.curDst
          phase := .wait }) ∧
      (¬(c.rep = true ∧ (c.start ≠ .immediate ∨ Config.immediateRearm = true)) →
        getDma i t = { moved with cntH := moved.cntH &&& 0x7FFF#16, phase := .idle }))

/-- The promotion phase: every waiting channel whose start condition holds is Triggered; then, with none Active, the
lowest-numbered Triggered channel is Active; nothing else changes. Cites: R1004; R1005; R1023. Rests on inferences the spec marks
as its own: decisions D45, D48, D49; what R1004 marks as general knowledge. -/
def Obligations.DmaPromotion : Prop :=
  ∀ s : State,
    let t := dmaPromote s
    let triggered (i : Fin 4) : Prop :=
      (getDma i s).phase = .triggered ∨ ((getDma i s).phase = .wait ∧ startsNow s i)
    let granted (i : Fin 4) : Prop :=
      (∀ j, (getDma j s).phase ≠ .active) ∧ triggered i ∧ ∀ j, j < i → ¬triggered j
    t = { s with dma := t.dma } ∧
    ∀ i : Fin 4, getDma i t = { getDma i s with phase := (getDma i t).phase } ∧
      (granted i → (getDma i t).phase = .active) ∧
      (¬granted i → triggered i → (getDma i t).phase = .triggered) ∧
      (¬triggered i → (getDma i t).phase = (getDma i s).phase)

/-! ## Timers -/

/-- The step of a timer: the accumulator against the prescaler, the tick, the overflow, and the cascade to the next timer. Cites:
R1200; R1201; R1202; R1203. Rests on inferences the spec marks as its own: decisions D48, D50, D51. -/
def Obligations.TimerSteps : Prop :=
  (∀ (i : Fin 4) (s : State),
    let c := getTimer i s
    let runs := c.ctl.getLsbD 7 = true ∧ c.ctl.getLsbD 2 = false
    (¬runs → timerStep i s = s) ∧
    (runs → c.acc + 1 < divisorOf c.ctl → timerStep i s = { s with timers := s.timers.set i { c with acc := c.acc + 1 } }) ∧
    (runs → divisorOf c.ctl ≤ c.acc + 1 →
      timerStep i s = timerTick (timerChain i) { s with timers := s.timers.set i { c with acc := 0 } })) ∧
  (∀ (i : Fin 4) (s : State),
    let c := getTimer i s
    (c.counter ≠ 0xFFFF#16 →
      timerTick (timerChain i) s = { s with timers := s.timers.set i { c with counter := c.counter + 1#16 } }) ∧
    (c.counter = 0xFFFF#16 →
      (∀ j : Fin 4, j.val = i.val + 1 → (getTimer j s).ctl.getLsbD 2 = true → (getTimer j s).ctl.getLsbD 7 = true →
        timerTick (timerChain i) s = timerTick (timerChain j) (overflowed i s)) ∧
      ((∀ j : Fin 4, j.val = i.val + 1 → ¬((getTimer j s).ctl.getLsbD 2 = true ∧ (getTimer j s).ctl.getLsbD 7 = true)) →
        timerTick (timerChain i) s = overflowed i s)))

/-! ## The picture processor -/

/-- The line-cycle counter and VCOUNT in their cycle of 1232 by 228, the line rendered at cycle 960 of a visible line, and the OAM
snapshot at the wrap to line 0. Cites: R1100; R1101; R1104. Rests on inferences the spec marks as its own: decisions D52, D53. -/
def Obligations.PictureTiming : Prop :=
  ∀ s : State, s.ppu.lc < 1232 → s.ppu.vcount < 228 →
    let t := ppuStep s
    t.ppu.lc = (s.ppu.lc + 1) % 1232 ∧
    t.ppu.vcount = (if s.ppu.lc = 1231 then (s.ppu.vcount + 1) % 228 else s.ppu.vcount) ∧
    (s.ppu.lc = 959 → s.ppu.vcount < 160 →
      frameLine s.ppu.vcount t.ppu.frame ≠ none ∧
      ∀ y, y ≠ s.ppu.vcount → frameLine y t.ppu.frame = frameLine y s.ppu.frame) ∧
    (¬(s.ppu.lc = 959 ∧ s.ppu.vcount < 160) → t.ppu.frame = s.ppu.frame ∧ t.draws = s.draws) ∧
    (s.ppu.lc = 1231 → s.ppu.vcount = 227 → Memory.wf s.mem = true → ∀ o, o < 0x400 →
      Memory.read t.ppu.oamSnap o = Memory.read s.mem (0x07000000 + o)) ∧
    (¬(s.ppu.lc = 1231 ∧ s.ppu.vcount = 227) → t.ppu.oamSnap = s.ppu.oamSnap) ∧
    t.mem = s.mem ∧ t.regs = s.regs ∧ t.cpsr = s.cpsr

/-- The flags of DISPSTAT in every step: their values, the interrupt of each rising flag that is enabled, and the waiting DMA
channels of VBlank and HBlank triggered by the rise; nothing else of the register, of IF or of the channels changes. Cites: R1102;
R1103; R906; R1003. Rests on inferences the spec marks as its own: decisions D33, D46; what R1102, R906 mark as general knowledge.
-/
def Obligations.StatusFlags : Prop :=
  ∀ s : State,
    let t := ppuStep s
    let irq (k : Nat) : Prop := rises k s t ∧ s.ppu.dispstat.getLsbD (k + 3) = true
    t.ppu.dispstat.getLsbD 0 = decide (160 ≤ t.ppu.vcount) ∧
    t.ppu.dispstat.getLsbD 1 = decide (960 ≤ t.ppu.lc) ∧
    t.ppu.dispstat.getLsbD 2 = decide (t.ppu.vcount = (s.ppu.dispstat.extractLsb' 8 8).toNat) ∧
    t.ppu.dispstat.extractLsb' 3 13 = s.ppu.dispstat.extractLsb' 3 13 ∧
    (∀ k, k < 16 → (t.irq.ifl.getLsbD k = true ↔ s.irq.ifl.getLsbD k = true ∨ (k < 3 ∧ irq k))) ∧
    t.irq.ie = s.irq.ie ∧ t.irq.ime = s.irq.ime ∧
    ∀ i : Fin 4,
      let c := getDma i s
      let fires := c.phase = .wait ∧ ((c.start = .vblank ∧ rises 0 s t) ∨ (c.start = .hblank ∧ rises 1 s t))
      (fires → getDma i t = { c with phase := .triggered }) ∧ (¬fires → getDma i t = c)

/-- A rendered line in the frame buffer: the composed colour of each point in the modes 0, 1, 3 and 4, with alpha 0xFF, and draws
in the other modes, from left to right and byte by byte. Cites: R1106; R1107; R1114. Rests on inferences the spec marks as its
own: decisions D54, D55, D56; what R1107 marks as general knowledge. The order of the draws is log entry 21 (DESIGN CHOICE), the
draws themselves log entry 1; COLOR5TO8 is a parameter with two fixed values (log entry 3). -/
def Obligations.RenderedLines : Prop :=
  ∀ (y x : Nat) (s : State), y < 160 → x < 240 →
    let t := renderLine y s
    let byte (c : Nat) : Byte := frameBuffer t (4 * (240 * y + x) + c)
    (displayMode s ∈ [0, 1, 3, 4] →
      byte 0 = Config.colour5to8 ((composed x y s).extractLsb' 0 5) ∧
      byte 1 = Config.colour5to8 ((composed x y s).extractLsb' 5 5) ∧
      byte 2 = Config.colour5to8 ((composed x y s).extractLsb' 10 5) ∧ byte 3 = 0xFF#8 ∧ t.draws = s.draws) ∧
    (displayMode s ∉ [0, 1, 3, 4] → ∀ c, c < 4 → byte c = Config.freeByte (s.draws + 4 * x + c))

/-- What is composed at a point: the sprite that shows, else the opaque layer in front of every other opaque one, else the
backdrop; in mode 3, where no sprite draws, the VRAM halfword of the point. The pixel of a text layer, of the rotation/scale layer
and of the bitmaps, and what a sprite draws, by the formulas of their rules. Cites: R1105; R1106; R1108; R1109; R1110; R1111;
R1112; R1113; R1115; R1116; R1117; R1118; R1119; R1120; R961; R964; R966. Rests on inferences the spec marks as its own: decisions
D54, D56, D57, D58, D59, D60, D61, D62, D63, D64; what R1109, R1110, R1111, R1113, R1115, R1116, R1118, R1120, R961, R964 mark as
general knowledge. That sprites may be taken point by point is log entry 16 (DEDUCED). -/
def Obligations.PointsAreComposed : Prop :=
  ∀ (x y : Nat) (s : State),
    let mode := modeOf s
    (∀ k c, spriteShows k x y c s → composed x y s = c) ∧
    ((∀ k, k < 128 → spriteAt k x y s = none) →
      (∀ l ∈ layersOf mode, ∀ c, bgPixel mode l x y s = some c →
        (∀ j ∈ layersOf mode, inFrontOf s j l → bgPixel mode j x y s = none) → composed x y s = c) ∧
      ((∀ l ∈ layersOf mode, bgPixel mode l x y s = none) → composed x y s = colourAt s 0) ∧
      (mode = 3 → (composed x y s).toNat = vramHalf s (2 * (240 * y + x)))) ∧
    (layersOf 0 = [0, 1, 2, 3] ∧ layersOf 1 = [0, 1, 2] ∧ layersOf 3 = [2] ∧ layersOf 4 = [2]) ∧
    (∀ l c, bgPixel 0 l x y s = some c ↔ textShows l x y s c) ∧
    (∀ l c, l = 0 ∨ l = 1 → (bgPixel 1 l x y s = some c ↔ textShows l x y s c)) ∧
    (∀ c, bgPixel 1 2 x y s = some c ↔ affineShows x y s c) ∧
    (∀ c, bgPixel 3 2 x y s = some c ↔ c.toNat = vramHalf s (2 * (240 * y + x))) ∧
    (∀ c, bgPixel 4 2 x y s = some c ↔ bitmapShows x y s c) ∧
    (mode ∈ [0, 1, 3, 4] → ∀ k c p, k < 128 → (spriteAt k x y s = some (c, p) ↔ spriteDraws k x y s c p))

/-! ## The keypad, reset -/

/-- The keys of a frame: KEYINPUT active-low, bit 12 of IF by the condition of KEYCNT on the newly pressed keys, and nothing else.
Cites: R972; R973; R1255; R1256. Rests on inferences the spec marks as its own: decision D66; what R973, R1256 mark as general
knowledge. -/
def Obligations.KeypadUpdate : Prop :=
  ∀ (keys : List Key) (s : State),
    let t := updateKeys keys s
    let old := s.keypad.keyinput
    let sel (k : Nat) : Bool := s.keypad.keycnt.getLsbD k
    let pressed (k : Nat) : Prop := ∃ key ∈ keys, keyBit key = k
    let condition := sel 14 = true ∧ (∃ k, k < 10 ∧ sel k = true ∧ old.getLsbD k = true ∧ pressed k) ∧
      (sel 15 = true → ∀ k, k < 10 → sel k = true → pressed k)
    (∀ k, k < 10 → (t.keypad.keyinput.getLsbD k = true ↔ ¬pressed k)) ∧
    (condition → t.irq.ifl = s.irq.ifl ||| 0x1000#16) ∧ (¬condition → t.irq.ifl = s.irq.ifl) ∧
    t = { s with keypad := { s.keypad with keyinput := t.keypad.keyinput }, irq := { s.irq with ifl := t.irq.ifl } }

/-- After `start()`, with each image loaded once: the registers, the status, the SPSRs, the pipeline, the two images in memory
with 0 elsewhere, every I/O register and every peripheral as the reset table has it, and the backup device by the tag scan. Cites:
R122; R216; R1300; R1302. Rests on inferences the spec marks as its own: decisions D7, D28, D29, D52, D65, D68. The values 0 that
no source gives are log entry 12 (decision D7); that the latched fields of a channel that are no number stand at their code 0 is
log entry 11 (DEDUCED); the field started of State.reset is log entry 8. -/
def Obligations.PowerOn : Prop :=
  ∀ (bios rom : List Byte),
    let s := powerOn bios rom
    let image := rom.take 0x2000000
    let word (k : Nat) : Word := rom.getD (k + 3) 0#8 ++ rom.getD (k + 2) 0#8 ++ rom.getD (k + 1) 0#8 ++ rom.getD k 0#8
    s.r15 = 0x08000008#32 ∧ s.pipeDecode = word 0 ∧ s.pipeFetch = word 4 ∧ cpsrWord s = 0x0000001F#32 ∧
    (∀ (m : Mode) (r : Reg), r ≠ 15#4 → readRegIn m r s =
      if r = 13#4 ∧ (m = .usr ∨ m = .sys ∨ m = .svc) then 0x03007F00#32
      else if r = 14#4 ∧ (m = .usr ∨ m = .sys) then 0x08000000#32 else 0#32) ∧
    (∀ k, Memory.read s.mem k =
      if k < 0x4000 then bios.getD k 0#8
      else if 0x08000000 ≤ k ∧ k < 0x0A000000 then rom.getD (k - 0x08000000) 0#8 else 0#8) ∧
    (∀ (m : Mode) (p : Spsr), spsrOf m s = some p → p = ⟨false, false, false, false, false, false, false, 0#5⟩) ∧
    (∀ r : IoReg, ioStored r s = if r = .keyinput then 0x3FF#32 else 0#32) ∧
    s.irq = ⟨0#16, 0#16, 0#16⟩ ∧
    (∀ i : Fin 4, getDma i s = ⟨0#32, 0#32, 0#16, 0#16, .half, .inc, .inc, 0, false, false, .immediate, 0#32, 0#32, .idle, 0⟩) ∧
    (∀ i : Fin 4, getTimer i s = ⟨0#16, 0#16, 0#16, 0⟩) ∧
    s.ppu.lc = 0 ∧ s.ppu.vcount = 0 ∧ (∀ o, Memory.read s.ppu.oamSnap o = 0#8) ∧ (∀ y, frameLine y s.ppu.frame = none) ∧
    s.fifoA = ⟨[], 0#8⟩ ∧ s.fifoB = ⟨[], 0#8⟩ ∧ s.keypad = ⟨0x3FF#10, 0#16⟩ ∧ (∀ o, Memory.read s.shadow o = 0#8) ∧ s.dirty = [] ∧
    s.backup.seq = 0 ∧ s.backup.idMode = false ∧
    (s.backup.kind = .flash128k ↔
      ∃ k, tagAt [0x46#8, 0x4C#8, 0x41#8, 0x53#8, 0x48#8, 0x31#8, 0x4D#8] image k ∧
        ∀ j, tagAt [0x53#8, 0x52#8, 0x41#8, 0x4D#8] image j → k < j) ∧
    s.spsr = State.reset.spsr ∧ s.irq = State.reset.irq ∧ s.dma = State.reset.dma ∧ s.timers = State.reset.timers ∧
    s.ppu = State.reset.ppu ∧ s.sound = State.reset.sound ∧ s.shadow = [] ∧ powerOn [] [] = State.reset

/-! ## The invariant -/

/-- The state after reset meets the invariant. Cites: R122; R1302. Rests on inferences the spec marks as its own: decisions D7,
D28, D29, D52, D65. Inv is stated over the model's own form of memory (log entry 7). -/
def Obligations.InvAtReset : Prop := Inv State.reset

/-- Every step keeps the invariant: memories in canonical form, no byte awaiting a commit, no pending write of R15, the counters
of the picture processor in their ranges, R15 aligned, the FIFOs within their capacity, at most one channel Active. Cites: R207;
R115; R1005; R1021; R1100; R406; R407. Rests on inferences the spec marks as its own: decisions D8, D9, D47, D48, D49. The
canonical form is the model's (log entry 7), and so is the pending write of R15 as a field (log entry 15). -/
def Obligations.StepKeepsInv : Prop :=
  ∀ s t : State, Inv s → step s = .next t → Inv t
end

