-- ==== Sys2Proof/Laws/Memory.lean ====
section
/-! SUPPORT. Memory: what a write leaves alone, what it stores, and that every operation keeps the canonical form. -/

namespace Sys2Proof.Machine

/-- A write leaves every other address alone, in any memory. -/
theorem Memory.read_write_ne (m : Memory) {a k : Nat} (b : Byte) (h : k ≠ a) :
    Memory.read (Memory.write m a b) k = Memory.read m k := by
  have ha : ¬a = k := fun e => h e.symm
  induction m with
  | nil =>
    simp only [Memory.write]
    split
    · rfl
    · simp [Memory.read, ha]
  | cons c m ih =>
    obtain ⟨j, v⟩ := c
    simp only [Memory.write]
    split
    · split
      · rfl
      · simp [Memory.read, ha]
    · split
      · next hj =>
        split
        · simp [Memory.read, ← hj, ha]
        · simp [Memory.read, ← hj, ha]
      · simp only [Memory.read, ih]

/-- Nothing is listed at an address below the first of a rising list. -/
theorem Memory.read_of_above (m : Memory) {a : Nat} (h : Memory.above a m = true) (hw : Memory.wf m = true) :
    Memory.read m a = 0#8 := by
  induction m with
  | nil => rfl
  | cons c m ih =>
    obtain ⟨j, v⟩ := c
    simp only [Memory.above, decide_eq_true_eq] at h
    simp only [Memory.wf, Bool.and_eq_true, bne_iff_ne, ne_eq] at hw
    have hj : ¬j = a := by omega
    simp only [Memory.read, hj, if_false]
    apply ih _ hw.2
    cases m with
    | nil => rfl
    | cons d m =>
      simp only [Memory.above, decide_eq_true_eq] at hw ⊢
      omega

/-- Reading the address written gives the byte written, in a memory in canonical form. -/
theorem Memory.read_write_same (m : Memory) (a : Nat) (b : Byte) (hw : Memory.wf m = true) :
    Memory.read (Memory.write m a b) a = b := by
  induction m with
  | nil =>
    simp only [Memory.write]
    split
    · next h => simp [Memory.read, h]
    · simp [Memory.read]
  | cons c m ih =>
    obtain ⟨j, v⟩ := c
    have hw' := hw
    simp only [Memory.wf, Bool.and_eq_true, bne_iff_ne, ne_eq] at hw
    simp only [Memory.write]
    split
    · next hlt =>
      split
      · next h =>
        rw [h]
        exact Memory.read_of_above _ (by simpa [Memory.above] using hlt) hw'
      · simp [Memory.read]
    · split
      · next hj =>
        split
        · next h =>
          rw [h]
          exact Memory.read_of_above _ (by rw [hj]; exact hw.1.2) hw.2
        · simp [Memory.read]
      · next hj =>
        have : ¬j = a := fun e => hj e.symm
        simp only [Memory.read, this, if_false]
        exact ih hw.2

/-- What lies above an address stays above it when a higher address is written. -/
theorem Memory.above_write (m : Memory) {k a : Nat} (b : Byte) (h : Memory.above k m = true) (hk : k < a)
    (hw : Memory.wf m = true) : Memory.above k (Memory.write m a b) = true := by
  cases m with
  | nil =>
    simp only [Memory.write]
    split <;> simp [Memory.above, hk]
  | cons c m =>
    obtain ⟨j, v⟩ := c
    simp only [Memory.above, decide_eq_true_eq] at h
    simp only [Memory.wf, Bool.and_eq_true, bne_iff_ne, ne_eq] at hw
    simp only [Memory.write]
    split
    · split <;> simp [Memory.above, hk, h]
    · split
      · split
        · cases m with
          | nil => rfl
          | cons d m =>
            simp only [Memory.above, decide_eq_true_eq] at hw ⊢
            omega
        · simp [Memory.above, hk]
      · simp [Memory.above, h]

/-- A write keeps the canonical form. -/
theorem Memory.write_wf (m : Memory) (a : Nat) (b : Byte) (hw : Memory.wf m = true) :
    Memory.wf (Memory.write m a b) = true := by
  induction m with
  | nil =>
    simp only [Memory.write]
    split
    · rfl
    · next h => simp [Memory.wf, Memory.above, h]
  | cons c m ih =>
    obtain ⟨j, v⟩ := c
    have hw' := hw
    simp only [Memory.wf, Bool.and_eq_true, bne_iff_ne, ne_eq] at hw
    simp only [Memory.write]
    split
    · next hlt =>
      split
      · exact hw'
      · next h =>
        rw [Memory.wf, hw']
        simp [Memory.above, h, hlt]
    · next hlt =>
      split
      · next hj =>
        split
        · exact hw.2
        · next h => simp [Memory.wf, h, hw, hj]
      · next hj =>
        have := Memory.above_write m b hw.1.2 (by omega : j < a) hw.2
        simp [Memory.wf, hw, this, ih hw.2]

/-- Storing bytes at consecutive addresses keeps the canonical form. -/
theorem Memory.load_wf (bs : List Byte) : ∀ (m : Memory) (a : Nat), Memory.wf m = true →
    Memory.wf (Memory.load m a bs) = true := by
  induction bs with
  | nil => exact fun _ _ h => h
  | cons b bs ih => exact fun m a h => ih _ _ (Memory.write_wf m a b h)

/-- Stored bytes leave the addresses before them alone. -/
theorem Memory.read_load_lt (bs : List Byte) : ∀ (m : Memory) (a k : Nat), k < a →
    Memory.read (Memory.load m a bs) k = Memory.read m k := by
  induction bs with
  | nil => exact fun _ _ _ _ => rfl
  | cons b bs ih =>
    intro m a k h
    rw [Memory.load, ih _ _ _ (by omega), Memory.read_write_ne _ _ (by omega)]

/-- What a store of consecutive bytes does: they read back, and every other address reads as before. -/
theorem Memory.read_load (bs : List Byte) : ∀ (m : Memory) (a k : Nat), Memory.wf m = true →
    Memory.read (Memory.load m a bs) k =
      if a ≤ k ∧ k < a + bs.length then bs.getD (k - a) 0#8 else Memory.read m k := by
  induction bs with
  | nil => intro m a k _; rw [Memory.load, if_neg (by rw [List.length_nil]; omega)]
  | cons b bs ih =>
    intro m a k hw
    rw [Memory.load]
    rcases Nat.lt_trichotomy k a with h | h | h
    · rw [Memory.read_load_lt _ _ _ _ (by omega), Memory.read_write_ne _ _ (by omega), if_neg (by omega)]
    · subst h
      rw [Memory.read_load_lt _ _ _ _ (by omega), Memory.read_write_same _ _ _ hw, if_pos (by simp)]
      simp
    · rw [ih _ _ _ (Memory.write_wf m a b hw), Memory.read_write_ne _ _ (by omega)]
      obtain ⟨d, rfl⟩ : ∃ d, k = a + 1 + d := ⟨k - (a + 1), by omega⟩
      simp only [List.length_cons, show a + 1 + d - a = d + 1 by omega, show a + 1 + d - (a + 1) = d by omega, List.getD_cons_succ]
      split <;> split <;> first | rfl | omega

/-- A part cleared reads 0, and every other address reads as before. -/
theorem Memory.read_clear (m : Memory) (lo hi k : Nat) :
    Memory.read (Memory.clear m lo hi) k = if lo ≤ k ∧ k < hi then 0#8 else Memory.read m k := by
  induction m with
  | nil => simp [Memory.clear, Memory.read]
  | cons c m ih =>
    obtain ⟨j, v⟩ := c
    unfold Memory.clear at ih ⊢
    simp only [List.filter_cons]
    split
    · next h =>
      simp only [decide_eq_true_eq] at h
      simp only [Memory.read, ih]
      by_cases e : j = k
      · subst e; simp [h]
      · simp [e]
    · next h =>
      simp only [decide_eq_true_eq, Decidable.not_not] at h
      rw [ih]
      by_cases e : j = k
      · subst e; simp [h]
      · simp [Memory.read, e]

/-- Clearing a part keeps what lies above an address above it. -/
theorem Memory.clear_above (m : Memory) (lo hi k : Nat) (h : Memory.above k m = true) (hw : Memory.wf m = true) :
    Memory.above k (Memory.clear m lo hi) = true := by
  induction m with
  | nil => rfl
  | cons c m ih =>
    obtain ⟨j, v⟩ := c
    simp only [Memory.above, decide_eq_true_eq] at h
    simp only [Memory.wf, Bool.and_eq_true, bne_iff_ne, ne_eq] at hw
    unfold Memory.clear at ih ⊢
    simp only [List.filter_cons]
    split
    · simp [Memory.above, h]
    · apply ih _ hw.2
      cases m with
      | nil => rfl
      | cons d m =>
        simp only [Memory.above, decide_eq_true_eq] at hw ⊢
        omega

/-- Clearing a part keeps the canonical form. -/
theorem Memory.clear_wf (m : Memory) (lo hi : Nat) (hw : Memory.wf m = true) : Memory.wf (Memory.clear m lo hi) = true := by
  induction m with
  | nil => rfl
  | cons c m ih =>
    obtain ⟨j, v⟩ := c
    simp only [Memory.wf, Bool.and_eq_true, bne_iff_ne, ne_eq] at hw
    have ha := Memory.clear_above m lo hi j hw.1.2 hw.2
    unfold Memory.clear at ih ha ⊢
    simp only [List.filter_cons]
    split
    · simp only [Memory.wf, Bool.and_eq_true, bne_iff_ne, ne_eq]
      exact ⟨⟨hw.1.1, ha⟩, ih hw.2⟩
    · exact ih hw.2

/-- An image installed keeps the canonical form. -/
theorem Memory.install_wf (m : Memory) (base size : Nat) (image : List Byte) (hw : Memory.wf m = true) :
    Memory.wf (Memory.install m base size image) = true :=
  Memory.load_wf _ _ _ (Memory.clear_wf _ _ _ hw)

/-- What an installed image does: its region reads the image and 0 past it, every other address as before. -/
theorem Memory.read_install (m : Memory) (base size k : Nat) (image : List Byte) (hw : Memory.wf m = true) :
    Memory.read (Memory.install m base size image) k =
      if base ≤ k ∧ k < base + size then image.getD (k - base) 0#8 else Memory.read m k := by
  rw [Memory.install, Memory.read_load _ _ _ _ (Memory.clear_wf _ _ _ hw), Memory.read_clear, List.length_take]
  by_cases h : base ≤ k ∧ k < base + size
  · rw [if_pos h, if_pos h]
    split
    · simp [List.getD_eq_getElem?_getD, show k - base < size by omega]
    · rw [List.getD_eq_getElem?_getD, List.getElem?_eq_none (by omega), Option.getD_none]
  · rw [if_neg h, if_neg h, if_neg (by omega)]

/-- The part of a rising memory that a test picks, moved down by a constant, is rising. -/
theorem Memory.shift_above (m : Memory) (lo hi k : Nat) (hk : lo ≤ k) (h : Memory.above k m = true)
    (hw : Memory.wf m = true) :
    Memory.above (k - lo) ((m.filter (fun c => decide (lo ≤ c.1 ∧ c.1 < hi))).map (fun c => (c.1 - lo, c.2))) = true := by
  induction m with
  | nil => rfl
  | cons c m ih =>
    obtain ⟨j, v⟩ := c
    simp only [Memory.above, decide_eq_true_eq] at h
    simp only [Memory.wf, Bool.and_eq_true, bne_iff_ne, ne_eq] at hw
    simp only [List.filter_cons]
    split
    · simp only [List.map_cons, Memory.above, decide_eq_true_eq]; omega
    · apply ih _ hw.2
      cases m with
      | nil => rfl
      | cons d m =>
        simp only [Memory.above, decide_eq_true_eq] at hw ⊢
        omega

/-- The OAM snapshot of a memory in canonical form is in canonical form. -/
theorem Memory.shift_wf (m : Memory) (lo hi : Nat) (hw : Memory.wf m = true) :
    Memory.wf ((m.filter (fun c => decide (lo ≤ c.1 ∧ c.1 < hi))).map (fun c => (c.1 - lo, c.2))) = true := by
  induction m with
  | nil => rfl
  | cons c m ih =>
    obtain ⟨j, v⟩ := c
    simp only [Memory.wf, Bool.and_eq_true, bne_iff_ne, ne_eq] at hw
    simp only [List.filter_cons]
    split
    · next hj =>
      simp only [decide_eq_true_eq] at hj
      simp only [List.map_cons, Memory.wf, Bool.and_eq_true, bne_iff_ne, ne_eq]
      exact ⟨⟨hw.1.1, Memory.shift_above m lo hi j hj.1 hw.1.2 hw.2⟩, ih hw.2⟩
    · exact ih hw.2

end Sys2Proof.Machine
end

