-- ==== Sys2Proof/Laws/State.lean ====
section
/-! SUPPORT. The fields that each update of the state leaves alone, and the field it sets. -/

namespace Sys2Proof.Machine

@[simp] theorem setRegIn_r15 (m : Mode) (r : Reg) (v : Word) (s : State) : (setRegIn m r v s).r15 = s.r15 := rfl
@[simp] theorem setRegIn_cpsr (m : Mode) (r : Reg) (v : Word) (s : State) : (setRegIn m r v s).cpsr = s.cpsr := rfl
@[simp] theorem setRegIn_spsr (m : Mode) (r : Reg) (v : Word) (s : State) : (setRegIn m r v s).spsr = s.spsr := rfl
@[simp] theorem setRegIn_pipeDecode (m : Mode) (r : Reg) (v : Word) (s : State) : (setRegIn m r v s).pipeDecode = s.pipeDecode := rfl
@[simp] theorem setRegIn_pipeFetch (m : Mode) (r : Reg) (v : Word) (s : State) : (setRegIn m r v s).pipeFetch = s.pipeFetch := rfl
@[simp] theorem setRegIn_pendingPC (m : Mode) (r : Reg) (v : Word) (s : State) : (setRegIn m r v s).pendingPC = s.pendingPC := rfl
@[simp] theorem setRegIn_mem (m : Mode) (r : Reg) (v : Word) (s : State) : (setRegIn m r v s).mem = s.mem := rfl
@[simp] theorem setRegIn_shadow (m : Mode) (r : Reg) (v : Word) (s : State) : (setRegIn m r v s).shadow = s.shadow := rfl
@[simp] theorem setRegIn_dirty (m : Mode) (r : Reg) (v : Word) (s : State) : (setRegIn m r v s).dirty = s.dirty := rfl
@[simp] theorem setRegIn_irq (m : Mode) (r : Reg) (v : Word) (s : State) : (setRegIn m r v s).irq = s.irq := rfl
@[simp] theorem setRegIn_dma (m : Mode) (r : Reg) (v : Word) (s : State) : (setRegIn m r v s).dma = s.dma := rfl
@[simp] theorem setRegIn_timers (m : Mode) (r : Reg) (v : Word) (s : State) : (setRegIn m r v s).timers = s.timers := rfl
@[simp] theorem setRegIn_ppu (m : Mode) (r : Reg) (v : Word) (s : State) : (setRegIn m r v s).ppu = s.ppu := rfl
@[simp] theorem setRegIn_sound (m : Mode) (r : Reg) (v : Word) (s : State) : (setRegIn m r v s).sound = s.sound := rfl
@[simp] theorem setRegIn_fifoA (m : Mode) (r : Reg) (v : Word) (s : State) : (setRegIn m r v s).fifoA = s.fifoA := rfl
@[simp] theorem setRegIn_fifoB (m : Mode) (r : Reg) (v : Word) (s : State) : (setRegIn m r v s).fifoB = s.fifoB := rfl
@[simp] theorem setRegIn_keypad (m : Mode) (r : Reg) (v : Word) (s : State) : (setRegIn m r v s).keypad = s.keypad := rfl
@[simp] theorem setRegIn_backup (m : Mode) (r : Reg) (v : Word) (s : State) : (setRegIn m r v s).backup = s.backup := rfl
@[simp] theorem setRegIn_started (m : Mode) (r : Reg) (v : Word) (s : State) : (setRegIn m r v s).started = s.started := rfl
@[simp] theorem setRegIn_draws (m : Mode) (r : Reg) (v : Word) (s : State) : (setRegIn m r v s).draws = s.draws := rfl

@[simp] theorem setCpsr_regs (c : Cpsr) (s : State) : (setCpsr c s).regs = s.regs := rfl
@[simp] theorem setCpsr_r15 (c : Cpsr) (s : State) : (setCpsr c s).r15 = s.r15 := rfl
@[simp] theorem setCpsr_spsr (c : Cpsr) (s : State) : (setCpsr c s).spsr = s.spsr := rfl
@[simp] theorem setCpsr_pipeDecode (c : Cpsr) (s : State) : (setCpsr c s).pipeDecode = s.pipeDecode := rfl
@[simp] theorem setCpsr_pipeFetch (c : Cpsr) (s : State) : (setCpsr c s).pipeFetch = s.pipeFetch := rfl
@[simp] theorem setCpsr_pendingPC (c : Cpsr) (s : State) : (setCpsr c s).pendingPC = s.pendingPC := rfl
@[simp] theorem setCpsr_mem (c : Cpsr) (s : State) : (setCpsr c s).mem = s.mem := rfl
@[simp] theorem setCpsr_shadow (c : Cpsr) (s : State) : (setCpsr c s).shadow = s.shadow := rfl
@[simp] theorem setCpsr_dirty (c : Cpsr) (s : State) : (setCpsr c s).dirty = s.dirty := rfl
@[simp] theorem setCpsr_irq (c : Cpsr) (s : State) : (setCpsr c s).irq = s.irq := rfl
@[simp] theorem setCpsr_dma (c : Cpsr) (s : State) : (setCpsr c s).dma = s.dma := rfl
@[simp] theorem setCpsr_timers (c : Cpsr) (s : State) : (setCpsr c s).timers = s.timers := rfl
@[simp] theorem setCpsr_ppu (c : Cpsr) (s : State) : (setCpsr c s).ppu = s.ppu := rfl
@[simp] theorem setCpsr_sound (c : Cpsr) (s : State) : (setCpsr c s).sound = s.sound := rfl
@[simp] theorem setCpsr_fifoA (c : Cpsr) (s : State) : (setCpsr c s).fifoA = s.fifoA := rfl
@[simp] theorem setCpsr_fifoB (c : Cpsr) (s : State) : (setCpsr c s).fifoB = s.fifoB := rfl
@[simp] theorem setCpsr_keypad (c : Cpsr) (s : State) : (setCpsr c s).keypad = s.keypad := rfl
@[simp] theorem setCpsr_backup (c : Cpsr) (s : State) : (setCpsr c s).backup = s.backup := rfl
@[simp] theorem setCpsr_started (c : Cpsr) (s : State) : (setCpsr c s).started = s.started := rfl
@[simp] theorem setCpsr_draws (c : Cpsr) (s : State) : (setCpsr c s).draws = s.draws := rfl

@[simp] theorem setSpsrOf_regs (m : Mode) (p : Spsr) (s : State) : (setSpsrOf m p s).regs = s.regs := by cases m <;> rfl
@[simp] theorem setSpsrOf_r15 (m : Mode) (p : Spsr) (s : State) : (setSpsrOf m p s).r15 = s.r15 := by cases m <;> rfl
@[simp] theorem setSpsrOf_cpsr (m : Mode) (p : Spsr) (s : State) : (setSpsrOf m p s).cpsr = s.cpsr := by cases m <;> rfl
@[simp] theorem setSpsrOf_pipeDecode (m : Mode) (p : Spsr) (s : State) : (setSpsrOf m p s).pipeDecode = s.pipeDecode := by cases m <;> rfl
@[simp] theorem setSpsrOf_pipeFetch (m : Mode) (p : Spsr) (s : State) : (setSpsrOf m p s).pipeFetch = s.pipeFetch := by cases m <;> rfl
@[simp] theorem setSpsrOf_pendingPC (m : Mode) (p : Spsr) (s : State) : (setSpsrOf m p s).pendingPC = s.pendingPC := by cases m <;> rfl
@[simp] theorem setSpsrOf_mem (m : Mode) (p : Spsr) (s : State) : (setSpsrOf m p s).mem = s.mem := by cases m <;> rfl
@[simp] theorem setSpsrOf_shadow (m : Mode) (p : Spsr) (s : State) : (setSpsrOf m p s).shadow = s.shadow := by cases m <;> rfl
@[simp] theorem setSpsrOf_dirty (m : Mode) (p : Spsr) (s : State) : (setSpsrOf m p s).dirty = s.dirty := by cases m <;> rfl
@[simp] theorem setSpsrOf_irq (m : Mode) (p : Spsr) (s : State) : (setSpsrOf m p s).irq = s.irq := by cases m <;> rfl
@[simp] theorem setSpsrOf_dma (m : Mode) (p : Spsr) (s : State) : (setSpsrOf m p s).dma = s.dma := by cases m <;> rfl
@[simp] theorem setSpsrOf_timers (m : Mode) (p : Spsr) (s : State) : (setSpsrOf m p s).timers = s.timers := by cases m <;> rfl
@[simp] theorem setSpsrOf_ppu (m : Mode) (p : Spsr) (s : State) : (setSpsrOf m p s).ppu = s.ppu := by cases m <;> rfl
@[simp] theorem setSpsrOf_sound (m : Mode) (p : Spsr) (s : State) : (setSpsrOf m p s).sound = s.sound := by cases m <;> rfl
@[simp] theorem setSpsrOf_fifoA (m : Mode) (p : Spsr) (s : State) : (setSpsrOf m p s).fifoA = s.fifoA := by cases m <;> rfl
@[simp] theorem setSpsrOf_fifoB (m : Mode) (p : Spsr) (s : State) : (setSpsrOf m p s).fifoB = s.fifoB := by cases m <;> rfl
@[simp] theorem setSpsrOf_keypad (m : Mode) (p : Spsr) (s : State) : (setSpsrOf m p s).keypad = s.keypad := by cases m <;> rfl
@[simp] theorem setSpsrOf_backup (m : Mode) (p : Spsr) (s : State) : (setSpsrOf m p s).backup = s.backup := by cases m <;> rfl
@[simp] theorem setSpsrOf_started (m : Mode) (p : Spsr) (s : State) : (setSpsrOf m p s).started = s.started := by cases m <;> rfl
@[simp] theorem setSpsrOf_draws (m : Mode) (p : Spsr) (s : State) : (setSpsrOf m p s).draws = s.draws := by cases m <;> rfl

@[simp] theorem raiseIrq_regs (n : Nat) (s : State) : (raiseIrq n s).regs = s.regs := rfl
@[simp] theorem raiseIrq_r15 (n : Nat) (s : State) : (raiseIrq n s).r15 = s.r15 := rfl
@[simp] theorem raiseIrq_cpsr (n : Nat) (s : State) : (raiseIrq n s).cpsr = s.cpsr := rfl
@[simp] theorem raiseIrq_spsr (n : Nat) (s : State) : (raiseIrq n s).spsr = s.spsr := rfl
@[simp] theorem raiseIrq_pipeDecode (n : Nat) (s : State) : (raiseIrq n s).pipeDecode = s.pipeDecode := rfl
@[simp] theorem raiseIrq_pipeFetch (n : Nat) (s : State) : (raiseIrq n s).pipeFetch = s.pipeFetch := rfl
@[simp] theorem raiseIrq_pendingPC (n : Nat) (s : State) : (raiseIrq n s).pendingPC = s.pendingPC := rfl
@[simp] theorem raiseIrq_mem (n : Nat) (s : State) : (raiseIrq n s).mem = s.mem := rfl
@[simp] theorem raiseIrq_shadow (n : Nat) (s : State) : (raiseIrq n s).shadow = s.shadow := rfl
@[simp] theorem raiseIrq_dirty (n : Nat) (s : State) : (raiseIrq n s).dirty = s.dirty := rfl
@[simp] theorem raiseIrq_dma (n : Nat) (s : State) : (raiseIrq n s).dma = s.dma := rfl
@[simp] theorem raiseIrq_timers (n : Nat) (s : State) : (raiseIrq n s).timers = s.timers := rfl
@[simp] theorem raiseIrq_ppu (n : Nat) (s : State) : (raiseIrq n s).ppu = s.ppu := rfl
@[simp] theorem raiseIrq_sound (n : Nat) (s : State) : (raiseIrq n s).sound = s.sound := rfl
@[simp] theorem raiseIrq_fifoA (n : Nat) (s : State) : (raiseIrq n s).fifoA = s.fifoA := rfl
@[simp] theorem raiseIrq_fifoB (n : Nat) (s : State) : (raiseIrq n s).fifoB = s.fifoB := rfl
@[simp] theorem raiseIrq_keypad (n : Nat) (s : State) : (raiseIrq n s).keypad = s.keypad := rfl
@[simp] theorem raiseIrq_backup (n : Nat) (s : State) : (raiseIrq n s).backup = s.backup := rfl
@[simp] theorem raiseIrq_started (n : Nat) (s : State) : (raiseIrq n s).started = s.started := rfl
@[simp] theorem raiseIrq_draws (n : Nat) (s : State) : (raiseIrq n s).draws = s.draws := rfl

@[simp] theorem setFifo_regs (d : FifoId) (f : Fifo) (s : State) : (setFifo d f s).regs = s.regs := by cases d <;> rfl
@[simp] theorem setFifo_r15 (d : FifoId) (f : Fifo) (s : State) : (setFifo d f s).r15 = s.r15 := by cases d <;> rfl
@[simp] theorem setFifo_cpsr (d : FifoId) (f : Fifo) (s : State) : (setFifo d f s).cpsr = s.cpsr := by cases d <;> rfl
@[simp] theorem setFifo_spsr (d : FifoId) (f : Fifo) (s : State) : (setFifo d f s).spsr = s.spsr := by cases d <;> rfl
@[simp] theorem setFifo_pipeDecode (d : FifoId) (f : Fifo) (s : State) : (setFifo d f s).pipeDecode = s.pipeDecode := by cases d <;> rfl
@[simp] theorem setFifo_pipeFetch (d : FifoId) (f : Fifo) (s : State) : (setFifo d f s).pipeFetch = s.pipeFetch := by cases d <;> rfl
@[simp] theorem setFifo_pendingPC (d : FifoId) (f : Fifo) (s : State) : (setFifo d f s).pendingPC = s.pendingPC := by cases d <;> rfl
@[simp] theorem setFifo_mem (d : FifoId) (f : Fifo) (s : State) : (setFifo d f s).mem = s.mem := by cases d <;> rfl
@[simp] theorem setFifo_shadow (d : FifoId) (f : Fifo) (s : State) : (setFifo d f s).shadow = s.shadow := by cases d <;> rfl
@[simp] theorem setFifo_dirty (d : FifoId) (f : Fifo) (s : State) : (setFifo d f s).dirty = s.dirty := by cases d <;> rfl
@[simp] theorem setFifo_irq (d : FifoId) (f : Fifo) (s : State) : (setFifo d f s).irq = s.irq := by cases d <;> rfl
@[simp] theorem setFifo_dma (d : FifoId) (f : Fifo) (s : State) : (setFifo d f s).dma = s.dma := by cases d <;> rfl
@[simp] theorem setFifo_timers (d : FifoId) (f : Fifo) (s : State) : (setFifo d f s).timers = s.timers := by cases d <;> rfl
@[simp] theorem setFifo_ppu (d : FifoId) (f : Fifo) (s : State) : (setFifo d f s).ppu = s.ppu := by cases d <;> rfl
@[simp] theorem setFifo_sound (d : FifoId) (f : Fifo) (s : State) : (setFifo d f s).sound = s.sound := by cases d <;> rfl
@[simp] theorem setFifo_keypad (d : FifoId) (f : Fifo) (s : State) : (setFifo d f s).keypad = s.keypad := by cases d <;> rfl
@[simp] theorem setFifo_backup (d : FifoId) (f : Fifo) (s : State) : (setFifo d f s).backup = s.backup := by cases d <;> rfl
@[simp] theorem setFifo_started (d : FifoId) (f : Fifo) (s : State) : (setFifo d f s).started = s.started := by cases d <;> rfl
@[simp] theorem setFifo_draws (d : FifoId) (f : Fifo) (s : State) : (setFifo d f s).draws = s.draws := by cases d <;> rfl

@[simp] theorem setDma_regs (i : Fin 4) (c : DmaChannel) (s : State) : (setDma i c s).regs = s.regs := rfl
@[simp] theorem setDma_r15 (i : Fin 4) (c : DmaChannel) (s : State) : (setDma i c s).r15 = s.r15 := rfl
@[simp] theorem setDma_cpsr (i : Fin 4) (c : DmaChannel) (s : State) : (setDma i c s).cpsr = s.cpsr := rfl
@[simp] theorem setDma_spsr (i : Fin 4) (c : DmaChannel) (s : State) : (setDma i c s).spsr = s.spsr := rfl
@[simp] theorem setDma_pipeDecode (i : Fin 4) (c : DmaChannel) (s : State) : (setDma i c s).pipeDecode = s.pipeDecode := rfl
@[simp] theorem setDma_pipeFetch (i : Fin 4) (c : DmaChannel) (s : State) : (setDma i c s).pipeFetch = s.pipeFetch := rfl
@[simp] theorem setDma_pendingPC (i : Fin 4) (c : DmaChannel) (s : State) : (setDma i c s).pendingPC = s.pendingPC := rfl
@[simp] theorem setDma_mem (i : Fin 4) (c : DmaChannel) (s : State) : (setDma i c s).mem = s.mem := rfl
@[simp] theorem setDma_shadow (i : Fin 4) (c : DmaChannel) (s : State) : (setDma i c s).shadow = s.shadow := rfl
@[simp] theorem setDma_dirty (i : Fin 4) (c : DmaChannel) (s : State) : (setDma i c s).dirty = s.dirty := rfl
@[simp] theorem setDma_irq (i : Fin 4) (c : DmaChannel) (s : State) : (setDma i c s).irq = s.irq := rfl
@[simp] theorem setDma_timers (i : Fin 4) (c : DmaChannel) (s : State) : (setDma i c s).timers = s.timers := rfl
@[simp] theorem setDma_ppu (i : Fin 4) (c : DmaChannel) (s : State) : (setDma i c s).ppu = s.ppu := rfl
@[simp] theorem setDma_sound (i : Fin 4) (c : DmaChannel) (s : State) : (setDma i c s).sound = s.sound := rfl
@[simp] theorem setDma_fifoA (i : Fin 4) (c : DmaChannel) (s : State) : (setDma i c s).fifoA = s.fifoA := rfl
@[simp] theorem setDma_fifoB (i : Fin 4) (c : DmaChannel) (s : State) : (setDma i c s).fifoB = s.fifoB := rfl
@[simp] theorem setDma_keypad (i : Fin 4) (c : DmaChannel) (s : State) : (setDma i c s).keypad = s.keypad := rfl
@[simp] theorem setDma_backup (i : Fin 4) (c : DmaChannel) (s : State) : (setDma i c s).backup = s.backup := rfl
@[simp] theorem setDma_started (i : Fin 4) (c : DmaChannel) (s : State) : (setDma i c s).started = s.started := rfl
@[simp] theorem setDma_draws (i : Fin 4) (c : DmaChannel) (s : State) : (setDma i c s).draws = s.draws := rfl

@[simp] theorem setTimer_regs (i : Fin 4) (t : Timer) (s : State) : (setTimer i t s).regs = s.regs := rfl
@[simp] theorem setTimer_r15 (i : Fin 4) (t : Timer) (s : State) : (setTimer i t s).r15 = s.r15 := rfl
@[simp] theorem setTimer_cpsr (i : Fin 4) (t : Timer) (s : State) : (setTimer i t s).cpsr = s.cpsr := rfl
@[simp] theorem setTimer_spsr (i : Fin 4) (t : Timer) (s : State) : (setTimer i t s).spsr = s.spsr := rfl
@[simp] theorem setTimer_pipeDecode (i : Fin 4) (t : Timer) (s : State) : (setTimer i t s).pipeDecode = s.pipeDecode := rfl
@[simp] theorem setTimer_pipeFetch (i : Fin 4) (t : Timer) (s : State) : (setTimer i t s).pipeFetch = s.pipeFetch := rfl
@[simp] theorem setTimer_pendingPC (i : Fin 4) (t : Timer) (s : State) : (setTimer i t s).pendingPC = s.pendingPC := rfl
@[simp] theorem setTimer_mem (i : Fin 4) (t : Timer) (s : State) : (setTimer i t s).mem = s.mem := rfl
@[simp] theorem setTimer_shadow (i : Fin 4) (t : Timer) (s : State) : (setTimer i t s).shadow = s.shadow := rfl
@[simp] theorem setTimer_dirty (i : Fin 4) (t : Timer) (s : State) : (setTimer i t s).dirty = s.dirty := rfl
@[simp] theorem setTimer_irq (i : Fin 4) (t : Timer) (s : State) : (setTimer i t s).irq = s.irq := rfl
@[simp] theorem setTimer_dma (i : Fin 4) (t : Timer) (s : State) : (setTimer i t s).dma = s.dma := rfl
@[simp] theorem setTimer_ppu (i : Fin 4) (t : Timer) (s : State) : (setTimer i t s).ppu = s.ppu := rfl
@[simp] theorem setTimer_sound (i : Fin 4) (t : Timer) (s : State) : (setTimer i t s).sound = s.sound := rfl
@[simp] theorem setTimer_fifoA (i : Fin 4) (t : Timer) (s : State) : (setTimer i t s).fifoA = s.fifoA := rfl
@[simp] theorem setTimer_fifoB (i : Fin 4) (t : Timer) (s : State) : (setTimer i t s).fifoB = s.fifoB := rfl
@[simp] theorem setTimer_keypad (i : Fin 4) (t : Timer) (s : State) : (setTimer i t s).keypad = s.keypad := rfl
@[simp] theorem setTimer_backup (i : Fin 4) (t : Timer) (s : State) : (setTimer i t s).backup = s.backup := rfl
@[simp] theorem setTimer_started (i : Fin 4) (t : Timer) (s : State) : (setTimer i t s).started = s.started := rfl
@[simp] theorem setTimer_draws (i : Fin 4) (t : Timer) (s : State) : (setTimer i t s).draws = s.draws := rfl

@[simp] theorem setPpu_regs (p : Ppu) (s : State) : (setPpu p s).regs = s.regs := rfl
@[simp] theorem setPpu_r15 (p : Ppu) (s : State) : (setPpu p s).r15 = s.r15 := rfl
@[simp] theorem setPpu_cpsr (p : Ppu) (s : State) : (setPpu p s).cpsr = s.cpsr := rfl
@[simp] theorem setPpu_spsr (p : Ppu) (s : State) : (setPpu p s).spsr = s.spsr := rfl
@[simp] theorem setPpu_pipeDecode (p : Ppu) (s : State) : (setPpu p s).pipeDecode = s.pipeDecode := rfl
@[simp] theorem setPpu_pipeFetch (p : Ppu) (s : State) : (setPpu p s).pipeFetch = s.pipeFetch := rfl
@[simp] theorem setPpu_pendingPC (p : Ppu) (s : State) : (setPpu p s).pendingPC = s.pendingPC := rfl
@[simp] theorem setPpu_mem (p : Ppu) (s : State) : (setPpu p s).mem = s.mem := rfl
@[simp] theorem setPpu_shadow (p : Ppu) (s : State) : (setPpu p s).shadow = s.shadow := rfl
@[simp] theorem setPpu_dirty (p : Ppu) (s : State) : (setPpu p s).dirty = s.dirty := rfl
@[simp] theorem setPpu_irq (p : Ppu) (s : State) : (setPpu p s).irq = s.irq := rfl
@[simp] theorem setPpu_dma (p : Ppu) (s : State) : (setPpu p s).dma = s.dma := rfl
@[simp] theorem setPpu_timers (p : Ppu) (s : State) : (setPpu p s).timers = s.timers := rfl
@[simp] theorem setPpu_sound (p : Ppu) (s : State) : (setPpu p s).sound = s.sound := rfl
@[simp] theorem setPpu_fifoA (p : Ppu) (s : State) : (setPpu p s).fifoA = s.fifoA := rfl
@[simp] theorem setPpu_fifoB (p : Ppu) (s : State) : (setPpu p s).fifoB = s.fifoB := rfl
@[simp] theorem setPpu_keypad (p : Ppu) (s : State) : (setPpu p s).keypad = s.keypad := rfl
@[simp] theorem setPpu_backup (p : Ppu) (s : State) : (setPpu p s).backup = s.backup := rfl
@[simp] theorem setPpu_started (p : Ppu) (s : State) : (setPpu p s).started = s.started := rfl
@[simp] theorem setPpu_draws (p : Ppu) (s : State) : (setPpu p s).draws = s.draws := rfl

@[simp] theorem setBg2_regs (a : Affine) (s : State) : (setBg2 a s).regs = s.regs := rfl
@[simp] theorem setBg2_r15 (a : Affine) (s : State) : (setBg2 a s).r15 = s.r15 := rfl
@[simp] theorem setBg2_cpsr (a : Affine) (s : State) : (setBg2 a s).cpsr = s.cpsr := rfl
@[simp] theorem setBg2_spsr (a : Affine) (s : State) : (setBg2 a s).spsr = s.spsr := rfl
@[simp] theorem setBg2_pipeDecode (a : Affine) (s : State) : (setBg2 a s).pipeDecode = s.pipeDecode := rfl
@[simp] theorem setBg2_pipeFetch (a : Affine) (s : State) : (setBg2 a s).pipeFetch = s.pipeFetch := rfl
@[simp] theorem setBg2_pendingPC (a : Affine) (s : State) : (setBg2 a s).pendingPC = s.pendingPC := rfl
@[simp] theorem setBg2_mem (a : Affine) (s : State) : (setBg2 a s).mem = s.mem := rfl
@[simp] theorem setBg2_shadow (a : Affine) (s : State) : (setBg2 a s).shadow = s.shadow := rfl
@[simp] theorem setBg2_dirty (a : Affine) (s : State) : (setBg2 a s).dirty = s.dirty := rfl
@[simp] theorem setBg2_irq (a : Affine) (s : State) : (setBg2 a s).irq = s.irq := rfl
@[simp] theorem setBg2_dma (a : Affine) (s : State) : (setBg2 a s).dma = s.dma := rfl
@[simp] theorem setBg2_timers (a : Affine) (s : State) : (setBg2 a s).timers = s.timers := rfl
@[simp] theorem setBg2_sound (a : Affine) (s : State) : (setBg2 a s).sound = s.sound := rfl
@[simp] theorem setBg2_fifoA (a : Affine) (s : State) : (setBg2 a s).fifoA = s.fifoA := rfl
@[simp] theorem setBg2_fifoB (a : Affine) (s : State) : (setBg2 a s).fifoB = s.fifoB := rfl
@[simp] theorem setBg2_keypad (a : Affine) (s : State) : (setBg2 a s).keypad = s.keypad := rfl
@[simp] theorem setBg2_backup (a : Affine) (s : State) : (setBg2 a s).backup = s.backup := rfl
@[simp] theorem setBg2_started (a : Affine) (s : State) : (setBg2 a s).started = s.started := rfl
@[simp] theorem setBg2_draws (a : Affine) (s : State) : (setBg2 a s).draws = s.draws := rfl

@[simp] theorem setBg3_regs (a : Affine) (s : State) : (setBg3 a s).regs = s.regs := rfl
@[simp] theorem setBg3_r15 (a : Affine) (s : State) : (setBg3 a s).r15 = s.r15 := rfl
@[simp] theorem setBg3_cpsr (a : Affine) (s : State) : (setBg3 a s).cpsr = s.cpsr := rfl
@[simp] theorem setBg3_spsr (a : Affine) (s : State) : (setBg3 a s).spsr = s.spsr := rfl
@[simp] theorem setBg3_pipeDecode (a : Affine) (s : State) : (setBg3 a s).pipeDecode = s.pipeDecode := rfl
@[simp] theorem setBg3_pipeFetch (a : Affine) (s : State) : (setBg3 a s).pipeFetch = s.pipeFetch := rfl
@[simp] theorem setBg3_pendingPC (a : Affine) (s : State) : (setBg3 a s).pendingPC = s.pendingPC := rfl
@[simp] theorem setBg3_mem (a : Affine) (s : State) : (setBg3 a s).mem = s.mem := rfl
@[simp] theorem setBg3_shadow (a : Affine) (s : State) : (setBg3 a s).shadow = s.shadow := rfl
@[simp] theorem setBg3_dirty (a : Affine) (s : State) : (setBg3 a s).dirty = s.dirty := rfl
@[simp] theorem setBg3_irq (a : Affine) (s : State) : (setBg3 a s).irq = s.irq := rfl
@[simp] theorem setBg3_dma (a : Affine) (s : State) : (setBg3 a s).dma = s.dma := rfl
@[simp] theorem setBg3_timers (a : Affine) (s : State) : (setBg3 a s).timers = s.timers := rfl
@[simp] theorem setBg3_sound (a : Affine) (s : State) : (setBg3 a s).sound = s.sound := rfl
@[simp] theorem setBg3_fifoA (a : Affine) (s : State) : (setBg3 a s).fifoA = s.fifoA := rfl
@[simp] theorem setBg3_fifoB (a : Affine) (s : State) : (setBg3 a s).fifoB = s.fifoB := rfl
@[simp] theorem setBg3_keypad (a : Affine) (s : State) : (setBg3 a s).keypad = s.keypad := rfl
@[simp] theorem setBg3_backup (a : Affine) (s : State) : (setBg3 a s).backup = s.backup := rfl
@[simp] theorem setBg3_started (a : Affine) (s : State) : (setBg3 a s).started = s.started := rfl
@[simp] theorem setBg3_draws (a : Affine) (s : State) : (setBg3 a s).draws = s.draws := rfl

@[simp] theorem setSound_regs (x : Sound) (s : State) : (setSound x s).regs = s.regs := rfl
@[simp] theorem setSound_r15 (x : Sound) (s : State) : (setSound x s).r15 = s.r15 := rfl
@[simp] theorem setSound_cpsr (x : Sound) (s : State) : (setSound x s).cpsr = s.cpsr := rfl
@[simp] theorem setSound_spsr (x : Sound) (s : State) : (setSound x s).spsr = s.spsr := rfl
@[simp] theorem setSound_pipeDecode (x : Sound) (s : State) : (setSound x s).pipeDecode = s.pipeDecode := rfl
@[simp] theorem setSound_pipeFetch (x : Sound) (s : State) : (setSound x s).pipeFetch = s.pipeFetch := rfl
@[simp] theorem setSound_pendingPC (x : Sound) (s : State) : (setSound x s).pendingPC = s.pendingPC := rfl
@[simp] theorem setSound_mem (x : Sound) (s : State) : (setSound x s).mem = s.mem := rfl
@[simp] theorem setSound_shadow (x : Sound) (s : State) : (setSound x s).shadow = s.shadow := rfl
@[simp] theorem setSound_dirty (x : Sound) (s : State) : (setSound x s).dirty = s.dirty := rfl
@[simp] theorem setSound_irq (x : Sound) (s : State) : (setSound x s).irq = s.irq := rfl
@[simp] theorem setSound_dma (x : Sound) (s : State) : (setSound x s).dma = s.dma := rfl
@[simp] theorem setSound_timers (x : Sound) (s : State) : (setSound x s).timers = s.timers := rfl
@[simp] theorem setSound_ppu (x : Sound) (s : State) : (setSound x s).ppu = s.ppu := rfl
@[simp] theorem setSound_fifoA (x : Sound) (s : State) : (setSound x s).fifoA = s.fifoA := rfl
@[simp] theorem setSound_fifoB (x : Sound) (s : State) : (setSound x s).fifoB = s.fifoB := rfl
@[simp] theorem setSound_keypad (x : Sound) (s : State) : (setSound x s).keypad = s.keypad := rfl
@[simp] theorem setSound_backup (x : Sound) (s : State) : (setSound x s).backup = s.backup := rfl
@[simp] theorem setSound_started (x : Sound) (s : State) : (setSound x s).started = s.started := rfl
@[simp] theorem setSound_draws (x : Sound) (s : State) : (setSound x s).draws = s.draws := rfl

@[simp] theorem storeMem_regs (k : Nat) (b : Byte) (s : State) : (storeMem k b s).regs = s.regs := rfl
@[simp] theorem storeMem_r15 (k : Nat) (b : Byte) (s : State) : (storeMem k b s).r15 = s.r15 := rfl
@[simp] theorem storeMem_cpsr (k : Nat) (b : Byte) (s : State) : (storeMem k b s).cpsr = s.cpsr := rfl
@[simp] theorem storeMem_spsr (k : Nat) (b : Byte) (s : State) : (storeMem k b s).spsr = s.spsr := rfl
@[simp] theorem storeMem_pipeDecode (k : Nat) (b : Byte) (s : State) : (storeMem k b s).pipeDecode = s.pipeDecode := rfl
@[simp] theorem storeMem_pipeFetch (k : Nat) (b : Byte) (s : State) : (storeMem k b s).pipeFetch = s.pipeFetch := rfl
@[simp] theorem storeMem_pendingPC (k : Nat) (b : Byte) (s : State) : (storeMem k b s).pendingPC = s.pendingPC := rfl
@[simp] theorem storeMem_shadow (k : Nat) (b : Byte) (s : State) : (storeMem k b s).shadow = s.shadow := rfl
@[simp] theorem storeMem_dirty (k : Nat) (b : Byte) (s : State) : (storeMem k b s).dirty = s.dirty := rfl
@[simp] theorem storeMem_irq (k : Nat) (b : Byte) (s : State) : (storeMem k b s).irq = s.irq := rfl
@[simp] theorem storeMem_dma (k : Nat) (b : Byte) (s : State) : (storeMem k b s).dma = s.dma := rfl
@[simp] theorem storeMem_timers (k : Nat) (b : Byte) (s : State) : (storeMem k b s).timers = s.timers := rfl
@[simp] theorem storeMem_ppu (k : Nat) (b : Byte) (s : State) : (storeMem k b s).ppu = s.ppu := rfl
@[simp] theorem storeMem_sound (k : Nat) (b : Byte) (s : State) : (storeMem k b s).sound = s.sound := rfl
@[simp] theorem storeMem_fifoA (k : Nat) (b : Byte) (s : State) : (storeMem k b s).fifoA = s.fifoA := rfl
@[simp] theorem storeMem_fifoB (k : Nat) (b : Byte) (s : State) : (storeMem k b s).fifoB = s.fifoB := rfl
@[simp] theorem storeMem_keypad (k : Nat) (b : Byte) (s : State) : (storeMem k b s).keypad = s.keypad := rfl
@[simp] theorem storeMem_backup (k : Nat) (b : Byte) (s : State) : (storeMem k b s).backup = s.backup := rfl
@[simp] theorem storeMem_started (k : Nat) (b : Byte) (s : State) : (storeMem k b s).started = s.started := rfl
@[simp] theorem storeMem_draws (k : Nat) (b : Byte) (s : State) : (storeMem k b s).draws = s.draws := rfl

@[simp] theorem backupStore_regs (o : Nat) (b : Byte) (s : State) : (backupStore o b s).regs = s.regs := rfl
@[simp] theorem backupStore_r15 (o : Nat) (b : Byte) (s : State) : (backupStore o b s).r15 = s.r15 := rfl
@[simp] theorem backupStore_cpsr (o : Nat) (b : Byte) (s : State) : (backupStore o b s).cpsr = s.cpsr := rfl
@[simp] theorem backupStore_spsr (o : Nat) (b : Byte) (s : State) : (backupStore o b s).spsr = s.spsr := rfl
@[simp] theorem backupStore_pipeDecode (o : Nat) (b : Byte) (s : State) : (backupStore o b s).pipeDecode = s.pipeDecode := rfl
@[simp] theorem backupStore_pipeFetch (o : Nat) (b : Byte) (s : State) : (backupStore o b s).pipeFetch = s.pipeFetch := rfl
@[simp] theorem backupStore_pendingPC (o : Nat) (b : Byte) (s : State) : (backupStore o b s).pendingPC = s.pendingPC := rfl
@[simp] theorem backupStore_shadow (o : Nat) (b : Byte) (s : State) : (backupStore o b s).shadow = s.shadow := rfl
@[simp] theorem backupStore_dirty (o : Nat) (b : Byte) (s : State) : (backupStore o b s).dirty = s.dirty := rfl
@[simp] theorem backupStore_irq (o : Nat) (b : Byte) (s : State) : (backupStore o b s).irq = s.irq := rfl
@[simp] theorem backupStore_dma (o : Nat) (b : Byte) (s : State) : (backupStore o b s).dma = s.dma := rfl
@[simp] theorem backupStore_timers (o : Nat) (b : Byte) (s : State) : (backupStore o b s).timers = s.timers := rfl
@[simp] theorem backupStore_ppu (o : Nat) (b : Byte) (s : State) : (backupStore o b s).ppu = s.ppu := rfl
@[simp] theorem backupStore_sound (o : Nat) (b : Byte) (s : State) : (backupStore o b s).sound = s.sound := rfl
@[simp] theorem backupStore_fifoA (o : Nat) (b : Byte) (s : State) : (backupStore o b s).fifoA = s.fifoA := rfl
@[simp] theorem backupStore_fifoB (o : Nat) (b : Byte) (s : State) : (backupStore o b s).fifoB = s.fifoB := rfl
@[simp] theorem backupStore_keypad (o : Nat) (b : Byte) (s : State) : (backupStore o b s).keypad = s.keypad := rfl
@[simp] theorem backupStore_backup (o : Nat) (b : Byte) (s : State) : (backupStore o b s).backup = s.backup := rfl
@[simp] theorem backupStore_started (o : Nat) (b : Byte) (s : State) : (backupStore o b s).started = s.started := rfl
@[simp] theorem backupStore_draws (o : Nat) (b : Byte) (s : State) : (backupStore o b s).draws = s.draws := rfl

@[simp] theorem ioWrite8_regs (o : Nat) (b : Byte) (s : State) : (ioWrite8 o b s).regs = s.regs := rfl
@[simp] theorem ioWrite8_r15 (o : Nat) (b : Byte) (s : State) : (ioWrite8 o b s).r15 = s.r15 := rfl
@[simp] theorem ioWrite8_cpsr (o : Nat) (b : Byte) (s : State) : (ioWrite8 o b s).cpsr = s.cpsr := rfl
@[simp] theorem ioWrite8_spsr (o : Nat) (b : Byte) (s : State) : (ioWrite8 o b s).spsr = s.spsr := rfl
@[simp] theorem ioWrite8_pipeDecode (o : Nat) (b : Byte) (s : State) : (ioWrite8 o b s).pipeDecode = s.pipeDecode := rfl
@[simp] theorem ioWrite8_pipeFetch (o : Nat) (b : Byte) (s : State) : (ioWrite8 o b s).pipeFetch = s.pipeFetch := rfl
@[simp] theorem ioWrite8_pendingPC (o : Nat) (b : Byte) (s : State) : (ioWrite8 o b s).pendingPC = s.pendingPC := rfl
@[simp] theorem ioWrite8_mem (o : Nat) (b : Byte) (s : State) : (ioWrite8 o b s).mem = s.mem := rfl
@[simp] theorem ioWrite8_irq (o : Nat) (b : Byte) (s : State) : (ioWrite8 o b s).irq = s.irq := rfl
@[simp] theorem ioWrite8_dma (o : Nat) (b : Byte) (s : State) : (ioWrite8 o b s).dma = s.dma := rfl
@[simp] theorem ioWrite8_timers (o : Nat) (b : Byte) (s : State) : (ioWrite8 o b s).timers = s.timers := rfl
@[simp] theorem ioWrite8_ppu (o : Nat) (b : Byte) (s : State) : (ioWrite8 o b s).ppu = s.ppu := rfl
@[simp] theorem ioWrite8_sound (o : Nat) (b : Byte) (s : State) : (ioWrite8 o b s).sound = s.sound := rfl
@[simp] theorem ioWrite8_fifoA (o : Nat) (b : Byte) (s : State) : (ioWrite8 o b s).fifoA = s.fifoA := rfl
@[simp] theorem ioWrite8_fifoB (o : Nat) (b : Byte) (s : State) : (ioWrite8 o b s).fifoB = s.fifoB := rfl
@[simp] theorem ioWrite8_keypad (o : Nat) (b : Byte) (s : State) : (ioWrite8 o b s).keypad = s.keypad := rfl
@[simp] theorem ioWrite8_backup (o : Nat) (b : Byte) (s : State) : (ioWrite8 o b s).backup = s.backup := rfl
@[simp] theorem ioWrite8_started (o : Nat) (b : Byte) (s : State) : (ioWrite8 o b s).started = s.started := rfl
@[simp] theorem ioWrite8_draws (o : Nat) (b : Byte) (s : State) : (ioWrite8 o b s).draws = s.draws := rfl

@[simp] theorem setRegIn_regs (m : Mode) (r : Reg) (v : Word) (s : State) :
    (setRegIn m r v s).regs = s.regs.set (regPlace m r) v := rfl
@[simp] theorem setCpsr_cpsr (c : Cpsr) (s : State) : (setCpsr c s).cpsr = c := rfl
@[simp] theorem raiseIrq_irq (n : Nat) (s : State) :
    (raiseIrq n s).irq = { s.irq with ifl := s.irq.ifl ||| (1#16 <<< n) } := rfl
@[simp] theorem setDma_dma (i : Fin 4) (c : DmaChannel) (s : State) : (setDma i c s).dma = s.dma.set i c := rfl
@[simp] theorem setTimer_timers (i : Fin 4) (t : Timer) (s : State) : (setTimer i t s).timers = s.timers.set i t := rfl
@[simp] theorem setPpu_ppu (p : Ppu) (s : State) : (setPpu p s).ppu = p := rfl
@[simp] theorem setBg2_ppu (a : Affine) (s : State) : (setBg2 a s).ppu = { s.ppu with bg2 := a } := rfl
@[simp] theorem setBg3_ppu (a : Affine) (s : State) : (setBg3 a s).ppu = { s.ppu with bg3 := a } := rfl
@[simp] theorem setSound_sound (x : Sound) (s : State) : (setSound x s).sound = x := rfl
@[simp] theorem storeMem_mem (k : Nat) (b : Byte) (s : State) : (storeMem k b s).mem = Memory.write s.mem k b := rfl
@[simp] theorem backupStore_mem (o : Nat) (b : Byte) (s : State) :
    (backupStore o b s).mem = Memory.write s.mem (backupKey s.backup.kind o) b := rfl
@[simp] theorem ioWrite8_shadow (o : Nat) (b : Byte) (s : State) :
    (ioWrite8 o b s).shadow = Memory.write s.shadow o b := rfl
@[simp] theorem ioWrite8_dirty (o : Nat) (b : Byte) (s : State) : (ioWrite8 o b s).dirty = addDirty o s.dirty := rfl

/-! Reading back what an indexed update stored. -/

theorem vector_get_set {α : Type} {n : Nat} (v : Vector α n) (p q : Fin n) (x : α) :
    (v.set p x).get q = if q = p then x else v.get q := by
  show (v.set p x)[q.val] = _
  rw [Vector.getElem_set]
  by_cases h : q = p
  · simp [h]
  · have h' : p.val ≠ q.val := fun e => h (Fin.ext e.symm)
    simp only [h, h', if_false]
    rfl

@[simp] theorem getDma_setDma (i : Fin 4) (c : DmaChannel) (s : State) : getDma i (setDma i c s) = c := by
  simp [getDma, setDma, vector_get_set]

theorem getDma_setDma_ne {i j : Fin 4} (h : j ≠ i) (c : DmaChannel) (s : State) :
    getDma j (setDma i c s) = getDma j s := by
  simp [getDma, setDma, vector_get_set, h]

@[simp] theorem getTimer_setTimer (i : Fin 4) (t : Timer) (s : State) : getTimer i (setTimer i t s) = t := by
  simp [getTimer, setTimer, vector_get_set]

theorem getTimer_setTimer_ne {i j : Fin 4} (h : j ≠ i) (t : Timer) (s : State) :
    getTimer j (setTimer i t s) = getTimer j s := by
  simp [getTimer, setTimer, vector_get_set, h]

@[simp] theorem getFifo_setFifo (d : FifoId) (f : Fifo) (s : State) : getFifo d (setFifo d f s) = f := by
  cases d <;> rfl

end Sys2Proof.Machine
end

