-- ==== Sys2Proof/Laws/Bus.lean ====
section
/-! SUPPORT. What a bus access can do: a read takes free values and changes nothing else; a write changes memory and devices and
never the processor. -/

namespace Sys2Proof.Machine

open Sys2Proof.Safety

/-! ## Reads -/

/-- Nothing but the count of draws has changed. -/
def Drew (s t : State) : Prop := ∃ n, t = { s with draws := s.draws + n }

theorem Drew.refl (s : State) : Drew s s := ⟨0, rfl⟩

theorem Drew.trans {s t u : State} (h : Drew s t) (k : Drew t u) : Drew s u := by
  obtain ⟨n, rfl⟩ := h
  obtain ⟨m, rfl⟩ := k
  exact ⟨n + m, by simp [Nat.add_assoc]⟩

theorem draw_drew (s : State) : Drew s (draw s).2 := ⟨1, rfl⟩

theorem ioReadByte_drew (o : Nat) (s : State) : Drew s (ioReadByte o s).2 := by
  unfold ioReadByte
  split
  · exact .refl s
  · split
    · exact .refl s
    · exact draw_drew s

theorem read8_drew (a : Word) (s : State) : Drew s (read8 a s).2 := by
  unfold read8
  split
  · exact draw_drew s
  · exact ioReadByte_drew _ s
  · exact .refl s
  · exact .refl s

theorem read16_drew (a : Word) (s : State) : Drew s (read16 a s).2 :=
  (read8_drew _ _).trans (read8_drew _ _)

theorem read32_drew (a : Word) (s : State) : Drew s (read32 a s).2 :=
  (((read8_drew _ _).trans (read8_drew _ _)).trans (read8_drew _ _)).trans (read8_drew _ _)

theorem fetch_drew (a : Word) (s : State) : Drew s (fetch a s).2 := by
  unfold fetch
  split
  · exact read16_drew a s
  · exact read32_drew a s

theorem loadWord_drew (a : Word) (s : State) : Drew s (loadWord a s).2 := read32_drew _ s
theorem loadHalf_drew (a : Word) (s : State) : Drew s (loadHalf a s).2 := read16_drew _ s
theorem loadByte_drew (a : Word) (s : State) : Drew s (loadByte a s).2 := read8_drew _ s
theorem loadSignedByte_drew (a : Word) (s : State) : Drew s (loadSignedByte a s).2 := read8_drew _ s
theorem loadSignedHalf_drew (a : Word) (s : State) : Drew s (loadSignedHalf a s).2 := read16_drew _ s

theorem loadWords_drew (n : Nat) : ∀ (a : Word) (s : State), Drew s (loadWords a n s).2 := by
  induction n with
  | zero => exact fun _ s => .refl s
  | succ n ih => exact fun a s => (read32_drew _ s).trans (ih _ _)

theorem loadWords_length (n : Nat) : ∀ (a : Word) (s : State), (loadWords a n s).1.length = n := by
  induction n with
  | zero => exact fun _ _ => rfl
  | succ n ih => exact fun a s => congrArg (· + 1) (ih _ _)

/-! ## The end of an instruction -/

/-- The advance changes the pipeline and R15, and may draw. -/
theorem advance_spec (s : State) : ∃ n, advance s =
    { s with pipeDecode := s.pipeFetch, pipeFetch := (fetch s.r15 s).1, r15 := s.r15 + fetchSize s,
             draws := s.draws + n } := by
  obtain ⟨n, h⟩ := fetch_drew s.r15 s
  exact ⟨n, by simp [advance, h]⟩

/-- The refill changes the pipeline and R15, and may draw. -/
theorem refill_spec (v : Word) (s : State) : ∃ n f, refill v s =
    { s with pipeDecode := (fetch (alignFetch v s) s).1, pipeFetch := f,
             r15 := alignFetch v s + fetchSize s + fetchSize s, draws := s.draws + n } := by
  obtain ⟨n, h⟩ := fetch_drew (alignFetch v s) s
  obtain ⟨m, k⟩ := fetch_drew (alignFetch v s + fetchSize s) (fetch (alignFetch v s) s).2
  refine ⟨n + m, (fetch (alignFetch v s + fetchSize s) (fetch (alignFetch v s) s).2).1, ?_⟩
  simp only [refill]
  rw [k, h]
  simp [Nat.add_assoc]

/-! ## Writes -/

/-- What a write can do: the processor, the counters, snapshot and frame of the picture processor, KEYINPUT and the draws stay; a
memory in canonical form stays so; a FIFO stays within its capacity; no channel becomes Active. -/
structure BusEffect (s t : State) : Prop where
  regs : t.regs = s.regs
  r15 : t.r15 = s.r15
  cpsr : t.cpsr = s.cpsr
  spsr : t.spsr = s.spsr
  pipeDecode : t.pipeDecode = s.pipeDecode
  pipeFetch : t.pipeFetch = s.pipeFetch
  pendingPC : t.pendingPC = s.pendingPC
  started : t.started = s.started
  draws : t.draws = s.draws
  lc : t.ppu.lc = s.ppu.lc
  vcount : t.ppu.vcount = s.ppu.vcount
  oamSnap : t.ppu.oamSnap = s.ppu.oamSnap
  frame : t.ppu.frame = s.ppu.frame
  keyinput : t.keypad.keyinput = s.keypad.keyinput
  mem : Memory.wf s.mem = true → Memory.wf t.mem = true
  shadow : Memory.wf s.shadow = true → Memory.wf t.shadow = true
  fifoA : fifoFits s.fifoA → fifoFits t.fifoA
  fifoB : fifoFits s.fifoB → fifoFits t.fifoB
  active : ∀ i, (getDma i t).phase = .active → (getDma i s).phase = .active

theorem BusEffect.refl (s : State) : BusEffect s s :=
  ⟨rfl, rfl, rfl, rfl, rfl, rfl, rfl, rfl, rfl, rfl, rfl, rfl, rfl, rfl, id, id, id, id, fun _ h => h⟩

theorem BusEffect.trans {s t u : State} (h : BusEffect s t) (k : BusEffect t u) : BusEffect s u :=
  ⟨k.regs.trans h.regs, k.r15.trans h.r15, k.cpsr.trans h.cpsr, k.spsr.trans h.spsr, k.pipeDecode.trans h.pipeDecode,
   k.pipeFetch.trans h.pipeFetch, k.pendingPC.trans h.pendingPC, k.started.trans h.started, k.draws.trans h.draws,
   k.lc.trans h.lc, k.vcount.trans h.vcount, k.oamSnap.trans h.oamSnap, k.frame.trans h.frame,
   k.keyinput.trans h.keyinput, k.mem ∘ h.mem, k.shadow ∘ h.shadow, k.fifoA ∘ h.fifoA, k.fifoB ∘ h.fifoB,
   fun i x => h.active i (k.active i x)⟩

/-- A channel replaced by one that is not Active unless it was. -/
theorem setDma_effect (i : Fin 4) (c : DmaChannel) (s : State)
    (h : c.phase = .active → (getDma i s).phase = .active) : BusEffect s (setDma i c s) :=
  ⟨rfl, rfl, rfl, rfl, rfl, rfl, rfl, rfl, rfl, rfl, rfl, rfl, rfl, rfl, id, id, id, id, fun j hj => by
    by_cases e : j = i
    · subst e; rw [getDma_setDma] at hj; exact h hj
    · rw [getDma_setDma_ne e] at hj; exact hj⟩

theorem setTimer_effect (i : Fin 4) (t : Timer) (s : State) : BusEffect s (setTimer i t s) :=
  ⟨rfl, rfl, rfl, rfl, rfl, rfl, rfl, rfl, rfl, rfl, rfl, rfl, rfl, rfl, id, id, id, id, fun _ h => h⟩

theorem setFifo_effect (d : FifoId) (f : Fifo) (s : State) (h : fifoFits (getFifo d s) → fifoFits f) :
    BusEffect s (setFifo d f s) := by
  cases d
  · exact ⟨rfl, rfl, rfl, rfl, rfl, rfl, rfl, rfl, rfl, rfl, rfl, rfl, rfl, rfl, id, id, h, id, fun _ h => h⟩
  · exact ⟨rfl, rfl, rfl, rfl, rfl, rfl, rfl, rfl, rfl, rfl, rfl, rfl, rfl, rfl, id, id, id, h, fun _ h => h⟩

theorem storeMem_effect (k : Nat) (b : Byte) (s : State) : BusEffect s (storeMem k b s) :=
  ⟨rfl, rfl, rfl, rfl, rfl, rfl, rfl, rfl, rfl, rfl, rfl, rfl, rfl, rfl, Memory.write_wf _ _ _, id, id, id, fun _ h => h⟩

theorem ioWrite8_effect (o : Nat) (b : Byte) (s : State) : BusEffect s (ioWrite8 o b s) :=
  ⟨rfl, rfl, rfl, rfl, rfl, rfl, rfl, rfl, rfl, rfl, rfl, rfl, rfl, rfl, id, Memory.write_wf _ _ _, id, id, fun _ h => h⟩

theorem pushByte_fits (b : Byte) (f : Fifo) (h : fifoFits f) : fifoFits (pushByte b f) := by
  unfold pushByte
  split
  · simp only [fifoFits, List.length_append, List.length_singleton]; omega
  · exact h

theorem popByte_fits (f : Fifo) (h : fifoFits f) : fifoFits (popByte f) := by
  unfold popByte
  split
  · exact h
  · next e => simp only [fifoFits, e, List.length_cons] at h ⊢; omega

theorem triggerIf_effect (p : Fin 4 → State → Bool) (i : Fin 4) (s : State) : BusEffect s (triggerIf p i s) := by
  unfold triggerIf
  split
  · apply setDma_effect
    unfold dmaTrigger
    split
    · exact fun h => by cases h
    · exact id
  · exact .refl s

theorem triggerAll_effect (p : Fin 4 → State → Bool) (s : State) : BusEffect s (triggerAll p s) :=
  (((triggerIf_effect p 0 s).trans (triggerIf_effect p 1 _)).trans (triggerIf_effect p 2 _)).trans
    (triggerIf_effect p 3 _)

theorem fifoReset_effect (d : FifoId) (s : State) : BusEffect s (fifoReset d s) :=
  (setFifo_effect d _ s (fun _ => Nat.zero_le _)).trans (triggerAll_effect _ _)

theorem dmaEnableChange_phase (i : Fin 4) (old new : Half) (c : DmaChannel)
    (h : (dmaEnableChange i old new c).phase = .active) : c.phase = .active := by
  unfold dmaEnableChange at h
  split at h
  · cases h
  · cases h
  · exact h

theorem ioSetStored_effect (r : IoReg) (v : Word) (s : State) : BusEffect s (ioSetStored r v s) := by
  cases r <;>
    first
    | exact .refl s
    | exact setTimer_effect _ _ s
    | exact setDma_effect _ _ s id
    | exact ⟨rfl, rfl, rfl, rfl, rfl, rfl, rfl, rfl, rfl, rfl, rfl, rfl, rfl, rfl, id, id, id, id, fun _ h => h⟩

theorem ioPush_effect (d : FifoId) (value mask : Word) (s : State) : BusEffect s (ioPush d value mask s) := by
  apply setFifo_effect
  have step : ∀ (c : Bool) (b : Byte) (f : Fifo), fifoFits f → fifoFits (if c then pushByte b f else f) := by
    intro c b f h
    cases c
    · exact h
    · exact pushByte_fits b f h
  exact fun h => step _ _ _ (step _ _ _ (step _ _ _ (step _ _ _ h)))

theorem ioCommitReg_effect (r : IoReg) (value mask : Word) (s : State) : BusEffect s (ioCommitReg r value mask s) := by
  have hm := ioSetStored_effect r (ioMerge r (ioStored r s) value mask) s
  unfold ioCommitReg
  cases r <;> simp only <;>
    first
    | exact hm
    | exact ioPush_effect _ value mask s
    | exact hm.trans (setTimer_effect _ _ _)
    | exact hm.trans (setDma_effect _ _ _ (dmaEnableChange_phase _ _ _ _))
    | exact ⟨rfl, rfl, rfl, rfl, rfl, rfl, rfl, rfl, rfl, rfl, rfl, rfl, rfl, rfl, id, id, id, id, fun _ h => h⟩
    | skip
  apply hm.trans
  split <;> split
  · exact (fifoReset_effect _ _).trans (fifoReset_effect _ _)
  · exact fifoReset_effect _ _
  · exact fifoReset_effect _ _
  · exact .refl _

theorem ioCommitOne_effect (s : State) (r : IoReg) : BusEffect s (ioCommitOne s r) := by
  unfold ioCommitOne
  simp only
  split
  · exact .refl s
  · exact ioCommitReg_effect _ _ _ s

theorem ioCommit_fold_effect (rs : List IoReg) : ∀ s, BusEffect s (rs.foldl ioCommitOne s) := by
  induction rs with
  | nil => exact .refl
  | cons r rs ih => exact fun s => (ioCommitOne_effect s r).trans (ih _)

theorem ioCommit_effect (s : State) : BusEffect s (ioCommit s) := by
  unfold ioCommit
  split
  · exact .refl s
  · exact (ioCommit_fold_effect allIoRegs s).trans
      ⟨rfl, rfl, rfl, rfl, rfl, rfl, rfl, rfl, rfl, rfl, rfl, rfl, rfl, rfl, id, id, id, id, fun _ h => h⟩

/-- After a commit no byte is dirty (61_io_registers.md R952). -/
theorem ioCommit_dirty (s : State) : (ioCommit s).dirty = [] := by
  unfold ioCommit
  split
  · assumption
  · rfl

theorem backupWrite_effect (o : Nat) (b : Byte) (s : State) : BusEffect s (backupWrite o b s) := by
  have hs : ∀ s : State, BusEffect s (backupStore o b s) := fun s =>
    ⟨rfl, rfl, rfl, rfl, rfl, rfl, rfl, rfl, rfl, rfl, rfl, rfl, rfl, rfl, Memory.write_wf _ _ _, id, id, id, fun _ h => h⟩
  have hb : ∀ x : Backup, BusEffect s { s with backup := x } := fun _ =>
    ⟨rfl, rfl, rfl, rfl, rfl, rfl, rfl, rfl, rfl, rfl, rfl, rfl, rfl, rfl, id, id, id, id, fun _ h => h⟩
  unfold backupWrite
  split
  · exact hs s
  · repeat' split
    · exact hb _
    · exact hb _
    · exact hb _
    · exact hb _
    · exact (hb _).trans (hs _)

theorem putByte_effect (a : Word) (b : Byte) (s : State) : BusEffect s (putByte a b s) := by
  unfold putByte
  split
  · exact .refl s
  · exact .refl s
  · exact .refl s
  · exact ioWrite8_effect _ _ s
  · exact backupWrite_effect _ _ s
  · exact storeMem_effect _ _ s

theorem putReplicated_effect (r : Region) (o : Nat) (b : Byte) (s : State) : BusEffect s (putReplicated r o b s) :=
  (storeMem_effect _ _ s).trans (storeMem_effect _ _ _)

theorem putByte8_effect (a : Word) (b : Byte) (s : State) : BusEffect s (putByte8 a b s) := by
  unfold putByte8
  split
  · exact putReplicated_effect _ _ _ s
  · split
    · exact putReplicated_effect _ _ _ s
    · exact .refl s
  · exact .refl s
  · exact putByte_effect _ _ s

theorem write8_effect (a : Word) (b : Byte) (s : State) : BusEffect s (write8 a b s) :=
  (putByte8_effect a b s).trans (ioCommit_effect _)

theorem write16_effect (a : Word) (v : Half) (s : State) : BusEffect s (write16 a v s) :=
  ((putByte_effect _ _ s).trans (putByte_effect _ _ _)).trans (ioCommit_effect _)

theorem write32_effect (a v : Word) (s : State) : BusEffect s (write32 a v s) :=
  ((((putByte_effect _ _ s).trans (putByte_effect _ _ _)).trans (putByte_effect _ _ _)).trans
    (putByte_effect _ _ _)).trans (ioCommit_effect _)

theorem storeWord_effect (a v : Word) (s : State) : BusEffect s (storeWord a v s) := write32_effect _ _ s
theorem storeHalf_effect (a v : Word) (s : State) : BusEffect s (storeHalf a v s) := write16_effect _ _ s
theorem storeByte_effect (a v : Word) (s : State) : BusEffect s (storeByte a v s) := write8_effect _ _ s

theorem storeWords_effect (vs : List Word) : ∀ (a : Word) (s : State), BusEffect s (storeWords a vs s) := by
  induction vs with
  | nil => exact fun _ s => .refl s
  | cons v vs ih => exact fun a s => (storeWord_effect a v s).trans (ih _ _)

/-- A commit changes no byte of memory. -/
theorem ioCommit_mem (s : State) : (ioCommit s).mem = s.mem := by
  have one : ∀ (s : State) (r : IoReg), (ioCommitOne s r).mem = s.mem := by
    have trig : ∀ p i (s : State), (triggerIf p i s).mem = s.mem := by
      intro p i s
      unfold triggerIf
      split <;> simp
    have reset : ∀ d (s : State), (fifoReset d s).mem = s.mem := by
      intro d s
      simp [fifoReset, triggerAll, trig]
    have stored : ∀ r v (s : State), (ioSetStored r v s).mem = s.mem := by
      intro r v s
      cases r <;> rfl
    intro s r
    unfold ioCommitOne
    simp only
    split
    · rfl
    · unfold ioCommitReg
      cases r <;> simp only [stored, setTimer_mem, setDma_mem, ioPush, setFifo_mem]
      split <;> split <;> simp [reset, stored]
  have fold : ∀ (rs : List IoReg) (s : State), (rs.foldl ioCommitOne s).mem = s.mem := by
    intro rs
    induction rs with
    | nil => exact fun _ => rfl
    | cons r rs ih => exact fun s => (ih _).trans (one s r)
  unfold ioCommit
  split
  · rfl
  · exact fold _ s

/-- With no byte dirty a commit changes nothing. -/
theorem ioCommit_clean (s : State) (h : s.dirty = []) : ioCommit s = s := by simp [ioCommit, h]

end Sys2Proof.Machine
end

