-- ==== Sys2Proof/Laws/Exec.lean ====
section
/-! SUPPORT. The end of an instruction, taking an exception, and the shapes the meanings share: what each can do, once. -/

namespace Sys2Proof.Machine

open Sys2Proof.Safety

/-! ## Fetches do not read the processor -/

/-- The state with the processor's registers replaced. -/
def withCpu (g : Vector Word 30) (b : SpsrBank) (x y z : Word) (q : Option Word) (s : State) : State :=
  { s with regs := g, spsr := b, pipeDecode := x, pipeFetch := y, r15 := z, pendingPC := q }

theorem ioRead_withCpu (r : IoReg) (g b x y z q) (s : State) : ioRead r (withCpu g b x y z q s) = ioRead r s := by
  cases r <;> rfl

theorem read8_withCpu (a : Word) (g b x y z q) (s : State) :
    read8 a (withCpu g b x y z q s) = ((read8 a s).1, withCpu g b x y z q (read8 a s).2) := by
  unfold read8
  split
  · rfl
  · unfold ioReadByte
    split
    · rfl
    · rw [ioRead_withCpu]
      split <;> rfl
  · rfl
  · rfl

theorem read16_withCpu (a : Word) (g b x y z q) (s : State) :
    read16 a (withCpu g b x y z q s) = ((read16 a s).1, withCpu g b x y z q (read16 a s).2) := by
  simp only [read16, read8_withCpu]

theorem read32_withCpu (a : Word) (g b x y z q) (s : State) :
    read32 a (withCpu g b x y z q s) = ((read32 a s).1, withCpu g b x y z q (read32 a s).2) := by
  simp only [read32, read8_withCpu]

theorem fetch_withCpu (a : Word) (g b x y z q) (s : State) :
    fetch a (withCpu g b x y z q s) = ((fetch a s).1, withCpu g b x y z q (fetch a s).2) := by
  have ht : (withCpu g b x y z q s).cpsr = s.cpsr := rfl
  unfold fetch
  rw [ht, read16_withCpu, read32_withCpu]
  cases s.cpsr.t <;> rfl

/-! ## The end of an instruction -/

/-- What the end of an instruction keeps: all but the pipeline, R15 and the draws. -/
structure Ended (u t : State) : Prop where
  regs : t.regs = u.regs
  cpsr : t.cpsr = u.cpsr
  spsr : t.spsr = u.spsr
  pending : t.pendingPC = none
  mem : t.mem = u.mem
  devices : devicesKept u t
  draws : u.draws ≤ t.draws

theorem advance_ended (u : State) (h : u.pendingPC = none) : Ended u (advance u) := by
  obtain ⟨n, e⟩ := advance_spec u
  rw [e]
  exact ⟨rfl, rfl, rfl, h, rfl, ⟨rfl, rfl, rfl, rfl, rfl, rfl, rfl, rfl, rfl, rfl, rfl, rfl⟩, Nat.le_add_right _ _⟩

theorem refill_ended (v : Word) (u : State) (h : u.pendingPC = none) : Ended u (refill v u) := by
  obtain ⟨n, f, e⟩ := refill_spec v u
  rw [e]
  exact ⟨rfl, rfl, rfl, h, rfl, ⟨rfl, rfl, rfl, rfl, rfl, rfl, rfl, rfl, rfl, rfl, rfl, rfl⟩, Nat.le_add_right _ _⟩

theorem advance_advanced (u : State) : advanced u (advance u) := by
  obtain ⟨n, e⟩ := advance_spec u
  rw [e]
  refine ⟨rfl, ⟨u.draws, ?_⟩, rfl⟩
  have := fetch_withCpu u.r15 u.regs u.spsr u.pipeFetch (fetch u.r15 u).1 (u.r15 + fetchSize u) u.pendingPC u
  exact (congrArg Prod.fst this).symm

theorem refill_refilled (v : Word) (u : State) : refilled v (refill v u) := by
  let a := alignFetch v u
  let fs := fetchSize u
  obtain ⟨n, hn⟩ := fetch_drew a u
  obtain ⟨m, hm⟩ := fetch_drew (a + fs) (fetch a u).2
  have e : refill v u = withCpu u.regs u.spsr (fetch a u).1 (fetch (a + fs) (fetch a u).2).1 (a + fs + fs) u.pendingPC
      { u with draws := u.draws + n + m } := by
    have h1 : refill v u = withCpu (fetch (a + fs) (fetch a u).2).2.regs (fetch (a + fs) (fetch a u).2).2.spsr (fetch a u).1
      (fetch (a + fs) (fetch a u).2).1 (a + fs + fs) (fetch (a + fs) (fetch a u).2).2.pendingPC
      (fetch (a + fs) (fetch a u).2).2 := rfl
    rw [h1, hm, hn]
  have ht : (refill v u).cpsr = u.cpsr := by rw [e]; rfl
  have hd : ∀ d, { refill v u with draws := d } = withCpu u.regs u.spsr (fetch a u).1 (fetch (a + fs) (fetch a u).2).1
      (a + fs + fs) u.pendingPC { u with draws := d } := by intro d; rw [e]; rfl
  have hr : (refill v u).r15 = a + fs + fs := by rw [e]; rfl
  have hp : (refill v u).pipeDecode = (fetch a u).1 := by rw [e]; rfl
  have hf : (refill v u).pipeFetch = (fetch (a + fs) (fetch a u).2).1 := by rw [e]; rfl
  have ha : (if (refill v u).cpsr.t then v &&& 0xFFFFFFFE#32 else v &&& 0xFFFFFFFC#32) = a := by rw [ht]; rfl
  have hs : (if (refill v u).cpsr.t then 2#32 else 4#32) = fs := by rw [ht]; rfl
  simp only [refilled, ha, hs]
  refine ⟨⟨u.draws, ?_⟩, ⟨u.draws + n, ?_⟩, hr⟩
  · rw [hd, fetch_withCpu, hp]
  · rw [hd, fetch_withCpu, hf, hn]

/-- The end of an instruction: all but the pipeline, R15 and the draws is kept; R15 written is a refill, else the pipeline
advances. -/
theorem finish_spec (u : State) : Ended u (finish u) ∧
    (∀ v, u.pendingPC = some v → refilled v (finish u)) ∧ (u.pendingPC = none → advanced u (finish u)) := by
  unfold finish
  split
  · next v h =>
    refine ⟨?_, fun w hw => ?_, fun hn => ?_⟩
    · have := refill_ended v { u with pendingPC := none } rfl
      exact ⟨this.regs, this.cpsr, this.spsr, this.pending, this.mem, this.devices, this.draws⟩
    · rw [h] at hw
      cases hw
      exact refill_refilled v _
    · rw [h] at hn
      cases hn
  · next h =>
    refine ⟨advance_ended u h, fun w hw => ?_, fun _ => advance_advanced u⟩
    rw [h] at hw
    cases hw

/-- `advanced` reads of the state before only the fetch slot, R15 and T. -/
theorem advanced_congr {s u t : State} (h : advanced u t) (hf : u.pipeFetch = s.pipeFetch) (hr : u.r15 = s.r15)
    (ht : u.cpsr.t = s.cpsr.t) : advanced s t := by
  unfold advanced at *
  rw [hf, hr, ht] at h
  exact h

/-! ## Running an instruction -/

theorem runThumb_next {body : State → Result} {s u : State} (h : body { s with pendingPC := none } = .next u) :
    runThumb body s = .next (finish u) := by
  simp [runThumb, h, andThen]

theorem runThumb_fault {body : State → Result} {s : State} {x : Fault} (h : body { s with pendingPC := none } = .fault x) :
    runThumb body s = .fault x := by
  simp [runThumb, h, andThen]

theorem runArm_next {c : Cond} {body : State → Result} {s u : State} (hc : conditionPasses c s.cpsr = true)
    (h : body { s with pendingPC := none } = .next u) : runArm c body s = .next (finish u) := by
  simp [runArm, hc, runThumb_next h]

theorem runArm_fault {c : Cond} {body : State → Result} {s : State} {x : Fault} (hc : conditionPasses c s.cpsr = true)
    (h : body { s with pendingPC := none } = .fault x) : runArm c body s = .fault x := by
  simp [runArm, hc, runThumb_fault h]

theorem runArm_skip {c : Cond} {body : State → Result} {s : State} (hc : conditionPasses c s.cpsr = false) :
    runArm c body s = .next (finish { s with pendingPC := none }) := by
  simp [runArm, hc]

/-- What a THUMB instruction that answers a next state did: its effect, then the end of the instruction. -/
theorem runThumb_inv {body : State → Result} {s t : State} (h : runThumb body s = .next t) :
    ∃ u, body { s with pendingPC := none } = .next u ∧ t = finish u := by
  unfold runThumb andThen at h
  split at h
  · next u hu => exact ⟨u, hu, by cases h; rfl⟩
  · cases h
  · cases h

/-- What an ARM instruction that answers a next state did. -/
theorem runArm_inv {c : Cond} {body : State → Result} {s t : State} (h : runArm c body s = .next t) :
    (conditionPasses c s.cpsr = true ∧ ∃ u, body { s with pendingPC := none } = .next u ∧ t = finish u) ∨
      (conditionPasses c s.cpsr = false ∧ t = finish { s with pendingPC := none }) := by
  unfold runArm at h
  split at h
  · next hc => exact .inl ⟨hc, runThumb_inv h⟩
  · next hc =>
    cases h
    exact .inr ⟨by simpa using hc, rfl⟩

end Sys2Proof.Machine
end

