-- ==== Sys2Proof/Laws/Regs.lean ====
section
/-! SUPPORT. Registers by bank, and what the effect of an instruction may change before its end. -/

namespace Sys2Proof.Machine

open Sys2Proof.Safety

/-! ## Registers -/

theorem readRegIn_setRegIn (m : Mode) (r : Reg) (v : Word) (s : State) (h : r ≠ 15#4) :
    readRegIn m r (setRegIn m r v s) = v := by
  simp [readRegIn, h, setRegIn, vector_get_set]

/-- A write of one register leaves another of the same bank alone. -/
theorem regPlace_inj (m : Mode) (r q : Reg) (hr : r ≠ 15#4) (hq : q ≠ 15#4) (h : r ≠ q) : regPlace m r ≠ regPlace m q := by
  revert r q
  cases m <;> decide

theorem readRegIn_setRegIn_ne (m : Mode) (r q : Reg) (v : Word) (s : State) (hr : r ≠ 15#4) (hq : q ≠ 15#4) (h : r ≠ q) :
    readRegIn m r (setRegIn m q v s) = readRegIn m r s := by
  simp [readRegIn, hr, setRegIn, vector_get_set, regPlace_inj m r q hr hq h]

theorem readReg_writeReg (r : Reg) (v : Word) (s : State) (h : r ≠ 15#4) : readReg r (writeReg r v s) = v := by
  simp only [readReg, writeReg, writeRegIn, h, if_false]
  exact readRegIn_setRegIn _ r v s h

@[simp] theorem writeRegIn_cpsr (m : Mode) (r : Reg) (v : Word) (s : State) : (writeRegIn m r v s).cpsr = s.cpsr := by
  unfold writeRegIn; split <;> rfl
@[simp] theorem writeReg_cpsr (r : Reg) (v : Word) (s : State) : (writeReg r v s).cpsr = s.cpsr := writeRegIn_cpsr _ _ _ _

theorem writeRegIn_pending (m : Mode) (r : Reg) (v : Word) (s : State) :
    (writeRegIn m r v s).pendingPC = if r = 15#4 then some v else s.pendingPC := by
  unfold writeRegIn; split <;> rfl

/-- A register is read alike in two states with the same registers, R15 and mode. -/
theorem readReg_congr {s t : State} (r : Reg) (hr : t.regs = s.regs) (h15 : t.r15 = s.r15) (hc : t.cpsr.mode = s.cpsr.mode) :
    readReg r t = readReg r s := by
  simp [readReg, readRegIn, hr, h15, hc]

theorem readRegIn_congr {s t : State} (m : Mode) (r : Reg) (hr : t.regs = s.regs) (h : r ≠ 15#4) :
    readRegIn m r t = readRegIn m r s := by
  simp [readRegIn, hr, h]

/-- A low register is no R15. -/
theorem lowReg_ne (r : LowReg) : lowReg r ≠ 15#4 := by
  revert r
  decide

/-! ## What an effect may change -/

theorem devicesKept_refl (s : State) : devicesKept s s :=
  ⟨rfl, rfl, rfl, rfl, rfl, rfl, rfl, rfl, rfl, rfl, rfl, rfl⟩

theorem devicesKept_trans {s t u : State} (h : devicesKept s t) (k : devicesKept t u) : devicesKept s u := by
  obtain ⟨h1, h2, h3, h4, h5, h6, h7, h8, h9, h10, h11, h12⟩ := h
  obtain ⟨k1, k2, k3, k4, k5, k6, k7, k8, k9, k10, k11, k12⟩ := k
  exact ⟨k1.trans h1, k2.trans h2, k3.trans h3, k4.trans h4, k5.trans h5, k6.trans h6, k7.trans h7, k8.trans h8,
    k9.trans h9, k10.trans h10, k11.trans h11, k12.trans h12⟩

/-- Only the registers at the places named, the status registers and the pending write of R15 may have changed, and free values may
have been taken. -/
structure Effect (ps : List (Fin 30)) (s u : State) : Prop where
  regs : regsKeptExcept ps s u
  mem : u.mem = s.mem
  devices : devicesKept s u
  draws : s.draws ≤ u.draws
  pipeFetch : u.pipeFetch = s.pipeFetch
  r15 : u.r15 = s.r15

theorem Effect.refl (s : State) : Effect [] s s := ⟨fun _ _ => rfl, rfl, devicesKept_refl s, Nat.le_refl _, rfl, rfl⟩

theorem Effect.mono {ps qs : List (Fin 30)} {s u : State} (h : Effect ps s u) (hs : ∀ p ∈ ps, p ∈ qs) : Effect qs s u :=
  ⟨fun p hp => h.regs p (fun hq => hp (hs p hq)), h.mem, h.devices, h.draws, h.pipeFetch, h.r15⟩

theorem Effect.trans {ps qs : List (Fin 30)} {s u w : State} (h : Effect ps s u) (k : Effect qs u w) :
    Effect (ps ++ qs) s w :=
  ⟨fun p hp => by
    simp only [List.mem_append, not_or] at hp
    rw [k.regs p hp.2, h.regs p hp.1],
   k.mem.trans h.mem, devicesKept_trans h.devices k.devices, Nat.le_trans h.draws k.draws,
   k.pipeFetch.trans h.pipeFetch, k.r15.trans h.r15⟩

theorem drew_effect {s u : State} (h : Drew s u) : Effect [] s u := by
  obtain ⟨n, rfl⟩ := h
  exact ⟨fun _ _ => rfl, rfl, devicesKept_refl s, Nat.le_add_right _ _, rfl, rfl⟩

theorem pending_effect (q : Option Word) (s : State) : Effect [] s { s with pendingPC := q } :=
  ⟨fun _ _ => rfl, rfl, devicesKept_refl s, Nat.le_refl _, rfl, rfl⟩

theorem setCpsr_effect (c : Cpsr) (s : State) : Effect [] s (setCpsr c s) :=
  ⟨fun _ _ => rfl, rfl, devicesKept_refl s, Nat.le_refl _, rfl, rfl⟩

theorem setSpsrOf_effect (m : Mode) (p : Spsr) (s : State) : Effect [] s (setSpsrOf m p s) := by
  cases m <;> exact ⟨fun _ _ => rfl, rfl, devicesKept_refl s, Nat.le_refl _, rfl, rfl⟩

theorem setRegIn_effect (m : Mode) (r : Reg) (v : Word) (s : State) : Effect [regPlace m r] s (setRegIn m r v s) :=
  ⟨fun p hp => by
    simp only [List.mem_singleton] at hp
    simp [setRegIn, vector_get_set, hp], rfl, devicesKept_refl s, Nat.le_refl _, rfl, rfl⟩

/-- The place a register has in a bank; R15 has none. -/
def placeIn (m : Mode) (r : Reg) : List (Fin 30) := if r = 15#4 then [] else [regPlace m r]

theorem writeRegIn_effect (m : Mode) (r : Reg) (v : Word) (s : State) : Effect (placeIn m r) s (writeRegIn m r v s) := by
  unfold writeRegIn placeIn
  split
  · exact pending_effect _ s
  · exact setRegIn_effect m r v s

theorem writeReg_effect (r : Reg) (v : Word) (s : State) : Effect (placeOf s r) s (writeReg r v s) :=
  writeRegIn_effect _ r v s

theorem writeRegIn_spsr (m : Mode) (r : Reg) (v : Word) (s : State) : (writeRegIn m r v s).spsr = s.spsr := by
  unfold writeRegIn; split <;> rfl

/-! ## An effect and the end of its instruction -/

/-- An effect and the end of its instruction change only registers and the saved status registers it changed. -/
theorem Effect.onlyRegs {ps : List (Fin 30)} {s u : State} (h : Effect ps s u) (hs : u.spsr = s.spsr) :
    Safety.onlyRegs ps s (finish u) := by
  have e := (finish_spec u).1
  refine ⟨fun p hp => ?_, e.spsr.trans hs, ⟨e.mem.trans h.mem, devicesKept_trans h.devices e.devices,
    Nat.le_trans h.draws e.draws⟩, e.pending⟩
  rw [e.regs]
  exact h.regs p hp

theorem finish_cpsr (u : State) : (finish u).cpsr = u.cpsr := (finish_spec u).1.cpsr
theorem finish_regs (u : State) : (finish u).regs = u.regs := (finish_spec u).1.regs

theorem readReg_finish (r : Reg) (u : State) (h : r ≠ 15#4) : readReg r (finish u) = readReg r u := by
  simp [readReg, readRegIn, h, finish_regs, finish_cpsr]

theorem readRegIn_finish (m : Mode) (r : Reg) (u : State) (h : r ≠ 15#4) : readRegIn m r (finish u) = readRegIn m r u := by
  simp [readRegIn, h, finish_regs]

theorem Effect.advanced {ps : List (Fin 30)} {s u : State} (h : Effect ps s u) (hp : u.pendingPC = none)
    (ht : u.cpsr.t = s.cpsr.t) : Safety.advanced s (finish u) :=
  advanced_congr ((finish_spec u).2.2 hp) h.pipeFetch h.r15 ht

theorem finish_refilled {u : State} {v : Word} (h : u.pendingPC = some v) : refilled v (finish u) := (finish_spec u).2.1 v h

/-- A result written last reached its register. -/
theorem wrote_finish {ps : List (Fin 30)} {rd : Reg} {v : Word} {s u : State} (h : Effect ps s u)
    (hp : u.pendingPC = if rd = 15#4 then some v else none) (hv : rd ≠ 15#4 → readReg rd u = v)
    (ht : u.cpsr.t = s.cpsr.t) : wrote rd v s (finish u) := by
  unfold wrote
  split
  · next hd =>
    rw [if_pos hd] at hp
    exact finish_refilled hp
  · next hd =>
    rw [if_neg hd] at hp
    exact ⟨(readReg_finish rd u hd).trans (hv hd), h.advanced hp ht⟩

end Sys2Proof.Machine
end

