-- ==== Sys2Proof/Laws/Alu.lean ====
section
/-! SUPPORT. The shared operations of the register instructions: sums and differences with their flags, and the shapes of data
processing, compares, moves and products, each from the state the instruction starts in to the state it ends in. -/

namespace Sys2Proof.Machine

open Sys2Proof.Safety

/-! ## The state an instruction's effect runs in -/

/-- The state with no write of R15 pending, in which the effect of an instruction runs. -/
abbrev begun (s : State) : State := { s with pendingPC := none }

theorem begun_effect (s : State) : Effect [] s (begun s) := pending_effect none s

theorem readReg_begun (r : Reg) (s : State) : readReg r (begun s) = readReg r s := rfl

theorem operand2_begun (o : Operand2) (s : State) : operand2 o (begun s) = operand2 o s := by cases o <;> rfl

theorem offsetValue_begun (o : Offset) (s : State) : offsetValue o (begun s) = offsetValue o s := by cases o <;> rfl

theorem halfOffsetValue_begun (o : HalfOffset) (s : State) : halfOffsetValue o (begun s) = halfOffsetValue o s := by
  cases o <;> rfl

theorem begun_eq (s : State) : begun s = withCpu s.regs s.spsr s.pipeDecode s.pipeFetch s.r15 none s := rfl

/-! ## Sums and differences -/

/-- The result of an operation with its carry and overflow, as the statements name it. -/
def flagged (r : AluResult) : Flagged := ⟨r.res, r.c, r.v⟩

theorem flagged_add (x y : Word) (c : Bool) : flagged (addWithCarry x y c) = sumOf x y c.toNat := by
  simp only [flagged, addWithCarry, sumOf, outOfRange, Flagged.mk.injEq]
  refine ⟨?_, ?_⟩
  · apply BitVec.eq_of_toNat_eq
    simp
  · simp

/-- The sum with NOT y is the difference: C is 1 exactly when no borrow occurs (46_arm_dataproc.md R704). -/
theorem flagged_subtractCarry (x y : Word) (c : Bool) : flagged (subtractCarry x y c) = differenceOf x y (borrowOf c) := by
  have hy : (~~~y).toNat = 2^32 - 1 - y.toNat := BitVec.toNat_not
  have hyi : (~~~y).toInt = - y.toInt - 1 := by
    have := y.isLt
    rw [BitVec.toInt_eq_toNat_cond, BitVec.toInt_eq_toNat_cond, hy]
    split <;> split <;> omega
  have hlt := y.isLt
  cases c
  · simp only [flagged, subtractCarry, addWithCarry, differenceOf, borrowOf, outOfRange, hyi, hy, Flagged.mk.injEq]
    refine ⟨?_, ?_, ?_⟩
    · apply BitVec.eq_of_toNat_eq
      simp only [BitVec.toNat_ofNat, BitVec.toNat_sub]
      simp
      omega
    · rw [Bool.eq_iff_iff]
      simp
      omega
    · rw [Bool.eq_iff_iff]
      simp
      omega
  · simp only [flagged, subtractCarry, addWithCarry, differenceOf, borrowOf, outOfRange, hyi, hy, Flagged.mk.injEq]
    refine ⟨?_, ?_, ?_⟩
    · apply BitVec.eq_of_toNat_eq
      simp only [BitVec.toNat_ofNat, BitVec.toNat_sub]
      simp
      omega
    · rw [Bool.eq_iff_iff]
      simp
      omega
    · rw [Bool.eq_iff_iff]
      simp
      omega

theorem flagged_subtract (x y : Word) : flagged (subtract x y) = differenceOf x y 0 := flagged_subtractCarry x y true

/-! ## Flags -/

theorem setFlags_effect (r : AluResult) (s : State) : Effect [] s (setFlags r s) := setCpsr_effect _ s

theorem flagsOf_finish (r : AluResult) (u : State) : flagsOf (flagged r) (finish (setFlags r u)) := by
  simp [flagsOf, flagged, finish_cpsr, setFlags, setCpsr]
  rfl

theorem controlKept_finish (r : AluResult) (s u : State) (h : u.cpsr = s.cpsr) :
    controlKept s (finish (setFlags r u)) := by
  simp [controlKept, finish_cpsr, setFlags, setCpsr, h]

/-! ## Shapes -/

/-- Data processing that writes Rd, in its four outcomes (46_arm_dataproc.md R705). -/
theorem runArm_dataProcess (c : Cond) (sf : Bool) (rd : Reg) (r : State → AluResult) (s : State)
    (hr : r (begun s) = r s) (hc : conditionPasses c s.cpsr = true) :
    let e := runArm c (fun s => dataProcess sf rd (r s) s) s
    (¬(sf = true ∧ rd = 15#4) →
      ∃ t, e = .next t ∧ wrote rd (r s).res s t ∧
        (if sf then flagsOf (flagged (r s)) t ∧ controlKept s t else t.cpsr = s.cpsr) ∧ onlyRegs (placeOf s rd) s t) ∧
    (sf = true → rd = 15#4 → ∀ p m, spsrOf s.cpsr.mode s = some p → modeOfBits p.m = some m →
      ∃ t, e = .next t ∧ t.cpsr = ⟨p.n, p.z, p.c, p.v, p.i, p.f, p.t, m⟩ ∧ refilled (r s).res t ∧ onlyRegs [] s t) ∧
    (sf = true → rd = 15#4 → spsrOf s.cpsr.mode s = none → e = .fault .noSpsr) ∧
    (sf = true → rd = 15#4 → ∀ p, spsrOf s.cpsr.mode s = some p → modeOfBits p.m = none →
      e = .fault (.invalidMode p.m)) := by
  intro e
  have hw : Effect (placeOf s rd) s (writeReg rd (r s).res (begun s)) :=
    (begun_effect s).trans (writeReg_effect rd (r s).res (begun s))
  have hp := writeRegIn_pending (begun s).cpsr.mode rd (r s).res (begun s)
  have hs0 : spsrOf (writeReg rd (r s).res (begun s)).cpsr.mode (writeReg rd (r s).res (begun s)) =
      spsrOf s.cpsr.mode s := by
    rw [writeReg_cpsr]
    show spsrOf s.cpsr.mode _ = _
    have h : (writeReg rd (r s).res (begun s)).spsr = s.spsr := writeRegIn_spsr _ _ _ _
    cases hm : s.cpsr.mode <;> simp [spsrOf, h]
  refine ⟨fun hn => ?_, fun h1 h2 p m hsp hm => ?_, fun h1 h2 hsp => ?_, fun h1 h2 p hsp hm => ?_⟩
  · cases sf
    · refine ⟨_, runArm_next hc (u := writeReg rd (r s).res (begun s)) (by simp [dataProcess, hr]), ?_, ?_, ?_⟩
      · exact wrote_finish hw hp (fun hd => readReg_writeReg _ _ _ hd) (by simp)
      · simp [finish_cpsr]
      · exact hw.onlyRegs (writeRegIn_spsr _ _ _ _)
    · have hd : rd ≠ 15#4 := fun h => hn ⟨rfl, h⟩
      refine ⟨_, runArm_next hc (u := setFlags (r s) (writeReg rd (r s).res (begun s)))
        (by simp [dataProcess, hr, hd, writeAndFlag]), ?_, ?_, ?_⟩
      · have := hw.trans (setFlags_effect (r s) _)
        refine wrote_finish this hp (fun hd => ?_) (by simp [setFlags, setCpsr])
        exact (readReg_congr rd rfl rfl rfl).trans (readReg_writeReg _ _ _ hd)
      · exact ⟨flagsOf_finish _ _, controlKept_finish _ _ _ (by simp)⟩
      · have := hw.trans (setFlags_effect (r s) _)
        rw [List.append_nil] at this
        exact this.onlyRegs (writeRegIn_spsr _ _ _ _)
  · refine ⟨_, runArm_next hc
      (u := setCpsr ⟨p.n, p.z, p.c, p.v, p.i, p.f, p.t, m⟩ (writeReg rd (r s).res (begun s))) ?_, ?_, ?_, ?_⟩
    · simp only [dataProcess, hr, h1, h2, and_self, if_true]
      rw [h2] at hs0
      simp only [restoreCpsr]
      rw [hs0, hsp]
      simp [loadCpsr, hm]
    · simp [finish_cpsr, setCpsr]
    · apply finish_refilled
      rw [h2] at hp ⊢
      exact hp
    · have := hw.trans (setCpsr_effect ⟨p.n, p.z, p.c, p.v, p.i, p.f, p.t, m⟩ _)
      simp only [placeOf, h2, if_true, List.append_nil] at this
      exact Effect.onlyRegs (by simpa [h2] using this) (writeRegIn_spsr _ _ _ _)
  · apply runArm_fault hc
    simp only [dataProcess, hr, h1, h2, and_self, if_true]
    rw [h2] at hs0
    simp only [restoreCpsr]
    rw [hs0, hsp]
  · apply runArm_fault hc
    simp only [dataProcess, hr, h1, h2, and_self, if_true]
    rw [h2] at hs0
    simp only [restoreCpsr]
    rw [hs0, hsp]
    simp [loadCpsr, hm]

/-- An ARM compare (R706). -/
theorem runArm_compare (r : AluResult) (c : Cond) (f : State → Result) (s : State) (hc : conditionPasses c s.cpsr = true)
    (h : f (begun s) = compareFlags r (begun s)) :
    ∃ t, runArm c f s = .next t ∧ flagsOf (flagged r) t ∧ controlKept s t ∧ advanced s t ∧ onlyRegs [] s t := by
  refine ⟨_, runArm_next hc (h.trans rfl), flagsOf_finish _ _, controlKept_finish _ _ _ rfl, ?_, ?_⟩
  · exact ((begun_effect s).trans (setFlags_effect r _)).advanced rfl rfl
  · exact ((begun_effect s).trans (setFlags_effect r _)).onlyRegs rfl

/-- A THUMB instruction that writes a low register and the flags. -/
theorem thumbWrites_of {i : Instr} {rd : LowReg} {r : AluResult} {s : State} (f : State → Result)
    (hi : exec i s = runThumb f s) (h : f (begun s) = writeAndFlag (lowReg rd) r (begun s)) :
    thumbWrites i rd (flagged r) s := by
  have hw : Effect (placeOf s (lowReg rd)) s (writeReg (lowReg rd) r.res (begun s)) :=
    (begun_effect s).trans (writeReg_effect (lowReg rd) r.res (begun s))
  have hw2 := hw.trans (setFlags_effect r _)
  rw [List.append_nil] at hw2
  have hp := writeRegIn_pending (begun s).cpsr.mode (lowReg rd) r.res (begun s)
  rw [if_neg (lowReg_ne rd)] at hp
  refine ⟨_, hi.trans (runThumb_next (h.trans rfl)), ?_, flagsOf_finish _ _, controlKept_finish _ _ _ (by simp), ?_, ?_⟩
  · rw [readReg_finish _ _ (lowReg_ne rd)]
    exact (readReg_congr _ rfl rfl rfl).trans (readReg_writeReg _ _ _ (lowReg_ne rd))
  · exact hw2.advanced hp (by simp [setFlags, setCpsr])
  · exact hw2.onlyRegs (writeRegIn_spsr _ _ _ _)

/-- A THUMB compare. -/
theorem thumbCompares_of {i : Instr} {r : AluResult} {s : State} (f : State → Result)
    (hi : exec i s = runThumb f s) (h : f (begun s) = compareFlags r (begun s)) : thumbCompares i (flagged r) s := by
  refine ⟨_, hi.trans (runThumb_next (h.trans rfl)), flagsOf_finish _ _, controlKept_finish _ _ _ rfl, ?_, ?_⟩
  · exact ((begun_effect s).trans (setFlags_effect r _)).advanced rfl rfl
  · exact ((begun_effect s).trans (setFlags_effect r _)).onlyRegs rfl

/-- A THUMB instruction that writes a register, and no flag, in a state that differs by draws alone. -/
theorem thumbMoves_of {i : Instr} {rd : Reg} {v : Word} {s u : State} (f : State → Result)
    (hi : exec i s = runThumb f s) (hu : Drew (begun s) u) (h : f (begun s) = .next (writeReg rd v u)) :
    thumbMoves i rd v s := by
  have hd : Effect [] s u := (begun_effect s).trans (drew_effect hu)
  have hc : u.cpsr = s.cpsr := by obtain ⟨n, rfl⟩ := hu; rfl
  have hss : u.spsr = s.spsr := by obtain ⟨n, rfl⟩ := hu; rfl
  have hpp : u.pendingPC = none := by obtain ⟨n, rfl⟩ := hu; rfl
  have hpl : placeOf u rd = placeOf s rd := by simp [placeOf, hc]
  have hw : Effect (placeOf s rd) s (writeReg rd v u) := by
    have := hd.trans (writeReg_effect rd v u)
    rw [hpl] at this
    exact this
  have hp := writeRegIn_pending u.cpsr.mode rd v u
  rw [hpp] at hp
  refine ⟨_, hi.trans (runThumb_next h), ?_, ?_, ?_⟩
  · exact wrote_finish hw hp (fun hd => readReg_writeReg _ _ _ hd) (by simp [hc])
  · exact hw.onlyRegs ((writeRegIn_spsr _ _ _ _).trans hss)
  · rw [finish_cpsr, writeReg_cpsr, hc]

/-! ## Offsets -/

/-- An offset in units of 2^k bytes. -/
theorem scaledOffset_eq {n : Nat} (o : BitVec n) (k : Nat) : scaledOffset o k = BitVec.ofNat 32 (2 ^ k * o.toNat) := by
  apply BitVec.eq_of_toNat_eq
  simp [scaledOffset, BitVec.toNat_shiftLeft, Nat.shiftLeft_eq, Nat.mul_comm]

/-- A branch offset in units of 2^k bytes, signed. -/
theorem branchOffset_eq {n : Nat} (o : BitVec n) (k : Nat) (hn : n ≤ 32) :
    branchOffset o k = BitVec.ofInt 32 (2 ^ k * o.toInt) := by
  have e : (o.signExtend 32 : Word) = BitVec.ofInt 32 o.toInt := by
    apply BitVec.eq_of_toInt_eq
    rw [BitVec.toInt_signExtend_of_le hn, BitVec.toInt_ofInt, Int.bmod_eq_of_le]
    · have := @BitVec.le_toInt n o
      have h2 : (2 : Int) ^ (n - 1) ≤ 2 ^ 31 := by
        exact_mod_cast Nat.pow_le_pow_right (by decide) (by omega)
      omega
    · have := @BitVec.toInt_lt n o
      have h2 : (2 : Int) ^ (n - 1) ≤ 2 ^ 31 := by
        exact_mod_cast Nat.pow_le_pow_right (by decide) (by omega)
      omega
  rw [branchOffset, e, BitVec.shiftLeft_eq_mul_twoPow, BitVec.ofInt_mul, BitVec.mul_comm]
  congr 1
  apply BitVec.eq_of_toNat_eq
  rw [BitVec.toNat_twoPow, BitVec.toNat_ofInt]
  have : ((2 : Int) ^ k) = ((2 ^ k : Nat) : Int) := by push_cast; rfl
  rw [this]
  omega

end Sys2Proof.Machine
end

