-- ==== Sys2Proof/Laws/Store.lean ====
section
/-! SUPPORT. Bus writes: they do not read the processor, and the bytes of memory each may change. -/

namespace Sys2Proof.Machine

open Sys2Proof.Safety

/-! ## Writes do not read the processor -/

theorem triggerIf_withCpu (p : Fin 4 → State → Bool) (i : Fin 4) (g b x y z q) (s : State)
    (hp : p i (withCpu g b x y z q s) = p i s) :
    triggerIf p i (withCpu g b x y z q s) = withCpu g b x y z q (triggerIf p i s) := by
  unfold triggerIf
  rw [hp]
  split <;> rfl

theorem triggerAll_withCpu (p : Fin 4 → State → Bool) (g b x y z q) (s : State)
    (hp : ∀ i s, p i (withCpu g b x y z q s) = p i s) :
    triggerAll p (withCpu g b x y z q s) = withCpu g b x y z q (triggerAll p s) := by
  simp only [triggerAll, triggerIf_withCpu p _ _ _ _ _ _ _ _ (hp _ _)]

theorem fifoReset_withCpu (d : FifoId) (g b x y z q) (s : State) :
    fifoReset d (withCpu g b x y z q s) = withCpu g b x y z q (fifoReset d s) := by
  unfold fifoReset
  rw [← triggerAll_withCpu _ _ _ _ _ _ _ _ (fun _ _ => rfl)]
  cases d <;> rfl

theorem ioStored_withCpu (r : IoReg) (g b x y z q) (s : State) : ioStored r (withCpu g b x y z q s) = ioStored r s := by
  cases r <;> rfl

theorem ioSetStored_withCpu (r : IoReg) (v : Word) (g b x y z q) (s : State) :
    ioSetStored r v (withCpu g b x y z q s) = withCpu g b x y z q (ioSetStored r v s) := by
  cases r <;> rfl

theorem ioCommitReg_withCpu (r : IoReg) (value mask : Word) (g b x y z q) (s : State) :
    ioCommitReg r value mask (withCpu g b x y z q s) = withCpu g b x y z q (ioCommitReg r value mask s) := by
  unfold ioCommitReg
  simp only [ioStored_withCpu, ioSetStored_withCpu]
  cases r <;> simp only <;> first | rfl | skip
  · split <;> split <;> simp only [fifoReset_withCpu]
  · next d => cases d <;> rfl

theorem ioCommitOne_withCpu (r : IoReg) (g b x y z q) (s : State) :
    ioCommitOne (withCpu g b x y z q s) r = withCpu g b x y z q (ioCommitOne s r) := by
  unfold ioCommitOne
  have hm : ioMask r (withCpu g b x y z q s) = ioMask r s := rfl
  have hv : ioShadow r (withCpu g b x y z q s) = ioShadow r s := rfl
  simp only [hm, hv]
  split
  · rfl
  · exact ioCommitReg_withCpu _ _ _ _ _ _ _ _ _ _

theorem ioCommit_withCpu (g b x y z q) (s : State) :
    ioCommit (withCpu g b x y z q s) = withCpu g b x y z q (ioCommit s) := by
  have fold : ∀ (rs : List IoReg) (s : State),
      rs.foldl ioCommitOne (withCpu g b x y z q s) = withCpu g b x y z q (rs.foldl ioCommitOne s) := by
    intro rs
    induction rs with
    | nil => exact fun _ => rfl
    | cons r rs ih =>
      intro s
      rw [List.foldl_cons, List.foldl_cons, ioCommitOne_withCpu, ih]
  unfold ioCommit
  have hd : (withCpu g b x y z q s).dirty = s.dirty := rfl
  rw [hd, fold]
  split <;> rfl

theorem backupWrite_withCpu (o : Nat) (v : Byte) (g b x y z q) (s : State) :
    backupWrite o v (withCpu g b x y z q s) = withCpu g b x y z q (backupWrite o v s) := by
  unfold backupWrite
  have hk : (withCpu g b x y z q s).backup = s.backup := rfl
  rw [hk]
  split
  · rfl
  · repeat' split
    all_goals rfl

theorem putByte_withCpu (a : Word) (v : Byte) (g b x y z q) (s : State) :
    putByte a v (withCpu g b x y z q s) = withCpu g b x y z q (putByte a v s) := by
  unfold putByte
  split
  · rfl
  · rfl
  · rfl
  · rfl
  · exact backupWrite_withCpu _ _ _ _ _ _ _ _ _
  · rfl

theorem putByte8_withCpu (a : Word) (v : Byte) (g b x y z q) (s : State) :
    putByte8 a v (withCpu g b x y z q s) = withCpu g b x y z q (putByte8 a v s) := by
  unfold putByte8
  have hl : vramByteLimit (withCpu g b x y z q s) = vramByteLimit s := rfl
  rw [hl]
  split
  · rfl
  · split <;> rfl
  · rfl
  · exact putByte_withCpu _ _ _ _ _ _ _ _ _

theorem write8_withCpu (a : Word) (v : Byte) (g b x y z q) (s : State) :
    write8 a v (withCpu g b x y z q s) = withCpu g b x y z q (write8 a v s) := by
  simp only [write8, putByte8_withCpu, ioCommit_withCpu]

theorem write16_withCpu (a : Word) (v : Half) (g b x y z q) (s : State) :
    write16 a v (withCpu g b x y z q s) = withCpu g b x y z q (write16 a v s) := by
  simp only [write16, putByte_withCpu, ioCommit_withCpu]

theorem write32_withCpu (a v : Word) (g b x y z q) (s : State) :
    write32 a v (withCpu g b x y z q s) = withCpu g b x y z q (write32 a v s) := by
  simp only [write32, putByte_withCpu, ioCommit_withCpu]

/-! ## The bytes a write may change -/

theorem backupWrite_kind (o : Nat) (v : Byte) (s : State) : (backupWrite o v s).backup.kind = s.backup.kind := by
  unfold backupWrite
  split
  · rfl
  · repeat' split
    all_goals rfl

theorem putByte_kind (a : Word) (v : Byte) (s : State) : (putByte a v s).backup.kind = s.backup.kind := by
  unfold putByte
  split
  · rfl
  · rfl
  · rfl
  · rfl
  · exact backupWrite_kind _ _ _
  · rfl

/-- The keys of a byte depend on the kind of the backup device alone. -/
theorem byteKey_congr {s t : State} (a : Word) (h : t.backup.kind = s.backup.kind) : byteKey t a = byteKey s a := by
  unfold byteKey
  rw [h]

theorem backupWrite_frame (o : Nat) (v : Byte) (s : State) (k : Nat) (hk : k ≠ backupKey s.backup.kind o) :
    Memory.read (backupWrite o v s).mem k = Memory.read s.mem k := by
  unfold backupWrite
  split
  · next h => rw [backupStore_mem]; exact Memory.read_write_ne _ _ (by rw [h] at hk ⊢; exact hk)
  · next h =>
    repeat' split
    · rfl
    · rfl
    · rfl
    · rfl
    · rw [backupStore_mem]; exact Memory.read_write_ne _ _ hk

/-- One byte of a wide write changes its own byte only. -/
theorem putByte_frame (a : Word) (v : Byte) (s : State) : bytesKeptExcept (byteKey s a) s (putByte a v s) := by
  intro k hk
  unfold byteKey at hk
  unfold putByte
  generalize route a = x at hk ⊢
  cases x with
  | none => rfl
  | some x =>
    obtain ⟨r, o⟩ := x
    cases r <;>
      first
      | rfl
      | exact backupWrite_frame _ _ _ _ (by simpa using hk)
      | exact Memory.read_write_ne _ _ (by simpa using hk)

theorem putReplicated_frame (r : Region) (o : Nat) (v : Byte) (s : State) :
    bytesKeptExcept [r.base + (o - o % 2), r.base + (o - o % 2) + 1] s (putReplicated r o v s) := by
  intro k h
  simp only [List.mem_cons, List.not_mem_nil, or_false, not_or] at h
  simp only [putReplicated, storeMem]
  rw [Memory.read_write_ne _ _ h.2, Memory.read_write_ne _ _ h.1]

/-- The byte of a byte write changes the bytes of its own halfword in palette RAM and VRAM, its own byte elsewhere. -/
theorem putByte8_frame (a : Word) (v : Byte) (s : State) : bytesKeptExcept (byteKeys8 s a) s (putByte8 a v s) := by
  have h := putByte_frame a v s
  unfold byteKeys8 putByte8
  generalize route a = x
  cases x with
  | none => exact h
  | some x =>
    obtain ⟨r, o⟩ := x
    cases r <;> first | exact h | exact putReplicated_frame _ _ _ _ | exact fun _ _ => rfl | skip
    simp only
    split
    · exact putReplicated_frame _ _ _ _
    · exact fun _ _ => rfl

theorem bytesKept_trans {ks ls : List Nat} {s t u : State} (h : bytesKeptExcept ks s t) (k : bytesKeptExcept ls t u) :
    bytesKeptExcept (ks ++ ls) s u := by
  intro x hx
  simp only [List.mem_append, not_or] at hx
  rw [k x hx.2, h x hx.1]

theorem bytesKept_commit {ks : List Nat} {s t : State} (h : bytesKeptExcept ks s t) : bytesKeptExcept ks s (ioCommit t) := by
  intro x hx
  rw [ioCommit_mem]
  exact h x hx

theorem write8_frame (a : Word) (v : Byte) (s : State) : bytesKeptExcept (byteKeys8 s a) s (write8 a v s) :=
  bytesKept_commit (putByte8_frame a v s)

theorem putByte_pair_frame (a b : Word) (v w : Byte) (s : State) :
    bytesKeptExcept (byteKey s a ++ byteKey s b) s (putByte b w (putByte a v s)) := by
  have h := bytesKept_trans (putByte_frame a v s) (putByte_frame b w (putByte a v s))
  rw [byteKey_congr b (putByte_kind a v s)] at h
  exact h

theorem write16_frame (a : Word) (v : Half) (s : State) : bytesKeptExcept (halfKeys s a) s (write16 a v s) :=
  bytesKept_commit (putByte_pair_frame a (a + 1#32) _ _ s)

theorem write32_frame (a v : Word) (s : State) : bytesKeptExcept (wordKeys s a) s (write32 a v s) := by
  apply bytesKept_commit
  have h := bytesKept_trans (putByte_pair_frame a (a + 1#32) (v.extractLsb' 0 8) (v.extractLsb' 8 8) s)
    (putByte_pair_frame (a + 2#32) (a + 3#32) (v.extractLsb' 16 8) (v.extractLsb' 24 8) _)
  have hk : (putByte (a + 1#32) (v.extractLsb' 8 8) (putByte a (v.extractLsb' 0 8) s)).backup.kind = s.backup.kind :=
    (putByte_kind _ _ _).trans (putByte_kind _ _ _)
  rw [byteKey_congr _ hk, byteKey_congr _ hk] at h
  have e : a + 2#32 + 1#32 = a + 3#32 := by rw [BitVec.add_assoc]; rfl
  simp only [wordKeys, halfKeys, e]
  exact h

/-- A commit does not change the kind of the backup device. -/
theorem ioCommit_kind (s : State) : (ioCommit s).backup.kind = s.backup.kind := by
  have trig : ∀ p i (s : State), (triggerIf p i s).backup = s.backup := by
    intro p i s
    unfold triggerIf
    split <;> simp
  have reset : ∀ d (s : State), (fifoReset d s).backup = s.backup := by
    intro d s
    simp [fifoReset, triggerAll, trig]
  have stored : ∀ r v (s : State), (ioSetStored r v s).backup = s.backup := by
    intro r v s
    cases r <;> rfl
  have one : ∀ (s : State) (r : IoReg), (ioCommitOne s r).backup = s.backup := by
    intro s r
    unfold ioCommitOne
    simp only
    split
    · rfl
    · unfold ioCommitReg
      cases r <;> simp only [stored, setTimer_backup, setDma_backup, ioPush, setFifo_backup]
      split <;> split <;> simp [reset, stored]
  have fold : ∀ (rs : List IoReg) (s : State), (rs.foldl ioCommitOne s).backup = s.backup := by
    intro rs
    induction rs with
    | nil => exact fun _ => rfl
    | cons r rs ih => exact fun s => (ih _).trans (one s r)
  unfold ioCommit
  split
  · rfl
  · show (allIoRegs.foldl ioCommitOne s).backup.kind = _
    rw [fold]

theorem write32_kind (a v : Word) (s : State) : (write32 a v s).backup.kind = s.backup.kind := by
  simp only [write32, ioCommit_kind, putByte_kind]

end Sys2Proof.Machine
end

