-- ==== Sys2Proof/Laws/Transfer.lean ====
section
/-! SUPPORT. Loads and stores: the values the loads deliver, and the shapes of the single transfers and swaps. -/

namespace Sys2Proof.Machine

open Sys2Proof.Safety

/-! ## The value of a load does not depend on the processor -/

theorem loadWord_begun (a : Word) (s : State) : (loadWord a (begun s)).1 = valueWord a s := by
  simp only [loadWord, valueWord, alignWord, begun_eq, read32_withCpu]

theorem loadByte_begun (a : Word) (s : State) : (loadByte a (begun s)).1 = valueByte a s := by
  simp only [loadByte, valueByte, begun_eq, read8_withCpu]

theorem loadSignedByte_begun (a : Word) (s : State) : (loadSignedByte a (begun s)).1 = valueSignedByte a s := by
  simp only [loadSignedByte, valueSignedByte, begun_eq, read8_withCpu]

theorem odd_iff (a : Word) : (a.toNat % 2 = 1) = (a.getLsbD 0 = true) := by
  simp [BitVec.getLsbD, Nat.testBit_zero]

theorem loadHalf_begun (a : Word) (s : State) : (loadHalf a (begun s)).1 = valueHalf a s := by
  simp only [loadHalf, valueHalf, begun_eq, alignHalf, read16_withCpu, odd_iff]

theorem signExtend_shift (h : Half) : (h.signExtend 32 : Word).sshiftRight 8 = (h.extractLsb' 8 8).signExtend 32 := by
  apply BitVec.eq_of_getLsbD_eq
  intro i hi
  rw [BitVec.getLsbD_sshiftRight, BitVec.getLsbD_signExtend, BitVec.getLsbD_signExtend, BitVec.msb_signExtend]
  by_cases h8 : i < 8
  · have h1 : 8 + i < 32 := by omega
    have h2 : 8 + i < 16 := by omega
    simp [h1, h2, h8, hi]
  · have h2 : ¬8 + i < 16 := by omega
    have hm : (h.extractLsb' 8 8).msb = h.msb := by
      simp [BitVec.msb_eq_getLsbD_last]
    simp only [h2, h8, hm]
    split <;> simp_all

theorem loadSignedHalf_begun (a : Word) (s : State) : (loadSignedHalf a (begun s)).1 = valueSignedHalf a s := by
  simp only [loadSignedHalf, valueSignedHalf, begun_eq, alignHalf, read16_withCpu, odd_iff, signExtend_shift]

/-! ## A load -/

/-- An ARM load in every form that does not write R15 back. -/
theorem runArm_transferLoad (c : Cond) (load : Word → State → Word × State) (value : Word → State → Word)
    (hd : ∀ a s, Drew s (load a s).2) (hv : ∀ a s, (load a (begun s)).1 = value a s)
    (i : Instr) (p u w : Bool) (rn rd : Reg) (off : Word) (f : State → Word) (s : State) (hf : f (begun s) = off)
    (hi : exec i s = runArm c (fun s => transferLoad load p u w rn rd (f s) s) s)
    (hc : conditionPasses c s.cpsr = true) : loading i p u w rn rd off value s := by
  unfold loading
  intro base pre wb hn
  let a := if p then pre else base
  obtain ⟨n, hx⟩ := hd a (begun s)
  let x := (load a (begun s)).2
  have hx' : x = { begun s with draws := (begun s).draws + n } := hx
  have dx : Effect [] s x := (begun_effect s).trans (drew_effect ⟨n, hx⟩)
  have cx : x.cpsr = s.cpsr := by rw [hx']
  have sx : x.spsr = s.spsr := by rw [hx']
  have px : x.pendingPC = none := by rw [hx']
  let y := if wb then writeReg rn pre x else x
  have cy : y.cpsr = s.cpsr := by
    show (if wb then writeReg rn pre x else x).cpsr = _
    cases wb
    · exact cx
    · exact (writeReg_cpsr _ _ _).trans cx
  have sy : y.spsr = s.spsr := by
    show (if wb then writeReg rn pre x else x).spsr = _
    cases wb
    · exact sx
    · exact (writeRegIn_spsr _ _ _ _).trans sx
  have hrn : wb = true → rn ≠ 15#4 := fun h e => hn ⟨h, e⟩
  have py : y.pendingPC = none := by
    show (if wb then writeReg rn pre x else x).pendingPC = _
    cases hw : wb
    · exact px
    · rw [if_pos rfl, writeReg, writeRegIn_pending, if_neg (hrn hw)]
      exact px
  have dy : Effect (if wb then placeOf s rn else []) s y := by
    show Effect _ s (if wb then writeReg rn pre x else x)
    cases wb
    · exact dx
    · have := dx.trans (writeReg_effect rn pre x)
      rw [show placeOf x rn = placeOf s rn by simp [placeOf, cx]] at this
      exact this
  have dz : Effect (placeOf s rd ++ (if wb then placeOf s rn else [])) s (writeReg rd (value a s) y) := by
    have := dy.trans (writeReg_effect rd (value a s) y)
    rw [show placeOf y rd = placeOf s rd by simp [placeOf, cy]] at this
    exact this.mono (fun q hq => by
      simp only [List.mem_append] at hq ⊢
      exact hq.symm)
  have hz := writeRegIn_pending y.cpsr.mode rd (value a s) y
  rw [py] at hz
  have ev : (load a (begun s)).1 = value a s := hv a s
  refine ⟨_, hi.trans (runArm_next hc (u := writeReg rd (value a s) y) ?_), ?_, ?_, ?_, ?_⟩
  · simp only [transferLoad, hf]
    rw [if_neg (by exact hn)]
    rw [← ev]
    rfl
  · exact wrote_finish dz hz (fun h => readReg_writeReg _ _ _ h) (by simp [cy])
  · intro hw hne
    rw [readReg_finish _ _ (hrn hw)]
    have : y = writeReg rn pre x := if_pos hw
    have hmode : (writeReg rd (value a s) y).cpsr.mode = y.cpsr.mode := by rw [writeReg_cpsr]
    have h1 : readReg rn (writeReg rd (value a s) y) = readReg rn y := by
      unfold readReg
      rw [hmode]
      unfold writeReg writeRegIn
      split
      · exact readRegIn_congr _ _ rfl (hrn hw)
      · next hrd => exact readRegIn_setRegIn_ne _ _ _ _ _ (hrn hw) hrd hne
    rw [h1, this, readReg_writeReg _ _ _ (hrn hw)]
  · exact dz.onlyRegs ((writeRegIn_spsr _ _ _ _).trans sy)
  · rw [finish_cpsr, writeReg_cpsr, cy]

/-! ## A store -/

/-- A bus write as an instruction makes it: what it can do, that it does not read the processor, the bytes it may change. -/
structure BusWrite (write : Word → Word → State → State) (keys : State → Word → List Nat) : Prop where
  effect : ∀ a v s, BusEffect s (write a v s)
  cpu : ∀ a v g b x y z q s, write a v (withCpu g b x y z q s) = withCpu g b x y z q (write a v s)
  frame : ∀ a v s, bytesKeptExcept (keys s a) s (write a v s)

theorem storeWord_eq : storeWord = busWord := rfl
theorem storeHalf_eq : storeHalf = busHalf := rfl
theorem storeByte_eq : storeByte = busByte := rfl

theorem busWord_write : BusWrite busWord busWordKeys :=
  ⟨fun _ _ s => write32_effect _ _ s, fun _ _ _ _ _ _ _ _ _ => write32_withCpu _ _ _ _ _ _ _ _ _,
   fun _ _ s => write32_frame _ _ s⟩

theorem busHalf_write : BusWrite busHalf busHalfKeys :=
  ⟨fun _ _ s => write16_effect _ _ s, fun _ _ _ _ _ _ _ _ _ => write16_withCpu _ _ _ _ _ _ _ _ _,
   fun _ _ s => write16_frame _ _ s⟩

theorem busByte_write : BusWrite busByte byteKeys8 :=
  ⟨fun _ _ s => write8_effect _ _ s, fun _ _ _ _ _ _ _ _ _ => write8_withCpu _ _ _ _ _ _ _ _ _,
   fun _ _ s => write8_frame _ _ s⟩

/-- The state after a store and an update of registers, ended. -/
theorem stored_finish {w s u : State} {ks : List Nat} {ps : List (Fin 30)} (he : BusEffect s w)
    (hk : bytesKeptExcept ks s w) (hm : u.mem = w.mem) (hd : devicesKept w u) (hr : regsKeptExcept ps w u)
    (hc : u.cpsr = w.cpsr) (hs : u.spsr = w.spsr) (hf : u.pipeFetch = w.pipeFetch) (h15 : u.r15 = w.r15)
    (hp : u.pendingPC = none) : stored w ks ps s (finish u) := by
  have e := (finish_spec u).1
  refine ⟨e.mem.trans hm, devicesKept_trans hd e.devices, ?_, ?_, ?_, ?_, e.pending, ?_⟩
  · intro k h
    rw [e.mem, hm]
    exact hk k h
  · intro q h
    rw [e.regs, hr q h, he.regs]
  · rw [e.cpsr, hc, he.cpsr]
  · rw [e.spsr, hs, he.spsr]
  · exact advanced_congr ((finish_spec u).2.2 hp) (hf.trans he.pipeFetch) (h15.trans he.r15)
      (by rw [hc, he.cpsr])

/-- An ARM store in every form that does not write R15 back. -/
theorem runArm_transferStore (c : Cond) {store write : Word → Word → State → State} {keys : State → Word → List Nat}
    (hw : BusWrite write keys) (hs : store = write) (i : Instr) (p u w : Bool) (rn rd : Reg) (off : Word) (f : State → Word) (s : State)
    (hf : f (begun s) = off) (hi : exec i s = runArm c (fun s => transferStore store p u w rn rd (f s) s) s)
    (hc : conditionPasses c s.cpsr = true) : storing i p u w rn rd off write keys s := by
  subst hs
  unfold storing
  intro base pre addr wb hn
  let x := store addr (readReg rd s) s
  have ex : store addr (readReg rd s) (begun s) =
      withCpu x.regs x.spsr x.pipeDecode x.pipeFetch x.r15 none x := by
    rw [begun_eq, hw.cpu]
    have := hw.effect addr (readReg rd s) s
    rw [← this.regs, ← this.spsr, ← this.pipeDecode, ← this.pipeFetch, ← this.r15]
  have he := hw.effect addr (readReg rd s) s
  have hrn : wb = true → rn ≠ 15#4 := fun h e => hn ⟨h, e⟩
  let y : State := begun x
  let z := if wb then writeReg rn pre y else y
  have hz : runArm c (fun s => transferStore store p u w rn rd (f s) s) s = .next (finish z) := by
    apply runArm_next hc
    simp only [transferStore, hf]
    rw [if_neg (by exact hn)]
    show Host.Outcome.next (if wb then writeReg rn pre (store addr (readReg rd s) (begun s))
      else store addr (readReg rd s) (begun s)) = _
    rw [ex]
    rfl
  refine ⟨_, hi.trans hz, ?_, ?_⟩
  · have hpl : placeOf y rn = placeOf s rn := by
      show placeOf x rn = _
      simp [placeOf, x, he.cpsr]
    apply stored_finish he (hw.frame _ _ _)
    · show (if wb then writeReg rn pre y else y).mem = _
      cases wb
      · rfl
      · exact (writeReg_effect rn pre y).mem
    · show devicesKept _ (if wb then writeReg rn pre y else y)
      cases wb
      · exact devicesKept_refl x
      · exact (writeReg_effect rn pre y).devices
    · show regsKeptExcept _ _ (if wb then writeReg rn pre y else y)
      cases wb
      · exact fun _ _ => rfl
      · have := (writeReg_effect rn pre y).regs
        rw [hpl] at this
        exact this
    · show (if wb then writeReg rn pre y else y).cpsr = _
      cases wb
      · rfl
      · exact writeReg_cpsr _ _ _
    · show (if wb then writeReg rn pre y else y).spsr = _
      cases wb
      · rfl
      · exact writeRegIn_spsr _ _ _ _
    · show (if wb then writeReg rn pre y else y).pipeFetch = _
      cases wb
      · rfl
      · exact (writeReg_effect rn pre y).pipeFetch
    · show (if wb then writeReg rn pre y else y).r15 = _
      cases wb
      · rfl
      · exact (writeReg_effect rn pre y).r15
    · show (if wb then writeReg rn pre y else y).pendingPC = _
      cases h : wb
      · rfl
      · rw [if_pos rfl, writeReg, writeRegIn_pending, if_neg (hrn h)]
  · intro h
    rw [readReg_finish _ _ (hrn h)]
    show readReg rn (if wb then writeReg rn pre y else y) = _
    rw [if_pos h, readReg_writeReg _ _ _ (hrn h)]

/-- A THUMB store. -/
theorem thumbStores_of {store write : Word → Word → State → State} {keys : State → Word → List Nat}
    (hw : BusWrite write keys) (hs : store = write) {i : Instr} {rd : LowReg} {a : Word} {s : State}
    (f : State → Result) (hi : exec i s = runThumb f s)
    (hb : f (begun s) = thumbStore store (lowReg rd) a (begun s)) : thumbStores i rd a write keys s := by
  subst hs
  let x := store a (readReg (lowReg rd) s) s
  have ex : store a (readReg (lowReg rd) s) (begun s) = begun x := by
    show _ = withCpu x.regs x.spsr x.pipeDecode x.pipeFetch x.r15 none x
    rw [begun_eq, hw.cpu]
    have := hw.effect a (readReg (lowReg rd) s) s
    rw [← this.regs, ← this.spsr, ← this.pipeDecode, ← this.pipeFetch, ← this.r15]
  refine ⟨_, hi.trans (runThumb_next (u := begun x) ?_), ?_⟩
  · rw [hb, ← ex]
    rfl
  · exact stored_finish (hw.effect a (readReg (lowReg rd) s) s) (hw.frame _ _ _) rfl (devicesKept_refl x)
      (fun _ _ => rfl) rfl rfl rfl rfl rfl

/-! ## Swap -/

/-- SWP and SWPB. -/
theorem runArm_swapWith (c : Cond) {load : Word → State → Word × State} {value : Word → State → Word}
    {store write : Word → Word → State → State} {keys : State → Word → List Nat}
    (hd : ∀ a s, Drew s (load a s).2) (hv : ∀ a s, (load a (begun s)).1 = value a s) (hw : BusWrite write keys)
    (hs : store = write)
    (hk : ∀ s n a, keys { s with draws := n } a = keys s a)
    (i : Instr) (rn rd rm : Reg) (s : State) (hi : exec i s = runArm c (swapWith load store rn rd rm) s)
    (hc : conditionPasses c s.cpsr = true) : swapping i rn rd rm value write keys s := by
  subst hs
  refine ⟨fun hn => ?_, fun hn => ?_⟩
  · simp only [List.mem_cons, List.not_mem_nil, or_false, not_or] at hn
    obtain ⟨h1, h2, h3⟩ := hn
    let a := readReg rn s
    obtain ⟨n, hx⟩ := hd a (begun s)
    let s' : State := { s with draws := s.draws + n }
    have hx' : (load a (begun s)).2 = begun s' := hx
    let x := store a (readReg rm s) s'
    have he := hw.effect a (readReg rm s) s'
    have ex : store a (readReg rm s) (begun s') = begun x := by
      show _ = withCpu x.regs x.spsr x.pipeDecode x.pipeFetch x.r15 none x
      rw [begun_eq, hw.cpu]
      rw [← he.regs, ← he.spsr, ← he.pipeDecode, ← he.pipeFetch, ← he.r15]
    have hc' : (begun x).cpsr = s.cpsr := he.cpsr
    refine ⟨finish (writeReg rd (value a s) (begun x)), n, hi.trans (runArm_next hc ?_), ?_, ?_⟩
    · have hno : ¬(rn = 15#4 ∨ rd = 15#4 ∨ rm = 15#4) := by
        intro h
        rcases h with h | h | h
        · exact h1 h.symm
        · exact h2 h.symm
        · exact h3 h.symm
      simp only [swapWith, if_neg hno]
      have e1 : readReg rn (begun s) = a := rfl
      have e2 : readReg rm (begun s) = readReg rm s := rfl
      rw [e1, e2, hx', ex, hv]
    · rw [readReg_finish _ _ (fun h => h2 h.symm), readReg_writeReg _ _ _ (fun h => h2 h.symm)]
    · have fr : bytesKeptExcept (keys s a) s' x := by
        have := hw.frame a (readReg rm s) s'
        rw [hk] at this
        exact this
      have we := writeReg_effect rd (value a s) (begun x)
      have hpl : placeOf (begun x) rd = [regPlace s.cpsr.mode rd] := by
        rw [placeOf, if_neg (fun h : rd = 15#4 => h2 h.symm), hc']
      rw [hpl] at we
      have := stored_finish (u := writeReg rd (value a s) (begun x)) he fr we.mem we.devices we.regs
        (writeReg_cpsr _ _ _) (writeRegIn_spsr _ _ _ _) we.pipeFetch we.r15
        (by rw [writeReg, writeRegIn_pending, if_neg (fun h => h2 h.symm)])
      exact this
  · apply hi.trans
    apply runArm_fault hc
    simp only [List.mem_cons, List.not_mem_nil, or_false] at hn
    have : rn = 15#4 ∨ rd = 15#4 ∨ rm = 15#4 := by
      rcases hn with h | h | h
      · exact .inl h.symm
      · exact .inr (.inl h.symm)
      · exact .inr (.inr h.symm)
    simp [swapWith, this]

end Sys2Proof.Machine
end

