-- ==== Sys2Proof/Laws/Block.lean ====
section
/-! SUPPORT. Block transfers: the register list, the words stored and loaded, and the shapes of STM and LDM. -/

namespace Sys2Proof.Machine

open Sys2Proof.Safety

/-! ## The register list -/

theorem allRegs_sorted : allRegs.Pairwise (fun a b => a < b) := by decide

theorem blockRegs_sorted (list : BitVec 16) : (blockRegs list).Pairwise (fun a b => a < b) := by
  unfold blockRegs
  split
  · exact List.pairwise_singleton _ _
  · exact allRegs_sorted.filter _

theorem blockRegs_ne (list : BitVec 16) : (blockRegs list).Pairwise (fun a b => a ≠ b) :=
  (blockRegs_sorted list).imp (fun h e => by subst e; exact absurd h (BitVec.lt_irrefl _))

theorem blockStride_eq (list : BitVec 16) : blockStride list = strideOf list := rfl

theorem blockStart_eq (p u : Bool) (base : Word) (list : BitVec 16) :
    blockStart p u base list = startOf p u base list := by
  cases p <;> cases u <;> simp [blockStart, startOf, blockStride_eq]

theorem blockNewBase_eq (u : Bool) (base : Word) (list : BitVec 16) :
    blockNewBase u base list = newBaseOf u base list := rfl

/-! ## Stores -/

theorem wordAddr_eq (start : Word) (k : Nat) : wordAddr start k = alignWord (start + BitVec.ofNat 32 (4 * k)) := rfl

theorem next_word (start : Word) (k : Nat) :
    start + BitVec.ofNat 32 (4 * k) + 4#32 = start + BitVec.ofNat 32 (4 * (k + 1)) := by
  rw [BitVec.add_assoc]
  congr 1
  rw [show 4 * (k + 1) = 4 * k + 4 by omega, BitVec.ofNat_add]

/-- The recursion over the words is the fold over their places. -/
theorem storeWords_eq (start : Word) (vs : List Word) : ∀ (k : Nat) (s : State),
    storeWords (start + BitVec.ofNat 32 (4 * k)) vs s =
      (vs.zipIdx k).foldl (fun u x => write32 (wordAddr start x.2) x.1 u) s := by
  induction vs with
  | nil => exact fun _ _ => rfl
  | cons v vs ih =>
    intro k s
    simp only [List.zipIdx_cons, List.foldl_cons, storeWords]
    rw [next_word, ih]
    rfl

theorem storeWords_written (start : Word) (vs : List Word) (s : State) :
    storeWords start vs s = wordsWritten start vs s := by
  have := storeWords_eq start vs 0 s
  rw [show start + BitVec.ofNat 32 (4 * 0) = start by simp] at this
  exact this

theorem storeWords_withCpu (vs : List Word) : ∀ (a : Word) (g b x y z q) (s : State),
    storeWords a vs (withCpu g b x y z q s) = withCpu g b x y z q (storeWords a vs s) := by
  induction vs with
  | nil => exact fun _ _ _ _ _ _ _ _ => rfl
  | cons v vs ih =>
    intro a g b x y z q s
    simp only [storeWords, storeWord, write32_withCpu, ih]

theorem wordKeys_congr {s t : State} (a : Word) (h : t.backup.kind = s.backup.kind) : wordKeys t a = wordKeys s a := by
  simp only [wordKeys, halfKeys, byteKey_congr _ h]

theorem storeWords_frame_from (start : Word) (vs : List Word) : ∀ (k : Nat) (s : State),
    bytesKeptExcept ((List.range' k vs.length).flatMap (fun j => wordKeys s (wordAddr start j))) s
      (storeWords (start + BitVec.ofNat 32 (4 * k)) vs s) := by
  induction vs with
  | nil => exact fun _ _ _ _ => rfl
  | cons v vs ih =>
    intro k s
    simp only [List.length_cons, List.range'_succ, List.flatMap_cons, storeWords]
    have hk : (storeWord (start + BitVec.ofNat 32 (4 * k)) v s).backup.kind = s.backup.kind := write32_kind _ _ _
    have h := ih (k + 1) (storeWord (start + BitVec.ofNat 32 (4 * k)) v s)
    simp only [wordKeys_congr _ hk] at h
    rw [← next_word] at h
    exact bytesKept_trans (write32_frame (wordAddr start k) v s) h

theorem storeWords_frame (start : Word) (vs : List Word) (s : State) :
    bytesKeptExcept (wordsKeys s start vs.length) s (storeWords start vs s) := by
  have := storeWords_frame_from start vs 0 s
  rw [show start + BitVec.ofNat 32 (4 * 0) = start by simp, ← List.range_eq_range'] at this
  exact this

theorem blockValues_eq (get : Reg → State → Word) (w : Bool) (rn : Reg) (newbase : Word) (list : BitVec 16) (s : State) :
    blockValues (fun r => get r s) w rn newbase (blockRegs list) = storedValues get w rn newbase list s := by
  unfold storedValues
  have tail : ∀ (rs : List Reg) (k : Nat), 0 < k →
      rs.map (blockValue (fun r => get r s) w rn newbase false) =
        (rs.zipIdx k).map (fun x => if x.1 = rn ∧ w = true ∧ 0 < x.2 then newbase else get x.1 s) := by
    intro rs
    induction rs with
    | nil => exact fun _ _ => rfl
    | cons r rs ih =>
      intro k hk
      simp only [List.map_cons, List.zipIdx_cons, ih (k + 1) (Nat.succ_pos k), blockValue, hk, and_true]
  cases blockRegs list with
  | nil => rfl
  | cons r rs =>
    simp only [blockValues, List.zipIdx_cons, List.map_cons, tail rs (0 + 1) (Nat.succ_pos 0), blockValue]
    simp

theorem blockValues_length (get : Reg → Word) (w : Bool) (rn : Reg) (newbase : Word) (rs : List Reg) :
    (blockValues get w rn newbase rs).length = rs.length := by
  cases rs <;> simp [blockValues]

/-- An STM in every form that does not write R15 back. -/
theorem storeMultiple_spec (get : Reg → State → Word) (hg : ∀ r s, get r (begun s) = get r s) (p u w : Bool) (rn : Reg)
    (list : BitVec 16) (s : State) (hn : ¬(w = true ∧ rn = 15#4)) :
    ∃ z, storeMultiple get p u w rn list (begun s) = .next z ∧
      stored (wordsWritten (startOf p u (readReg rn s) list)
        (storedValues get w rn (newBaseOf u (readReg rn s) list) list s) s)
        (wordsKeys s (startOf p u (readReg rn s) list) (blockRegs list).length)
        (if w then placeOf s rn else []) s (finish z) ∧
      (w = true → readReg rn (finish z) = newBaseOf u (readReg rn s) list) := by
  let base := readReg rn s
  let newbase := newBaseOf u base list
  let start := startOf p u base list
  let vals := storedValues get w rn newbase list s
  let x := storeWords start vals s
  have he : BusEffect s x := storeWords_effect vals start s
  have ex : storeWords start vals (begun s) = begun x := by
    show _ = withCpu x.regs x.spsr x.pipeDecode x.pipeFetch x.r15 none x
    rw [begun_eq, storeWords_withCpu, ← he.regs, ← he.spsr, ← he.pipeDecode, ← he.pipeFetch, ← he.r15]
  have hv : blockValues (fun r => get r (begun s)) w rn newbase (blockRegs list) = vals := by
    simp only [hg]
    exact blockValues_eq get w rn newbase list s
  have hlen : vals.length = (blockRegs list).length := by rw [← hv, blockValues_length]
  have hrn : w = true → rn ≠ 15#4 := fun h e => hn ⟨h, e⟩
  let y : State := begun x
  let z := if w then writeReg rn newbase y else y
  have hz : storeMultiple get p u w rn list (begun s) = .next z := by
    simp only [storeMultiple, if_neg hn, readReg_begun, blockStart_eq, blockNewBase_eq]
    show Host.Outcome.next (if w then writeReg rn newbase (storeWords start
      (blockValues (fun r => get r (begun s)) w rn newbase (blockRegs list)) (begun s)) else storeWords start
      (blockValues (fun r => get r (begun s)) w rn newbase (blockRegs list)) (begun s)) = _
    rw [hv, ex]
  refine ⟨z, hz, ?_, ?_⟩
  · have hpl : placeOf y rn = placeOf s rn := by
      show placeOf x rn = _
      simp [placeOf, he.cpsr]
    have fr := storeWords_frame start vals s
    rw [hlen] at fr
    have key : stored x (wordsKeys s start (blockRegs list).length) (if w then placeOf s rn else []) s (finish z) := by
      apply stored_finish he fr
      · show (if w then writeReg rn newbase y else y).mem = _
        cases w
        · rfl
        · exact (writeReg_effect rn newbase y).mem
      · show devicesKept _ (if w then writeReg rn newbase y else y)
        cases w
        · exact devicesKept_refl x
        · exact (writeReg_effect rn newbase y).devices
      · show regsKeptExcept _ _ (if w then writeReg rn newbase y else y)
        cases w
        · exact fun _ _ => rfl
        · have := (writeReg_effect rn newbase y).regs
          rw [hpl] at this
          exact this
      · show (if w then writeReg rn newbase y else y).cpsr = _
        cases w
        · rfl
        · exact writeReg_cpsr _ _ _
      · show (if w then writeReg rn newbase y else y).spsr = _
        cases w
        · rfl
        · exact writeRegIn_spsr _ _ _ _
      · show (if w then writeReg rn newbase y else y).pipeFetch = _
        cases w
        · rfl
        · exact (writeReg_effect rn newbase y).pipeFetch
      · show (if w then writeReg rn newbase y else y).r15 = _
        cases w
        · rfl
        · exact (writeReg_effect rn newbase y).r15
      · show (if w then writeReg rn newbase y else y).pendingPC = _
        cases h : w
        · rfl
        · rw [if_pos rfl, writeReg, writeRegIn_pending, if_neg (hrn h)]
    have ew : x = wordsWritten start vals s := storeWords_written start vals s
    rw [ew] at key
    exact key
  · intro h
    rw [readReg_finish _ _ (hrn h)]
    show readReg rn (if w then writeReg rn newbase y else y) = _
    rw [if_pos h, readReg_writeReg _ _ _ (hrn h)]

/-! ## Loads -/

/-- The words loaded, each as the bus reads it with some count of draws. -/
theorem loadWords_get (start : Word) (n : Nat) : ∀ (k : Nat) (s : State) (j : Nat) (v : Word),
    (loadWords (start + BitVec.ofNat 32 (4 * k)) n s).1[j]? = some v →
      ∃ d, v = (read32 (wordAddr start (k + j)) { s with draws := d }).1 := by
  induction n with
  | zero =>
    intro k s j v h
    simp [loadWords] at h
  | succ n ih =>
    intro k s j v h
    cases j with
    | zero =>
      simp only [loadWords, List.getElem?_cons_zero, Option.some.injEq] at h
      exact ⟨s.draws, h.symm⟩
    | succ j =>
      simp only [loadWords, List.getElem?_cons_succ] at h
      rw [next_word] at h
      obtain ⟨d, hd⟩ := ih _ _ _ _ h
      obtain ⟨m, hm⟩ := read32_drew (alignWord (start + BitVec.ofNat 32 (4 * k))) s
      refine ⟨d, ?_⟩
      rw [hd, hm, show k + 1 + j = k + (j + 1) by omega]

/-- Registers written in one bank: R15 held for the end of the instruction, the others in the register file. -/
theorem writeRegs_spec (m : Mode) : ∀ (rs : List Reg) (vs : List Word) (s : State), rs.Pairwise (fun a b => a ≠ b) →
    vs.length = rs.length →
    let t := writeRegs (writeRegIn m) rs vs s
    Effect (rs.flatMap (placeIn m)) s t ∧ t.cpsr = s.cpsr ∧ t.spsr = s.spsr ∧
      (15#4 ∉ rs → t.pendingPC = s.pendingPC) ∧
      (∀ (k : Nat) (r : Reg) (v : Word), rs[k]? = some r → vs[k]? = some v → if r = 15#4 then t.pendingPC = some v else readRegIn m r t = v) := by
  intro rs
  induction rs with
  | nil =>
    intro vs s _ _
    exact ⟨Effect.refl s, rfl, rfl, fun _ => rfl, fun k r v h => by simp at h⟩
  | cons r rs ih =>
    intro vs s hp hl
    cases vs with
    | nil => simp at hl
    | cons v vs =>
      simp only [List.pairwise_cons] at hp
      have hl' : vs.length = rs.length := by simpa using hl
      obtain ⟨h1, h2, h3, h4, h5⟩ := ih vs (writeRegIn m r v s) hp.2 hl'
      refine ⟨?_, h2.trans (writeRegIn_cpsr _ _ _ _), h3.trans (writeRegIn_spsr _ _ _ _), ?_, ?_⟩
      · have := (writeRegIn_effect m r v s).trans h1
        rw [List.flatMap_cons]
        exact this
      · intro hn
        simp only [List.mem_cons, not_or] at hn
        show (writeRegs (writeRegIn m) rs vs (writeRegIn m r v s)).pendingPC = _
        rw [h4 hn.2, writeRegIn_pending, if_neg (fun h => hn.1 h.symm)]
      · intro k q x hq hx
        cases k with
        | succ k =>
          simp only [List.getElem?_cons_succ] at hq hx
          exact h5 k q x hq hx
        | zero =>
          simp only [List.getElem?_cons_zero, Option.some.injEq] at hq hx
          subst hq
          subst hx
          have hr : r ∉ rs := fun h => hp.1 r h rfl
          by_cases h15 : r = 15#4
          · rw [if_pos h15]
            show (writeRegs (writeRegIn m) rs vs (writeRegIn m r v s)).pendingPC = _
            rw [h4 (h15 ▸ hr), writeRegIn_pending, if_pos h15]
          · rw [if_neg h15]
            have hin : regPlace m r ∉ rs.flatMap (placeIn m) := by
              intro hmem
              simp only [List.mem_flatMap] at hmem
              obtain ⟨q, hq, hx⟩ := hmem
              unfold placeIn at hx
              split at hx
              · simp at hx
              · next hq15 =>
                simp only [List.mem_singleton] at hx
                exact regPlace_inj m r q h15 hq15 (fun e => hr (e ▸ hq)) hx
            show readRegIn m r (writeRegs (writeRegIn m) rs vs (writeRegIn m r v s)) = v
            simp only [readRegIn, h15, if_false]
            rw [h1.regs _ hin]
            have := readRegIn_setRegIn m r v s h15
            simp only [readRegIn, h15, if_false] at this
            rw [writeRegIn, if_neg h15]
            exact this

/-- A write of the current bank is a write of the bank of the mode, which no register write changes. -/
theorem writeRegs_current (rs : List Reg) : ∀ (vs : List Word) (s : State),
    writeRegs writeReg rs vs s = writeRegs (writeRegIn s.cpsr.mode) rs vs s := by
  induction rs with
  | nil => exact fun _ _ => rfl
  | cons r rs ih =>
    intro vs s
    cases vs with
    | nil => rfl
    | cons v vs =>
      simp only [writeRegs]
      rw [ih, writeReg_cpsr]
      rfl

/-- An LDM into the bank of a mode, up to the end of the instruction; `c` is the CPSR it ends with. -/
theorem loadMultiple_spec (m : Mode) (write : Reg → Word → State → State)
    (p u w : Bool) (rn : Reg) (list : BitVec 16) (s : State) (hn : ¬(w = true ∧ rn = 15#4)) (hm : ∀ t : State, t.cpsr = s.cpsr →
      ∀ rs vs, writeRegs write rs vs t = writeRegs (writeRegIn m) rs vs t) :
    ∃ z, loadMultiple write p u w rn list (begun s) = .next z ∧ z.cpsr = s.cpsr ∧ z.spsr = s.spsr ∧
      (15#4 ∉ blockRegs list → z.pendingPC = none) ∧ (15#4 ∈ blockRegs list → ∃ v, z.pendingPC = some v) ∧
      Effect ((blockRegs list).flatMap (placeIn m) ++ (if w then placeOf s rn else [])) s z ∧
      ∀ c, blockLoaded m p u w rn list s (finish (setCpsr c z)) := by
  let base := readReg rn s
  let start := startOf p u base list
  let newbase := newBaseOf u base list
  let ld := loadWords start (blockRegs list).length (begun s)
  obtain ⟨n, hx⟩ := loadWords_drew (blockRegs list).length start (begun s)
  have hlen : ld.1.length = (blockRegs list).length := loadWords_length _ _ _
  let x := ld.2
  have hx' : x = { begun s with draws := (begun s).draws + n } := hx
  have cx : x.cpsr = s.cpsr := by rw [hx']
  have sx : x.spsr = s.spsr := by rw [hx']
  have px : x.pendingPC = none := by rw [hx']
  have dx : Effect [] s x := (begun_effect s).trans (drew_effect ⟨n, hx⟩)
  have hrn : w = true → rn ≠ 15#4 := fun h e => hn ⟨h, e⟩
  let y := if w then writeReg rn newbase x else x
  have cy : y.cpsr = s.cpsr := by
    show (if w then writeReg rn newbase x else x).cpsr = _
    cases w
    · exact cx
    · exact (writeReg_cpsr _ _ _).trans cx
  have sy : y.spsr = s.spsr := by
    show (if w then writeReg rn newbase x else x).spsr = _
    cases w
    · exact sx
    · exact (writeRegIn_spsr _ _ _ _).trans sx
  have py : y.pendingPC = none := by
    show (if w then writeReg rn newbase x else x).pendingPC = _
    cases hw : w
    · exact px
    · rw [if_pos rfl, writeReg, writeRegIn_pending, if_neg (hrn hw)]
      exact px
  have dy : Effect (if w then placeOf s rn else []) s y := by
    show Effect _ s (if w then writeReg rn newbase x else x)
    cases w
    · exact dx
    · have := dx.trans (writeReg_effect rn newbase x)
      rw [show placeOf x rn = placeOf s rn by simp [placeOf, cx]] at this
      exact this
  let z := writeRegs write (blockRegs list) ld.1 y
  have hzw : z = writeRegs (writeRegIn m) (blockRegs list) ld.1 y := hm y cy _ _
  obtain ⟨h1, h2, h3, h4, h5⟩ := writeRegs_spec m (blockRegs list) ld.1 y (blockRegs_ne list) hlen
  rw [← hzw] at h1 h2 h3 h4 h5
  have dz : Effect ((blockRegs list).flatMap (placeIn m) ++ (if w then placeOf s rn else [])) s z :=
    (dy.trans h1).mono (fun q hq => by
      simp only [List.mem_append] at hq ⊢
      exact hq.symm)
  have hp15 : 15#4 ∈ blockRegs list → ∃ v, z.pendingPC = some v := by
    intro h
    obtain ⟨k, hk⟩ := List.getElem?_of_mem h
    have hkl : k < ld.1.length := by
      rw [hlen]
      exact (List.getElem?_eq_some_iff.mp hk).1
    have := h5 k 15#4 ld.1[k] hk (List.getElem?_eq_getElem hkl)
    rw [if_pos rfl] at this
    exact ⟨_, this⟩
  refine ⟨z, ?_, h2.trans cy, h3.trans sy, fun h => (h4 h).trans py, hp15, dz, fun c => ?_⟩
  · simp only [loadMultiple, if_neg hn, readReg_begun, blockStart_eq, blockNewBase_eq]
    rfl
  · have dc : Effect ((blockRegs list).flatMap (placeIn m) ++ (if w then placeOf s rn else [])) s (setCpsr c z) := by
      have := dz.trans (setCpsr_effect c z)
      rw [List.append_nil] at this
      exact this
    have e := (finish_spec (setCpsr c z)).1
    refine ⟨ld.1, hlen, ?_, ?_, ?_, ?_, e.spsr.trans (h3.trans sy),
      ⟨e.mem.trans dc.mem, devicesKept_trans dc.devices e.devices, Nat.le_trans dc.draws e.draws⟩, e.pending⟩
    · intro k v hk
      have h0 : start + BitVec.ofNat 32 (4 * 0) = start := by simp
      have := loadWords_get start (blockRegs list).length 0 (begun s) k v (by rw [h0]; exact hk)
      obtain ⟨d, hd⟩ := this
      refine ⟨d, hd.trans ?_⟩
      rw [Nat.zero_add]
      have e := read32_withCpu (wordAddr start k) s.regs s.spsr s.pipeDecode s.pipeFetch s.r15 none { s with draws := d }
      have e1 : ∀ (a b : Word × State) (x : State), a = (b.1, x) → a.1 = b.1 := fun a b x h => by rw [h]
      exact e1 _ _ _ e
    · intro k r v hr hv
      have := h5 k r v hr hv
      split
      · next h15 =>
        rw [if_pos h15] at this
        exact finish_refilled (u := setCpsr c z) this
      · next h15 =>
        rw [if_neg h15] at this
        rw [readRegIn_finish _ _ _ h15]
        exact (readRegIn_congr m r rfl h15).trans this
    · intro hwt hpl
      rw [readRegIn_finish _ _ _ (hrn hwt)]
      have hin : regPlace s.cpsr.mode rn ∉ (blockRegs list).flatMap (placeIn m) := by
        intro hmem
        simp only [List.mem_flatMap] at hmem
        obtain ⟨q, hq, hx⟩ := hmem
        have := hpl q hq
        unfold placeIn at hx
        split at hx
        · simp at hx
        · next h15 =>
          simp only [List.mem_singleton] at hx
          simp only [h15, if_false, placeOf, hrn hwt] at this
          exact this (by rw [hx])
      have hy : y = writeReg rn newbase x := if_pos hwt
      have h6 : readRegIn s.cpsr.mode rn (setCpsr c z) = readRegIn s.cpsr.mode rn y := by
        simp only [readRegIn, hrn hwt, if_false]
        exact h1.regs _ hin
      rw [h6, hy, writeReg, cx, writeRegIn, if_neg (hrn hwt), readRegIn_setRegIn _ _ _ _ (hrn hwt)]
    · intro q hq
      rw [e.regs]
      exact dc.regs q hq

end Sys2Proof.Machine
end

