-- ==== Sys2Proof/Laws/Commit.lean ====
section
/-! SUPPORT. What one I/O transaction commits: the registers are disjoint and all listed, and a transaction whose bytes lie in one
register commits that register alone (61_io_registers.md R952). -/

namespace Sys2Proof.Machine

/-- The registers in the order of a commit lie one above the other, so no two share a byte (R960). -/
theorem ioRegs_disjoint : List.Pairwise (fun r r' => ioOffset r + ioWidth r ≤ ioOffset r') allIoRegs := by decide +kernel

/-- Every register is visited. -/
theorem mem_allIoRegs (r : IoReg) : r ∈ allIoRegs := by
  cases r with
  | bgcnt k | bghofs k | bgvofs k | waveRam k | dmaSad k | dmaDad k | dmaCntL k | dmaCntH k | tmCntL k | tmCntH k =>
    revert k; decide
  | fifo d => cases d <;> decide
  | _ => decide

/-- A register's turn in a commit changes neither the shadow buffer nor the dirty bytes. -/
theorem ioCommitOne_io (s : State) (r : IoReg) : (ioCommitOne s r).shadow = s.shadow ∧ (ioCommitOne s r).dirty = s.dirty := by
  have trig : ∀ p i (s : State), (triggerIf p i s).shadow = s.shadow ∧ (triggerIf p i s).dirty = s.dirty := by
    intro p i s
    unfold triggerIf
    split <;> exact ⟨rfl, rfl⟩
  have reset : ∀ d (s : State), (fifoReset d s).shadow = s.shadow ∧ (fifoReset d s).dirty = s.dirty := by
    intro d s
    simp [fifoReset, triggerAll, trig]
  have stored : ∀ r v (s : State), (ioSetStored r v s).shadow = s.shadow ∧ (ioSetStored r v s).dirty = s.dirty := by
    intro r v s
    cases r <;> exact ⟨rfl, rfl⟩
  unfold ioCommitOne
  simp only
  split
  · exact ⟨rfl, rfl⟩
  · unfold ioCommitReg
    cases r <;> simp only [stored, setTimer_shadow, setTimer_dirty, setDma_shadow, setDma_dirty, ioPush, setFifo_shadow, setFifo_dirty,
      and_self]
    split <;> split <;> simp [reset, stored]

/-- A register none of whose bytes is dirty has its mask 0. -/
theorem ioMask_clean (r : IoReg) (s : State) (h : ∀ o ∈ s.dirty, ¬(ioOffset r ≤ o ∧ o < ioOffset r + ioWidth r)) :
    ioMask r s = 0#32 := by
  have at0 : ∀ k, k < ioWidth r → isDirty s (ioOffset r + k) = false := by
    intro k hk
    cases e : isDirty s (ioOffset r + k) with
    | false => rfl
    | true =>
      exact absurd ⟨Nat.le_add_right _ _, Nat.add_lt_add_left hk _⟩ (h _ (by simpa [isDirty] using e))
  unfold ioMask
  split
  · next hw => simp only [at0 0 (by omega), at0 1 (by omega), at0 2 (by omega), at0 3 (by omega)]; rfl
  · have : 2 ≤ ioWidth r := by unfold ioWidth; split <;> omega
    simp only [at0 0 (by omega), at0 1 (by omega)]; rfl

/-- The turns of registers none of whose bytes is dirty change nothing. -/
theorem ioCommit_skip (rs : List IoReg) (s : State)
    (h : ∀ r ∈ rs, ∀ o ∈ s.dirty, ¬(ioOffset r ≤ o ∧ o < ioOffset r + ioWidth r)) : rs.foldl ioCommitOne s = s := by
  induction rs with
  | nil => rfl
  | cons r rs ih =>
    have : ioCommitOne s r = s := by
      simp only [ioCommitOne, ioMask_clean r s (h r List.mem_cons_self), if_true]
    rw [List.foldl_cons, this]
    exact ih fun r' hr => h r' (List.mem_cons_of_mem _ hr)

/-- A commit whose dirty bytes all lie in one register is that register's turn. -/
theorem ioCommit_within (r : IoReg) (s : State) (hd : s.dirty ≠ [])
    (h : ∀ o ∈ s.dirty, ioOffset r ≤ o ∧ o < ioOffset r + ioWidth r) :
    ioCommit s = { ioCommitOne s r with dirty := [] } := by
  obtain ⟨pre, post, e⟩ := List.append_of_mem (mem_allIoRegs r)
  have p := ioRegs_disjoint
  rw [e, List.pairwise_append, List.pairwise_cons] at p
  have fold : allIoRegs.foldl ioCommitOne s = ioCommitOne s r := by
    rw [e, List.foldl_append, List.foldl_cons, ioCommit_skip pre s, ioCommit_skip post]
    · intro r' hr' o ho
      rw [(ioCommitOne_io s r).2] at ho
      have := p.2.1.1 r' hr'
      have := h o ho
      omega
    · intro r' hr' o ho
      have := p.2.2 r' hr' r List.mem_cons_self
      have := h o ho
      omega
  rw [ioCommit, if_neg hd, fold]

end Sys2Proof.Machine
end

