-- ==== Sys2Proof/Laws/Psr.lean ====
section
/-! SUPPORT. Status registers and exceptions: words and fields, banks of SPSRs, MSR, taking an exception. -/

namespace Sys2Proof.Machine

open Sys2Proof.Safety

/-! ## Modes -/

theorem modeOfBits_modeBits (m : Mode) : modeOfBits (modeBits m) = some m := by cases m <;> rfl

/-! ## SPSRs -/

theorem spsrOf_congr {s t : State} (m : Mode) (h : t.spsr = s.spsr) : spsrOf m t = spsrOf m s := by
  cases m <;> simp [spsrOf, h]

theorem spsrOf_setSpsrOf (m : Mode) (p q : Spsr) (s : State) (h : spsrOf m s = some q) :
    spsrOf m (setSpsrOf m p s) = some p := by
  cases m <;> first | rfl | cases h

theorem spsrOf_setSpsrOf_ne (m k : Mode) (p : Spsr) (s : State) (h : k ≠ m) :
    spsrOf k (setSpsrOf m p s) = spsrOf k s := by
  cases m <;> cases k <;> first | rfl | exact absurd rfl h

/-! ## Words of status registers -/

theorem ofBool_shift (b : Bool) (k : Nat) : (BitVec.ofBool b).getLsbD k = (decide (k = 0) && b) := by
  cases b <;> cases k <;> simp

theorem getLsbD_append_high {n m : Nat} (x : BitVec n) (y : BitVec m) (i : Nat) (h : m ≤ i) :
    (x ++ y).getLsbD i = x.getLsbD (i - m) := by
  rw [BitVec.getLsbD_append, if_neg (by omega)]

theorem getLsbD_append_low {n m : Nat} (x : BitVec n) (y : BitVec m) (i : Nat) (h : i < m) :
    (x ++ y).getLsbD i = y.getLsbD i := by
  rw [BitVec.getLsbD_append, if_pos h]

/-- The word of a status register, bit by bit (10_state.md R105). -/
theorem statusWord_bits (p : Spsr) : statusBits (statusWord p) p := by
  refine ⟨?_, ?_, ?_, ?_, ?_, ?_, ?_, ?_, ?_⟩ <;>
    first
    | (simp only [statusWord, BitVec.getLsbD_append, ofBool_shift]; simp; done)
    | skip
  · apply BitVec.eq_of_getLsbD_eq
    intro i hi
    rw [BitVec.getLsbD_extractLsb', decide_eq_true hi, Bool.true_and]
    refine (getLsbD_append_high _ p.m (8 + i) (by omega)).trans ((getLsbD_append_high _ (BitVec.ofBool p.t) _ (by omega)).trans
      ((getLsbD_append_high _ (BitVec.ofBool p.f) _ (by omega)).trans ((getLsbD_append_high _ (BitVec.ofBool p.i) _ (by omega)).trans
      ((getLsbD_append_low _ 0#20 _ (by omega)).trans ?_))))
    simp
  · apply BitVec.eq_of_getLsbD_eq
    intro i hi
    rw [BitVec.getLsbD_extractLsb', decide_eq_true hi, Bool.true_and, Nat.zero_add]
    exact getLsbD_append_low _ p.m i hi

/-- The fields of a status register are read back from its word. -/
theorem statusOfWord_statusWord (p : Spsr) : statusOfWord (statusWord p) = p := by
  obtain ⟨h1, h2, h3, h4, -, h5, h6, h7, h8⟩ := statusWord_bits p
  simp only [statusOfWord, h1, h2, h3, h4, h5, h6, h7, h8]

/-- The fields of a merged word: the new word's where the mask is 1. -/
theorem statusOfWord_merge (old val m : Word) :
    statusOfWord (mergeBits old val m) =
      let b (k : Nat) : Bool := if m.getLsbD k then val.getLsbD k else old.getLsbD k
      { n := b 31, z := b 30, c := b 29, v := b 28, i := b 7, f := b 6, t := b 5,
        m := (old.extractLsb' 0 5 &&& ~~~m.extractLsb' 0 5) ||| (val.extractLsb' 0 5 &&& m.extractLsb' 0 5) } := by
  have bit : ∀ k, k < 32 → (mergeBits old val m).getLsbD k = if m.getLsbD k then val.getLsbD k else old.getLsbD k := by
    intro k hk
    simp only [mergeBits, BitVec.getLsbD_or, BitVec.getLsbD_and, BitVec.getLsbD_not, hk, decide_true, Bool.true_and]
    cases m.getLsbD k <;> simp
  simp only [statusOfWord, bit 31 (by decide), bit 30 (by decide), bit 29 (by decide), bit 28 (by decide),
    bit 7 (by decide), bit 6 (by decide), bit 5 (by decide)]
  simp only [Spsr.mk.injEq, true_and]
  apply BitVec.eq_of_getLsbD_eq
  intro i hi
  have hi32 : i < 32 := by omega
  simp [mergeBits, hi, hi32]

/-- The mask of an MSR: the flags with f[3], the control byte with f[0] (45_arm_psr_swi.md R651). -/
theorem msrMask_bits (f : BitVec 4) :
    ((msrMask f).getLsbD 31 = f.getLsbD 3 ∧ (msrMask f).getLsbD 30 = f.getLsbD 3 ∧
      (msrMask f).getLsbD 29 = f.getLsbD 3 ∧ (msrMask f).getLsbD 28 = f.getLsbD 3) ∧
    ((msrMask f).getLsbD 7 = f.getLsbD 0 ∧ (msrMask f).getLsbD 6 = f.getLsbD 0 ∧ (msrMask f).getLsbD 5 = f.getLsbD 0) ∧
    (msrMask f).extractLsb' 0 5 = if f.getLsbD 0 then 0x1F#5 else 0#5 := by
  revert f
  decide

theorem msrMask_user_bits (f : BitVec 4) :
    ((msrMask f &&& 0xF0000000#32).getLsbD 31 = f.getLsbD 3 ∧ (msrMask f &&& 0xF0000000#32).getLsbD 30 = f.getLsbD 3 ∧
      (msrMask f &&& 0xF0000000#32).getLsbD 29 = f.getLsbD 3 ∧ (msrMask f &&& 0xF0000000#32).getLsbD 28 = f.getLsbD 3) ∧
    ((msrMask f &&& 0xF0000000#32).getLsbD 7 = false ∧ (msrMask f &&& 0xF0000000#32).getLsbD 6 = false ∧
      (msrMask f &&& 0xF0000000#32).getLsbD 5 = false) ∧
    (msrMask f &&& 0xF0000000#32).extractLsb' 0 5 = 0#5 := by
  revert f
  decide

theorem and_ones5 (x : BitVec 5) : x &&& 0x1F#5 = x := by
  revert x
  decide

/-- What an MSR leaves in a status register whose fields were `p`. -/
def msrFields (p : Spsr) (v : Word) (flags control : Bool) : Spsr :=
  let keep (b x : Bool) (k : Nat) : Bool := if b then v.getLsbD k else x
  { n := keep flags p.n 31, z := keep flags p.z 30, c := keep flags p.c 29, v := keep flags p.v 28,
    i := keep control p.i 7, f := keep control p.f 6, t := keep control p.t 5,
    m := if control then v.extractLsb' 0 5 else p.m }

theorem msrFields_eq (p : Spsr) (v : Word) (f : BitVec 4) :
    statusOfWord (mergeBits (statusWord p) v (msrMask f)) = msrFields p v (f.getLsbD 3) (f.getLsbD 0) := by
  obtain ⟨h1, h2, h3, h4, -, h5, h6, h7, h8⟩ := statusWord_bits p
  obtain ⟨⟨a1, a2, a3, a4⟩, ⟨b1, b2, b3⟩, m3⟩ := msrMask_bits f
  rw [statusOfWord_merge]
  simp only [msrFields, a1, a2, a3, a4, b1, b2, b3, m3, h1, h2, h3, h4, h5, h6, h7, h8]
  cases f.getLsbD 0
  · simp only [Bool.false_eq_true, if_false, BitVec.and_zero, BitVec.or_zero, Spsr.mk.injEq, true_and]
    exact and_ones5 p.m
  · simp only [if_true, Spsr.mk.injEq, true_and]
    rw [show ~~~0x1F#5 = 0#5 by decide, BitVec.and_zero, BitVec.zero_or]
    exact and_ones5 _

theorem msrFields_user_eq (p : Spsr) (v : Word) (f : BitVec 4) :
    statusOfWord (mergeBits (statusWord p) v (msrMask f &&& 0xF0000000#32)) = msrFields p v (f.getLsbD 3) false := by
  obtain ⟨h1, h2, h3, h4, -, h5, h6, h7, h8⟩ := statusWord_bits p
  obtain ⟨⟨a1, a2, a3, a4⟩, ⟨b1, b2, b3⟩, m3⟩ := msrMask_user_bits f
  rw [statusOfWord_merge]
  simp only [msrFields, a1, a2, a3, a4, b1, b2, b3, m3, h1, h2, h3, h4, h5, h6, h7, h8]
  simp only [Bool.false_eq_true, if_false, BitVec.and_zero, BitVec.or_zero, Spsr.mk.injEq, true_and]
  exact and_ones5 p.m

/-- MSR to CPSR in terms of the fields it leaves: a change of T stops it, then an illegal mode. -/
theorem writeCpsr_eq (v : Word) (f : BitVec 4) (s : State) :
    writeCpsr v f s =
      let new := msrFields (saveCpsr s.cpsr) v (f.getLsbD 3) (f.getLsbD 0 && decide (s.cpsr.mode ≠ .usr))
      if new.t ≠ s.cpsr.t then .fault (.unpredictable .msrState) else loadCpsr new s := by
  unfold writeCpsr
  simp only [privileged, cpsrWord]
  by_cases h : s.cpsr.mode = .usr
  · simp only [h, ne_eq, not_true_eq_false, decide_false, Bool.and_false]
    have := msrFields_user_eq (saveCpsr s.cpsr) v f
    simp only [Bool.false_eq_true, if_false, this]
  · simp only [h, ne_eq, not_false_eq_true, decide_true, Bool.and_true, if_true, msrFields_eq]

/-- MSR to the SPSR in terms of the fields it leaves. -/
theorem writeSpsr_eq (v : Word) (f : BitVec 4) (s : State) (p : Spsr) (h : spsrOf s.cpsr.mode s = some p) :
    writeSpsr v f s = .next (setSpsrOf s.cpsr.mode (msrFields p v (f.getLsbD 3) (f.getLsbD 0)) s) := by
  simp only [writeSpsr, h, msrFields_eq]

/-! ## Taking an exception -/

/-- Entry to an exception that leaves F, up to the end of the step: Undefined, SWI and IRQ (60_exceptions.md R903). -/
theorem enterException_entered (k : ExceptionKind) (hk : setsF k = false) (s : State)
    (hm : ∃ p, spsrOf (entryMode k) s = some p) : entered (entryMode k) (vectorOf k) s (finish (enterException k s)) := by
  obtain ⟨p, hp⟩ := hm
  let m := entryMode k
  have h14 : (14#4 : Reg) ≠ 15#4 := by decide
  let s1 := setSpsrOf m (saveCpsr s.cpsr) s
  let s2 := setCpsr { s.cpsr with mode := m, i := true, f := s.cpsr.f || setsF k, t := false } s1
  let s3 := setRegIn m 14#4 (returnAddress s) s2
  let u : State := { s3 with pendingPC := some (vectorOf k) }
  have hu : enterException k s = u := rfl
  have e := (finish_spec u).1
  have hspsr : u.spsr = s1.spsr := rfl
  have ef : Effect [regPlace m 14#4] s u := by
    have h1 := ((setSpsrOf_effect m (saveCpsr s.cpsr) s).trans (setCpsr_effect
      { s.cpsr with mode := m, i := true, f := s.cpsr.f || setsF k, t := false } s1)).trans
      (setRegIn_effect m 14#4 (returnAddress s) s2)
    exact (h1.trans (pending_effect (some (vectorOf k)) s3)).mono (fun q hq => by simpa using hq)
  rw [hu]
  refine ⟨?_, ?_, ?_, finish_refilled rfl, ?_, ?_, ⟨e.mem.trans ef.mem, devicesKept_trans ef.devices e.devices,
    Nat.le_trans ef.draws e.draws⟩, e.pending⟩
  · rw [spsrOf_congr (s := s1) _ (e.spsr.trans hspsr)]
    exact spsrOf_setSpsrOf m (saveCpsr s.cpsr) p s hp
  · rw [readRegIn_finish _ _ _ h14]
    exact readRegIn_setRegIn m 14#4 (returnAddress s) s2 h14
  · rw [finish_cpsr]
    show ({ s.cpsr with mode := m, i := true, f := s.cpsr.f || setsF k, t := false } : Cpsr) = _
    rw [hk, Bool.or_false]
  · intro q hq
    rw [e.regs]
    exact ef.regs q hq
  · intro m' hne
    rw [spsrOf_congr (s := s1) _ (e.spsr.trans hspsr)]
    exact spsrOf_setSpsrOf_ne m m' _ s hne

end Sys2Proof.Machine
end

