-- ==== Sys2Proof/Laws/System.lean ====
section
/-! SUPPORT. The peripheral phases of a master cycle: what each can do, and that each keeps the invariant. -/

namespace Sys2Proof.Machine

open Sys2Proof.Safety

/-! ## The invariant through a bus effect -/

theorem inv_of_effect {s t : State} (h : Inv s) (e : BusEffect s t) (hd : t.dirty = []) : Inv t where
  mem := e.mem h.mem
  shadow := e.shadow h.shadow
  oamSnap := by rw [e.oamSnap]; exact h.oamSnap
  dirty := hd
  pending := by rw [e.pendingPC]; exact h.pending
  lc := by rw [e.lc]; exact h.lc
  vcount := by rw [e.vcount]; exact h.vcount
  pc := by
    have := h.pc
    unfold pcAligned at *
    rw [e.cpsr, e.r15]
    exact this
  fifoA := e.fifoA h.fifoA
  fifoB := e.fifoB h.fifoB
  active := fun i j hi hj => h.active i j (e.active i hi) (e.active j hj)

theorem raiseIrq_effect (n : Nat) (s : State) : BusEffect s (raiseIrq n s) :=
  ⟨rfl, rfl, rfl, rfl, rfl, rfl, rfl, rfl, rfl, rfl, rfl, rfl, rfl, rfl, id, id, id, id, fun _ h => h⟩

/-! ## Timers -/

theorem popIfSelected_effect (d : FifoId) (b : Nat) (i : Fin 4) (s : State) : BusEffect s (popIfSelected d b i s) := by
  unfold popIfSelected
  split
  · exact setFifo_effect d _ s (popByte_fits _)
  · exact .refl s

theorem popIfSelected_dirty (d : FifoId) (b : Nat) (i : Fin 4) (s : State) : (popIfSelected d b i s).dirty = s.dirty := by
  unfold popIfSelected
  split
  · cases d <;> rfl
  · rfl

theorem fifoTick_effect (i : Fin 4) (s : State) : BusEffect s (fifoTick i s) := by
  unfold fifoTick
  split
  · exact (popIfSelected_effect _ _ _ s).trans (popIfSelected_effect _ _ _ _)
  · exact .refl s

theorem fifoTick_dirty (i : Fin 4) (s : State) : (fifoTick i s).dirty = s.dirty := by
  unfold fifoTick
  split
  · rw [popIfSelected_dirty, popIfSelected_dirty]
  · rfl

theorem timerOverflow_effect (i : Fin 4) (s : State) : BusEffect s (timerOverflow i s) := by
  unfold timerOverflow
  simp only
  split
  · exact ((setTimer_effect _ _ s).trans (raiseIrq_effect _ _)).trans (fifoTick_effect _ _)
  · exact (setTimer_effect _ _ s).trans (fifoTick_effect _ _)

theorem timerOverflow_dirty (i : Fin 4) (s : State) : (timerOverflow i s).dirty = s.dirty := by
  unfold timerOverflow
  simp only [fifoTick_dirty]
  split <;> rfl

theorem timerTick_effect (is : List (Fin 4)) : ∀ s, BusEffect s (timerTick is s) := by
  induction is with
  | nil => exact .refl
  | cons i is ih =>
    intro s
    unfold timerTick
    simp only
    split
    · split
      · exact timerOverflow_effect i s
      · split
        · exact (timerOverflow_effect i s).trans (ih _)
        · exact timerOverflow_effect i s
    · exact setTimer_effect _ _ s

theorem timerTick_dirty (is : List (Fin 4)) : ∀ s, (timerTick is s).dirty = s.dirty := by
  induction is with
  | nil => exact fun _ => rfl
  | cons i is ih =>
    intro s
    unfold timerTick
    simp only
    split
    · split
      · exact timerOverflow_dirty i s
      · split
        · rw [ih, timerOverflow_dirty]
        · exact timerOverflow_dirty i s
    · rfl

theorem timerStep_effect (i : Fin 4) (s : State) : BusEffect s (timerStep i s) := by
  unfold timerStep
  simp only
  split
  · split
    · exact (setTimer_effect _ _ s).trans (timerTick_effect _ _)
    · exact setTimer_effect _ _ s
  · exact .refl s

theorem timerStep_dirty (i : Fin 4) (s : State) : (timerStep i s).dirty = s.dirty := by
  unfold timerStep
  simp only
  split
  · split
    · rw [timerTick_dirty]
      rfl
    · rfl
  · rfl

/-- The timers change no processor state, and no memory. -/
theorem timersStep_effect (s : State) : BusEffect s (timersStep s) :=
  (((timerStep_effect 0 s).trans (timerStep_effect 1 _)).trans (timerStep_effect 2 _)).trans (timerStep_effect 3 _)

theorem timersStep_dirty (s : State) : (timersStep s).dirty = s.dirty := by
  simp only [timersStep, timerStep_dirty]

theorem timersStep_inv {s : State} (h : Inv s) : Inv (timersStep s) :=
  inv_of_effect h (timersStep_effect s) ((timersStep_dirty s).trans h.dirty)

/-! ## DMA promotion -/

theorem triggerIf_dirty (p : Fin 4 → State → Bool) (i : Fin 4) (s : State) : (triggerIf p i s).dirty = s.dirty := by
  unfold triggerIf
  split <;> rfl

theorem triggerAll_dirty (p : Fin 4 → State → Bool) (s : State) : (triggerAll p s).dirty = s.dirty := by
  simp only [triggerAll, triggerIf_dirty]

theorem firstInPhase_none {p : DmaPhase} {s : State} (h : firstInPhase p s = none) (i : Fin 4) :
    (getDma i s).phase ≠ p := by
  unfold firstInPhase at h
  split at h
  · cases h
  · split at h
    · cases h
    · split at h
      · cases h
      · split at h
        · cases h
        · next h0 h1 h2 h3 =>
          have : ∀ i : Fin 4, i = 0 ∨ i = 1 ∨ i = 2 ∨ i = 3 := by decide
          rcases this i with rfl | rfl | rfl | rfl <;> assumption

theorem firstInPhase_some {p : DmaPhase} {s : State} {i : Fin 4} (h : firstInPhase p s = some i) :
    (getDma i s).phase = p ∧ ∀ j, j < i → (getDma j s).phase ≠ p := by
  unfold firstInPhase at h
  split at h
  · next h0 =>
    cases h
    exact ⟨h0, fun j hj => by omega⟩
  · next h0 =>
    split at h
    · next h1 =>
      cases h
      refine ⟨h1, fun j hj => ?_⟩
      have : j = 0 := by omega
      rw [this]
      exact h0
    · next h1 =>
      split at h
      · next h2 =>
        cases h
        refine ⟨h2, fun j hj => ?_⟩
        have : j = 0 ∨ j = 1 := by omega
        rcases this with rfl | rfl <;> assumption
      · next h2 =>
        split at h
        · next h3 =>
          cases h
          refine ⟨h3, fun j hj => ?_⟩
          have : j = 0 ∨ j = 1 ∨ j = 2 := by omega
          rcases this with rfl | rfl | rfl <;> assumption
        · cases h

/-- The promotion phase changes the channels alone. -/
theorem dmaPromote_frame (s : State) : dmaPromote s = { s with dma := (dmaPromote s).dma } := by
  have trig : ∀ (p : Fin 4 → State → Bool) (i : Fin 4) (s : State),
      triggerIf p i s = { s with dma := (triggerIf p i s).dma } := by
    intro p i s
    unfold triggerIf
    split <;> rfl
  have all : ∀ s, triggerAll startObserved s = { s with dma := (triggerAll startObserved s).dma } := by
    intro s
    simp only [triggerAll]
    rw [trig _ 3, trig _ 2, trig _ 1, trig _ 0]
  have grant : ∀ s, dmaGrant s = { s with dma := (dmaGrant s).dma } := by
    intro s
    unfold dmaGrant
    split
    · rfl
    · split <;> rfl
  unfold dmaPromote
  rw [grant, all]

theorem dmaGrant_inv {s : State} (h : Inv s) : Inv (dmaGrant s) := by
  unfold dmaGrant
  split
  · exact h
  · next hn =>
    split
    · next i hi =>
      have key : oneActive (setDma i { getDma i s with phase := .active } s) := by
        intro a b ha hb
        have only : ∀ k, (getDma k (setDma i { getDma i s with phase := .active } s)).phase = .active → k = i := by
          intro k hk
          by_cases e : k = i
          · exact e
          · rw [getDma_setDma_ne e] at hk
            exact absurd hk (firstInPhase_none hn k)
        rw [only a ha, only b hb]
      exact ⟨h.mem, h.shadow, h.oamSnap, h.dirty, h.pending, h.lc, h.vcount, h.pc, h.fifoA, h.fifoB, key⟩
    · exact h

theorem dmaPromote_inv {s : State} (h : Inv s) : Inv (dmaPromote s) :=
  dmaGrant_inv (inv_of_effect h (triggerAll_effect _ s) ((triggerAll_dirty _ s).trans h.dirty))

/-! ## The picture processor -/

theorem setPpu_inv {s : State} (p : Ppu) (h : Inv s) (ho : Memory.wf p.oamSnap = true) (hl : p.lc < 1232)
    (hv : p.vcount < 228) : Inv (setPpu p s) :=
  ⟨h.mem, h.shadow, ho, h.dirty, h.pending, hl, hv, h.pc, h.fifoA, h.fifoB, h.active⟩

theorem drawPixels_drew (n : Nat) : ∀ s, Drew s (drawPixels n s).2 := by
  induction n with
  | zero => exact Drew.refl
  | succ n ih =>
    intro s
    exact ((((draw_drew s).trans (draw_drew _)).trans (draw_drew _)).trans (draw_drew _)).trans (ih _)

/-- A rendered line changes the frame and the draws alone. -/
theorem renderLine_spec (y : Nat) (s : State) : ∃ n f, renderLine y s =
    { s with ppu := { s.ppu with frame := f }, draws := s.draws + n } := by
  unfold renderLine
  simp only
  split
  · obtain ⟨n, h⟩ := drawPixels_drew 240 s
    exact ⟨n, _, by rw [h]; rfl⟩
  · exact ⟨0, _, rfl⟩

theorem statusRise_effect (prev new enable : Bool) (k : Nat) (d : Option DmaStart) (s : State) :
    BusEffect s (statusRise prev new enable k d s) := by
  have h1 : BusEffect s (if enable then raiseIrq k s else s) := by
    split
    · exact raiseIrq_effect k s
    · exact .refl s
  unfold statusRise
  split
  · cases d with
    | none => exact h1
    | some d => exact h1.trans (triggerAll_effect _ _)
  · exact .refl s

theorem statusRise_dirty (prev new enable : Bool) (k : Nat) (d : Option DmaStart) (s : State) :
    (statusRise prev new enable k d s).dirty = s.dirty := by
  have h1 : (if enable then raiseIrq k s else s).dirty = s.dirty := by split <;> rfl
  unfold statusRise
  split
  · cases d with
    | none => exact h1
    | some d => exact (triggerAll_dirty _ _).trans h1
  · rfl

theorem updateStatus_inv {s : State} (h : Inv s) : Inv (updateStatus s) := by
  unfold updateStatus
  simp only
  have e1 := statusRise_effect (s.ppu.dispstat.getLsbD 0) (decide (160 ≤ s.ppu.vcount)) (s.ppu.dispstat.getLsbD 3) 0
    (some .vblank) s
  have i1 := inv_of_effect h e1 ((statusRise_dirty _ _ _ _ _ _).trans h.dirty)
  have i2 := inv_of_effect i1 (statusRise_effect (s.ppu.dispstat.getLsbD 1) (decide (960 ≤ s.ppu.lc))
    (s.ppu.dispstat.getLsbD 4) 1 (some .hblank) _) ((statusRise_dirty _ _ _ _ _ _).trans i1.dirty)
  have i3 := inv_of_effect i2 (statusRise_effect (s.ppu.dispstat.getLsbD 2)
    (decide (s.ppu.vcount = fieldOf s.ppu.dispstat 8 8)) (s.ppu.dispstat.getLsbD 5) 2 none _)
    ((statusRise_dirty _ _ _ _ _ _).trans i2.dirty)
  exact setPpu_inv _ i3 i3.oamSnap i3.lc i3.vcount

theorem ppuStep_inv {s : State} (h : Inv s) : Inv (ppuStep s) := by
  have hl := h.lc
  have hv := h.vcount
  unfold ppuStep
  simp only
  apply updateStatus_inv
  have step : ∀ u : State, Memory.wf u.mem = true → Memory.wf u.shadow = true → Memory.wf u.ppu.oamSnap = true →
      u.dirty = [] → u.pendingPC = none → u.ppu.lc = s.ppu.lc + 1 → u.ppu.vcount < 228 → pcAligned u → fifoFits u.fifoA →
      fifoFits u.fifoB → oneActive u → Inv (lineWrap u) := by
    intro u a1 a2 a3 a4 a5 a6 a7 a8 a9 a10 a11
    unfold lineWrap
    split
    · simp only
      split
      · exact ⟨a1, a2, Memory.shift_wf _ _ _ a1, a4, a5, (show 0 < 1232 by decide), Nat.mod_lt _ (by decide), a8, a9, a10, a11⟩
      · exact ⟨a1, a2, a3, a4, a5, (show 0 < 1232 by decide), Nat.mod_lt _ (by decide), a8, a9, a10, a11⟩
    · next hne => exact ⟨a1, a2, a3, a4, a5, by omega, a7, a8, a9, a10, a11⟩
  split
  · obtain ⟨n, f, e⟩ := renderLine_spec (setPpu { s.ppu with lc := s.ppu.lc + 1 } s).ppu.vcount
      (setPpu { s.ppu with lc := s.ppu.lc + 1 } s)
    rw [e]
    exact step _ h.mem h.shadow h.oamSnap h.dirty h.pending rfl hv h.pc h.fifoA h.fifoB h.active
  · exact step _ h.mem h.shadow h.oamSnap h.dirty h.pending rfl hv h.pc h.fifoA h.fifoB h.active

/-- The peripheral phases keep the invariant. -/
theorem peripheralStep_inv {s : State} (h : Inv s) : Inv (timersStep (ppuStep (dmaPromote s))) :=
  timersStep_inv (ppuStep_inv (dmaPromote_inv h))

/-! ## A DMA step -/

theorem dmaComplete_effect (i : Fin 4) (s : State) : BusEffect s (dmaComplete i s) := by
  have e : BusEffect s (if (getDma i s).irq then raiseIrq (8 + i.val) s else s) := by
    split
    · exact raiseIrq_effect _ s
    · exact .refl s
  unfold dmaComplete
  simp only
  generalize (if (getDma i s).irq then raiseIrq (8 + i.val) s else s) = u at e ⊢
  split
  · exact e.trans (setDma_effect i _ _ (by intro k; cases k))
  · exact e.trans (setDma_effect i _ _ (by intro k; cases k))

theorem dmaComplete_dirty (i : Fin 4) (s : State) : (dmaComplete i s).dirty = s.dirty := by
  have e : (if (getDma i s).irq then raiseIrq (8 + i.val) s else s).dirty = s.dirty := by split <;> rfl
  unfold dmaComplete
  simp only
  generalize (if (getDma i s).irq then raiseIrq (8 + i.val) s else s) = u at e ⊢
  split <;> exact e

theorem dmaUnitDone_effect (i : Fin 4) (s : State) : BusEffect s (dmaUnitDone i s) := by
  unfold dmaUnitDone
  simp only
  split
  · have e := setDma_effect i { getDma i s with
      curSrc := dmaAdjust (getDma i s).curSrc (getDma i s).size (getDma i s).srcStep
      curDst := dmaAdjust (getDma i s).curDst (getDma i s).size (getDma i s).dstStep
      count := (getDma i s).count - 1 } s id
    split
    · exact e.trans (dmaComplete_effect i _)
    · exact e
  · exact .refl s

theorem dmaUnitDone_dirty (i : Fin 4) (s : State) : (dmaUnitDone i s).dirty = s.dirty := by
  unfold dmaUnitDone
  simp only
  split
  · split
    · exact dmaComplete_dirty i _
    · rfl
  · rfl

/-- The copy of a unit reads, which may draw, and writes. -/
theorem dmaCopy_spec (c : DmaChannel) (s : State) :
    ∃ n, BusEffect { s with draws := s.draws + n } (dmaCopy c s) ∧ (dmaCopy c s).dirty = [] := by
  unfold dmaCopy
  split
  · obtain ⟨n, h⟩ := read32_drew (alignWord c.curSrc) s
    refine ⟨n, ?_, ioCommit_dirty _⟩
    simp only
    rw [h]
    exact write32_effect _ _ _
  · obtain ⟨n, h⟩ := read16_drew (alignHalf c.curSrc) s
    refine ⟨n, ?_, ioCommit_dirty _⟩
    simp only
    rw [h]
    exact write16_effect _ _ _

/-- A DMA step keeps the processor and, between steps, the invariant. -/
theorem dmaStep_spec (i : Fin 4) (s : State) :
    ∃ n, BusEffect { s with draws := s.draws + n } (dmaStep i s) ∧ (dmaStep i s).dirty = [] := by
  obtain ⟨n, e, d⟩ := dmaCopy_spec (getDma i s) s
  exact ⟨n, e.trans (dmaUnitDone_effect i _), by rw [dmaStep, dmaUnitDone_dirty]; exact d⟩

theorem dmaStep_inv {s : State} (i : Fin 4) (h : Inv s) : Inv (dmaStep i s) := by
  obtain ⟨n, e, d⟩ := dmaStep_spec i s
  exact inv_of_effect (s := { s with draws := s.draws + n })
    ⟨h.mem, h.shadow, h.oamSnap, h.dirty, h.pending, h.lc, h.vcount, h.pc, h.fifoA, h.fifoB, h.active⟩ e d

end Sys2Proof.Machine
end

