-- ==== Sys2Proof/Laws/Invariant.lean ====
section
/-! SUPPORT. The invariant inside an instruction: what holds between its effect and its end, and that each shared operation keeps it. -/

namespace Sys2Proof.Machine

open Sys2Proof.Safety

/-! ## Alignment -/

theorem low2_toNat (x : BitVec 32) : (x.extractLsb' 0 2).toNat = x.toNat % 4 := by
  simp [BitVec.extractLsb'_toNat]

theorem low2_add (x y : BitVec 32) : (x + y).extractLsb' 0 2 = x.extractLsb' 0 2 + y.extractLsb' 0 2 := by
  apply BitVec.eq_of_toNat_eq
  rw [BitVec.toNat_add, low2_toNat, low2_toNat, low2_toNat, BitVec.toNat_add]
  omega

theorem low2_word (v : BitVec 32) : (v &&& 0xFFFFFFFC#32).extractLsb' 0 2 = 0#2 := by
  apply BitVec.eq_of_getLsbD_eq
  intro k hk
  match k, hk with
  | 0, _ => simp
  | 1, _ => simp

theorem low1_toNat (x : BitVec 32) : x.getLsbD 0 = decide (x.toNat % 2 = 1) := by
  simp [BitVec.getLsbD, Nat.testBit_zero]

theorem low1_add (x y : BitVec 32) (h : y.toNat % 2 = 0) : (x + y).getLsbD 0 = x.getLsbD 0 := by
  rw [low1_toNat, low1_toNat, BitVec.toNat_add, decide_eq_decide]
  omega

theorem low1_half (v : BitVec 32) : (v &&& 0xFFFFFFFE#32).getLsbD 0 = false := by simp

/-! ## Between the effect of an instruction and its end -/

/-- The invariant while an instruction runs: R15 need be aligned only where no write of it is pending. -/
structure Midway (u : State) : Prop where
  mem : Memory.wf u.mem = true
  shadow : Memory.wf u.shadow = true
  oamSnap : Memory.wf u.ppu.oamSnap = true
  dirty : u.dirty = []
  lc : u.ppu.lc < 1232
  vcount : u.ppu.vcount < 228
  fifoA : fifoFits u.fifoA
  fifoB : fifoFits u.fifoB
  active : oneActive u
  pc : u.pendingPC = none → pcAligned u

theorem Midway.begin {s : State} (h : Inv s) : Midway { s with pendingPC := none } :=
  ⟨h.mem, h.shadow, h.oamSnap, h.dirty, h.lc, h.vcount, h.fifoA, h.fifoB, h.active, fun _ => h.pc⟩

theorem Midway.effect {s t : State} (h : Midway s) (e : BusEffect s t) (hd : t.dirty = []) : Midway t where
  mem := e.mem h.mem
  shadow := e.shadow h.shadow
  oamSnap := by rw [e.oamSnap]; exact h.oamSnap
  dirty := hd
  lc := by rw [e.lc]; exact h.lc
  vcount := by rw [e.vcount]; exact h.vcount
  fifoA := e.fifoA h.fifoA
  fifoB := e.fifoB h.fifoB
  active := fun i j hi hj => h.active i j (e.active i hi) (e.active j hj)
  pc := fun hp => by
    have := h.pc (by rw [← e.pendingPC]; exact hp)
    unfold pcAligned at *
    rw [e.cpsr, e.r15]
    exact this

theorem Midway.drew {s t : State} (h : Midway s) (d : Drew s t) : Midway t := by
  obtain ⟨n, rfl⟩ := d
  exact ⟨h.mem, h.shadow, h.oamSnap, h.dirty, h.lc, h.vcount, h.fifoA, h.fifoB, h.active, h.pc⟩

theorem Midway.writeRegIn {s : State} (h : Midway s) (m : Mode) (r : Reg) (v : Word) : Midway (writeRegIn m r v s) := by
  unfold Machine.writeRegIn
  split
  · exact ⟨h.mem, h.shadow, h.oamSnap, h.dirty, h.lc, h.vcount, h.fifoA, h.fifoB, h.active, fun e => by cases e⟩
  · exact ⟨h.mem, h.shadow, h.oamSnap, h.dirty, h.lc, h.vcount, h.fifoA, h.fifoB, h.active, h.pc⟩

theorem Midway.writeReg {s : State} (h : Midway s) (r : Reg) (v : Word) : Midway (writeReg r v s) := h.writeRegIn _ r v

/-- CPSR written with T as it was. -/
theorem Midway.setCpsr {s : State} (h : Midway s) (c : Cpsr) (ht : c.t = s.cpsr.t) : Midway (setCpsr c s) :=
  ⟨h.mem, h.shadow, h.oamSnap, h.dirty, h.lc, h.vcount, h.fifoA, h.fifoB, h.active, fun hp => by
    have := h.pc hp
    unfold pcAligned at *
    rw [show (Machine.setCpsr c s).cpsr.t = s.cpsr.t from ht]
    exact this⟩

/-- CPSR written with a write of R15 pending. -/
theorem Midway.setCpsr_pending {s : State} (h : Midway s) (c : Cpsr) (hp : s.pendingPC ≠ none) : Midway (Machine.setCpsr c s) :=
  ⟨h.mem, h.shadow, h.oamSnap, h.dirty, h.lc, h.vcount, h.fifoA, h.fifoB, h.active, fun e => absurd e hp⟩

theorem Midway.setSpsrOf {s : State} (h : Midway s) (m : Mode) (p : Spsr) : Midway (setSpsrOf m p s) := by
  cases m <;> exact ⟨h.mem, h.shadow, h.oamSnap, h.dirty, h.lc, h.vcount, h.fifoA, h.fifoB, h.active, h.pc⟩

theorem write8_dirty (a : Word) (b : Byte) (s : State) : (write8 a b s).dirty = [] := ioCommit_dirty _
theorem write16_dirty (a : Word) (v : Half) (s : State) : (write16 a v s).dirty = [] := ioCommit_dirty _
theorem write32_dirty (a v : Word) (s : State) : (write32 a v s).dirty = [] := ioCommit_dirty _

theorem Midway.storeWord {s : State} (h : Midway s) (a v : Word) : Midway (storeWord a v s) :=
  h.effect (storeWord_effect a v s) (write32_dirty _ _ _)
theorem Midway.storeHalf {s : State} (h : Midway s) (a v : Word) : Midway (storeHalf a v s) :=
  h.effect (storeHalf_effect a v s) (write16_dirty _ _ _)
theorem Midway.storeByte {s : State} (h : Midway s) (a v : Word) : Midway (storeByte a v s) :=
  h.effect (storeByte_effect a v s) (write8_dirty _ _ _)

theorem Midway.storeWords {s : State} (h : Midway s) (a : Word) (vs : List Word) : Midway (storeWords a vs s) := by
  induction vs generalizing a s with
  | nil => exact h
  | cons v vs ih => exact ih (h.storeWord a v) (a + 4#32)

theorem Midway.writeRegs {write : Reg → Word → State → State} (hw : ∀ r v s, Midway s → Midway (write r v s)) (rs : List Reg) :
    ∀ (vs : List Word) (s : State), Midway s → Midway (writeRegs write rs vs s) := by
  induction rs with
  | nil => intro vs s h; cases vs <;> exact h
  | cons r rs ih =>
    intro vs s h
    cases vs with
    | nil => exact h
    | cons v vs => exact ih vs _ (hw r v s h)

/-- The end of an instruction restores the invariant. -/
theorem Midway.finish {u : State} (h : Midway u) : Inv (finish u) := by
  obtain ⟨e, hr, ha⟩ := finish_spec u
  obtain ⟨d1, d2, d3, d4, d5, d6, d7, d8, d9, d10, d11, d12⟩ := e.devices
  refine ⟨by rw [e.mem]; exact h.mem, by rw [d1]; exact h.shadow, by rw [d6]; exact h.oamSnap, by rw [d2]; exact h.dirty, e.pending,
    by rw [d6]; exact h.lc, by rw [d6]; exact h.vcount, ?_, by rw [d8]; exact h.fifoA, by rw [d9]; exact h.fifoB, ?_⟩
  · cases hp : u.pendingPC with
    | some v =>
      have := (hr v hp).2.2
      unfold pcAligned
      rw [this]
      cases (Machine.finish u).cpsr.t
      · have : ((v &&& 0xFFFFFFFC#32) + 4#32 + 4#32).extractLsb' 0 2 = 0#2 := by
          rw [low2_add, low2_add, low2_word]; decide
        exact this
      · have : ((v &&& 0xFFFFFFFE#32) + 2#32 + 2#32).getLsbD 0 = false := by
          rw [low1_add _ _ (by decide), low1_add _ _ (by decide), low1_half]
        exact this
    | none =>
      have hq := h.pc hp
      have := (ha hp).2.2
      unfold pcAligned at *
      rw [this, e.cpsr]
      cases ht : u.cpsr.t
      · rw [ht] at hq
        have : (u.r15 + 4#32).extractLsb' 0 2 = 0#2 := by
          rw [low2_add, show u.r15.extractLsb' 0 2 = 0#2 from hq]; decide
        exact this
      · rw [ht] at hq
        have : (u.r15 + 2#32).getLsbD 0 = false := by
          rw [low1_add _ _ (by decide)]; exact hq
        exact this
  · intro i j hi hj
    unfold getDma at hi hj
    rw [d4] at hi hj
    exact h.active i j hi hj

/-! ## The shared operations -/

/-- An effect that keeps the invariant where it answers a next state. -/
def Keeps (body : State → Result) : Prop :=
  ∀ s u : State, Midway s → s.pendingPC = none → body s = .next u → Midway u

theorem runThumb_keepsInv {body : State → Result} (k : Keeps body) {s t : State} (h : Inv s) (e : runThumb body s = .next t) :
    Inv t := by
  obtain ⟨u, hu, rfl⟩ := runThumb_inv e
  exact (k _ u (Midway.begin h) rfl hu).finish

theorem runArm_keepsInv {c : Cond} {body : State → Result} (k : Keeps body) {s t : State} (h : Inv s)
    (e : runArm c body s = .next t) : Inv t := by
  rcases runArm_inv e with ⟨_, u, hu, rfl⟩ | ⟨_, rfl⟩
  · exact (k _ u (Midway.begin h) rfl hu).finish
  · exact (Midway.begin h).finish

theorem keeps_next {f : State → State} (k : ∀ s, Midway s → s.pendingPC = none → Midway (f s)) : Keeps (fun s => .next (f s)) := by
  intro s u h hp e
  cases e
  exact k s h hp

theorem keeps_fault (x : Fault) : Keeps (fun _ => .fault x) := by
  intro s u _ _ e
  cases e

theorem keeps_ite {p : State → Prop} [DecidablePred p] {a b : State → Result} (ha : Keeps a) (hb : Keeps b) :
    Keeps (fun s => if p s then a s else b s) := by
  intro s u h hp e
  by_cases c : p s
  · simp only [c, if_true] at e
    exact ha s u h hp e
  · simp only [c, if_false] at e
    exact hb s u h hp e

theorem Midway.setFlags {s : State} (h : Midway s) (r : AluResult) : Midway (setFlags r s) := h.setCpsr _ rfl
theorem Midway.setNZ {s : State} (h : Midway s) (n z : Bool) : Midway (setNZ n z s) := h.setCpsr _ rfl

theorem loadCpsr_midway {p : Spsr} {s u : State} (h : Midway s) (ht : p.t = s.cpsr.t ∨ s.pendingPC ≠ none)
    (e : loadCpsr p s = .next u) : Midway u := by
  unfold loadCpsr at e
  split at e
  · cases e
    rcases ht with ht | hp
    · exact h.setCpsr _ ht
    · exact h.setCpsr_pending _ hp
  · cases e

theorem restoreCpsr_midway {s u : State} (h : Midway s) (hp : s.pendingPC ≠ none) (e : restoreCpsr s = .next u) : Midway u := by
  unfold restoreCpsr at e
  split at e
  · cases e
  · exact loadCpsr_midway h (.inr hp) e

theorem dataProcess_keeps (sf : Bool) (rd : Reg) (r : State → AluResult) : Keeps (fun s => dataProcess sf rd (r s) s) := by
  intro s u h hp e
  unfold dataProcess writeAndFlag at e
  split at e
  · next c =>
    obtain ⟨_, rfl⟩ := c
    exact restoreCpsr_midway (h.writeReg _ _) (by intro q; cases q) e
  · split at e
    · cases e; exact (h.writeReg _ _).setFlags _
    · cases e; exact h.writeReg _ _

theorem transferLoad_keeps {load : Word → State → Word × State} (hl : ∀ a s, Drew s (load a s).2) (p u w : Bool) (rn rd : Reg)
    (off : State → Word) : Keeps (fun s => transferLoad load p u w rn rd (off s) s) := by
  intro s t h hp e
  unfold transferLoad at e
  split at e
  · cases e
  · cases e
    split
    · exact ((h.drew (hl _ s)).writeReg _ _).writeReg _ _
    · exact (h.drew (hl _ s)).writeReg _ _

theorem transferStore_keeps {store : Word → Word → State → State} (hs : ∀ a v s, Midway s → Midway (store a v s)) (p u w : Bool)
    (rn rd : Reg) (off : State → Word) : Keeps (fun s => transferStore store p u w rn rd (off s) s) := by
  intro s t h hp e
  unfold transferStore at e
  split at e
  · cases e
  · cases e
    split
    · exact (hs _ _ s h).writeReg _ _
    · exact hs _ _ s h

theorem thumbLoad_keeps {load : Word → State → Word × State} (hl : ∀ a s, Drew s (load a s).2) (rd : Reg) (a : State → Word) :
    Keeps (fun s => thumbLoad load rd (a s) s) :=
  keeps_next fun s h _ => (h.drew (hl _ s)).writeReg _ _

theorem thumbStore_keeps {store : Word → Word → State → State} (hs : ∀ a v s, Midway s → Midway (store a v s)) (rd : Reg)
    (a : State → Word) : Keeps (fun s => thumbStore store rd (a s) s) :=
  keeps_next fun s h _ => hs _ _ s h

theorem swapWith_keeps {load : Word → State → Word × State} {store : Word → Word → State → State}
    (hl : ∀ a s, Drew s (load a s).2) (hs : ∀ a v s, Midway s → Midway (store a v s)) (rn rd rm : Reg) :
    Keeps (swapWith load store rn rd rm) := by
  intro s t h hp e
  unfold swapWith at e
  split at e
  · cases e
  · cases e; exact (hs _ _ _ (h.drew (hl _ s))).writeReg _ _

theorem storeMultiple_keeps (get : Reg → State → Word) (p u w : Bool) (rn : Reg) (list : BitVec 16) :
    Keeps (storeMultiple get p u w rn list) := by
  intro s t h hp e
  unfold storeMultiple at e
  split at e
  · cases e
  · cases e
    split
    · exact (h.storeWords _ _).writeReg _ _
    · exact h.storeWords _ _

theorem loadMultiple_keeps {write : Reg → Word → State → State} (hw : ∀ r v s, Midway s → Midway (write r v s)) (p u w : Bool)
    (rn : Reg) (list : BitVec 16) : Keeps (loadMultiple write p u w rn list) := by
  intro s t h hp e
  unfold loadMultiple at e
  split at e
  · cases e
  · cases e
    refine Midway.writeRegs hw _ _ _ ?_
    split
    · exact (h.drew (loadWords_drew _ _ s)).writeReg _ _
    · exact h.drew (loadWords_drew _ _ s)

/-- A list of registers with R15 in it, each with a value, leaves a write of R15 pending. -/
theorem writeRegs_pending (rs : List Reg) : ∀ (vs : List Word) (s : State), rs.length = vs.length → (15#4 ∈ rs ∨ s.pendingPC ≠ none) →
    (writeRegs writeReg rs vs s).pendingPC ≠ none := by
  have one : ∀ (r : Reg) (v : Word) (s : State), (r = 15#4 ∨ s.pendingPC ≠ none) → (writeReg r v s).pendingPC ≠ none := by
    intro r v s h
    unfold writeReg writeRegIn
    split
    · intro e; cases e
    · next hr => exact h.resolve_left hr
  induction rs with
  | nil =>
    intro vs s _ h
    cases vs <;> exact h.resolve_left (by simp)
  | cons r rs ih =>
    intro vs s hl h
    cases vs with
    | nil => cases hl
    | cons v vs =>
      refine ih vs _ (by simpa using hl) ?_
      rcases h with h | h
      · rcases List.mem_cons.mp h with h | h
        · exact .inr (one r v s (.inl h.symm))
        · exact .inl h
      · exact .inr (one r v s (.inr h))

theorem loadMultipleUser_keeps (p u w : Bool) (rn : Reg) (list : BitVec 16) : Keeps (loadMultipleUser p u w rn list) := by
  intro s t h hp e
  unfold loadMultipleUser at e
  split at e
  · next hc =>
    unfold andThen at e
    split at e
    · next v hv =>
      refine restoreCpsr_midway (loadMultiple_keeps (fun r v s h => h.writeReg r v) p u w rn list s v h hp hv) ?_ e
      unfold loadMultiple at hv
      split at hv
      · cases hv
      · cases hv
        refine writeRegs_pending _ _ _ ?_ (.inl (by simpa using hc))
        exact (loadWords_length _ _ _).symm
    · cases e
    · cases e
  · exact loadMultiple_keeps (fun r v s h => h.writeRegIn .usr r v) p u w rn list s t h hp e

theorem writeProduct_keeps (sf : Bool) (rd : Reg) (r : State → Word) : Keeps (fun s => writeProduct sf rd (r s) s) := by
  refine keeps_next fun s h _ => ?_
  split
  · exact (h.writeReg _ _).setNZ _ _
  · exact h.writeReg _ _

theorem multiplyLong_keeps (f : Word → Word → BitVec 64 → BitVec 64) (sf : Bool) (hi lo rs rm : Reg) :
    Keeps (multiplyLong f sf hi lo rs rm) := by
  intro s t h hp e
  unfold multiplyLong writeLongProduct at e
  split at e
  · cases e
  · split at e
    · cases e
    · cases e
      split
      · exact ((h.writeReg _ _).writeReg _ _).setNZ _ _
      · exact (h.writeReg _ _).writeReg _ _

theorem writeCpsr_keeps (v : State → Word) (f : BitVec 4) : Keeps (fun s => writeCpsr (v s) f s) := by
  intro s u h hp e
  change (if _ ≠ s.cpsr.t then _ else _) = _ at e
  by_cases ht : (statusOfWord (mergeBits (cpsrWord s) (v s)
      (if privileged s.cpsr.mode then msrMask f else msrMask f &&& 0xF0000000#32))).t = s.cpsr.t
  · rw [if_neg (fun k => k ht)] at e
    exact loadCpsr_midway h (.inl ht) e
  · rw [if_pos ht] at e
    cases e

theorem writeSpsr_keeps (v : State → Word) (f : BitVec 4) : Keeps (fun s => writeSpsr (v s) f s) := by
  intro s u h hp e
  unfold writeSpsr at e
  simp only at e
  split at e
  · cases e
  · cases e; exact h.setSpsrOf _ _

theorem branchExchange_keeps (a : State → Word) : Keeps (fun s => branchExchange (a s) s) :=
  keeps_next fun s h _ =>
    ⟨h.mem, h.shadow, h.oamSnap, h.dirty, h.lc, h.vcount, h.fifoA, h.fifoB, h.active, fun e => by cases e⟩

theorem enterException_midway {s : State} (h : Midway s) (k : ExceptionKind) : Midway (enterException k s) := by
  cases k <;> exact ⟨h.mem, h.shadow, h.oamSnap, h.dirty, h.lc, h.vcount, h.fifoA, h.fifoB, h.active, fun e => by cases e⟩

theorem raiseException_keeps (k : ExceptionKind) : Keeps (raiseException k) :=
  keeps_next fun _ h _ => enterException_midway h k

end Sys2Proof.Machine
end

