-- ==== Sys2Proof/Laws/IoValues.lean ====
section
/-! SUPPORT. The value a commit leaves in each I/O register: a register's turn reaches that register alone, and merges the dirty
bytes of the shadow buffer into it (61_io_registers.md R952). -/

namespace Sys2Proof.Machine

open Sys2Proof.Safety

/-- Storing into one register changes the stored value of no other. -/
theorem ioSetStored_other {r r' : IoReg} (v : Word) (s : State) (h : r' ≠ r) : ioStored r' (ioSetStored r v s) = ioStored r' s := by
  cases r <;> cases r' <;>
    first
    | rfl
    | exact absurd rfl h
    | skip
  all_goals
    rename_i i j
    simp only [ioStored, ioSetStored, setPpu, setSound, setDma, getDma, setTimer, getTimer, vector_get_set]
    split
    · next e =>
      subst e
      first
      | exact absurd rfl h
      | rfl
    · rfl

/-- A channel whose four registers are kept leaves every stored value. -/
theorem setDma_stored (r : IoReg) (i : Fin 4) (c : DmaChannel) (s : State)
    (h : c.sad = (getDma i s).sad ∧ c.dad = (getDma i s).dad ∧ c.cntL = (getDma i s).cntL ∧ c.cntH = (getDma i s).cntH) :
    ioStored r (setDma i c s) = ioStored r s := by
  have (j : Fin 4) : (getDma j (setDma i c s)).sad = (getDma j s).sad ∧ (getDma j (setDma i c s)).dad = (getDma j s).dad ∧
      (getDma j (setDma i c s)).cntL = (getDma j s).cntL ∧ (getDma j (setDma i c s)).cntH = (getDma j s).cntH := by
    by_cases e : j = i
    · subst e; rw [getDma_setDma]; exact h
    · rw [getDma_setDma_ne e]; exact ⟨rfl, rfl, rfl, rfl⟩
  cases r <;> first | rfl | simp only [ioStored, this]

theorem triggerIf_stored (r : IoReg) (p : Fin 4 → State → Bool) (i : Fin 4) (s : State) :
    ioStored r (triggerIf p i s) = ioStored r s := by
  unfold triggerIf
  split
  · apply setDma_stored
    unfold dmaTrigger
    split <;> exact ⟨rfl, rfl, rfl, rfl⟩
  · rfl

theorem fifoReset_stored (r : IoReg) (d : FifoId) (s : State) : ioStored r (fifoReset d s) = ioStored r s := by
  simp only [fifoReset, triggerAll, triggerIf_stored]
  cases d <;> cases r <;> rfl

theorem dmaEnable_stored (r : IoReg) (i : Fin 4) (a b : Half) (s : State) :
    ioStored r (setDma i (dmaEnableChange i a b (getDma i s)) s) = ioStored r s := by
  apply setDma_stored
  unfold dmaEnableChange
  split <;> exact ⟨rfl, rfl, rfl, rfl⟩

theorem timerEnable_stored (r : IoReg) (i : Fin 4) (a b : Half) (s : State) :
    ioStored r (setTimer i (timerEnableChange a b (getTimer i s)) s) = ioStored r s := by
  cases r <;> first | rfl | skip
  all_goals
    rename_i j
    simp only [ioStored, setTimer, getTimer, vector_get_set, timerEnableChange]
    split
    · next e => subst e; split <;> rfl
    · rfl

theorem setFifo_stored (r : IoReg) (d : FifoId) (f : Fifo) (s : State) : ioStored r (setFifo d f s) = ioStored r s := by
  cases d <;> cases r <;> rfl

/-- The value a register's turn leaves: its merge, but for IF. -/
theorem ioCommitReg_stored (r r' : IoReg) (v m : Word) (s : State) (h : r ≠ .ifl) :
    ioStored r' (ioCommitReg r v m s) = ioStored r' (ioSetStored r (ioMerge r (ioStored r s) v m) s) := by
  cases r with
  | ifl => exact absurd rfl h
  | dmaCntH i => exact dmaEnable_stored _ _ _ _ _
  | tmCntH i => exact timerEnable_stored _ _ _ _ _
  | fifo d => exact setFifo_stored _ _ _ _
  | soundcntH =>
    unfold ioCommitReg
    dsimp only
    split <;> split <;> simp only [fifoReset_stored]
  | _ => rfl

/-- A register's turn changes the stored value of no other register. -/
theorem ioCommitOne_other {r r' : IoReg} (s : State) (h : r' ≠ r) : ioStored r' (ioCommitOne s r) = ioStored r' s := by
  unfold ioCommitOne
  dsimp only
  split
  · rfl
  · by_cases e : r = .ifl
    · subst e
      cases r' <;> first | rfl | exact absurd rfl h
    · rw [ioCommitReg_stored _ _ _ _ _ e, ioSetStored_other _ _ h]

/-- The mask of a register of two bytes has no bit above them. -/
theorem ioMask_half (r : IoReg) (s : State) (h : ioWidth r ≠ 4) : ioMask r s = wide (narrow (ioMask r s)) := by
  unfold ioMask
  rw [if_neg h]
  dsimp only
  split <;> split <;> decide

/-- Storing a value in a register leaves that value in it, cut to its width; the read-only registers and the FIFO ports keep theirs. -/
theorem ioSetStored_self (r : IoReg) (v : Word) (s : State) :
    ioStored r (ioSetStored r v s) =
      match r with
      | .vcount | .keyinput | .fifo _ => ioStored r s
      | r => if ioWidth r = 4 then v else wide (narrow v) := by
  cases r <;>
    first
    | rfl
    | simp [ioStored, ioSetStored, ioWidth, setPpu, setSound, setDma, getDma, setTimer, getTimer, vector_get_set]

/-- A register of two bytes holds no bit above them. -/
theorem ioStored_half (r : IoReg) (s : State) (h : ioWidth r ≠ 4) (hv : r ≠ .vcount) :
    ioStored r s = wide (narrow (ioStored r s)) := by
  have e : ∀ o : Half, wide o = wide (narrow (wide o)) := by intro o; simp [wide, narrow]
  cases r <;> first | exact absurd rfl h | exact absurd rfl hv | exact e _ | skip
  simp [ioStored, wide, narrow]

theorem narrow_bit (w : Word) (k : Nat) (hk : k < 32) :
    (wide (narrow w)).getLsbD k = (decide (k < 16) && w.getLsbD k) := by
  by_cases h : k < 16 <;> simp [wide, narrow, h, hk]

/-- A merge into a halfword is the merge on words. -/
theorem wide_merge (o m v w : Word) (ho : o = wide (narrow o)) (hm : m = wide (narrow m)) :
    wide (narrow ((o &&& ~~~(m &&& w)) ||| (v &&& m &&& w))) = (v &&& (m &&& w)) ||| (o &&& ~~~(m &&& w)) := by
  apply BitVec.eq_of_getLsbD_eq
  intro k hk
  have eo := congrArg (fun x => x.getLsbD k) ho
  have em := congrArg (fun x => x.getLsbD k) hm
  simp only [narrow_bit _ _ hk] at eo em
  rw [narrow_bit _ _ hk]
  simp only [BitVec.getLsbD_or, BitVec.getLsbD_and, BitVec.getLsbD_not, hk, decide_true, Bool.true_and]
  rw [eo, em]
  cases decide (k < 16) <;> simp [Bool.or_comm, Bool.and_assoc]

theorem and_half (m : Word) (hm : m = wide (narrow m)) : m &&& 0xFFFF#32 = m := by
  rw [hm]
  apply BitVec.eq_of_getLsbD_eq
  intro k hk
  rw [BitVec.getLsbD_and, narrow_bit _ _ hk]
  by_cases h : k < 16
  · have : ∀ j < 16, (0xFFFF#32).getLsbD j = true := by decide
    rw [this k h, Bool.and_true]
  · simp [h]

theorem wide_clear (o v m : Word) (ho : o = wide (narrow o)) : wide (narrow o &&& ~~~narrow (v &&& m)) = o &&& ~~~(v &&& m) := by
  apply BitVec.eq_of_getLsbD_eq
  intro k hk
  have eo := congrArg (fun x => x.getLsbD k) ho
  simp only [narrow_bit _ _ hk] at eo
  rw [BitVec.getLsbD_and, eo]
  by_cases h : k < 16
  · simp [wide, narrow, h, hk]
  · simp [wide, narrow, h]

/-- What a register's turn leaves in it. -/
theorem ioCommitOne_self (r : IoReg) (s : State) :
    ioStored r (ioCommitOne s r) = writtenValue r (ioStored r s) (ioShadow r s) (ioMask r s) := by
  have hm := ioMask_half r s
  have ho := ioStored_half r s
  unfold ioCommitOne
  dsimp only
  generalize ioMask r s = m at hm
  generalize ioShadow r s = v
  have zero : ∀ w o : Word, (v &&& (0#32 &&& w)) ||| (o &&& ~~~(0#32 &&& w)) = o := by
    intro w o
    rw [BitVec.zero_and, BitVec.and_zero, BitVec.zero_or]
    exact BitVec.and_allOnes
  split
  · next h =>
    subst h
    unfold writtenValue
    dsimp only
    split
    · rfl
    · rfl
    · rfl
    · exact (zero _ _).symm
    · rw [BitVec.and_zero]
      exact BitVec.and_allOnes.symm
    · have := zero 0#32 (ioStored r s)
      rw [BitVec.zero_and] at this
      exact this.symm
  · by_cases e : r = .ifl
    · subst e
      have := wide_clear (wide s.irq.ifl) v m (ho (by decide) (by decide))
      rwa [show narrow (wide s.irq.ifl) = s.irq.ifl by simp [wide, narrow]] at this
    · rw [ioCommitReg_stored _ _ _ _ _ e, ioSetStored_self]
      cases r with
      | vcount | keyinput | fifo => rfl
      | ifl => exact absurd rfl e
      | bg2x | bg2y | bg3x | bg3y | dmaSad | dmaDad =>
        simp only [ioWidth, if_true, ioMerge, ioWritable, writtenValue, show (0xFFFFFFFF#32 : Word) = BitVec.allOnes 32 from rfl,
          BitVec.and_allOnes]
        rw [BitVec.or_comm]
      | dispstat => exact wide_merge _ _ _ _ (ho (by decide) (by decide)) (hm (by decide))
      | _ =>
        have hm' := hm (by simp only [ioWidth]; decide)
        have := wide_merge _ _ v 0xFFFF#32 (ho (by simp only [ioWidth]; decide) (by simp)) hm'
        rw [and_half m hm'] at this
        simpa only [ioWidth, ioMerge, ioWritable, writtenValue, BitVec.and_assoc, and_half m hm', show ¬(2 = 4) by decide,
          if_false] using this

/-- Turns of other registers leave a register's value, and so its own turn, alone. -/
theorem ioCommit_fold_stored (rs : List IoReg) (r : IoReg) : ∀ s, r ∉ rs → ioStored r (rs.foldl ioCommitOne s) = ioStored r s := by
  induction rs with
  | nil => exact fun _ _ => rfl
  | cons r' rs ih =>
    intro s h
    rw [List.foldl_cons, ih _ (fun e => h (List.mem_cons_of_mem _ e)),
      ioCommitOne_other s (List.ne_of_not_mem_cons h)]

theorem ioCommit_fold_io (rs : List IoReg) :
    ∀ s, (rs.foldl ioCommitOne s).shadow = s.shadow ∧ (rs.foldl ioCommitOne s).dirty = s.dirty := by
  induction rs with
  | nil => exact fun _ => ⟨rfl, rfl⟩
  | cons r rs ih => exact fun s => ⟨(ih _).1.trans (ioCommitOne_io s r).1, (ih _).2.trans (ioCommitOne_io s r).2⟩

/-- What a commit leaves in each register: the dirty bytes of the shadow buffer, merged. -/
theorem ioStored_ioCommit (r : IoReg) (s : State) :
    ioStored r (ioCommit s) = writtenValue r (ioStored r s) (ioShadow r s) (ioMask r s) := by
  unfold ioCommit
  split
  · next h =>
    have : ioMask r s = 0#32 := ioMask_clean r s (by simp [h])
    have e := ioCommitOne_self r s
    rw [← e, ioCommitOne]
    simp only [this, if_true]
  · obtain ⟨pre, post, e⟩ := List.append_of_mem (mem_allIoRegs r)
    have p := ioRegs_disjoint
    rw [e, List.pairwise_append, List.pairwise_cons] at p
    have pos : 0 < ioWidth r := by unfold ioWidth; split <;> decide
    have h1 : r ∉ pre := fun h => by have := p.2.2 r h r List.mem_cons_self; omega
    have h2 : r ∉ post := fun h => by have := p.2.1.1 r h; omega
    show ioStored r (allIoRegs.foldl ioCommitOne s) = _
    rw [e, List.foldl_append, List.foldl_cons, ioCommit_fold_stored post r _ h2, ioCommitOne_self,
      ioCommit_fold_stored pre r _ h1]
    have io := ioCommit_fold_io pre s
    unfold ioShadow ioMask isDirty
    rw [io.1, io.2]

end Sys2Proof.Machine
end

