-- ==== Sys2Proof/Laws/PerInstr.lean ====
section
/-! SUPPORT. What is said of every instruction, constructor by constructor: its code has the fixed bits of its row of
spec/opcode_table.json. -/

namespace Sys2Proof.Laws.TableRow

/-- The fixed bits of a row: which they are and what they hold. -/
inductive Row where
  | arm (mask pattern : Word)
  | thumb (mask pattern : Half)
deriving DecidableEq, Repr

/-- Whether a code has a row's fixed bits. -/
def Row.selects : Row → Code → Prop
  | .arm m p, .arm w => w &&& m = p
  | .thumb m p, .thumb h => h &&& m = p
  | _, _ => False

/-- The row of an instruction, in the table's own numbers. -/
def row : Instr → Row
  | .bx _ _ => .arm 0x0FFFFFF0#32 0x012FFF10#32
  | .stmda _ _ _ _ => .arm 0x0FD00000#32 0x08000000#32
  | .stmia _ _ _ _ => .arm 0x0FD00000#32 0x08800000#32
  | .stmdb _ _ _ _ => .arm 0x0FD00000#32 0x09000000#32
  | .stmib _ _ _ _ => .arm 0x0FD00000#32 0x09800000#32
  | .stmdaUser _ _ _ _ => .arm 0x0FD00000#32 0x08400000#32
  | .stmiaUser _ _ _ _ => .arm 0x0FD00000#32 0x08C00000#32
  | .stmdbUser _ _ _ _ => .arm 0x0FD00000#32 0x09400000#32
  | .stmibUser _ _ _ _ => .arm 0x0FD00000#32 0x09C00000#32
  | .ldmda _ _ _ _ => .arm 0x0FD00000#32 0x08100000#32
  | .ldmia _ _ _ _ => .arm 0x0FD00000#32 0x08900000#32
  | .ldmdb _ _ _ _ => .arm 0x0FD00000#32 0x09100000#32
  | .ldmib _ _ _ _ => .arm 0x0FD00000#32 0x09900000#32
  | .ldmdaUser _ _ _ _ => .arm 0x0FD00000#32 0x08500000#32
  | .ldmiaUser _ _ _ _ => .arm 0x0FD00000#32 0x08D00000#32
  | .ldmdbUser _ _ _ _ => .arm 0x0FD00000#32 0x09500000#32
  | .ldmibUser _ _ _ _ => .arm 0x0FD00000#32 0x09D00000#32
  | .b _ _ => .arm 0x0F000000#32 0x0A000000#32
  | .bl _ _ => .arm 0x0F000000#32 0x0B000000#32
  | .swi _ _ => .arm 0x0F000000#32 0x0F000000#32
  | .undefined _ _ _ => .arm 0x0E000010#32 0x06000010#32
  | .ldcStc _ _ => .arm 0x0E000000#32 0x0C000000#32
  | .cdpMcrMrc _ _ => .arm 0x0F000000#32 0x0E000000#32
  | .ldrt _ _ _ _ _ => .arm 0x0D700000#32 0x04300000#32
  | .strt _ _ _ _ _ => .arm 0x0D700000#32 0x04200000#32
  | .ldrbt _ _ _ _ _ => .arm 0x0D700000#32 0x04700000#32
  | .strbt _ _ _ _ _ => .arm 0x0D700000#32 0x04600000#32
  | .ldr _ _ _ _ _ _ _ => .arm 0x0C500000#32 0x04100000#32
  | .ldrb _ _ _ _ _ _ _ => .arm 0x0C500000#32 0x04500000#32
  | .str _ _ _ _ _ _ _ => .arm 0x0C500000#32 0x04000000#32
  | .strb _ _ _ _ _ _ _ => .arm 0x0C500000#32 0x04400000#32
  | .swp _ _ _ _ => .arm 0x0FF00FF0#32 0x01000090#32
  | .swpb _ _ _ _ => .arm 0x0FF00FF0#32 0x01400090#32
  | .mul _ _ _ _ _ _ => .arm 0x0FE000F0#32 0x00000090#32
  | .mla _ _ _ _ _ _ => .arm 0x0FE000F0#32 0x00200090#32
  | .umull _ _ _ _ _ _ => .arm 0x0FE000F0#32 0x00800090#32
  | .umlal _ _ _ _ _ _ => .arm 0x0FE000F0#32 0x00A00090#32
  | .smull _ _ _ _ _ _ => .arm 0x0FE000F0#32 0x00C00090#32
  | .smlal _ _ _ _ _ _ => .arm 0x0FE000F0#32 0x00E00090#32
  | .ldrh _ _ _ _ _ _ _ => .arm 0x0E1000F0#32 0x001000B0#32
  | .strh _ _ _ _ _ _ _ => .arm 0x0E1000F0#32 0x000000B0#32
  | .ldrsb _ _ _ _ _ _ _ => .arm 0x0E1000F0#32 0x001000D0#32
  | .ldrsh _ _ _ _ _ _ _ => .arm 0x0E1000F0#32 0x001000F0#32
  | .mrsCpsr _ _ => .arm 0x0FFF0FFF#32 0x010F0000#32
  | .mrsSpsr _ _ => .arm 0x0FFF0FFF#32 0x014F0000#32
  | .msrCpsrReg _ _ _ => .arm 0x0FF0FFF0#32 0x0120F000#32
  | .msrSpsrReg _ _ _ => .arm 0x0FF0FFF0#32 0x0160F000#32
  | .msrCpsrImm _ _ _ _ => .arm 0x0FF0F000#32 0x0320F000#32
  | .msrSpsrImm _ _ _ _ => .arm 0x0FF0F000#32 0x0360F000#32
  | .unallocMulSpace _ _ _ _ => .arm 0x0E000090#32 0x00000090#32
  | .unallocPsrSpace _ _ _ _ => .arm 0x0D900000#32 0x01000000#32
  | .and _ _ _ _ _ => .arm 0x0DE00000#32 0x00000000#32
  | .eor _ _ _ _ _ => .arm 0x0DE00000#32 0x00200000#32
  | .sub _ _ _ _ _ => .arm 0x0DE00000#32 0x00400000#32
  | .rsb _ _ _ _ _ => .arm 0x0DE00000#32 0x00600000#32
  | .add _ _ _ _ _ => .arm 0x0DE00000#32 0x00800000#32
  | .adc _ _ _ _ _ => .arm 0x0DE00000#32 0x00A00000#32
  | .sbc _ _ _ _ _ => .arm 0x0DE00000#32 0x00C00000#32
  | .rsc _ _ _ _ _ => .arm 0x0DE00000#32 0x00E00000#32
  | .tst _ _ _ _ => .arm 0x0DF00000#32 0x01100000#32
  | .teq _ _ _ _ => .arm 0x0DF00000#32 0x01300000#32
  | .cmp _ _ _ _ => .arm 0x0DF00000#32 0x01500000#32
  | .cmn _ _ _ _ => .arm 0x0DF00000#32 0x01700000#32
  | .orr _ _ _ _ _ => .arm 0x0DE00000#32 0x01800000#32
  | .mov _ _ _ _ _ => .arm 0x0DE00000#32 0x01A00000#32
  | .bic _ _ _ _ _ => .arm 0x0DE00000#32 0x01C00000#32
  | .mvn _ _ _ _ _ => .arm 0x0DE00000#32 0x01E00000#32
  | .tLslImm _ _ _ => .thumb 0xF800#16 0x0000#16
  | .tLsrImm _ _ _ => .thumb 0xF800#16 0x0800#16
  | .tAsrImm _ _ _ => .thumb 0xF800#16 0x1000#16
  | .tAddReg _ _ _ => .thumb 0xFE00#16 0x1800#16
  | .tSubReg _ _ _ => .thumb 0xFE00#16 0x1A00#16
  | .tAddImm3 _ _ _ => .thumb 0xFE00#16 0x1C00#16
  | .tSubImm3 _ _ _ => .thumb 0xFE00#16 0x1E00#16
  | .tMovImm8 _ _ => .thumb 0xF800#16 0x2000#16
  | .tCmpImm8 _ _ => .thumb 0xF800#16 0x2800#16
  | .tAddImm8 _ _ => .thumb 0xF800#16 0x3000#16
  | .tSubImm8 _ _ => .thumb 0xF800#16 0x3800#16
  | .tAnd _ _ => .thumb 0xFFC0#16 0x4000#16
  | .tEor _ _ => .thumb 0xFFC0#16 0x4040#16
  | .tLslReg _ _ => .thumb 0xFFC0#16 0x4080#16
  | .tLsrReg _ _ => .thumb 0xFFC0#16 0x40C0#16
  | .tAsrReg _ _ => .thumb 0xFFC0#16 0x4100#16
  | .tAdc _ _ => .thumb 0xFFC0#16 0x4140#16
  | .tSbc _ _ => .thumb 0xFFC0#16 0x4180#16
  | .tRorReg _ _ => .thumb 0xFFC0#16 0x41C0#16
  | .tTst _ _ => .thumb 0xFFC0#16 0x4200#16
  | .tNeg _ _ => .thumb 0xFFC0#16 0x4240#16
  | .tCmpReg _ _ => .thumb 0xFFC0#16 0x4280#16
  | .tCmn _ _ => .thumb 0xFFC0#16 0x42C0#16
  | .tOrr _ _ => .thumb 0xFFC0#16 0x4300#16
  | .tMul _ _ => .thumb 0xFFC0#16 0x4340#16
  | .tBic _ _ => .thumb 0xFFC0#16 0x4380#16
  | .tMvn _ _ => .thumb 0xFFC0#16 0x43C0#16
  | .tAddHi _ _ => .thumb 0xFF00#16 0x4400#16
  | .tCmpHi _ _ => .thumb 0xFF00#16 0x4500#16
  | .tMovHi _ _ => .thumb 0xFF00#16 0x4600#16
  | .tBx _ _ => .thumb 0xFF00#16 0x4700#16
  | .tLdrPc _ _ => .thumb 0xF800#16 0x4800#16
  | .tStrReg _ _ _ => .thumb 0xFE00#16 0x5000#16
  | .tStrbReg _ _ _ => .thumb 0xFE00#16 0x5400#16
  | .tLdrReg _ _ _ => .thumb 0xFE00#16 0x5800#16
  | .tLdrbReg _ _ _ => .thumb 0xFE00#16 0x5C00#16
  | .tStrhReg _ _ _ => .thumb 0xFE00#16 0x5200#16
  | .tLdsbReg _ _ _ => .thumb 0xFE00#16 0x5600#16
  | .tLdrhReg _ _ _ => .thumb 0xFE00#16 0x5A00#16
  | .tLdshReg _ _ _ => .thumb 0xFE00#16 0x5E00#16
  | .tStrImm _ _ _ => .thumb 0xF800#16 0x6000#16
  | .tLdrImm _ _ _ => .thumb 0xF800#16 0x6800#16
  | .tStrbImm _ _ _ => .thumb 0xF800#16 0x7000#16
  | .tLdrbImm _ _ _ => .thumb 0xF800#16 0x7800#16
  | .tStrhImm _ _ _ => .thumb 0xF800#16 0x8000#16
  | .tLdrhImm _ _ _ => .thumb 0xF800#16 0x8800#16
  | .tStrSp _ _ => .thumb 0xF800#16 0x9000#16
  | .tLdrSp _ _ => .thumb 0xF800#16 0x9800#16
  | .tAddPc _ _ => .thumb 0xF800#16 0xA000#16
  | .tAddSp _ _ => .thumb 0xF800#16 0xA800#16
  | .tAddSpImm _ => .thumb 0xFF80#16 0xB000#16
  | .tSubSpImm _ => .thumb 0xFF80#16 0xB080#16
  | .tPush _ _ => .thumb 0xFE00#16 0xB400#16
  | .tPop _ _ => .thumb 0xFE00#16 0xBC00#16
  | .tStmia _ _ => .thumb 0xF800#16 0xC000#16
  | .tLdmia _ _ => .thumb 0xF800#16 0xC800#16
  | .tUndefDE _ => .thumb 0xFF00#16 0xDE00#16
  | .tUndefE8 _ => .thumb 0xF800#16 0xE800#16
  | .tUndefB1 _ => .thumb 0xFF00#16 0xB100#16
  | .tUndefB2 _ => .thumb 0xFE00#16 0xB200#16
  | .tUndefB6 _ => .thumb 0xFE00#16 0xB600#16
  | .tUndefB8 _ => .thumb 0xFC00#16 0xB800#16
  | .tUndefBE _ => .thumb 0xFE00#16 0xBE00#16
  | .tSwi _ => .thumb 0xFF00#16 0xDF00#16
  | .tBCond _ _ => .thumb 0xF000#16 0xD000#16
  | .tB _ => .thumb 0xF800#16 0xE000#16
  | .tBlFirst _ => .thumb 0xF800#16 0xF000#16
  | .tBlSecond _ => .thumb 0xF800#16 0xF800#16

/-- The code of an instruction has the fixed bits of its row. -/
def Statement (i : Instr) : Prop := (row i).selects (encode i)


/-- The fixed bits of a concatenation are those of its parts. -/
theorem append_and {a b : Nat} (x : BitVec a) (y : BitVec b) {m p : BitVec (a + b)}
    (hx : x &&& m.extractLsb' b a = p.extractLsb' b a) (hy : y &&& m.extractLsb' 0 b = p.extractLsb' 0 b) :
    (x ++ y) &&& m = p := by
  apply BitVec.eq_of_getLsbD_eq
  intro k hk
  have h0 := congrArg (fun z : BitVec b => z.getLsbD k) hy
  have h1 := congrArg (fun z : BitVec a => z.getLsbD (k - b)) hx
  simp only [BitVec.getLsbD_and, BitVec.getLsbD_append, BitVec.getLsbD_extractLsb'] at h0 h1 ⊢
  by_cases h : k < b
  · simpa [h] using h0
  · have e : b + (k - b) = k := by omega
    have l : k - b < a := by omega
    simpa [h, e, l] using h1

/-- A field has no fixed bit. -/
theorem field_and {n : Nat} (x : BitVec n) {m p : BitVec n} (hm : m = 0#n) (hp : p = 0#n) : x &&& m = p := by
  subst hm hp; simp

theorem bx (c : Cond) (rn : Reg) : Statement (.bx c rn) := by
  show _ &&& _ = _
  repeat' first | rfl | exact field_and _ rfl rfl | apply append_and
theorem stmda (c : Cond) (w : Bool) (rn : Reg) (list : BitVec 16) : Statement (.stmda c w rn list) := by
  show _ &&& _ = _
  repeat' first | rfl | exact field_and _ rfl rfl | apply append_and
theorem stmia (c : Cond) (w : Bool) (rn : Reg) (list : BitVec 16) : Statement (.stmia c w rn list) := by
  show _ &&& _ = _
  repeat' first | rfl | exact field_and _ rfl rfl | apply append_and
theorem stmdb (c : Cond) (w : Bool) (rn : Reg) (list : BitVec 16) : Statement (.stmdb c w rn list) := by
  show _ &&& _ = _
  repeat' first | rfl | exact field_and _ rfl rfl | apply append_and
theorem stmib (c : Cond) (w : Bool) (rn : Reg) (list : BitVec 16) : Statement (.stmib c w rn list) := by
  show _ &&& _ = _
  repeat' first | rfl | exact field_and _ rfl rfl | apply append_and
theorem stmdaUser (c : Cond) (w : Bool) (rn : Reg) (list : BitVec 16) : Statement (.stmdaUser c w rn list) := by
  show _ &&& _ = _
  repeat' first | rfl | exact field_and _ rfl rfl | apply append_and
theorem stmiaUser (c : Cond) (w : Bool) (rn : Reg) (list : BitVec 16) : Statement (.stmiaUser c w rn list) := by
  show _ &&& _ = _
  repeat' first | rfl | exact field_and _ rfl rfl | apply append_and
theorem stmdbUser (c : Cond) (w : Bool) (rn : Reg) (list : BitVec 16) : Statement (.stmdbUser c w rn list) := by
  show _ &&& _ = _
  repeat' first | rfl | exact field_and _ rfl rfl | apply append_and
theorem stmibUser (c : Cond) (w : Bool) (rn : Reg) (list : BitVec 16) : Statement (.stmibUser c w rn list) := by
  show _ &&& _ = _
  repeat' first | rfl | exact field_and _ rfl rfl | apply append_and
theorem ldmda (c : Cond) (w : Bool) (rn : Reg) (list : BitVec 16) : Statement (.ldmda c w rn list) := by
  show _ &&& _ = _
  repeat' first | rfl | exact field_and _ rfl rfl | apply append_and
theorem ldmia (c : Cond) (w : Bool) (rn : Reg) (list : BitVec 16) : Statement (.ldmia c w rn list) := by
  show _ &&& _ = _
  repeat' first | rfl | exact field_and _ rfl rfl | apply append_and
theorem ldmdb (c : Cond) (w : Bool) (rn : Reg) (list : BitVec 16) : Statement (.ldmdb c w rn list) := by
  show _ &&& _ = _
  repeat' first | rfl | exact field_and _ rfl rfl | apply append_and
theorem ldmib (c : Cond) (w : Bool) (rn : Reg) (list : BitVec 16) : Statement (.ldmib c w rn list) := by
  show _ &&& _ = _
  repeat' first | rfl | exact field_and _ rfl rfl | apply append_and
theorem ldmdaUser (c : Cond) (w : Bool) (rn : Reg) (list : BitVec 16) : Statement (.ldmdaUser c w rn list) := by
  show _ &&& _ = _
  repeat' first | rfl | exact field_and _ rfl rfl | apply append_and
theorem ldmiaUser (c : Cond) (w : Bool) (rn : Reg) (list : BitVec 16) : Statement (.ldmiaUser c w rn list) := by
  show _ &&& _ = _
  repeat' first | rfl | exact field_and _ rfl rfl | apply append_and
theorem ldmdbUser (c : Cond) (w : Bool) (rn : Reg) (list : BitVec 16) : Statement (.ldmdbUser c w rn list) := by
  show _ &&& _ = _
  repeat' first | rfl | exact field_and _ rfl rfl | apply append_and
theorem ldmibUser (c : Cond) (w : Bool) (rn : Reg) (list : BitVec 16) : Statement (.ldmibUser c w rn list) := by
  show _ &&& _ = _
  repeat' first | rfl | exact field_and _ rfl rfl | apply append_and
theorem b (c : Cond) (offset24 : BitVec 24) : Statement (.b c offset24) := by
  show _ &&& _ = _
  repeat' first | rfl | exact field_and _ rfl rfl | apply append_and
theorem bl (c : Cond) (offset24 : BitVec 24) : Statement (.bl c offset24) := by
  show _ &&& _ = _
  repeat' first | rfl | exact field_and _ rfl rfl | apply append_and
theorem swi (c : Cond) (comment24 : BitVec 24) : Statement (.swi c comment24) := by
  show _ &&& _ = _
  repeat' first | rfl | exact field_and _ rfl rfl | apply append_and
theorem undefined (c : Cond) (bits24to5 : BitVec 20) (bits3to0 : BitVec 4) : Statement (.undefined c bits24to5 bits3to0) := by
  show _ &&& _ = _
  repeat' first | rfl | exact field_and _ rfl rfl | apply append_and
theorem ldcStc (c : Cond) (bits24to0 : BitVec 25) : Statement (.ldcStc c bits24to0) := by
  show _ &&& _ = _
  repeat' first | rfl | exact field_and _ rfl rfl | apply append_and
theorem cdpMcrMrc (c : Cond) (bits23to0 : BitVec 24) : Statement (.cdpMcrMrc c bits23to0) := by
  show _ &&& _ = _
  repeat' first | rfl | exact field_and _ rfl rfl | apply append_and
theorem ldrt (c : Cond) (u : Bool) (rn rd : Reg) (offset : Offset) : Statement (.ldrt c u rn rd offset) := by
  show _ &&& _ = _
  repeat' first | rfl | exact field_and _ rfl rfl | apply append_and
theorem strt (c : Cond) (u : Bool) (rn rd : Reg) (offset : Offset) : Statement (.strt c u rn rd offset) := by
  show _ &&& _ = _
  repeat' first | rfl | exact field_and _ rfl rfl | apply append_and
theorem ldrbt (c : Cond) (u : Bool) (rn rd : Reg) (offset : Offset) : Statement (.ldrbt c u rn rd offset) := by
  show _ &&& _ = _
  repeat' first | rfl | exact field_and _ rfl rfl | apply append_and
theorem strbt (c : Cond) (u : Bool) (rn rd : Reg) (offset : Offset) : Statement (.strbt c u rn rd offset) := by
  show _ &&& _ = _
  repeat' first | rfl | exact field_and _ rfl rfl | apply append_and
theorem ldr (c : Cond) (p u w : Bool) (rn rd : Reg) (offset : Offset) : Statement (.ldr c p u w rn rd offset) := by
  show _ &&& _ = _
  repeat' first | rfl | exact field_and _ rfl rfl | apply append_and
theorem ldrb (c : Cond) (p u w : Bool) (rn rd : Reg) (offset : Offset) : Statement (.ldrb c p u w rn rd offset) := by
  show _ &&& _ = _
  repeat' first | rfl | exact field_and _ rfl rfl | apply append_and
theorem str (c : Cond) (p u w : Bool) (rn rd : Reg) (offset : Offset) : Statement (.str c p u w rn rd offset) := by
  show _ &&& _ = _
  repeat' first | rfl | exact field_and _ rfl rfl | apply append_and
theorem strb (c : Cond) (p u w : Bool) (rn rd : Reg) (offset : Offset) : Statement (.strb c p u w rn rd offset) := by
  show _ &&& _ = _
  repeat' first | rfl | exact field_and _ rfl rfl | apply append_and
theorem swp (c : Cond) (rn rd rm : Reg) : Statement (.swp c rn rd rm) := by
  show _ &&& _ = _
  repeat' first | rfl | exact field_and _ rfl rfl | apply append_and
theorem swpb (c : Cond) (rn rd rm : Reg) : Statement (.swpb c rn rd rm) := by
  show _ &&& _ = _
  repeat' first | rfl | exact field_and _ rfl rfl | apply append_and
theorem mul (c : Cond) (sf : Bool) (rd rn rs rm : Reg) : Statement (.mul c sf rd rn rs rm) := by
  show _ &&& _ = _
  repeat' first | rfl | exact field_and _ rfl rfl | apply append_and
theorem mla (c : Cond) (sf : Bool) (rd rn rs rm : Reg) : Statement (.mla c sf rd rn rs rm) := by
  show _ &&& _ = _
  repeat' first | rfl | exact field_and _ rfl rfl | apply append_and
theorem umull (c : Cond) (sf : Bool) (hi lo rs rm : Reg) : Statement (.umull c sf hi lo rs rm) := by
  show _ &&& _ = _
  repeat' first | rfl | exact field_and _ rfl rfl | apply append_and
theorem umlal (c : Cond) (sf : Bool) (hi lo rs rm : Reg) : Statement (.umlal c sf hi lo rs rm) := by
  show _ &&& _ = _
  repeat' first | rfl | exact field_and _ rfl rfl | apply append_and
theorem smull (c : Cond) (sf : Bool) (hi lo rs rm : Reg) : Statement (.smull c sf hi lo rs rm) := by
  show _ &&& _ = _
  repeat' first | rfl | exact field_and _ rfl rfl | apply append_and
theorem smlal (c : Cond) (sf : Bool) (hi lo rs rm : Reg) : Statement (.smlal c sf hi lo rs rm) := by
  show _ &&& _ = _
  repeat' first | rfl | exact field_and _ rfl rfl | apply append_and
theorem ldrh (c : Cond) (p u w : Bool) (rn rd : Reg) (offset : HalfOffset) : Statement (.ldrh c p u w rn rd offset) := by
  cases offset <;> show _ &&& _ = _
  repeat' first | rfl | exact field_and _ rfl rfl | apply append_and
theorem strh (c : Cond) (p u w : Bool) (rn rd : Reg) (offset : HalfOffset) : Statement (.strh c p u w rn rd offset) := by
  cases offset <;> show _ &&& _ = _
  repeat' first | rfl | exact field_and _ rfl rfl | apply append_and
theorem ldrsb (c : Cond) (p u w : Bool) (rn rd : Reg) (offset : HalfOffset) : Statement (.ldrsb c p u w rn rd offset) := by
  cases offset <;> show _ &&& _ = _
  repeat' first | rfl | exact field_and _ rfl rfl | apply append_and
theorem ldrsh (c : Cond) (p u w : Bool) (rn rd : Reg) (offset : HalfOffset) : Statement (.ldrsh c p u w rn rd offset) := by
  cases offset <;> show _ &&& _ = _
  repeat' first | rfl | exact field_and _ rfl rfl | apply append_and
theorem mrsCpsr (c : Cond) (rd : Reg) : Statement (.mrsCpsr c rd) := by
  show _ &&& _ = _
  repeat' first | rfl | exact field_and _ rfl rfl | apply append_and
theorem mrsSpsr (c : Cond) (rd : Reg) : Statement (.mrsSpsr c rd) := by
  show _ &&& _ = _
  repeat' first | rfl | exact field_and _ rfl rfl | apply append_and
theorem msrCpsrReg (c : Cond) (mask : BitVec 4) (rm : Reg) : Statement (.msrCpsrReg c mask rm) := by
  show _ &&& _ = _
  repeat' first | rfl | exact field_and _ rfl rfl | apply append_and
theorem msrSpsrReg (c : Cond) (mask : BitVec 4) (rm : Reg) : Statement (.msrSpsrReg c mask rm) := by
  show _ &&& _ = _
  repeat' first | rfl | exact field_and _ rfl rfl | apply append_and
theorem msrCpsrImm (c : Cond) (mask : BitVec 4) (rot : BitVec 4) (imm8 : BitVec 8) : Statement (.msrCpsrImm c mask rot imm8) := by
  show _ &&& _ = _
  repeat' first | rfl | exact field_and _ rfl rfl | apply append_and
theorem msrSpsrImm (c : Cond) (mask : BitVec 4) (rot : BitVec 4) (imm8 : BitVec 8) : Statement (.msrSpsrImm c mask rot imm8) := by
  show _ &&& _ = _
  repeat' first | rfl | exact field_and _ rfl rfl | apply append_and
theorem unallocMulSpace (c : Cond) (bits24to8 : BitVec 17) (bits6to5 : BitVec 2) (bits3to0 : BitVec 4) : Statement (.unallocMulSpace c bits24to8 bits6to5 bits3to0) := by
  show _ &&& _ = _
  repeat' first | rfl | exact field_and _ rfl rfl | apply append_and
theorem unallocPsrSpace (c : Cond) (bit25 : Bool) (bits22to21 : BitVec 2) (bits19to0 : BitVec 20) : Statement (.unallocPsrSpace c bit25 bits22to21 bits19to0) := by
  show _ &&& _ = _
  repeat' first | rfl | exact field_and _ rfl rfl | apply append_and
theorem and (c : Cond) (sf : Bool) (rn rd : Reg) (op2 : Operand2) : Statement (.and c sf rn rd op2) := by
  show _ &&& _ = _
  repeat' first | rfl | exact field_and _ rfl rfl | apply append_and
theorem eor (c : Cond) (sf : Bool) (rn rd : Reg) (op2 : Operand2) : Statement (.eor c sf rn rd op2) := by
  show _ &&& _ = _
  repeat' first | rfl | exact field_and _ rfl rfl | apply append_and
theorem sub (c : Cond) (sf : Bool) (rn rd : Reg) (op2 : Operand2) : Statement (.sub c sf rn rd op2) := by
  show _ &&& _ = _
  repeat' first | rfl | exact field_and _ rfl rfl | apply append_and
theorem rsb (c : Cond) (sf : Bool) (rn rd : Reg) (op2 : Operand2) : Statement (.rsb c sf rn rd op2) := by
  show _ &&& _ = _
  repeat' first | rfl | exact field_and _ rfl rfl | apply append_and
theorem add (c : Cond) (sf : Bool) (rn rd : Reg) (op2 : Operand2) : Statement (.add c sf rn rd op2) := by
  show _ &&& _ = _
  repeat' first | rfl | exact field_and _ rfl rfl | apply append_and
theorem adc (c : Cond) (sf : Bool) (rn rd : Reg) (op2 : Operand2) : Statement (.adc c sf rn rd op2) := by
  show _ &&& _ = _
  repeat' first | rfl | exact field_and _ rfl rfl | apply append_and
theorem sbc (c : Cond) (sf : Bool) (rn rd : Reg) (op2 : Operand2) : Statement (.sbc c sf rn rd op2) := by
  show _ &&& _ = _
  repeat' first | rfl | exact field_and _ rfl rfl | apply append_and
theorem rsc (c : Cond) (sf : Bool) (rn rd : Reg) (op2 : Operand2) : Statement (.rsc c sf rn rd op2) := by
  show _ &&& _ = _
  repeat' first | rfl | exact field_and _ rfl rfl | apply append_and
theorem tst (c : Cond) (rn rd : Reg) (op2 : Operand2) : Statement (.tst c rn rd op2) := by
  show _ &&& _ = _
  repeat' first | rfl | exact field_and _ rfl rfl | apply append_and
theorem teq (c : Cond) (rn rd : Reg) (op2 : Operand2) : Statement (.teq c rn rd op2) := by
  show _ &&& _ = _
  repeat' first | rfl | exact field_and _ rfl rfl | apply append_and
theorem cmp (c : Cond) (rn rd : Reg) (op2 : Operand2) : Statement (.cmp c rn rd op2) := by
  show _ &&& _ = _
  repeat' first | rfl | exact field_and _ rfl rfl | apply append_and
theorem cmn (c : Cond) (rn rd : Reg) (op2 : Operand2) : Statement (.cmn c rn rd op2) := by
  show _ &&& _ = _
  repeat' first | rfl | exact field_and _ rfl rfl | apply append_and
theorem orr (c : Cond) (sf : Bool) (rn rd : Reg) (op2 : Operand2) : Statement (.orr c sf rn rd op2) := by
  show _ &&& _ = _
  repeat' first | rfl | exact field_and _ rfl rfl | apply append_and
theorem mov (c : Cond) (sf : Bool) (rn rd : Reg) (op2 : Operand2) : Statement (.mov c sf rn rd op2) := by
  show _ &&& _ = _
  repeat' first | rfl | exact field_and _ rfl rfl | apply append_and
theorem bic (c : Cond) (sf : Bool) (rn rd : Reg) (op2 : Operand2) : Statement (.bic c sf rn rd op2) := by
  show _ &&& _ = _
  repeat' first | rfl | exact field_and _ rfl rfl | apply append_and
theorem mvn (c : Cond) (sf : Bool) (rn rd : Reg) (op2 : Operand2) : Statement (.mvn c sf rn rd op2) := by
  show _ &&& _ = _
  repeat' first | rfl | exact field_and _ rfl rfl | apply append_and
theorem tLslImm (offset5 : BitVec 5) (rs rd : LowReg) : Statement (.tLslImm offset5 rs rd) := by
  show _ &&& _ = _
  repeat' first | rfl | exact field_and _ rfl rfl | apply append_and
theorem tLsrImm (offset5 : BitVec 5) (rs rd : LowReg) : Statement (.tLsrImm offset5 rs rd) := by
  show _ &&& _ = _
  repeat' first | rfl | exact field_and _ rfl rfl | apply append_and
theorem tAsrImm (offset5 : BitVec 5) (rs rd : LowReg) : Statement (.tAsrImm offset5 rs rd) := by
  show _ &&& _ = _
  repeat' first | rfl | exact field_and _ rfl rfl | apply append_and
theorem tAddReg (rn rs rd : LowReg) : Statement (.tAddReg rn rs rd) := by
  show _ &&& _ = _
  repeat' first | rfl | exact field_and _ rfl rfl | apply append_and
theorem tSubReg (rn rs rd : LowReg) : Statement (.tSubReg rn rs rd) := by
  show _ &&& _ = _
  repeat' first | rfl | exact field_and _ rfl rfl | apply append_and
theorem tAddImm3 (imm3 : BitVec 3) (rs rd : LowReg) : Statement (.tAddImm3 imm3 rs rd) := by
  show _ &&& _ = _
  repeat' first | rfl | exact field_and _ rfl rfl | apply append_and
theorem tSubImm3 (imm3 : BitVec 3) (rs rd : LowReg) : Statement (.tSubImm3 imm3 rs rd) := by
  show _ &&& _ = _
  repeat' first | rfl | exact field_and _ rfl rfl | apply append_and
theorem tMovImm8 (rd : LowReg) (imm8 : BitVec 8) : Statement (.tMovImm8 rd imm8) := by
  show _ &&& _ = _
  repeat' first | rfl | exact field_and _ rfl rfl | apply append_and
theorem tCmpImm8 (rd : LowReg) (imm8 : BitVec 8) : Statement (.tCmpImm8 rd imm8) := by
  show _ &&& _ = _
  repeat' first | rfl | exact field_and _ rfl rfl | apply append_and
theorem tAddImm8 (rd : LowReg) (imm8 : BitVec 8) : Statement (.tAddImm8 rd imm8) := by
  show _ &&& _ = _
  repeat' first | rfl | exact field_and _ rfl rfl | apply append_and
theorem tSubImm8 (rd : LowReg) (imm8 : BitVec 8) : Statement (.tSubImm8 rd imm8) := by
  show _ &&& _ = _
  repeat' first | rfl | exact field_and _ rfl rfl | apply append_and
theorem tAnd (rs rd : LowReg) : Statement (.tAnd rs rd) := by
  show _ &&& _ = _
  repeat' first | rfl | exact field_and _ rfl rfl | apply append_and
theorem tEor (rs rd : LowReg) : Statement (.tEor rs rd) := by
  show _ &&& _ = _
  repeat' first | rfl | exact field_and _ rfl rfl | apply append_and
theorem tLslReg (rs rd : LowReg) : Statement (.tLslReg rs rd) := by
  show _ &&& _ = _
  repeat' first | rfl | exact field_and _ rfl rfl | apply append_and
theorem tLsrReg (rs rd : LowReg) : Statement (.tLsrReg rs rd) := by
  show _ &&& _ = _
  repeat' first | rfl | exact field_and _ rfl rfl | apply append_and
theorem tAsrReg (rs rd : LowReg) : Statement (.tAsrReg rs rd) := by
  show _ &&& _ = _
  repeat' first | rfl | exact field_and _ rfl rfl | apply append_and
theorem tAdc (rs rd : LowReg) : Statement (.tAdc rs rd) := by
  show _ &&& _ = _
  repeat' first | rfl | exact field_and _ rfl rfl | apply append_and
theorem tSbc (rs rd : LowReg) : Statement (.tSbc rs rd) := by
  show _ &&& _ = _
  repeat' first | rfl | exact field_and _ rfl rfl | apply append_and
theorem tRorReg (rs rd : LowReg) : Statement (.tRorReg rs rd) := by
  show _ &&& _ = _
  repeat' first | rfl | exact field_and _ rfl rfl | apply append_and
theorem tTst (rs rd : LowReg) : Statement (.tTst rs rd) := by
  show _ &&& _ = _
  repeat' first | rfl | exact field_and _ rfl rfl | apply append_and
theorem tNeg (rs rd : LowReg) : Statement (.tNeg rs rd) := by
  show _ &&& _ = _
  repeat' first | rfl | exact field_and _ rfl rfl | apply append_and
theorem tCmpReg (rs rd : LowReg) : Statement (.tCmpReg rs rd) := by
  show _ &&& _ = _
  repeat' first | rfl | exact field_and _ rfl rfl | apply append_and
theorem tCmn (rs rd : LowReg) : Statement (.tCmn rs rd) := by
  show _ &&& _ = _
  repeat' first | rfl | exact field_and _ rfl rfl | apply append_and
theorem tOrr (rs rd : LowReg) : Statement (.tOrr rs rd) := by
  show _ &&& _ = _
  repeat' first | rfl | exact field_and _ rfl rfl | apply append_and
theorem tMul (rs rd : LowReg) : Statement (.tMul rs rd) := by
  show _ &&& _ = _
  repeat' first | rfl | exact field_and _ rfl rfl | apply append_and
theorem tBic (rs rd : LowReg) : Statement (.tBic rs rd) := by
  show _ &&& _ = _
  repeat' first | rfl | exact field_and _ rfl rfl | apply append_and
theorem tMvn (rs rd : LowReg) : Statement (.tMvn rs rd) := by
  show _ &&& _ = _
  repeat' first | rfl | exact field_and _ rfl rfl | apply append_and
theorem tAddHi (s d : Reg) : Statement (.tAddHi s d) := by
  show _ &&& _ = _
  repeat' first | rfl | exact field_and _ rfl rfl | apply append_and
theorem tCmpHi (s d : Reg) : Statement (.tCmpHi s d) := by
  show _ &&& _ = _
  repeat' first | rfl | exact field_and _ rfl rfl | apply append_and
theorem tMovHi (s d : Reg) : Statement (.tMovHi s d) := by
  show _ &&& _ = _
  repeat' first | rfl | exact field_and _ rfl rfl | apply append_and
theorem tBx (s d : Reg) : Statement (.tBx s d) := by
  show _ &&& _ = _
  repeat' first | rfl | exact field_and _ rfl rfl | apply append_and
theorem tLdrPc (rd : LowReg) (imm8 : BitVec 8) : Statement (.tLdrPc rd imm8) := by
  show _ &&& _ = _
  repeat' first | rfl | exact field_and _ rfl rfl | apply append_and
theorem tStrReg (ro rb rd : LowReg) : Statement (.tStrReg ro rb rd) := by
  show _ &&& _ = _
  repeat' first | rfl | exact field_and _ rfl rfl | apply append_and
theorem tStrbReg (ro rb rd : LowReg) : Statement (.tStrbReg ro rb rd) := by
  show _ &&& _ = _
  repeat' first | rfl | exact field_and _ rfl rfl | apply append_and
theorem tLdrReg (ro rb rd : LowReg) : Statement (.tLdrReg ro rb rd) := by
  show _ &&& _ = _
  repeat' first | rfl | exact field_and _ rfl rfl | apply append_and
theorem tLdrbReg (ro rb rd : LowReg) : Statement (.tLdrbReg ro rb rd) := by
  show _ &&& _ = _
  repeat' first | rfl | exact field_and _ rfl rfl | apply append_and
theorem tStrhReg (ro rb rd : LowReg) : Statement (.tStrhReg ro rb rd) := by
  show _ &&& _ = _
  repeat' first | rfl | exact field_and _ rfl rfl | apply append_and
theorem tLdsbReg (ro rb rd : LowReg) : Statement (.tLdsbReg ro rb rd) := by
  show _ &&& _ = _
  repeat' first | rfl | exact field_and _ rfl rfl | apply append_and
theorem tLdrhReg (ro rb rd : LowReg) : Statement (.tLdrhReg ro rb rd) := by
  show _ &&& _ = _
  repeat' first | rfl | exact field_and _ rfl rfl | apply append_and
theorem tLdshReg (ro rb rd : LowReg) : Statement (.tLdshReg ro rb rd) := by
  show _ &&& _ = _
  repeat' first | rfl | exact field_and _ rfl rfl | apply append_and
theorem tStrImm (offset5 : BitVec 5) (rb rd : LowReg) : Statement (.tStrImm offset5 rb rd) := by
  show _ &&& _ = _
  repeat' first | rfl | exact field_and _ rfl rfl | apply append_and
theorem tLdrImm (offset5 : BitVec 5) (rb rd : LowReg) : Statement (.tLdrImm offset5 rb rd) := by
  show _ &&& _ = _
  repeat' first | rfl | exact field_and _ rfl rfl | apply append_and
theorem tStrbImm (offset5 : BitVec 5) (rb rd : LowReg) : Statement (.tStrbImm offset5 rb rd) := by
  show _ &&& _ = _
  repeat' first | rfl | exact field_and _ rfl rfl | apply append_and
theorem tLdrbImm (offset5 : BitVec 5) (rb rd : LowReg) : Statement (.tLdrbImm offset5 rb rd) := by
  show _ &&& _ = _
  repeat' first | rfl | exact field_and _ rfl rfl | apply append_and
theorem tStrhImm (offset5 : BitVec 5) (rb rd : LowReg) : Statement (.tStrhImm offset5 rb rd) := by
  show _ &&& _ = _
  repeat' first | rfl | exact field_and _ rfl rfl | apply append_and
theorem tLdrhImm (offset5 : BitVec 5) (rb rd : LowReg) : Statement (.tLdrhImm offset5 rb rd) := by
  show _ &&& _ = _
  repeat' first | rfl | exact field_and _ rfl rfl | apply append_and
theorem tStrSp (rd : LowReg) (imm8 : BitVec 8) : Statement (.tStrSp rd imm8) := by
  show _ &&& _ = _
  repeat' first | rfl | exact field_and _ rfl rfl | apply append_and
theorem tLdrSp (rd : LowReg) (imm8 : BitVec 8) : Statement (.tLdrSp rd imm8) := by
  show _ &&& _ = _
  repeat' first | rfl | exact field_and _ rfl rfl | apply append_and
theorem tAddPc (rd : LowReg) (imm8 : BitVec 8) : Statement (.tAddPc rd imm8) := by
  show _ &&& _ = _
  repeat' first | rfl | exact field_and _ rfl rfl | apply append_and
theorem tAddSp (rd : LowReg) (imm8 : BitVec 8) : Statement (.tAddSp rd imm8) := by
  show _ &&& _ = _
  repeat' first | rfl | exact field_and _ rfl rfl | apply append_and
theorem tAddSpImm (imm7 : BitVec 7) : Statement (.tAddSpImm imm7) := by
  show _ &&& _ = _
  repeat' first | rfl | exact field_and _ rfl rfl | apply append_and
theorem tSubSpImm (imm7 : BitVec 7) : Statement (.tSubSpImm imm7) := by
  show _ &&& _ = _
  repeat' first | rfl | exact field_and _ rfl rfl | apply append_and
theorem tPush (r : Bool) (list : BitVec 8) : Statement (.tPush r list) := by
  show _ &&& _ = _
  repeat' first | rfl | exact field_and _ rfl rfl | apply append_and
theorem tPop (r : Bool) (list : BitVec 8) : Statement (.tPop r list) := by
  show _ &&& _ = _
  repeat' first | rfl | exact field_and _ rfl rfl | apply append_and
theorem tStmia (rb : LowReg) (list : BitVec 8) : Statement (.tStmia rb list) := by
  show _ &&& _ = _
  repeat' first | rfl | exact field_and _ rfl rfl | apply append_and
theorem tLdmia (rb : LowReg) (list : BitVec 8) : Statement (.tLdmia rb list) := by
  show _ &&& _ = _
  repeat' first | rfl | exact field_and _ rfl rfl | apply append_and
theorem tUndefDE (low8 : BitVec 8) : Statement (.tUndefDE low8) := by
  show _ &&& _ = _
  repeat' first | rfl | exact field_and _ rfl rfl | apply append_and
theorem tUndefE8 (low11 : BitVec 11) : Statement (.tUndefE8 low11) := by
  show _ &&& _ = _
  repeat' first | rfl | exact field_and _ rfl rfl | apply append_and
theorem tUndefB1 (low8 : BitVec 8) : Statement (.tUndefB1 low8) := by
  show _ &&& _ = _
  repeat' first | rfl | exact field_and _ rfl rfl | apply append_and
theorem tUndefB2 (low9 : BitVec 9) : Statement (.tUndefB2 low9) := by
  show _ &&& _ = _
  repeat' first | rfl | exact field_and _ rfl rfl | apply append_and
theorem tUndefB6 (low9 : BitVec 9) : Statement (.tUndefB6 low9) := by
  show _ &&& _ = _
  repeat' first | rfl | exact field_and _ rfl rfl | apply append_and
theorem tUndefB8 (low10 : BitVec 10) : Statement (.tUndefB8 low10) := by
  show _ &&& _ = _
  repeat' first | rfl | exact field_and _ rfl rfl | apply append_and
theorem tUndefBE (low9 : BitVec 9) : Statement (.tUndefBE low9) := by
  show _ &&& _ = _
  repeat' first | rfl | exact field_and _ rfl rfl | apply append_and
theorem tSwi (value8 : BitVec 8) : Statement (.tSwi value8) := by
  show _ &&& _ = _
  repeat' first | rfl | exact field_and _ rfl rfl | apply append_and
theorem tBCond (c : Cond) (soffset8 : BitVec 8) : Statement (.tBCond c soffset8) := by
  show _ &&& _ = _
  repeat' first | rfl | exact field_and _ rfl rfl | apply append_and
theorem tB (offset11 : BitVec 11) : Statement (.tB offset11) := by
  show _ &&& _ = _
  repeat' first | rfl | exact field_and _ rfl rfl | apply append_and
theorem tBlFirst (offset11 : BitVec 11) : Statement (.tBlFirst offset11) := by
  show _ &&& _ = _
  repeat' first | rfl | exact field_and _ rfl rfl | apply append_and
theorem tBlSecond (offset11 : BitVec 11) : Statement (.tBlSecond offset11) := by
  show _ &&& _ = _
  repeat' first | rfl | exact field_and _ rfl rfl | apply append_and

end Sys2Proof.Laws.TableRow
end

