-- ==== Sys2Proof/Laws/Picture.lean ====
section
/-! SUPPORT. What the renderer reads, in the words of the statements: fields, signed numbers, and bytes of VRAM, palette RAM and the
OAM snapshot as natural numbers (63_ppu.md R1105); and what the coordinate and pixel functions of backgrounds and sprites answer. -/

namespace Sys2Proof.Machine

open Sys2Proof.Safety

/-- A field of a bit vector is the bits of its number. -/
theorem toNat_extract {w : Nat} (v : BitVec w) (lo n : Nat) : (v.extractLsb' lo n).toNat = bitsAt v.toNat lo n := by
  rw [BitVec.extractLsb'_toNat, Nat.shiftRight_eq_div_pow, bitsAt]

theorem fieldOf_bits (h : Half) (lo n : Nat) : fieldOf h lo n = bitsAt h.toNat lo n := toNat_extract h lo n

theorem bitsAt_one_lt (v k : Nat) : bitsAt v k 1 < 2 := Nat.mod_lt _ (by decide)

/-- A bit of a bit vector is a field of width 1. -/
theorem getLsbD_bits {w : Nat} (v : BitVec w) (k : Nat) : v.getLsbD k = decide (bitsAt v.toNat k 1 = 1) := by
  have e : v.getLsbD k = decide (v.toNat / 2 ^ k % 2 = 1) := by rw [BitVec.getLsbD, Nat.testBit_eq_decide_div_mod_eq]
  exact e

/-- The signed value of a bit vector. -/
theorem toInt_signed {n : Nat} (v : BitVec n) (h : 0 < n) : v.toInt = signed n v.toNat := by
  have hv : v.toNat % 2 ^ n = v.toNat := Nat.mod_eq_of_lt v.isLt
  have hp : 2 ^ n = 2 * 2 ^ (n - 1) := by
    obtain ⟨m, rfl⟩ : ∃ m, n = m + 1 := ⟨n - 1, by omega⟩
    rw [Nat.add_sub_cancel, Nat.pow_succ, Nat.mul_comm]
  rw [BitVec.toInt_eq_toNat_cond, signed, hv]
  split <;> split <;> first | rfl | omega

theorem refPoint_signed (w : Word) : refPoint w = signed 28 w.toNat := by
  rw [refPoint, toInt_signed _ (by decide), toNat_extract]
  simp [signed, bitsAt]

theorem param_signed (h : Half) : param h = signed 16 h.toNat := toInt_signed h (by decide)

/-- Two bytes as a halfword. -/
theorem toNat_bytes (hi lo : Byte) : (hi ++ lo : Half).toNat = lo.toNat + 256 * hi.toNat := by
  rw [BitVec.toNat_append, ← Nat.shiftLeft_add_eq_or_of_lt lo.isLt, Nat.shiftLeft_eq]
  omega

theorem vram8_byte (s : State) (o : Nat) : (vram8 s o).toNat = vramByte s o := by
  have : vramOffset o = if o % 0x20000 < 0x18000 then o % 0x20000 else o % 0x20000 - 0x8000 := by
    unfold vramOffset
    dsimp only
    split <;> split <;> omega
  rw [vram8, vramByte, this]
  rfl

theorem vram16_half (s : State) (o : Nat) : (vram16 s o).toNat = vramHalf s o := by
  rw [vram16, toNat_bytes, vram8_byte, vram8_byte, vramHalf]

theorem pram16_colour (s : State) (i : Nat) : pram16 s (2 * i) = colourAt s i := rfl

theorem oams16_half (s : State) (o : Nat) : (oams16 s o).toNat = oamHalf s o := by
  rw [oams16, toNat_bytes, oamHalf]

theorem displayMode_bits (s : State) : displayMode s = modeOf s := fieldOf_bits _ _ _

theorem nibbleOf_half (b : Byte) (x : Nat) : nibbleOf b x = halfByte b.toNat x := rfl

/-- The bases and the priority of a layer. -/
theorem charBase_bits (l : Fin 4) (s : State) : charBase (s.ppu.bgcnt.get l) = characters l s := by
  rw [charBase, fieldOf_bits]; rfl

theorem screenBase_bits (l : Fin 4) (s : State) : screenBase (s.ppu.bgcnt.get l) = screens l s := by
  rw [screenBase, fieldOf_bits]; rfl

theorem bgPriority_bits (l : Fin 4) (s : State) : bgPriority s l = bitsAt (controlOf l s) 0 2 := fieldOf_bits _ _ _

/-- A sample brought into a layer (R1111). -/
theorem wrapCoord_sampled (w : Bool) (n : Nat) (t : Int) (k : Nat) (hn : 0 < n) : wrapCoord w n t = some k ↔ sampled w n t k := by
  unfold wrapCoord sampled
  split
  · simp; omega
  · cases w
    · simp
    · simp only [if_true, Option.some.injEq, true_and]
      have h0 : 0 ≤ t % (n : Int) := Int.emod_nonneg _ (by omega)
      have h1 : t % (n : Int) < n := Int.emod_lt_of_pos _ (by omega)
      have hd := Int.emod_add_mul_ediv t n
      constructor
      · intro h
        refine ⟨by omega, t / n, ?_⟩
        rw [← h, Int.toNat_of_nonneg h0, Int.mul_comm]; omega
      · rintro ⟨hk, q, rfl⟩
        have : (q * n + k : Int) % n = k := by
          rw [Int.add_comm, Int.add_mul_emod_self_right]
          exact Int.emod_eq_of_lt (by omega) (by omega)
        rw [this]; simp

/-- A coordinate inside a sprite. -/
theorem insideObj_some (t : Int) (n k : Nat) : insideObj t n = some k ↔ (0 ≤ t ∧ t < n) ∧ t = k := by
  unfold insideObj
  split
  · simp; omega
  · simp; omega

/-- The table of sizes (R1116). -/
theorem spriteSize_table (a b : Nat) (ha : a < 4) (hb : b < 4) :
    spriteSize a b = if a = 3 then none else some ((spriteSizes.getD a []).getD b (0, 0)) := by
  have : ∀ a < 4, ∀ b < 4, spriteSize a b = if a = 3 then none else some ((spriteSizes.getD a []).getD b (0, 0)) := by decide
  exact this a ha b hb
/-- The index and the colour of a point of a sprite, in the modes that draw sprites (R1118, R1119). -/
theorem spritePixel_texel (a0 a2 : Half) (sx sy w : Nat) (s : State) (hm : modeOf s ∈ [0, 1, 3, 4]) :
    spritePixel a0 a2 sx sy w s =
      ((spriteTexel a0.toNat a2.toNat sx sy w s).1, colourAt s (spriteTexel a0.toNat a2.toNat sx sy w s).2) := by
  have ho : objOrigin s = if modeOf s = 0 ∨ modeOf s = 1 then 0x10000 else 0x14000 := by
    unfold objOrigin
    rw [displayMode_bits]
    simp only [List.mem_cons, List.not_mem_nil, or_false] at hm
    split <;> split <;> omega
  unfold spritePixel spriteTexel
  dsimp only
  rw [ho]
  simp only [fieldOf_bits, getLsbD_bits, nibbleOf_half, vram8_byte, decide_eq_true_eq]
  have := bitsAt_one_lt a0.toNat 13
  generalize (if modeOf s = 0 ∨ modeOf s = 1 then 0x10000 else 0x14000) = O
  have half : ∀ b, halfByte b (sx % 8) = halfByte b sx := by
    intro b
    unfold halfByte
    rw [Nat.mod_mod_of_dvd sx (by decide : 2 ∣ 8)]
  have col : ∀ i, pram16 s (0x200 + 2 * i) = colourAt s (256 + i) := by
    intro i
    rw [← pram16_colour]; congr 1; omega
  by_cases h : bitsAt a0.toNat 13 1 = 0
  · rw [if_neg (by omega), if_pos h, half, col]
  · rw [if_pos (by omega), if_neg h, col]

/-- The object-space point of a screen point, with (dx, dy) the point less the corner (R1115, R1117). -/
theorem objPoint_spec (a0 a1 : Half) (w h bw bh dx dy : Nat) (s : State) (sx sy : Nat) :
    let group (o : Nat) : Int := signed 16 (oamHalf s (o + 0x20 * bitsAt a1.toNat 9 5))
    objPoint a0 a1 w h bw bh dx dy s = some (sx, sy) ↔
      if bitsAt a0.toNat 8 1 = 0 then
        sx = (if bitsAt a1.toNat 12 1 = 1 then w - 1 - dx else dx) ∧ sy = (if bitsAt a1.toNat 13 1 = 1 then h - 1 - dy else dy)
      else
        (sx < w ∧ (sx : Int) =
          (group 0x06 * ((dx : Int) - (bw / 2 : Nat)) + group 0x0E * ((dy : Int) - (bh / 2 : Nat))) / 256 + (w / 2 : Nat)) ∧
        (sy < h ∧ (sy : Int) =
          (group 0x16 * ((dx : Int) - (bw / 2 : Nat)) + group 0x1E * ((dy : Int) - (bh / 2 : Nat))) / 256 + (h / 2 : Nat)) := by
  intro group
  have h8 := bitsAt_one_lt a0.toNat 8
  unfold objPoint
  simp only [getLsbD_bits, fieldOf_bits, oams16_half, param_signed, decide_eq_true_eq]
  by_cases hr : bitsAt a0.toNat 8 1 = 0
  · rw [if_neg (by omega), if_pos hr, Option.some.injEq, Prod.mk.injEq]
    exact ⟨fun e => ⟨e.1.symm, e.2.symm⟩, fun e => ⟨e.1.symm, e.2.symm⟩⟩
  · rw [if_pos (by omega), if_neg hr]
    simp only [group]
    generalize signed 16 (oamHalf s (0x06 + 0x20 * bitsAt a1.toNat 9 5)) = PA
    generalize signed 16 (oamHalf s (0x0E + 0x20 * bitsAt a1.toNat 9 5)) = PB
    generalize signed 16 (oamHalf s (0x16 + 0x20 * bitsAt a1.toNat 9 5)) = PC
    generalize signed 16 (oamHalf s (0x1E + 0x20 * bitsAt a1.toNat 9 5)) = PD
    generalize (PA * ((dx : Int) - (bw / 2 : Nat)) + PB * ((dy : Int) - (bh / 2 : Nat))) / 256 + (w / 2 : Nat) = tx
    generalize (PC * ((dx : Int) - (bw / 2 : Nat)) + PD * ((dy : Int) - (bh / 2 : Nat))) / 256 + (h / 2 : Nat) = ty
    constructor
    · intro e
      split at e
      · next u v hu hv =>
        rw [Option.some.injEq, Prod.mk.injEq] at e
        rw [insideObj_some] at hu hv
        omega
      · exact absurd e (by simp)
    · intro e
      rw [(insideObj_some tx w sx).2 (by omega), (insideObj_some ty h sy).2 (by omega)]

end Sys2Proof.Machine
end

