-- ==== Sys2Proof/Tests/Slice0.lean ====
section
/-! SUPPORT. Tests of the model, and a witness for the hypotheses of each statement. Expected results are those of
95_test_vectors.md, or are read by hand from the rule a test names. -/

namespace Sys2Proof.Tests

open Sys2Proof.Machine Sys2Proof.Safety

/-! ## Well-formedness: a term each check refuses -/

theorem test_illformed_transfer : (Instr.ldr .al false true true 1#4 0#4 (.imm 0#12)).wellFormed = false := by decide

theorem test_illformed_branch :
    (Instr.tBCond .al 0#8).wellFormed = false ∧ (Instr.tBCond .nv 0#8).wellFormed = false := by decide

/-- MUL, SWP, UMULL and STRH words. -/
theorem test_illformed_multiply_space :
    (Instr.unallocMulSpace .al 0#17 0#2 0#4).wellFormed = false ∧
    (Instr.unallocMulSpace .al 0x10000#17 0#2 0#4).wellFormed = false ∧
    (Instr.unallocMulSpace .al 0x08000#17 0#2 0#4).wellFormed = false ∧
    (Instr.unallocMulSpace .al 0#17 1#2 0#4).wellFormed = false := by decide

/-- MRS, BX, MSR (register) and MSR (immediate) words. -/
theorem test_illformed_status_space :
    (Instr.unallocPsrSpace .al false 0#2 0xF0000#20).wellFormed = false ∧
    (Instr.unallocPsrSpace .al false 1#2 0xFFF10#20).wellFormed = false ∧
    (Instr.unallocPsrSpace .al false 1#2 0x9F000#20).wellFormed = false ∧
    (Instr.unallocPsrSpace .al true 1#2 0x9F000#20).wellFormed = false := by decide

theorem test_wellformed :
    (Instr.ldr .al true true true 1#4 0#4 (.imm 0#12)).wellFormed = true ∧
    (Instr.tBCond .le 0#8).wellFormed = true ∧
    (Instr.unallocMulSpace .al 0#17 2#2 0#4).wellFormed = true ∧
    (Instr.unallocPsrSpace .al true 0#2 0#20).wellFormed = true := by decide

/-! ## Decoding: every constructor, from words with the fields of its row of spec/opcode_table.json -/

theorem test_decode_arm_branch_and_exchange :
    decodeTableWord 32 0x012FFF10 = some (.bx .eq 0#4) := by
  decide

theorem test_decode_arm_block_data_transfer :
    decodeTableWord 32 0x18251084 = some (.stmda .ne true 5#4 0x1084#16) ∧
    decodeTableWord 32 0x288A94A5 = some (.stmia .cs false 10#4 0x94A5#16) ∧
    decodeTableWord 32 0x392018C6 = some (.stmdb .cc true 0#4 0x18C6#16) ∧
    decodeTableWord 32 0x49859CE7 = some (.stmib .mi false 5#4 0x9CE7#16) ∧
    decodeTableWord 32 0x586A2108 = some (.stmdaUser .pl true 10#4 0x2108#16) ∧
    decodeTableWord 32 0x68C0A529 = some (.stmiaUser .vs false 0#4 0xA529#16) ∧
    decodeTableWord 32 0x7965294A = some (.stmdbUser .vc true 5#4 0x294A#16) ∧
    decodeTableWord 32 0x89CAAD6B = some (.stmibUser .hi false 10#4 0xAD6B#16) ∧
    decodeTableWord 32 0x9830318C = some (.ldmda .ls true 0#4 0x318C#16) ∧
    decodeTableWord 32 0xA895B5AD = some (.ldmia .ge false 5#4 0xB5AD#16) ∧
    decodeTableWord 32 0xB93A39CE = some (.ldmdb .lt true 10#4 0x39CE#16) ∧
    decodeTableWord 32 0xC990BDEF = some (.ldmib .gt false 0#4 0xBDEF#16) ∧
    decodeTableWord 32 0xD8754210 = some (.ldmdaUser .le true 5#4 0x4210#16) ∧
    decodeTableWord 32 0xE8DAC631 = some (.ldmiaUser .al false 10#4 0xC631#16) ∧
    decodeTableWord 32 0xF9704A52 = some (.ldmdbUser .nv true 0#4 0x4A52#16) ∧
    decodeTableWord 32 0x09D5CE73 = some (.ldmibUser .eq false 5#4 0xCE73#16) := by
  decide

theorem test_decode_arm_branch :
    decodeTableWord 32 0x1A8ABCE1 = some (.b .ne 0x8ABCE1#24) ∧
    decodeTableWord 32 0x2B8ABCE2 = some (.bl .cs 0x8ABCE2#24) := by
  decide

theorem test_decode_arm_software_interrupt :
    decodeTableWord 32 0x3F8ABCE3 = some (.swi .cc 0x8ABCE3#24) := by
  decide

theorem test_decode_arm_undefined :
    decodeTableWord 32 0x470246B9 = some (.undefined .mi 0x81235#20 9#4) := by
  decide

theorem test_decode_arm_coprocessor_data_transfer :
    decodeTableWord 32 0x5D234567 = some (.ldcStc .pl 0x1234567#25) := by
  decide

theorem test_decode_arm_coprocessor_operation_or_register_transfer :
    decodeTableWord 32 0x6E876543 = some (.cdpMcrMrc .vs 0x876543#24) := by
  decide

theorem test_decode_arm_single_data_transfer :
    decodeTableWord 32 0x76BA99C5 = some (.ldrt .vc true 10#4 9#4 (.reg 19#5 .asr 5#4)) ∧
    decodeTableWord 32 0x842BC8F1 = some (.strt .hi false 11#4 12#4 (.imm 0x8F1#12)) ∧
    decodeTableWord 32 0x967C09C5 = some (.ldrbt .ls false 12#4 0#4 (.reg 19#5 .asr 5#4)) ∧
    decodeTableWord 32 0xA4ED38F1 = some (.strbt .ge true 13#4 3#4 (.imm 0x8F1#12)) ∧
    decodeTableWord 32 0xB79E69C5 = some (.ldr .lt true true false 14#4 6#4 (.reg 19#5 .asr 5#4)) ∧
    decodeTableWord 32 0xC57098F1 = some (.ldrb .gt true false true 0#4 9#4 (.imm 0x8F1#12)) ∧
    decodeTableWord 32 0xD701C9C5 = some (.str .le true false false 1#4 12#4 (.reg 19#5 .asr 5#4)) ∧
    decodeTableWord 32 0xE5E208F1 = some (.strb .al true true true 2#4 0#4 (.imm 0x8F1#12)) := by
  decide

theorem test_decode_arm_single_data_swap :
    decodeTableWord 32 0xF101209B = some (.swp .nv 1#4 2#4 11#4) ∧
    decodeTableWord 32 0x0141209B = some (.swpb .eq 1#4 2#4 11#4) := by
  decide

theorem test_decode_arm_multiply :
    decodeTableWord 32 0x10196C93 = some (.mul .ne true 9#4 6#4 12#4 3#4) ∧
    decodeTableWord 32 0x20296C93 = some (.mla .cs false 9#4 6#4 12#4 3#4) := by
  decide

theorem test_decode_arm_multiply_long :
    decodeTableWord 32 0x30996C93 = some (.umull .cc true 9#4 6#4 12#4 3#4) ∧
    decodeTableWord 32 0x40A96C93 = some (.umlal .mi false 9#4 6#4 12#4 3#4) ∧
    decodeTableWord 32 0x50D96C93 = some (.smull .pl true 9#4 6#4 12#4 3#4) ∧
    decodeTableWord 32 0x60E96C93 = some (.smlal .vs false 9#4 6#4 12#4 3#4) := by
  decide

theorem test_decode_arm_halfword_and_signed_data_transfer :
    decodeTableWord 32 0x71787AB5 = some (.ldrh .vc true false true 8#4 7#4 (.imm 0xA5#8)) ∧
    decodeTableWord 32 0x808870B5 = some (.strh .hi false true false 8#4 7#4 (.reg 0#4 5#4)) ∧
    decodeTableWord 32 0x911870D5 = some (.ldrsb .ls true false false 8#4 7#4 (.reg 0#4 5#4)) ∧
    decodeTableWord 32 0xA0F87AF5 = some (.ldrsh .ge false true true 8#4 7#4 (.imm 0xA5#8)) := by
  decide

theorem test_decode_arm_psr_transfer :
    decodeTableWord 32 0xB10FA000 = some (.mrsCpsr .lt 10#4) ∧
    decodeTableWord 32 0xC14FA000 = some (.mrsSpsr .gt 10#4) ∧
    decodeTableWord 32 0xD129F006 = some (.msrCpsrReg .le 9#4 6#4) ∧
    decodeTableWord 32 0xE169F006 = some (.msrSpsrReg .al 9#4 6#4) ∧
    decodeTableWord 32 0xF329F4D3 = some (.msrCpsrImm .nv 9#4 4#4 0xD3#8) ∧
    decodeTableWord 32 0x0369F4D3 = some (.msrSpsrImm .eq 9#4 4#4 0xD3#8) := by
  decide

theorem test_decode_arm_refused_encoding :
    decodeTableWord 32 0x11C000F0 = some (.unallocMulSpace .ne 0x1C000#17 3#2 0#4) ∧
    decodeTableWord 32 0x21612345 = some (.unallocPsrSpace .cs false 3#2 0x12345#20) := by
  decide

theorem test_decode_arm_data_processing :
    decodeTableWord 32 0x321D43FC = some (.and .cc true 13#4 4#4 (.imm 3#4 0xFC#8)) ∧
    decodeTableWord 32 0x402D4AAE = some (.eor .mi false 13#4 4#4 (.shiftImm 21#5 .lsr 14#4)) ∧
    decodeTableWord 32 0x505D4C72 = some (.sub .pl true 13#4 4#4 (.shiftReg 12#4 .ror 2#4)) ∧
    decodeTableWord 32 0x626D43FC = some (.rsb .vs false 13#4 4#4 (.imm 3#4 0xFC#8)) ∧
    decodeTableWord 32 0x709D4AAE = some (.add .vc true 13#4 4#4 (.shiftImm 21#5 .lsr 14#4)) ∧
    decodeTableWord 32 0x80AD4C72 = some (.adc .hi false 13#4 4#4 (.shiftReg 12#4 .ror 2#4)) ∧
    decodeTableWord 32 0x92DD43FC = some (.sbc .ls true 13#4 4#4 (.imm 3#4 0xFC#8)) ∧
    decodeTableWord 32 0xA0ED4AAE = some (.rsc .ge false 13#4 4#4 (.shiftImm 21#5 .lsr 14#4)) ∧
    decodeTableWord 32 0xB11D4C72 = some (.tst .lt 13#4 4#4 (.shiftReg 12#4 .ror 2#4)) ∧
    decodeTableWord 32 0xC33D43FC = some (.teq .gt 13#4 4#4 (.imm 3#4 0xFC#8)) ∧
    decodeTableWord 32 0xD15D4AAE = some (.cmp .le 13#4 4#4 (.shiftImm 21#5 .lsr 14#4)) ∧
    decodeTableWord 32 0xE17D4C72 = some (.cmn .al 13#4 4#4 (.shiftReg 12#4 .ror 2#4)) ∧
    decodeTableWord 32 0xF39D43FC = some (.orr .nv true 13#4 4#4 (.imm 3#4 0xFC#8)) ∧
    decodeTableWord 32 0x01AD4AAE = some (.mov .eq false 13#4 4#4 (.shiftImm 21#5 .lsr 14#4)) ∧
    decodeTableWord 32 0x11DD4C72 = some (.bic .ne true 13#4 4#4 (.shiftReg 12#4 .ror 2#4)) ∧
    decodeTableWord 32 0x23ED43FC = some (.mvn .cs false 13#4 4#4 (.imm 3#4 0xFC#8)) := by
  decide

theorem test_decode_thumb_format_1 :
    decodeTableWord 16 0x05EB = some (.tLslImm 0x17#5 5#3 3#3) ∧
    decodeTableWord 16 0x0FA2 = some (.tLsrImm 0x1E#5 4#3 2#3) ∧
    decodeTableWord 16 0x1159 = some (.tAsrImm 0x5#5 3#3 1#3) := by
  decide

theorem test_decode_thumb_format_2 :
    decodeTableWord 16 0x1910 = some (.tAddReg 4#3 2#3 0#3) ∧
    decodeTableWord 16 0x1ACF = some (.tSubReg 3#3 1#3 7#3) ∧
    decodeTableWord 16 0x1C86 = some (.tAddImm3 2#3 0#3 6#3) ∧
    decodeTableWord 16 0x1E7D = some (.tSubImm3 1#3 7#3 5#3) := by
  decide

theorem test_decode_thumb_format_3 :
    decodeTableWord 16 0x205E = some (.tMovImm8 0#3 0x5E#8) ∧
    decodeTableWord 16 0x2F65 = some (.tCmpImm8 7#3 0x65#8) ∧
    decodeTableWord 16 0x366C = some (.tAddImm8 6#3 0x6C#8) ∧
    decodeTableWord 16 0x3D73 = some (.tSubImm8 5#3 0x73#8) := by
  decide

theorem test_decode_thumb_format_4 :
    decodeTableWord 16 0x4022 = some (.tAnd 4#3 2#3) ∧
    decodeTableWord 16 0x4059 = some (.tEor 3#3 1#3) ∧
    decodeTableWord 16 0x4090 = some (.tLslReg 2#3 0#3) ∧
    decodeTableWord 16 0x40CF = some (.tLsrReg 1#3 7#3) ∧
    decodeTableWord 16 0x4106 = some (.tAsrReg 0#3 6#3) ∧
    decodeTableWord 16 0x417D = some (.tAdc 7#3 5#3) ∧
    decodeTableWord 16 0x41B4 = some (.tSbc 6#3 4#3) ∧
    decodeTableWord 16 0x41EB = some (.tRorReg 5#3 3#3) ∧
    decodeTableWord 16 0x4222 = some (.tTst 4#3 2#3) ∧
    decodeTableWord 16 0x4259 = some (.tNeg 3#3 1#3) ∧
    decodeTableWord 16 0x4290 = some (.tCmpReg 2#3 0#3) ∧
    decodeTableWord 16 0x42CF = some (.tCmn 1#3 7#3) ∧
    decodeTableWord 16 0x4306 = some (.tOrr 0#3 6#3) ∧
    decodeTableWord 16 0x437D = some (.tMul 7#3 5#3) ∧
    decodeTableWord 16 0x43B4 = some (.tBic 6#3 4#3) ∧
    decodeTableWord 16 0x43EB = some (.tMvn 5#3 3#3) := by
  decide

theorem test_decode_thumb_format_5 :
    decodeTableWord 16 0x445E = some (.tAddHi 11#4 6#4) ∧
    decodeTableWord 16 0x459E = some (.tCmpHi 3#4 14#4) ∧
    decodeTableWord 16 0x465E = some (.tMovHi 11#4 6#4) ∧
    decodeTableWord 16 0x479E = some (.tBx 3#4 14#4) := by
  decide

theorem test_decode_thumb_format_6 :
    decodeTableWord 16 0x4806 = some (.tLdrPc 0#3 0x6#8) := by
  decide

theorem test_decode_thumb_format_7 :
    decodeTableWord 16 0x51EB = some (.tStrReg 7#3 5#3 3#3) ∧
    decodeTableWord 16 0x55A2 = some (.tStrbReg 6#3 4#3 2#3) ∧
    decodeTableWord 16 0x5959 = some (.tLdrReg 5#3 3#3 1#3) ∧
    decodeTableWord 16 0x5D10 = some (.tLdrbReg 4#3 2#3 0#3) := by
  decide

theorem test_decode_thumb_format_8 :
    decodeTableWord 16 0x52CF = some (.tStrhReg 3#3 1#3 7#3) ∧
    decodeTableWord 16 0x5686 = some (.tLdsbReg 2#3 0#3 6#3) ∧
    decodeTableWord 16 0x5A7D = some (.tLdrhReg 1#3 7#3 5#3) ∧
    decodeTableWord 16 0x5E34 = some (.tLdshReg 0#3 6#3 4#3) := by
  decide

theorem test_decode_thumb_format_9 :
    decodeTableWord 16 0x63EB = some (.tStrImm 0xF#5 5#3 3#3) ∧
    decodeTableWord 16 0x6DA2 = some (.tLdrImm 0x16#5 4#3 2#3) ∧
    decodeTableWord 16 0x7759 = some (.tStrbImm 0x1D#5 3#3 1#3) ∧
    decodeTableWord 16 0x7910 = some (.tLdrbImm 0x4#5 2#3 0#3) := by
  decide

theorem test_decode_thumb_format_10 :
    decodeTableWord 16 0x82CF = some (.tStrhImm 0xB#5 1#3 7#3) ∧
    decodeTableWord 16 0x8C86 = some (.tLdrhImm 0x12#5 0#3 6#3) := by
  decide

theorem test_decode_thumb_format_11 :
    decodeTableWord 16 0x916F = some (.tStrSp 1#3 0x6F#8) ∧
    decodeTableWord 16 0x9876 = some (.tLdrSp 0#3 0x76#8) := by
  decide

theorem test_decode_thumb_format_12 :
    decodeTableWord 16 0xA77D = some (.tAddPc 7#3 0x7D#8) ∧
    decodeTableWord 16 0xAE84 = some (.tAddSp 6#3 0x84#8) := by
  decide

theorem test_decode_thumb_format_13 :
    decodeTableWord 16 0xB035 = some (.tAddSpImm 0x35#7) ∧
    decodeTableWord 16 0xB0BC = some (.tSubSpImm 0x3C#7) := by
  decide

theorem test_decode_thumb_format_14 :
    decodeTableWord 16 0xB599 = some (.tPush true 0x99#8) ∧
    decodeTableWord 16 0xBCA0 = some (.tPop false 0xA0#8) := by
  decide

theorem test_decode_thumb_format_15 :
    decodeTableWord 16 0xC1A7 = some (.tStmia 1#3 0xA7#8) ∧
    decodeTableWord 16 0xC8AE = some (.tLdmia 0#3 0xAE#8) := by
  decide

theorem test_decode_thumb_undefined :
    decodeTableWord 16 0xDEA5 = some (.tUndefDE 0xA5#8) ∧
    decodeTableWord 16 0xEDA5 = some (.tUndefE8 0x5A5#11) ∧
    decodeTableWord 16 0xB1A5 = some (.tUndefB1 0xA5#8) ∧
    decodeTableWord 16 0xB3A5 = some (.tUndefB2 0x1A5#9) ∧
    decodeTableWord 16 0xB7A5 = some (.tUndefB6 0x1A5#9) ∧
    decodeTableWord 16 0xB9A5 = some (.tUndefB8 0x1A5#10) ∧
    decodeTableWord 16 0xBFA5 = some (.tUndefBE 0x1A5#9) := by
  decide

theorem test_decode_thumb_format_17 :
    decodeTableWord 16 0xDF10 = some (.tSwi 0x10#8) := by
  decide

theorem test_decode_thumb_format_16 :
    decodeTableWord 16 0xD5ED = some (.tBCond .pl 0xED#8) := by
  decide

theorem test_decode_thumb_format_18 :
    decodeTableWord 16 0xE41E = some (.tB 0x41E#11) := by
  decide

theorem test_decode_thumb_format_19 :
    decodeTableWord 16 0xF425 = some (.tBlFirst 0x425#11) ∧
    decodeTableWord 16 0xFC2C = some (.tBlSecond 0x42C#11) := by
  decide

/-! ## Instructions: the vectors of 95_test_vectors.md -/

/-- The starting state of 95_test_vectors.md section 1: an instruction at `a`, CPSR, registers of the current mode, words of memory. -/
def before (a code cpsr : Nat) (regs words : List (Nat × Nat)) : State :=
  let p := statusOfWord (BitVec.ofNat 32 cpsr)
  let m := (modeOfBits p.m).getD .sys
  let s := regs.foldl (fun u x => setRegIn m (BitVec.ofNat 4 x.1) (BitVec.ofNat 32 x.2) u) State.reset
  { s with
    cpsr := ⟨p.n, p.z, p.c, p.v, p.i, p.f, p.t, m⟩
    pipeDecode := BitVec.ofNat 32 code
    r15 := BitVec.ofNat 32 (if p.t then a + 4 else a + 8)
    mem := words.foldl (fun mm x => Memory.load mm x.1 (layBytes x.2 4)) [] }

/-- After one CPU step the registers, CPSR and words are those given, and no other register of the mode has changed. -/
def ends (s : State) (regs : List (Nat × Nat)) (cpsr : Nat) (words : List (Nat × Nat)) : Bool :=
  match cpuStep s with
  | .next t =>
    regs.all (fun x => (readReg (BitVec.ofNat 4 x.1) t).toNat == x.2) &&
    (s.cpsr.mode != t.cpsr.mode ||
      (List.range 15).all (fun r => (regs.map Prod.fst).contains r || readReg (BitVec.ofNat 4 r) t == readReg (BitVec.ofNat 4 r) s)) &&
    (cpsrWord t).toNat == cpsr &&
    words.all (fun x => (read32 (BitVec.ofNat 32 x.1) t).1.toNat == x.2)
  | _ => false

/-- The CPU step faults. -/
def faults (s : State) (f : Fault) : Bool :=
  match cpuStep s with
  | .fault g => g == f
  | _ => false

/-- The outcome is a next state with the property. -/
def after (r : Result) (p : State → Bool) : Bool :=
  match r with
  | .next t => p t
  | _ => false

/-- After the step the SPSR of a mode is this word. -/
def saved (s : State) (m : Mode) (spsr : Nat) : Bool :=
  match cpuStep s with
  | .next t => (spsrOf m t).map (fun p => (statusWord p).toNat) == some spsr
  | _ => false

/-- After the step R14 and the SPSR of a mode are these. -/
def linked (s : State) (m : Mode) (r14 spsr : Nat) : Bool :=
  saved s m spsr &&
    match cpuStep s with
    | .next t => (readRegIn m 14#4 t).toNat == r14
    | _ => false

/-- 3.5 10: BX PC. -/
theorem test_vector_3_5_10 :
    ends (before 0x8000000 0xE12FFF1F 0x1F [] [])
      [(0, 0x0), (15, 0x8000010)] 0x1F [] = true := by
  decide

/-- 3.9 18: STMDA R0!, () (empty list). -/
theorem test_vector_3_9_18 :
    ends (before 0x8000000 0xE8200000 0x1F [(0, 0x3000100)] [])
      [(0, 0x30000C0), (15, 0x800000C)] 0x1F [(0x030000C4, 0x8000008)] = true := by
  decide

/-- 3.9 15: STMIA R0!, () (empty list). -/
theorem test_vector_3_9_15 :
    ends (before 0x8000000 0xE8A00000 0x1F [(0, 0x3000100)] [])
      [(0, 0x3000140), (15, 0x800000C)] 0x1F [(0x03000100, 0x8000008)] = true := by
  decide

/-- 3.9 16: STMDB R0!, () (empty list). -/
theorem test_vector_3_9_16 :
    ends (before 0x8000000 0xE9200000 0x1F [(0, 0x3000100)] [])
      [(0, 0x30000C0), (15, 0x800000C)] 0x1F [(0x030000C0, 0x8000008)] = true := by
  decide

/-- 3.9 17: STMIB R0, () (empty list). -/
theorem test_vector_3_9_17 :
    ends (before 0x8000000 0xE9800000 0x1F [(0, 0x3000100)] [])
      [(15, 0x800000C)] 0x1F [(0x03000104, 0x8000008)] = true := by
  decide

/-- 3.9 7: LDMDA R0!, (R1-R3). -/
theorem test_vector_3_9_7 :
    ends (before 0x8000000 0xE830000E 0x1F [(0, 0x3000108)] [(0x030000F4, 0x7), (0x030000F8, 0x8), (0x030000FC, 0x9), (0x03000100, 0xA), (0x03000104, 0xB), (0x03000108, 0xC)])
      [(0, 0x30000FC), (1, 0xA), (2, 0xB), (3, 0xC), (15, 0x800000C)] 0x1F [] = true := by
  decide

/-- 3.9 20: LDMIA R0, (R1, R15) (word 0x08000301 loaded into R15). -/
theorem test_vector_3_9_20 :
    ends (before 0x8000000 0xE8908002 0x1F [(0, 0x3000100)] [(0x03000100, 0x5), (0x03000104, 0x8000301)])
      [(0, 0x3000100), (1, 0x5), (15, 0x8000308)] 0x1F [] = true := by
  decide

/-- 3.9 8: LDMDB R0, (R1-R3). -/
theorem test_vector_3_9_8 :
    ends (before 0x8000000 0xE910000E 0x1F [(0, 0x3000100)] [(0x030000F4, 0x7), (0x030000F8, 0x8), (0x030000FC, 0x9), (0x03000100, 0xA), (0x03000104, 0xB), (0x03000108, 0xC)])
      [(0, 0x3000100), (1, 0x7), (2, 0x8), (3, 0x9), (15, 0x800000C)] 0x1F [] = true := by
  decide

/-- 3.9 6: LDMIB R0, (R1-R3). -/
theorem test_vector_3_9_6 :
    ends (before 0x8000000 0xE990000E 0x1F [(0, 0x30000FC)] [(0x030000F4, 0x7), (0x030000F8, 0x8), (0x030000FC, 0x9), (0x03000100, 0xA), (0x03000104, 0xB), (0x03000108, 0xC)])
      [(0, 0x30000FC), (1, 0xA), (2, 0xB), (3, 0xC), (15, 0x800000C)] 0x1F [] = true := by
  decide

/-- 3.9 24: LDMIA R0, (R15)^ in System mode. -/
theorem test_vector_3_9_24 : faults (before 0x8000000 0xE8D08000 0x1F [(0, 0x3000100)] []) .noSpsr = true := by
  decide

/-- 3.5 11: B -16 (field 0xFFFFFC): target A - 8 = 0x07FFFFF8. -/
theorem test_vector_3_5_11 :
    ends (before 0x8000000 0xEAFFFFFC 0x1F [] [])
      [(0, 0x0), (15, 0x8000000)] 0x1F [] = true := by
  decide

/-- 3.5 5: BLNE with Z = 1. -/
theorem test_vector_3_5_5 :
    ends (before 0x8000000 0x1B00003E 0x4000001F [] [])
      [(0, 0x0), (15, 0x800000C)] 0x4000001F [] = true := by
  decide

/-- 3.11 8: SWINV (0xFF000000). -/
theorem test_vector_3_11_8 :
    ends (before 0x8000000 0xFF000000 0x1F [] [])
      [(0, 0x0), (15, 0x800000C)] 0x1F [] = true := by
  decide

/-- 3.11 9: UND with cond NV (0xF7F000F0). -/
theorem test_vector_3_11_9 :
    ends (before 0x8000000 0xF7F000F0 0x1F [] [])
      [(0, 0x0), (15, 0x800000C)] 0x1F [] = true := by
  decide

/-- 3.11 7: LDC p1, c0, [R0]. -/
theorem test_vector_3_11_7 :
    ends (before 0x8000000 0xED900100 0x1F [] [])
      [(0, 0x0), (15, 0xC)] 0x9B [] = true ∧
    linked (before 0x8000000 0xED900100 0x1F [] []) .und 0x8000004 0x1F = true := by
  decide

/-- 3.11 6: CDP p1, 0, c0, c0, c0. -/
theorem test_vector_3_11_6 :
    ends (before 0x8000000 0xEE000100 0x1F [] [])
      [(0, 0x0), (15, 0xC)] 0x9B [] = true ∧
    linked (before 0x8000000 0xEE000100 0x1F [] []) .und 0x8000004 0x1F = true := by
  decide

/-- 3.6 16: LDRT R0, [R1], #4 (User mode). -/
theorem test_vector_3_6_16 :
    ends (before 0x8000000 0xE4B10004 0x10 [(1, 0x2000004)] [(0x02000000, 0x11223344), (0x02000004, 0x55667788), (0x02000008, 0x8000203)])
      [(0, 0x55667788), (1, 0x2000008), (15, 0x800000C)] 0x10 [] = true := by
  decide

/-- 3.6 13: LDR R0, [PC, #4] (word 0xCAFEBABE at A + 12). -/
theorem test_vector_3_6_13 :
    ends (before 0x8000000 0xE59F0004 0x1F [] [(0x0800000C, 0xCAFEBABE)])
      [(0, 0xCAFEBABE), (15, 0x800000C)] 0x1F [] = true := by
  decide

/-- 3.6 15: LDRB R0, [R1], #-1. -/
theorem test_vector_3_6_15 :
    ends (before 0x8000000 0xE4510001 0x1F [(1, 0x2000000)] [(0x02000000, 0x11223344), (0x02000004, 0x55667788), (0x02000008, 0x8000203)])
      [(0, 0x44), (1, 0x1FFFFFF), (15, 0x800000C)] 0x1F [] = true := by
  decide

/-- 3.6 29: STR R0, [R1] (OAM). -/
theorem test_vector_3_6_29 :
    ends (before 0x8000000 0xE5810000 0x1F [(0, 0x12345678), (1, 0x7000000)] [])
      [(15, 0x800000C)] 0x1F [(0x07000000, 0x12345678)] = true := by
  decide

/-- 3.6 22: STRB R0, [R1] (EWRAM). -/
theorem test_vector_3_6_22 :
    ends (before 0x8000000 0xE5C10000 0x1F [(0, 0x1234), (1, 0x2000001)] [(0x02000000, 0x11223344), (0x02000004, 0x55667788), (0x02000008, 0x8000203)])
      [(15, 0x800000C)] 0x1F [(0x02000000, 0x11223444)] = true := by
  decide

/-- 3.8 4: SWP R0, R0, [R2]. -/
theorem test_vector_3_8_4 :
    ends (before 0x8000000 0xE1020090 0x1F [(0, 0x5), (2, 0x3000000)] [(0x03000000, 0x80FEBEEF)])
      [(0, 0x80FEBEEF), (15, 0x800000C)] 0x1F [(0x03000000, 0x5)] = true := by
  decide

/-- 3.8 3: SWPB R0, R1, [R2]. -/
theorem test_vector_3_8_3 :
    ends (before 0x8000000 0xE1420091 0x1F [(1, 0xAABBCCDD), (2, 0x3000001)] [(0x03000000, 0x80FEBEEF)])
      [(0, 0xBE), (15, 0x800000C)] 0x1F [(0x03000000, 0x80FEDDEF)] = true := by
  decide

/-- 3.4 4: MUL R0, R0, R0. -/
theorem test_vector_3_4_4 :
    ends (before 0x8000000 0xE0000090 0x1F [(0, 0x10001)] [])
      [(0, 0x20001), (15, 0x800000C)] 0x1F [] = true := by
  decide

/-- 3.4 6: MLAS R0, R1, R2, R3. -/
theorem test_vector_3_4_6 :
    ends (before 0x8000000 0xE0303291 0x2000001F [(1, 0x2), (2, 0x3), (3, 0xFFFFFFFA)] [])
      [(0, 0x0), (15, 0x800000C)] 0x6000001F [] = true := by
  decide

/-- 3.4 9: UMULLS R0, R1, R2, R3. -/
theorem test_vector_3_4_9 :
    ends (before 0x8000000 0xE0910392 0x1F [(2, 0x0), (3, 0x12345678)] [])
      [(0, 0x0), (15, 0x800000C)] 0x4000001F [] = true := by
  decide

/-- 3.4 11: UMLALS R0, R1, R2, R3. -/
theorem test_vector_3_4_11 :
    ends (before 0x8000000 0xE0B10392 0x1F [(0, 0x1), (1, 0xFFFFFFFF), (2, 0xFFFFFFFF), (3, 0x1)] [])
      [(0, 0x0), (1, 0x0), (15, 0x800000C)] 0x4000001F [] = true := by
  decide

/-- 3.4 14: SMULLS R0, R1, R2, R3. -/
theorem test_vector_3_4_14 :
    ends (before 0x8000000 0xE0D10392 0x1F [(2, 0xFFFFFFFF), (3, 0x2)] [])
      [(0, 0xFFFFFFFE), (1, 0xFFFFFFFF), (15, 0x800000C)] 0x8000001F [] = true := by
  decide

/-- 3.4 17: SMLALS R0, R1, R2, R3. -/
theorem test_vector_3_4_17 :
    ends (before 0x8000000 0xE0F10392 0x1F [(0, 0x0), (1, 0x0), (2, 0xFFFFFFFF), (3, 0x80000000)] [])
      [(0, 0x80000000), (15, 0x800000C)] 0x1F [] = true := by
  decide

/-- 3.7 12: LDRH R0, [R1], R2. -/
theorem test_vector_3_7_12 :
    ends (before 0x8000000 0xE09100B2 0x1F [(1, 0x3000000), (2, 0x6)] [(0x03000000, 0x80FEBEEF)])
      [(0, 0xBEEF), (1, 0x3000006), (15, 0x800000C)] 0x1F [] = true := by
  decide

/-- 3.7 15: STRH R0, [R1, #-2]!. -/
theorem test_vector_3_7_15 :
    ends (before 0x8000000 0xE16100B2 0x1F [(0, 0xABCD), (1, 0x3000004)] [(0x03000000, 0x80FEBEEF)])
      [(1, 0x3000002), (15, 0x800000C)] 0x1F [(0x03000000, 0xABCDBEEF)] = true := by
  decide

/-- 3.7 13: LDRSB R0, [R1, -R2]!. -/
theorem test_vector_3_7_13 :
    ends (before 0x8000000 0xE13100D2 0x1F [(1, 0x3000004), (2, 0x1)] [(0x03000000, 0x80FEBEEF)])
      [(0, 0xFFFFFF80), (1, 0x3000003), (15, 0x800000C)] 0x1F [] = true := by
  decide

/-- 3.7 8: LDRSH R0, [R1]. -/
theorem test_vector_3_7_8 :
    ends (before 0x8000000 0xE1D100F0 0x1F [(1, 0x3000003)] [(0x03000000, 0x80FEBEEF)])
      [(0, 0xFFFFFF80), (15, 0x800000C)] 0x1F [] = true := by
  decide

/-- 3.10 1: MRS R0, CPSR. -/
theorem test_vector_3_10_1 :
    ends (before 0x8000000 0xE10F0000 0x6000001F [] [])
      [(0, 0x6000001F), (15, 0x800000C)] 0x6000001F [] = true := by
  decide

/-- 3.10 3: MRS R0, SPSR in System mode. -/
theorem test_vector_3_10_3 : faults (before 0x8000000 0xE14F0000 0x1F [] []) .noSpsr = true := by
  decide

/-- 3.10 6: MSR CPSR_fc, R0 (User mode). -/
theorem test_vector_3_10_6 :
    ends (before 0x8000000 0xE129F000 0x10 [(0, 0xF00000DF)] [])
      [(0, 0xF00000DF), (15, 0x800000C)] 0xF0000010 [] = true := by
  decide

/-- 3.10 14: MSR SPSR_f, R0 in System mode. -/
theorem test_vector_3_10_14 : faults (before 0x8000000 0xE168F000 0x1F [(0, 0x0)] []) .noSpsr = true := by
  decide

/-- 3.10 11: MSR CPSR_c, #0x1B from User mode. -/
theorem test_vector_3_10_11 :
    ends (before 0x8000000 0xE321F01B 0x10 [] [])
      [(0, 0x0), (15, 0x800000C)] 0x10 [] = true := by
  decide

/-- 3.10 13: MSR SPSR_c, #0x1F (SVC). -/
theorem test_vector_3_10_13 :
    ends (before 0x8000000 0xE361F01F 0x93 [] [])
      [(0, 0x0), (15, 0x800000C)] 0x93 [] = true ∧
    saved (before 0x8000000 0xE361F01F 0x93 [] []) .svc 0x1F = true := by
  decide

/-- 3.7 19: LDRSB-form store, L = 0, S = 1 (0xE1C100D0). -/
theorem test_vector_3_7_19 : faults (before 0x8000000 0xE1C100D0 0x1F [(1, 0x3000000)] [(0x03000000, 0x80FEBEEF)]) .unallocated = true := by
  decide

/-- 3.3 29: ANDS R0, R1, R2, LSR #1. -/
theorem test_vector_3_3_29 :
    ends (before 0x8000000 0xE01100A2 0x1F [(1, 0xFFFFFFFF), (2, 0x1)] [])
      [(0, 0x0), (15, 0x800000C)] 0x6000001F [] = true := by
  decide

/-- 3.3 30: EORS R0, R1, R2. -/
theorem test_vector_3_3_30 :
    ends (before 0x8000000 0xE0310002 0x1F [(1, 0xF0F0F0F0), (2, 0xF0F0F0F)] [])
      [(0, 0xFFFFFFFF), (15, 0x800000C)] 0x8000001F [] = true := by
  decide

/-- 3.3 8: SUBS R0, R1, R2. -/
theorem test_vector_3_3_8 :
    ends (before 0x8000000 0xE0510002 0x1F [(1, 0x7FFFFFFF), (2, 0xFFFFFFFF)] [])
      [(0, 0x80000000), (15, 0x800000C)] 0x9000001F [] = true := by
  decide

/-- 3.3 11: RSBS R0, R1, R2. -/
theorem test_vector_3_3_11 :
    ends (before 0x8000000 0xE0710002 0x1F [(1, 0x1), (2, 0x3)] [])
      [(0, 0x2), (15, 0x800000C)] 0x2000001F [] = true := by
  decide

/-- 3.3 42: ADD PC, PC, #4. -/
theorem test_vector_3_3_42 :
    ends (before 0x8000000 0xE28FF004 0x1F [] [])
      [(0, 0x0), (15, 0x8000014)] 0x1F [] = true := by
  decide

/-- 3.3 14: ADCS R0, R1, R2. -/
theorem test_vector_3_3_14 :
    ends (before 0x8000000 0xE0B10002 0x1F [(1, 0xFFFFFFFF), (2, 0xFFFFFFFF)] [])
      [(0, 0xFFFFFFFE), (15, 0x800000C)] 0xA000001F [] = true := by
  decide

/-- 3.3 17: SBCS R0, R1, R2. -/
theorem test_vector_3_3_17 :
    ends (before 0x8000000 0xE0D10002 0x1F [(1, 0x80000000), (2, 0x0)] [])
      [(0, 0x7FFFFFFF), (15, 0x800000C)] 0x3000001F [] = true := by
  decide

/-- 3.3 19: RSCS R0, R1, R2. -/
theorem test_vector_3_3_19 :
    ends (before 0x8000000 0xE0F10002 0x2000001F [(1, 0x3), (2, 0x5)] [])
      [(0, 0x2), (15, 0x800000C)] 0x2000001F [] = true := by
  decide

/-- 3.3 25: TST R1, #0xFF. -/
theorem test_vector_3_3_25 :
    ends (before 0x8000000 0xE31100FF 0x2000001F [(1, 0x100)] [])
      [(0, 0x0), (15, 0x800000C)] 0x6000001F [] = true := by
  decide

/-- 3.3 27: TEQ R1, R2. -/
theorem test_vector_3_3_27 :
    ends (before 0x8000000 0xE1310002 0x1000001F [(1, 0x7FFFFFFF), (2, 0xFFFFFFFF)] [])
      [(0, 0x0), (15, 0x800000C)] 0x9000001F [] = true := by
  decide

/-- 3.3 28: CMP R1, R2 with Rd field 15. -/
theorem test_vector_3_3_28 :
    ends (before 0x8000000 0xE151F002 0x1F [(1, 0x1), (2, 0x1)] [])
      [(0, 0x0), (15, 0x800000C)] 0x6000001F [] = true := by
  decide

/-- 3.3 23: CMN R1, R2. -/
theorem test_vector_3_3_23 :
    ends (before 0x8000000 0xE1710002 0x1F [(1, 0x7FFFFFFF), (2, 0x1)] [])
      [(0, 0x0), (15, 0x800000C)] 0x9000001F [] = true := by
  decide

/-- 3.3 31: ORRS R0, R1, R2. -/
theorem test_vector_3_3_31 :
    ends (before 0x8000000 0xE1910002 0x1F [(1, 0x0), (2, 0x0)] [])
      [(0, 0x0), (15, 0x800000C)] 0x4000001F [] = true := by
  decide

/-- 3.2 shift73: MOVS R0, R1, ROR R2. -/
theorem test_vector_3_2_shift73 :
    ends (before 0x8000000 0xE1B00271 0x2000001F [(1, 0x40000002), (2, 0x121)] [])
      [(0, 0x20000001), (15, 0x800000C)] 0x1F [] = true := by
  decide

/-- 3.3 32: BICS R0, R1, R2. -/
theorem test_vector_3_3_32 :
    ends (before 0x8000000 0xE1D10002 0x1F [(1, 0xFFFFFFFF), (2, 0x7FFFFFFF)] [])
      [(0, 0x80000000), (15, 0x800000C)] 0x8000001F [] = true := by
  decide

/-- 3.3 37: MVN R0, R1. -/
theorem test_vector_3_3_37 :
    ends (before 0x8000000 0xE1E00001 0x1F [(1, 0xFFFF)] [])
      [(0, 0xFFFF0000), (15, 0x800000C)] 0x1F [] = true := by
  decide

/-- 4 2: LSL R0, R1, #31. -/
theorem test_vector_4_2 :
    ends (before 0x8000000 0x7C8 0x3F [(1, 0x3)] [])
      [(0, 0x80000000), (15, 0x8000006)] 0xA000003F [] = true := by
  decide

/-- 4 3: LSR R0, R1, #32 (field 0). -/
theorem test_vector_4_3 :
    ends (before 0x8000000 0x808 0x3F [(1, 0x80000000)] [])
      [(0, 0x0), (15, 0x8000006)] 0x6000003F [] = true := by
  decide

/-- 4 5: ASR R0, R1, #31. -/
theorem test_vector_4_5 :
    ends (before 0x8000000 0x17C8 0x3F [(1, 0x40000000)] [])
      [(0, 0x0), (15, 0x8000006)] 0x6000003F [] = true := by
  decide

/-- 4 6: ADD R0, R1, R2. -/
theorem test_vector_4_6 :
    ends (before 0x8000000 0x1888 0x3F [(1, 0xFFFFFFFF), (2, 0x1)] [])
      [(0, 0x0), (15, 0x8000006)] 0x6000003F [] = true := by
  decide

/-- 4 7: SUB R0, R1, R2. -/
theorem test_vector_4_7 :
    ends (before 0x8000000 0x1A88 0x3F [(1, 0x80000000), (2, 0x1)] [])
      [(0, 0x7FFFFFFF), (15, 0x8000006)] 0x3000003F [] = true := by
  decide

/-- 4 8: ADD R0, R1, #0. -/
theorem test_vector_4_8 :
    ends (before 0x8000000 0x1C08 0x3000003F [(1, 0x80000000)] [])
      [(0, 0x80000000), (15, 0x8000006)] 0x8000003F [] = true := by
  decide

/-- 4 9: SUB R0, R1, #7. -/
theorem test_vector_4_9 :
    ends (before 0x8000000 0x1FC8 0x3F [(1, 0x7)] [])
      [(0, 0x0), (15, 0x8000006)] 0x6000003F [] = true := by
  decide

/-- 4 10: MOV R0, #0. -/
theorem test_vector_4_10 :
    ends (before 0x8000000 0x2000 0xB000003F [(0, 0x5)] [])
      [(0, 0x0), (15, 0x8000006)] 0x7000003F [] = true := by
  decide

/-- 4 11: CMP R0, #0xFF. -/
theorem test_vector_4_11 :
    ends (before 0x8000000 0x28FF 0x3F [(0, 0xFF)] [])
      [(0, 0xFF), (15, 0x8000006)] 0x6000003F [] = true := by
  decide

/-- 4 12: ADD R0, #0xFF. -/
theorem test_vector_4_12 :
    ends (before 0x8000000 0x30FF 0x3F [(0, 0xFFFFFF01)] [])
      [(0, 0x0), (15, 0x8000006)] 0x6000003F [] = true := by
  decide

/-- 4 13: SUB R0, #1. -/
theorem test_vector_4_13 :
    ends (before 0x8000000 0x3801 0x3F [(0, 0x80000000)] [])
      [(0, 0x7FFFFFFF), (15, 0x8000006)] 0x3000003F [] = true := by
  decide

/-- 4 14: AND R0, R1. -/
theorem test_vector_4_14 :
    ends (before 0x8000000 0x4008 0x2000003F [(0, 0x80000001), (1, 0x80000003)] [])
      [(0, 0x80000001), (15, 0x8000006)] 0xA000003F [] = true := by
  decide

/-- 4 15: EOR R0, R1. -/
theorem test_vector_4_15 :
    ends (before 0x8000000 0x4048 0x2000003F [(0, 0x80000001), (1, 0x80000003)] [])
      [(0, 0x2), (15, 0x8000006)] 0x2000003F [] = true := by
  decide

/-- 4 30: LSL R0, R1 (R1 = 0x100: amount 0). -/
theorem test_vector_4_30 :
    ends (before 0x8000000 0x4088 0x2000003F [(0, 0x80000001), (1, 0x100)] [])
      [(0, 0x80000001), (15, 0x8000006)] 0xA000003F [] = true := by
  decide

/-- 4 17: LSR R0, R1. -/
theorem test_vector_4_17 :
    ends (before 0x8000000 0x40C8 0x2000003F [(0, 0x80000001), (1, 0x21)] [])
      [(0, 0x0), (15, 0x8000006)] 0x4000003F [] = true := by
  decide

/-- 4 18: ASR R0, R1. -/
theorem test_vector_4_18 :
    ends (before 0x8000000 0x4108 0x2000003F [(0, 0x80000001), (1, 0x21)] [])
      [(0, 0xFFFFFFFF), (15, 0x8000006)] 0xA000003F [] = true := by
  decide

/-- 4 19: ADC R0, R1. -/
theorem test_vector_4_19 :
    ends (before 0x8000000 0x4148 0x2000003F [(0, 0x80000001), (1, 0x80000003)] [])
      [(0, 0x5), (15, 0x8000006)] 0x3000003F [] = true := by
  decide

/-- 4 20: SBC R0, R1. -/
theorem test_vector_4_20 :
    ends (before 0x8000000 0x4188 0x2000003F [(0, 0x80000001), (1, 0x80000003)] [])
      [(0, 0xFFFFFFFE), (15, 0x8000006)] 0x8000003F [] = true := by
  decide

/-- 4 31: ROR R0, R1 (R1 = 32). -/
theorem test_vector_4_31 :
    ends (before 0x8000000 0x41C8 0x3F [(0, 0x80000001), (1, 0x20)] [])
      [(0, 0x80000001), (15, 0x8000006)] 0xA000003F [] = true := by
  decide

/-- 4 22: TST R0, R1. -/
theorem test_vector_4_22 :
    ends (before 0x8000000 0x4208 0x2000003F [(0, 0x80000001), (1, 0x80000003)] [])
      [(0, 0x80000001), (15, 0x8000006)] 0xA000003F [] = true := by
  decide

/-- 4 33: NEG R0, R1 (R1 = 0x80000000). -/
theorem test_vector_4_33 :
    ends (before 0x8000000 0x4248 0x3F [(1, 0x80000000)] [])
      [(0, 0x80000000), (15, 0x8000006)] 0x9000003F [] = true := by
  decide

/-- 4 24: CMP R0, R1. -/
theorem test_vector_4_24 :
    ends (before 0x8000000 0x4288 0x2000003F [(0, 0x80000001), (1, 0x80000003)] [])
      [(0, 0x80000001), (15, 0x8000006)] 0x8000003F [] = true := by
  decide

/-- 4 25: CMN R0, R1. -/
theorem test_vector_4_25 :
    ends (before 0x8000000 0x42C8 0x2000003F [(0, 0x80000001), (1, 0x80000003)] [])
      [(0, 0x80000001), (15, 0x8000006)] 0x3000003F [] = true := by
  decide

/-- 4 26: ORR R0, R1. -/
theorem test_vector_4_26 :
    ends (before 0x8000000 0x4308 0x2000003F [(0, 0x80000001), (1, 0x80000003)] [])
      [(0, 0x80000003), (15, 0x8000006)] 0xA000003F [] = true := by
  decide

/-- 4 27: MUL R0, R1. -/
theorem test_vector_4_27 :
    ends (before 0x8000000 0x4348 0x2000003F [(0, 0x80000001), (1, 0x80000003)] [])
      [(0, 0x3), (15, 0x8000006)] 0x2000003F [] = true := by
  decide

/-- 4 28: BIC R0, R1. -/
theorem test_vector_4_28 :
    ends (before 0x8000000 0x4388 0x2000003F [(0, 0x80000001), (1, 0x80000003)] [])
      [(0, 0x0), (15, 0x8000006)] 0x6000003F [] = true := by
  decide

/-- 4 29: MVN R0, R1. -/
theorem test_vector_4_29 :
    ends (before 0x8000000 0x43C8 0x2000003F [(0, 0x80000001), (1, 0x80000003)] [])
      [(0, 0x7FFFFFFC), (15, 0x8000006)] 0x2000003F [] = true := by
  decide

/-- 4 36: ADD PC, R0. -/
theorem test_vector_4_36 :
    ends (before 0x8000000 0x4487 0x3F [(0, 0x11)] [])
      [(0, 0x11), (15, 0x8000018)] 0x3F [] = true := by
  decide

/-- 4 38: CMP PC, R0 (d = 15). -/
theorem test_vector_4_38 :
    ends (before 0x8000000 0x4587 0x3F [(0, 0x8000004)] [])
      [(0, 0x8000004), (15, 0x8000006)] 0x6000003F [] = true := by
  decide

/-- 4 41: MOV R0, PC. -/
theorem test_vector_4_41 :
    ends (before 0x8000000 0x4678 0x3F [] [])
      [(0, 0x8000004), (15, 0x8000006)] 0x3F [] = true := by
  decide

/-- 4 45: BX R9 (H2 = 1, R9 = 0x08000300). -/
theorem test_vector_4_45 :
    ends (before 0x8000000 0x4748 0x3F [(9, 0x8000300)] [])
      [(0, 0x0), (15, 0x8000308)] 0x1F [] = true := by
  decide

/-- 4 47: LDR R0, [PC, #0] at A = 0x08000100 (word 0x12345678 at 0x08000104). -/
theorem test_vector_4_47 :
    ends (before 0x8000100 0x4800 0x3F [] [(0x08000104, 0x12345678)])
      [(0, 0x12345678), (15, 0x8000106)] 0x3F [] = true := by
  decide

/-- 4 54: STR R0, [R1, R2] (misaligned). -/
theorem test_vector_4_54 :
    ends (before 0x8000000 0x5088 0x3F [(0, 0x11223344), (1, 0x2000000), (2, 0x2)] [])
      [(15, 0x8000006)] 0x3F [(0x02000000, 0x11223344)] = true := by
  decide

/-- 4 48: LDR R0, [R1, R2] (R2 = 1). -/
theorem test_vector_4_48 :
    ends (before 0x8000000 0x5888 0x3F [(1, 0x2000000), (2, 0x1)] [(0x02000000, 0x80FEBEEF)])
      [(0, 0xEF80FEBE), (15, 0x8000006)] 0x3F [] = true := by
  decide

/-- 4 49: LDRB R0, [R1, R2]. -/
theorem test_vector_4_49 :
    ends (before 0x8000000 0x5C88 0x3F [(1, 0x2000000), (2, 0x3)] [(0x02000000, 0x80FEBEEF)])
      [(0, 0x80), (15, 0x8000006)] 0x3F [] = true := by
  decide

/-- 4 55: STRH R0, [R1, R2]. -/
theorem test_vector_4_55 :
    ends (before 0x8000000 0x5288 0x3F [(0, 0xFFFF1234), (1, 0x2000000), (2, 0x3)] [])
      [(15, 0x8000006)] 0x3F [(0x02000000, 0x12340000)] = true := by
  decide

/-- 4 51: LDSB R0, [R1, R2]. -/
theorem test_vector_4_51 :
    ends (before 0x8000000 0x5688 0x3F [(1, 0x2000000), (2, 0x3)] [(0x02000000, 0x80FEBEEF)])
      [(0, 0xFFFFFF80), (15, 0x8000006)] 0x3F [] = true := by
  decide

/-- 4 50: LDRH R0, [R1, R2] (odd). -/
theorem test_vector_4_50 :
    ends (before 0x8000000 0x5A88 0x3F [(1, 0x2000000), (2, 0x1)] [(0x02000000, 0x80FEBEEF)])
      [(0, 0xEF0000BE), (15, 0x8000006)] 0x3F [] = true := by
  decide

/-- 4 53: LDSH R0, [R1, R2] (odd). -/
theorem test_vector_4_53 :
    ends (before 0x8000000 0x5E88 0x3F [(1, 0x2000000), (2, 0x3)] [(0x02000000, 0x80FEBEEF)])
      [(0, 0xFFFFFF80), (15, 0x8000006)] 0x3F [] = true := by
  decide

/-- 4 57: STR R0, [R1, #124]. -/
theorem test_vector_4_57 :
    ends (before 0x8000000 0x67C8 0x3F [(0, 0x9), (1, 0x3000000)] [])
      [(15, 0x8000006)] 0x3F [(0x0300007C, 0x9)] = true := by
  decide

/-- 4 58: LDR R0, [R1, #4] (R1 odd; word 0x11223344 at 0x02000000). -/
theorem test_vector_4_58 :
    ends (before 0x8000000 0x6848 0x3F [(1, 0x1FFFFFD)] [(0x02000000, 0x11223344)])
      [(0, 0x44112233), (15, 0x8000006)] 0x3F [] = true := by
  decide

/-- 4 59: STRB R0, [R1, #31]. -/
theorem test_vector_4_59 :
    ends (before 0x8000000 0x77C8 0x3F [(0, 0x1FF), (1, 0x3000000)] [])
      [(15, 0x8000006)] 0x3F [(0x0300001C, 0xFF000000)] = true := by
  decide

/-- 4 60: LDRB R0, [R1, #31] (word 0x9A000000 at 0x0300001C). -/
theorem test_vector_4_60 :
    ends (before 0x8000000 0x7FC8 0x3F [(1, 0x3000000)] [(0x0300001C, 0x9A000000)])
      [(0, 0x9A), (15, 0x8000006)] 0x3F [] = true := by
  decide

/-- 4 62: LDRH R0, [R1, #2] (word 0xFEDC0000 at 0x03000000). -/
theorem test_vector_4_62 :
    ends (before 0x8000000 0x8848 0x3F [(1, 0x3000000)] [(0x03000000, 0xFEDC0000)])
      [(0, 0xFEDC), (15, 0x8000006)] 0x3F [] = true := by
  decide

/-- 4 63: STR R0, [SP, #1020]. -/
theorem test_vector_4_63 :
    ends (before 0x8000000 0x90FF 0x3F [(0, 0x7), (13, 0x3007000)] [])
      [(15, 0x8000006)] 0x3F [(0x030073FC, 0x7)] = true := by
  decide

/-- 4 64: LDR R0, [SP, #0] (SP misaligned by 2; word 0x11223344 at 0x03000000). -/
theorem test_vector_4_64 :
    ends (before 0x8000000 0x9800 0x3F [(13, 0x3000002)] [(0x03000000, 0x11223344)])
      [(0, 0x33441122), (15, 0x8000006)] 0x3F [] = true := by
  decide

/-- 4 65: ADD R0, PC, #1020 at A = 0x08000002. -/
theorem test_vector_4_65 :
    ends (before 0x8000002 0xA0FF 0x3F [] [])
      [(0, 0x8000400), (15, 0x8000008)] 0x3F [] = true := by
  decide

/-- 4 66: ADD R0, SP, #4. -/
theorem test_vector_4_66 :
    ends (before 0x8000000 0xA801 0x3F [(13, 0x3007F00)] [])
      [(0, 0x3007F04), (15, 0x8000006)] 0x3F [] = true := by
  decide

/-- 4 67: ADD SP, #508. -/
theorem test_vector_4_67 :
    ends (before 0x8000000 0xB07F 0x3F [(13, 0x3007F00)] [])
      [(0, 0x0), (13, 0x30080FC), (15, 0x8000006)] 0x3F [] = true := by
  decide

/-- 4 68: SUB SP, #508. -/
theorem test_vector_4_68 :
    ends (before 0x8000000 0xB0FF 0x3F [(13, 0x3007F00)] [])
      [(0, 0x0), (13, 0x3007D04), (15, 0x8000006)] 0x3F [] = true := by
  decide

/-- 4 70: PUSH () (empty). -/
theorem test_vector_4_70 :
    ends (before 0x8000000 0xB400 0x3F [(13, 0x3007F00)] [])
      [(13, 0x3007EC0), (15, 0x8000006)] 0x3F [(0x03007EC0, 0x8000004)] = true := by
  decide

/-- 4 72: POP () (empty, word 0x08000100). -/
theorem test_vector_4_72 :
    ends (before 0x8000000 0xBC00 0x3F [(13, 0x3007F00)] [(0x03007F00, 0x8000100)])
      [(0, 0x0), (13, 0x3007F40), (15, 0x8000104)] 0x3F [] = true := by
  decide

/-- 4 74: STMIA R0!, (R0, R1) (base lowest). -/
theorem test_vector_4_74 :
    ends (before 0x8000000 0xC003 0x3F [(0, 0x2000000), (1, 0x6)] [])
      [(0, 0x2000008), (15, 0x8000006)] 0x3F [(0x02000000, 0x2000000), (0x02000004, 0x6)] = true := by
  decide

/-- 4 76: LDMIA R0!, () (empty, word 0x08000101). -/
theorem test_vector_4_76 :
    ends (before 0x8000000 0xC800 0x3F [(0, 0x2000000)] [(0x02000000, 0x8000101)])
      [(0, 0x2000040), (15, 0x8000104)] 0x3F [] = true := by
  decide

/-- 3.11 11: THUMB undefined 0xDE00 at A = 0x08000000. -/
theorem test_vector_3_11_11 :
    ends (before 0x8000000 0xDE00 0x3F [] [])
      [(0, 0x0), (15, 0xC)] 0x9B [] = true ∧
    linked (before 0x8000000 0xDE00 0x3F [] []) .und 0x8000003 0x3F = true := by
  decide

/-- 3.11 12: THUMB undefined 0xE800. -/
theorem test_vector_3_11_12 :
    ends (before 0x8000000 0xE800 0x3F [] [])
      [(0, 0x0), (15, 0xC)] 0x9B [] = true ∧
    linked (before 0x8000000 0xE800 0x3F [] []) .und 0x8000003 0x3F = true := by
  decide

/-- 3.11 13: THUMB undefined 0xB100. -/
theorem test_vector_3_11_13 :
    ends (before 0x8000000 0xB100 0x3F [] [])
      [(0, 0x0), (15, 0xC)] 0x9B [] = true ∧
    linked (before 0x8000000 0xB100 0x3F [] []) .und 0x8000003 0x3F = true := by
  decide

/-- 3.11 14: THUMB undefined 0xBE00. -/
theorem test_vector_3_11_14 :
    ends (before 0x8000000 0xBE00 0x3F [] [])
      [(0, 0x0), (15, 0xC)] 0x9B [] = true ∧
    linked (before 0x8000000 0xBE00 0x3F [] []) .und 0x8000003 0x3F = true := by
  decide

/-- 3.11 10: SWI 0 at A = 0x08000100 (T = 1: SWI 0 is 0xDF00). -/
theorem test_vector_3_11_10 :
    ends (before 0x8000100 0xDF00 0x3F [] [])
      [(0, 0x0), (15, 0x10)] 0x93 [] = true ∧
    linked (before 0x8000100 0xDF00 0x3F [] []) .svc 0x8000103 0x3F = true := by
  decide

/-- 4 80: BGT with Z = 0, N = V = 1. -/
theorem test_vector_4_80 :
    ends (before 0x8000000 0xDC10 0x9000003F [] [])
      [(0, 0x0), (15, 0x8000028)] 0x9000003F [] = true := by
  decide

/-- 4 83: B −2048 (field 0x400) at A = 0x08001000. -/
theorem test_vector_4_83 :
    ends (before 0x8001000 0xE400 0x3F [] [])
      [(0, 0x0), (15, 0x8000808)] 0x3F [] = true := by
  decide

/-- 4 84: BL +0x1000: 0xF001, 0xF800 (first half alone). -/
theorem test_vector_4_84 :
    ends (before 0x8000000 0xF001 0x3F [] [])
      [(0, 0x0), (14, 0x8001004), (15, 0x8000006)] 0x3F [] = true := by
  decide

/-- 4 87: BL second half alone, R14 = 0x08000400 (0xF804). -/
theorem test_vector_4_87 :
    ends (before 0x8000000 0xF804 0x3F [(14, 0x8000400)] [])
      [(0, 0x0), (14, 0x8000003), (15, 0x800040C)] 0x3F [] = true := by
  decide

/-- STMIB R0, {R13}^ in IRQ mode stores the user bank's R13 at base + 4 (42_arm_block_transfer.md R500, R504). -/
theorem test_stmib_user :
    ends (before 0x08000000 0xE9C02000 0x92 [(0, 0x03000100), (13, 0x5)] []) [] 0x92 [(0x03000104, 0x03007F00)] = true := by
  decide

/-- LDMDB R0!, {R13}^ in IRQ mode loads the user bank's R13 and keeps R13_irq (R504). -/
theorem test_ldmdb_user :
    ends (before 0x08000000 0xE9702000 0x92 [(0, 0x03000104), (13, 0x5)] [(0x03000100, 0x1234)]) [(0, 0x03000100)] 0x92 [] = true ∧
    after (cpuStep (before 0x08000000 0xE9702000 0x92 [(0, 0x03000104), (13, 0x5)] [(0x03000100, 0x1234)]))
      (fun t => readRegIn .usr 13#4 t == 0x1234#32) = true := by
  decide

/-- STRT R0, [R1], #4 and STRBT R0, [R1], #-1: post-indexed (43_arm_single_transfer.md R550, R555). -/
theorem test_strt :
    ends (before 0x08000000 0xE4A10004 0x10 [(0, 0xAABBCCDD), (1, 0x03000000)] []) [(1, 0x03000004)] 0x10 [(0x03000000, 0xAABBCCDD)] = true := by
  decide

theorem test_strbt :
    ends (before 0x08000000 0xE4610001 0x10 [(0, 0xAABBCCDD), (1, 0x03000001)] []) [(1, 0x03000000)] 0x10 [(0x03000000, 0xDD00)] = true := by
  decide

/-- LDRBT R0, [R1], R2 (R555). -/
theorem test_ldrbt :
    ends (before 0x08000000 0xE6F10002 0x1F [(1, 0x03000001), (2, 0x10)] [(0x03000000, 0x11228344)]) [(0, 0x83), (1, 0x03000011)] 0x1F [] = true := by
  decide

/-- STRB R0, [R1, R2] and STRH R0, [R1, #62] in THUMB state (48_thumb_memory.md). -/
theorem test_thumb_strb_register :
    ends (before 0x08000000 0x5488 0x3F [(0, 0xAB), (1, 0x03000000), (2, 0x1)] []) [] 0x3F [(0x03000000, 0xAB00)] = true := by
  decide

theorem test_thumb_strh_immediate :
    ends (before 0x08000000 0x87C8 0x3F [(0, 0x4321), (1, 0x03000000)] []) [] 0x3F [(0x0300003C, 0x43210000)] = true := by
  decide

/-- The THUMB undefined halfwords without a vector (49_thumb_branch.md R864). -/
theorem test_thumb_undefined :
    (∀ h ∈ [0xB200, 0xB600, 0xB800], linked (before 0x08000000 h 0x3F [] []) .und 0x08000003 0x3F = true) := by
  decide

/-- TST without S that is no MRS (30_encoding.md R326 c), and the same word where its condition fails. -/
theorem test_unallocated :
    faults (before 0x08000000 0xE1000000 0x1F [] []) .unallocated = true ∧
    ends (before 0x08000000 0x01000000 0x1F [] []) [(15, 0x0800000C)] 0x1F [] = true := by
  decide

/-- The faults with an argument (95_test_vectors.md 3.10 rows 9 and 10; 44_arm_multiply.md R600; 43_arm_single_transfer.md R565). -/
theorem test_faults :
    faults (before 0x08000000 0xE121F000 0x1F [(0, 0x3F)] []) (.unpredictable .msrState) = true ∧
    faults (before 0x08000000 0xE321F000 0x1F [] []) (.invalidMode 0#5) = true ∧
    faults (before 0x08000000 0xE00F0291 0x1F [] []) (.unpredictable .multiplyR15) = true ∧
    faults (before 0x08000000 0xE0800291 0x1F [] []) (.unpredictable .multiplySameHiLo) = true ∧
    faults (before 0x08000000 0xE102F091 0x1F [] []) (.unpredictable .swapR15) = true ∧
    faults (before 0x08000000 0xE49F0004 0x1F [] []) (.unpredictable .writebackR15) = true := by
  decide

/-! ## The bus and the devices -/

/-- Mirrors and unmapped addresses (95_test_vectors.md B1). -/
theorem test_routing :
    route 0x02FC0000#32 = some (.ewram, 0) ∧ route 0x03FF8000#32 = some (.iwram, 0) ∧
    route 0x06018000#32 = some (.vram, 0x10000) ∧ route 0x06020000#32 = some (.vram, 0) ∧
    route 0x0C000000#32 = some (.rom, 0) ∧ route 0x00004000#32 = none ∧ route 0x04000400#32 = none ∧
    route 0x10000000#32 = none := by
  decide

/-- A byte to palette RAM fills its halfword; OAM drops it (20_memory.md R205). -/
theorem test_byte_writes :
    (read16 0x05000002#32 (write8 0x05000003#32 0x77#8 State.reset)).1 = 0x7777#16 ∧
    write8 0x07000001#32 0xAB#8 State.reset = State.reset := by
  decide

/-- A reset state with a Flash device. -/
def flash : State := { State.reset with backup := { State.reset.backup with kind := .flash128k } }

/-- The ID sequence and a byte stored after it (95_test_vectors.md B4). -/
theorem test_flash :
    let s := write8 0x0E005555#32 0x90#8 (write8 0x0E002AAA#32 0x55#8 (write8 0x0E005555#32 0xAA#8 flash))
    (read8 0x0E000000#32 s).1 = 0x62#8 ∧ (read8 0x0E000001#32 s).1 = 0x13#8 ∧ (read8 0x0E000002#32 s).1 = 0#8 ∧
    (read8 0x0E001234#32 (write8 0x0E001234#32 0x77#8 s)).1 = 0x77#8 := by
  decide

/-- SRAM is masked to 32 KiB (95_test_vectors.md B3). -/
theorem test_sram : (read8 0x0E000001#32 (write8 0x0E008001#32 0x5A#8 State.reset)).1 = 0x5A#8 := by decide

/-- A write to IF clears the bits written as 1; the other bits stay (61_io_registers.md R975). -/
theorem test_acknowledge :
    (write16 0x04000202#32 0x0001#16 { State.reset with irq := ⟨0#16, 0x1001#16, 0#16⟩ }).irq.ifl = 0x1000#16 := by decide +kernel

/-- A reset state with SAD, DAD and CNT_L = 4 of channel 0 set. -/
def dmaReady : State :=
  { State.reset with dma := State.reset.dma.set 0 { DmaChannel.reset with sad := 0x02000000#32, dad := 0x02000100#32, cntL := 4#16 } }

/-- CNT_H = 0x8400 latches a word channel of four units, which the promotion phase grants (95_test_vectors.md 2.1 scenario 2, I1). -/
theorem test_dma_enable :
    let s := write16 0x040000BA#32 0x8400#16 dmaReady
    (getDma 0 s).phase = .wait ∧ (getDma 0 s).count = 4 ∧ (getDma 0 s).size = .word ∧
    activeChannel (dmaPromote s) = some 0 := by
  decide +kernel

/-- One word unit (62_dma.md R1006). -/
theorem test_dma_unit :
    let s := dmaStep 0 (dmaPromote (write16 0x040000BA#32 0x8400#16 (write32 0x02000000#32 0x11223344#32 dmaReady)))
    (read32 0x02000100#32 s).1 = 0x11223344#32 ∧ (getDma 0 s).count = 3 ∧ (getDma 0 s).curDst = 0x02000104#32 := by
  decide +kernel

/-- Timer 0 at its last count with timer 1 cascaded and its interrupt on (95_test_vectors.md 2.1 scenario 4, cycle t+1). -/
theorem test_timer_cascade :
    let s := { State.reset with timers := #v[⟨0xFFFF#16, 0xFFFF#16, 0x0080#16, 0⟩, ⟨0xFFFE#16, 0xFFFF#16, 0x00C4#16, 0⟩, .reset, .reset] }
    (timersStep s).irq.ifl = 0x0010#16 ∧ (getTimer 1 (timersStep s)).counter = 0xFFFE#16 ∧
    (getTimer 0 (timersStep s)).counter = 0xFFFF#16 := by
  decide +kernel

/-- The line of P2: a mode 3 pixel (95_test_vectors.md 5.5). -/
theorem test_mode3 :
    composed 5 1 { write16 0x060001EA#32 0x03E0#16 State.reset with ppu := { Ppu.reset with dispcnt := 3#16 } } = 0x03E0#16 := by
  decide +kernel

/-- HBLANK rises in the 960th cycle of a line and raises its enabled interrupt (95_test_vectors.md P0; 63_ppu.md R1102). -/
theorem test_hblank :
    (ppuStep { State.reset with ppu := { Ppu.reset with lc := 959, vcount := 200, dispstat := 0x0010#16 } }).irq.ifl = 2#16 := by
  decide +kernel

/-- The keypad rows K1, K2, K6 and K7 (95_test_vectors.md 5.6). -/
def keys (keyinput : BitVec 10) (keycnt : Half) : State := { State.reset with keypad := ⟨keyinput, keycnt⟩ }

theorem test_keypad :
    (updateKeys [.a] (keys 0x3FF#10 0x4001#16)).irq.ifl = 0x1000#16 ∧
    (updateKeys [.a] (keys 0x3FE#10 0x4001#16)).irq.ifl = 0#16 ∧
    (updateKeys [.a] (keys 0x3FF#10 0xC003#16)).irq.ifl = 0#16 ∧
    (updateKeys [.a, .b] (keys 0x3FE#10 0xC003#16)).irq.ifl = 0x1000#16 ∧
    (updateKeys [.a, .b] (keys 0x3FE#10 0xC003#16)).keypad.keyinput = 0x3FC#10 := by
  decide

/-! ## Power-on and the step -/

/-- The empty images give the state after reset (70_reset_and_hazards.md R1300, R1301). -/
theorem test_power_on : powerOn [] [] = State.reset := by decide

/-- A placed instruction runs as the first one after reset: MOV R0, #1 and THUMB MOV R0, #1. -/
theorem test_placed :
    after (step (State.reset.withFetchWord 32 0xE3A00001)) (fun t => readReg 0#4 t == 1#32) = true ∧
    after (step (State.reset.withFetchWord 16 0x2001)) (fun t => readReg 0#4 t == 1#32) = true := by
  decide +kernel

/-! ## Witnesses: a state and operands that meet the hypotheses of each statement that has some, clause by clause -/

/-- A state in a mode, with this SPSR in that mode. -/
def inMode (m : Mode) (p : Spsr) : State := setSpsrOf m p { State.reset with cpsr := { State.reset.cpsr with mode := m } }

/-- SVC mode with an SPSR that names User mode, and with one that names no mode. -/
def goodSpsr : State := inMode .svc { Spsr.zero with m := 0x10#5 }
def badSpsr : State := inMode .svc .zero

theorem witness_DecodeEncode :
    (Instr.ldr .al false true false 15#4 0#4 (.imm 0xFFF#12)).wellFormed = true ∧ (Instr.tBCond .le 0x80#8).wellFormed = true := by
  decide

/-- The word after reset is ANDEQ R0, R0, R0, in ARM state; in THUMB state the halfword 0 is LSL R0, R0, #0. -/
theorem witness_StepRunsDecodedInstruction :
    activeChannel State.reset = none ∧ irqPending State.reset = false ∧
    decode false (layBytes State.reset.pipeDecode.toNat 4) = .ok (.and .eq false 0#4 0#4 (.shiftImm 0#5 .lsl 0#4), []) ∧
    decode true (layBytes State.reset.pipeDecode.toNat 2) = .ok (.tLslImm 0#5 0#3 0#3, []) ∧
    (Instr.and .eq false 0#4 0#4 (.shiftImm 0#5 .lsl 0#4)).wellFormed = true :=
  ⟨by decide, by decide, rfl, rfl, by decide⟩

theorem witness_StepEntersIrq :
    let s := { State.reset with irq := ⟨1#16, 1#16, 1#16⟩ }
    activeChannel s = none ∧ s.cpsr.i = false ∧ s.irq.ime.getLsbD 0 = true ∧ s.irq.ie &&& s.irq.ifl ≠ 0#16 := by
  decide

theorem witness_DmaTakesTheCycle :
    activeChannel { State.reset with dma := #v[.reset, .reset, .reset, { DmaChannel.reset with phase := .active }] } = some 3 := by
  decide

theorem witness_FailedConditionOnlyAdvances :
    condOf (.swi .eq 0#24) = some .eq ∧ conditionPasses .eq State.reset.cpsr = false ∧
    condOf (.undefined .nv 0#20 0#4) = some .nv ∧ conditionPasses .nv State.reset.cpsr = false := by
  decide

/-- A register shared by two modes, one banked apart, and the boundaries R7, R8, R12 and R13. -/
theorem witness_RegistersAreBanked :
    readRegIn .sys 13#4 (setRegIn .usr 13#4 5#32 State.reset) = 5#32 ∧
    readRegIn .irq 13#4 (setRegIn .usr 13#4 5#32 State.reset) = 0#32 ∧
    readRegIn .fiq 7#4 (setRegIn .usr 7#4 5#32 State.reset) = 5#32 ∧
    readRegIn .fiq 8#4 (setRegIn .usr 8#4 5#32 State.reset) = 0#32 ∧
    readRegIn .irq 12#4 (setRegIn .usr 12#4 5#32 State.reset) = 5#32 := by
  decide

/-- Each column of the shift tables at its boundary amounts; 46_arm_dataproc.md R701, R702, R703, and 95_test_vectors.md 3.2. -/
theorem witness_shifts :
    operand2 (.imm 0#4 0xFF#8) State.reset = (0xFF#32, false) ∧ operand2 (.imm 4#4 0xFF#8) State.reset = (0xFF000000#32, true) ∧
    shiftImmediate .lsl 0xC0000003#32 0#5 false = (0xC0000003#32, false) ∧
    shiftImmediate .lsl 0xC0000003#32 31#5 false = (0x80000000#32, true) ∧
    shiftImmediate .lsr 0xC0000003#32 0#5 false = (0#32, true) ∧
    shiftImmediate .asr 0xC0000003#32 1#5 false = (0xE0000001#32, true) ∧
    shiftImmediate .ror 0xC0000003#32 0#5 false = (0x60000001#32, true) ∧
    shiftRegister .lsl 0xC0000003#32 0#8 true = (0xC0000003#32, true) ∧
    shiftRegister .lsl 0xC0000003#32 31#8 false = (0x80000000#32, true) ∧
    shiftRegister .lsl 0xC0000003#32 32#8 false = (0#32, true) ∧ shiftRegister .lsl 0xC0000003#32 33#8 true = (0#32, false) ∧
    shiftRegister .lsr 0xC0000003#32 32#8 false = (0#32, true) ∧ shiftRegister .lsr 0xC0000003#32 33#8 true = (0#32, false) ∧
    shiftRegister .asr 0xC0000003#32 31#8 false = (0xFFFFFFFF#32, true) ∧
    shiftRegister .asr 0xC0000003#32 32#8 false = (0xFFFFFFFF#32, true) ∧
    shiftRegister .ror 0xC0000003#32 32#8 false = (0xC0000003#32, true) := by
  decide

/-- Both conditions on the condition field, for every statement that runs an ARM instruction or B<cond>. -/
theorem witness_conditionPasses :
    conditionPasses .al State.reset.cpsr = true ∧ conditionPasses .al goodSpsr.cpsr = true ∧
    conditionPasses .al badSpsr.cpsr = true ∧ conditionPasses .eq State.reset.cpsr = false := by
  decide

/-- The three cases of S with Rd = 15, and of the CPSR restore of LDM: an SPSR that names a mode, none, and one that names none. -/
theorem witness_restore :
    spsrOf goodSpsr.cpsr.mode goodSpsr = some { Spsr.zero with m := 0x10#5 } ∧ modeOfBits 0x10#5 = some .usr ∧
    spsrOf State.reset.cpsr.mode State.reset = none ∧
    spsrOf badSpsr.cpsr.mode badSpsr = some .zero ∧ modeOfBits Spsr.zero.m = none := by
  decide

/-- The register conditions of multiplies, swaps and PSR transfers. -/
theorem witness_registers :
    (15#4 : Reg) ∉ [0#4, 1#4, 2#4, 14#4] ∧ (15#4 : Reg) ∈ [0#4, 15#4, 2#4] ∧ (0#4 : Reg) ≠ 14#4 := by
  decide

/-- Transfers that write back a base other than R15, that write back R15, and that do not write back. -/
theorem witness_writeback :
    ¬((!false || false) = true ∧ (14#4 : Reg) = 15#4) ∧ (!false || false) = true ∧ ¬((!true || false) = true ∧ (15#4 : Reg) = 15#4) ∧
    (blockRegs 0x8001#16) = [0#4, 15#4] ∧ 15#4 ∉ blockRegs 0x7FFF#16 ∧ blockRegs 0#16 = [15#4] := by
  decide

/-- The base's place is not among those an LDM loads, and is. -/
theorem witness_LoadMultiples :
    (∀ r ∈ blockRegs 0x000E#16, (if r = 15#4 then [] else [regPlace .sys r]) ≠ placeOf State.reset 0#4) ∧
    ¬(∀ r ∈ blockRegs 0x0001#16, (if r = 15#4 then [] else [regPlace .sys r]) ≠ placeOf State.reset 0#4) := by
  decide

/-- MSR to CPSR with the control byte off, on and legal, on with T changed, on with no mode. -/
theorem witness_MoveToCpsr :
    (0x8#4).getLsbD 0 = false ∧ (0x9#4).getLsbD 0 = true ∧ (0xD2#32).getLsbD 5 = State.reset.cpsr.t ∧
    modeOfBits ((0xD2#32).extractLsb' 0 5) = some .irq ∧ (0x3F#32).getLsbD 5 ≠ State.reset.cpsr.t ∧
    modeOfBits ((0#32).extractLsb' 0 5) = none := by
  decide

theorem witness_ExceptionsAreTaken :
    raises (.swi .al 0#24) = some (.svc, 0x00000008#32) ∧ condOf (.swi .al 0#24) = some .al ∧
    raises (.tUndefBE 0#9) = some (.und, 0x00000004#32) ∧ condOf (.tUndefBE 0#9) = none := by
  decide

/-- The mode changes by SWI, by MSR and by MOVS PC. -/
theorem witness_ModeChangesOnlySo :
    after (exec (.swi .al 0#24) State.reset) (fun t => decide (t.cpsr.mode ≠ State.reset.cpsr.mode)) = true ∧
    after (exec (.msrCpsrImm .al 1#4 0#4 0xD2#8) State.reset) (fun t => decide (t.cpsr.mode = .irq)) = true ∧
    after (exec (.mov .al true 0#4 15#4 (.imm 0#4 0#8)) goodSpsr) (fun t => decide (t.cpsr.mode = .usr)) = true := by
  decide

/-- An address for each clause of the bus statements, at the edges of its region. -/
theorem witness_bus :
    (0x00003FFF#32).toNat < 0x4000 ∧ ramKey 0x02FFFFFF#32 = some 0x0203FFFF ∧ ramKey 0x03008000#32 = some 0x03000000 ∧
    ramKey 0x050003FF#32 = some 0x050003FF ∧ ramKey 0x0601FFFF#32 = some 0x06017FFF ∧ ramKey 0x06018000#32 = some 0x06010000 ∧
    ramKey 0x07000400#32 = some 0x07000000 ∧ 8 ≤ (0x0DFFFFFF#32).toNat / 0x1000000 ∧ (0x0DFFFFFF#32).toNat / 0x1000000 ≤ 0xD := by
  decide

theorem witness_unmapped :
    unmapped 0x00004000#32 ∧ unmapped 0x01000000#32 ∧ unmapped 0x04000400#32 ∧ unmapped 0x0F000000#32 ∧ unmapped 0xFFFFFFFF#32 ∧
    ¬unmapped 0x040003FF#32 ∧ readOnlyMemory 0x08000000#32 ∧ ¬readOnlyMemory 0x0E000000#32 := by
  unfold unmapped readOnlyMemory
  decide

/-- The four bytes of a word of EWRAM draw nothing. -/
theorem witness_reads : ∀ k : Nat, k < 4 → (read8 (0x02000000#32 + BitVec.ofNat 32 k) State.reset).2 = State.reset := by
  decide

/-- Between transactions, with memory in canonical form; VRAM below and at the limit of byte writes. -/
theorem witness_BusWrites :
    State.reset.dirty = [] ∧ Memory.wf State.reset.mem = true ∧ Memory.wf State.reset.shadow = true ∧
    ramKey 0x0600FFFF#32 = some 0x0600FFFF ∧ ramKey 0x06010000#32 = some 0x06010000 ∧
    (0x04000000#32).toNat / 0x1000000 = 4 ∧ (0x0E000000#32).toNat / 0x1000000 = 0xE ∧ State.reset.backup.kind = .sram ∧
    flash.backup.kind = .flash128k := by
  decide

/-- Offsets with and without a register, a byte of each width of register. -/
theorem witness_IoRegisters :
    knownOffset 0x3FF = false ∧ knownOffset 0x002 = false ∧ knownOffset 0x208 = true ∧ 3 < ioWidth (.fifo .a) ∧ 1 < ioWidth .ie := by
  decide

/-- Stores over two registers, over a register and an unknown offset, over part of a register of four bytes, and beside a register;
the last offset of each width. -/
theorem witness_IoRegisterWrites :
    State.reset.dirty = [] ∧ Memory.wf State.reset.shadow = true ∧
    bitsFor .ie 0x200 0x00010002#32 = 2#32 ∧ bitsFor .ifl 0x200 0x00010002#32 = 1#32 ∧ bitsFor .ime 0x200 0x00010002#32 = 0#32 ∧
    bitsFor .dispcnt 0x000 0xABCD0003#32 = 3#32 ∧ bitsFor .dispcnt 0x002 0xABCD#32 = 0#32 ∧
    bitsFor (.dmaSad 0) 0x0B3 0x12#32 = 0x12000000#32 ∧ bitsFor (.bghofs 1) 0x014 0x00050006#32 = 6#32 ∧
    bitsFor (.bgvofs 1) 0x014 0x00050006#32 = 5#32 ∧ 0x3FF < 0x400 ∧ 0x3FE % 2 = 0 ∧ 0x3FC % 4 = 0 := by
  decide

/-- A halfword that starts a timer of reload 0xFF00 at its control register. -/
theorem witness_timerStart :
    let c : Timer := ⟨0xFF00#16, 5#16, 0x0002#16, 7⟩
    timerControlled c 0x0083#16 = ⟨0xFF00#16, 0xFF00#16, 0x0083#16, 0⟩ := by
  decide

/-- A timer that runs already is not started again, nor is one left stopped; a stop keeps the counter. -/
theorem witness_timerKeeps :
    timerControlled ⟨0xFF00#16, 5#16, 0x0080#16, 7⟩ 0x0083#16 = ⟨0xFF00#16, 5#16, 0x0083#16, 7⟩ ∧
    timerControlled ⟨0xFF00#16, 5#16, 0x0080#16, 7⟩ 0x0003#16 = ⟨0xFF00#16, 5#16, 0x0003#16, 7⟩ := by
  decide

/-- A FIFO below the capacity and one at it, whatever the capacity is; the last byte and the second halfword of a port. -/
theorem witness_FifoQueues :
    ([] : List Byte).length < Config.fifoCapacity ∧
    ¬(List.replicate Config.fifoCapacity 0#8).length < Config.fifoCapacity ∧
    (pushByte 1#8 ⟨List.replicate Config.fifoCapacity 0#8, 2#8⟩).bytes.length = Config.fifoCapacity ∧
    3 < 4 ∧ 2 % 2 = 0 ∧ 3 % 2 ≠ 0 ∧ (0x08008000#32 : Word).getLsbD 27 = true ∧ (0x08008000#32 : Word).getLsbD 31 = false ∧
    State.reset.dirty = [] ∧ Memory.wf State.reset.shadow = true := by
  refine ⟨by simp only [List.length_nil, Config.fifoCapacity]; omega, by simp, by simp [pushByte],
    by decide, by decide, by decide, by decide, by decide, rfl, by decide⟩

/-- Two waiting channels of sound-FIFO mode that serve FIFO A and FIFO B, and channel 3, which serves none; the reset bits. -/
theorem witness_fifoReset :
    let c : DmaChannel := { DmaChannel.reset with phase := .wait, start := .special, curDst := 0x040000A0#32 }
    let d : DmaChannel := { c with curDst := 0x040000A4#32 }
    let s := { State.reset with dma := #v[.reset, c, d, c] }
    let t := write16 0x04000082#32 0x0800#16 s
    (getDma 1 s).phase = .wait ∧ (getDma 1 s).curDst = 0x040000A0#32 ∧ (getDma 2 s).curDst = 0x040000A4#32 ∧
    (0x0800#16 : Half).getLsbD 11 = true ∧ (0x0800#16 : Half).getLsbD 15 = false ∧
    (getDma 1 t).phase = .triggered ∧ (getDma 2 t).phase = .wait ∧ (getDma 3 t).phase = .wait := by
  decide +kernel

/-- FLASH1M before SRAM, after it, and neither: tags at the offsets named. -/
theorem witness_PowerOn :
    let f : List Byte := [0x46#8, 0x4C#8, 0x41#8, 0x53#8, 0x48#8, 0x31#8, 0x4D#8]
    let r : List Byte := [0x53#8, 0x52#8, 0x41#8, 0x4D#8]
    tagAt f (0#8 :: f ++ r) 1 ∧ tagAt r (0#8 :: f ++ r) 8 ∧ ¬tagAt r (0#8 :: f ++ r) 1 ∧
    (powerOn [] (0#8 :: f ++ r)).backup.kind = .flash128k ∧ (powerOn [] (r ++ f)).backup.kind = .sram ∧
    (powerOn [] [1#8]).backup.kind = .sram := by
  unfold tagAt
  decide +kernel

/-- The enable bit set where it was clear, cleared where it was set, and kept. -/
theorem witness_DmaEnable :
    (getDma 0 State.reset).cntH.getLsbD 15 = false ∧ (0x8400#16).getLsbD 15 = true ∧
    (getDma 0 (write16 0x040000BA#32 0x8400#16 State.reset)).cntH.getLsbD 15 = true ∧ (0x0400#16).getLsbD 15 = false := by
  decide +kernel

/-- R978: the high byte alone takes enable from 0 to 1. -/
theorem witness_DmaEnable_high :
    (getDma 0 State.reset).cntH.getLsbD 15 = false ∧ ((0x84#8 : Byte) ++ (getDma 0 State.reset).cntH.extractLsb' 0 8).getLsbD 15 = true ∧
    (getDma 0 (write8 0x040000BB#32 0x84#8 State.reset)).phase = .wait := by
  decide +kernel

/-- R978: the low byte after it leaves enable at 1, and does not latch again. -/
theorem witness_DmaEnable_low :
    let s := setDma 0 { DmaChannel.reset with cntH := 0x8400#16, phase := .triggered } State.reset
    (getDma 0 s).cntH.getLsbD 15 = true ∧ ((getDma 0 s).cntH.extractLsb' 8 8 ++ (0x20#8 : Byte)).getLsbD 15 = true ∧
    (getDma 0 (write8 0x040000BA#32 0x20#8 s)).phase = .triggered := by
  decide +kernel

/-- R978: the word writes the count before the enable that latches it. -/
theorem witness_DmaEnable_word :
    (0x84000004#32 : Word).extractLsb' 16 16 = 0x8400#16 ∧
    (getDma 0 (write32 0x040000B8#32 0x84000004#32 State.reset)).count = 4 ∧
    (getDma 0 (write32 0x040000B8#32 0x84000004#32 State.reset)).cntL = 4#16 := by
  decide +kernel

/-- A channel whose own unit clears its enable bit is no longer Active. -/
theorem witness_DmaEnable_self :
    let c := { DmaChannel.reset with cntH := 0x8000#16, curSrc := 0x02000000#32, curDst := 0x040000BA#32, count := 2, phase := .active }
    let s := { State.reset with dma := State.reset.dma.set 0 c }
    (getDma 0 (unitCopied (getDma 0 s) s)).phase ≠ .active := by
  decide +kernel

/-- An Active channel stays so over a unit that copies within EWRAM, with two units left and with one, repeating and not. -/
theorem witness_DmaUnits :
    ∀ n ∈ [1, 2], ∀ r ∈ [true, false],
      let c := { DmaChannel.reset with
        curSrc := 0x02000000#32, curDst := 0x02000100#32, count := n, rep := r, start := .vblank, phase := .active }
      let s := { State.reset with dma := State.reset.dma.set 0 c }
      (getDma 0 s).phase = .active ∧ (getDma 0 (unitCopied (getDma 0 s) s)).phase = .active := by
  decide

/-- Timers that stand still, that count, and that tick; the four prescalers. -/
theorem witness_TimerSteps :
    (0#16 : Half).getLsbD 7 = false ∧ (0x0081#16 : Half).getLsbD 7 = true ∧ (0x0081#16 : Half).getLsbD 2 = false ∧
    divisorOf 0x0080#16 = 1 ∧ divisorOf 0x0081#16 = 64 ∧ divisorOf 0x0082#16 = 256 ∧ divisorOf 0x0083#16 = 1024 ∧
    0 + 1 < divisorOf 0x0081#16 ∧ divisorOf 0x0081#16 ≤ 63 + 1 := by
  decide

/-- The lines and cycles of the timing clauses, and the modes of the rendering clauses. -/
theorem witness_picture :
    State.reset.ppu.lc < 1232 ∧ State.reset.ppu.vcount < 228 ∧ displayMode State.reset ∈ [0, 1, 3, 4] ∧
    displayMode { State.reset with ppu := { Ppu.reset with dispcnt := 5#16 } } ∉ [0, 1, 3, 4] := by
  decide

/-- P3 of 95_test_vectors.md 5.5: mode 4, an opaque layer and no sprite at the point, and a point where no layer is opaque. -/
def picture : State :=
  { write16 0x0500000A#32 0x001F#16 (write16 0x060001E2#32 0x0500#16 State.reset) with
    ppu := { Ppu.reset with dispcnt := 4#16 } }

theorem witness_PointsAreComposed :
    (∀ k, k < 128 → spriteAt k 3 2 picture = none) ∧ (2 : Fin 4) ∈ layersOf 4 ∧ bgPixel 4 2 3 2 picture = some 0x001F#16 ∧
    (∀ l ∈ layersOf 4, bgPixel 4 l 4 2 picture = none) := by
  decide +kernel

/-- P7 of 95_test_vectors.md 5.5: the sprites of the all-zero snapshot, in front of the layer. -/
def sprites : State :=
  { write16 0x05000202#32 0x03E0#16 (write16 0x06014000#32 0x0001#16 State.reset) with
    ppu := { Ppu.reset with dispcnt := 3#16 } }

theorem witness_spriteShows : spriteShows 0 0 0 0x03E0#16 sprites := by
  refine ⟨by decide, 0, by decide +kernel, fun j c q _ _ => ?_⟩
  rcases Nat.eq_zero_or_pos q with h | h
  · exact .inr ⟨h.symm, Nat.zero_le j⟩
  · exact .inl h

/-- R1123: the first and the third point of line 0. -/
def textPicture : State :=
  { State.reset with
    mem := [(0x05000023, 0x7C#8), (0x05000024, 0xE0#8), (0x05000025, 0x03#8),
      (0x06000000, 0x01#8), (0x06000001, 0x10#8), (0x06000020, 0x21#8)] }

theorem witness_textShows :
    modeOf textPicture = 0 ∧ textShows 0 0 0 textPicture 0x7C00#16 ∧ textShows 0 1 0 textPicture 0x03E0#16 ∧
    ¬textShows 0 2 0 textPicture 0#16 := by
  refine ⟨by decide, ?_, ?_, ?_⟩
  · exact ⟨by decide +kernel, by decide +kernel⟩
  · exact ⟨by decide +kernel, by decide +kernel⟩
  · intro h
    exact absurd h.1 (by decide +kernel)

/-- Mode 1, identity parameters, 128 points: the point 130 falls on 2 with the wrap bit. -/
def affinePicture : State :=
  { State.reset with
    ppu := { Ppu.reset with
      dispcnt := 1#16, bgcnt := #v[0#16, 0#16, 0x2100#16, 0#16], bg2 := { Affine.zero with pa := 0x100#16, pd := 0x100#16 } }
    mem := [(0x05000002, 0x1F#8), (0x06000042, 1#8), (0x06000800, 1#8)] }

theorem witness_affineShows : affineShows 130 0 affinePicture 0x001F#16 := by
  refine ⟨2, 0, ?_, ?_, by decide +kernel⟩
  · unfold sampled
    rw [if_neg (by decide +kernel)]
    exact ⟨by decide, by decide, 1, by decide +kernel⟩
  · unfold sampled
    rw [if_pos (by decide +kernel)]
    decide +kernel

/-- P3 of 95_test_vectors.md 5.5 at an opaque and at a transparent point. -/
theorem witness_bitmapShows :
    bitmapShows 3 2 picture 0x001F#16 ∧ ¬bitmapShows 4 2 picture 0x001F#16 := by
  unfold bitmapShows
  decide +kernel

/-- R1124: 1-D mapping, the point (29, 19) of the sprite at (20, 10), with the byte 0x10104 and palette entry 3 set. -/
def spritePicture : State :=
  { State.reset with
    ppu := { Ppu.reset with
      dispcnt := 0x40#16, oamSnap := [(0, 0x0A#8), (2, 0x14#8), (3, 0x40#8), (4, 0x05#8)] }
    mem := [(0x05000206, 0x1F#8), (0x06010104, 0x30#8)] }

theorem witness_spriteDraws :
    modeOf spritePicture ∈ [0, 1, 3, 4] ∧ spriteDraws 0 29 19 spritePicture 0x001F#16 0 := by
  refine ⟨by decide, by decide +kernel, by decide +kernel, by decide +kernel, by decide +kernel, 9, by decide +kernel, 9,
    by decide +kernel, by decide +kernel, by decide +kernel⟩

theorem witness_keypad :
    (1#16 : Half).getLsbD 0 = true ∧ State.reset.keypad.keyinput.getLsbD 0 = true ∧ keyBit .a = 0 := by
  decide


/-- The last cycle before a line is rendered, and the last of a frame. -/
theorem witness_PictureTiming :
    let s := { State.reset with ppu := { Ppu.reset with lc := 959, vcount := 159 } }
    let t := { State.reset with ppu := { Ppu.reset with lc := 1231, vcount := 227 } }
    (s.ppu.lc = 959 ∧ s.ppu.vcount < 160) ∧ (t.ppu.lc = 1231 ∧ t.ppu.vcount = 227 ∧ Memory.wf t.mem = true) ∧
    ¬(t.ppu.lc = 959 ∧ t.ppu.vcount < 160) ∧ ¬(s.ppu.lc = 1231 ∧ s.ppu.vcount = 227) := by
  decide

/-- At the end of line 159 VBLANK rises with its interrupt enabled, and a channel waits for it. -/
theorem witness_StatusFlags :
    let s := { State.reset with
      ppu := { Ppu.reset with lc := 1231, vcount := 159, dispstat := 8#16 }
      dma := State.reset.dma.set 2 { DmaChannel.reset with phase := .wait, start := .vblank } }
    s.ppu.dispstat.getLsbD 0 = false ∧ (ppuStep s).ppu.dispstat.getLsbD 0 = true ∧ s.ppu.dispstat.getLsbD 3 = true ∧
    (getDma 2 s).phase = .wait ∧ (getDma 2 s).start = .vblank := by
  decide +kernel

/-- Channels 1 and 2 are Triggered and none Active: 1 is granted, 2 is not; 0 is neither. -/
theorem witness_DmaPromotion :
    let c := { DmaChannel.reset with phase := .triggered }
    let s := { State.reset with dma := #v[.reset, c, c, .reset] }
    (∀ j, (getDma j s).phase ≠ .active) ∧ (getDma 1 s).phase = .triggered ∧ (getDma 2 s).phase = .triggered ∧
    (getDma 0 s).phase = .idle := by
  decide

/-- A state that meets the invariant, and its step. -/
theorem witness_StepKeepsInv : Inv goodSpsr ∧ ∃ t, step goodSpsr = .next t :=
  ⟨⟨by decide, by decide, by decide, rfl, rfl, by decide, by decide, by unfold pcAligned; decide, Nat.zero_le _, Nat.zero_le _,
    fun i j h _ => by revert i j; decide⟩, _, rfl⟩
end Sys2Proof.Tests
end

/-! SUPPORT and proofs. Registers by bank, the state after `start()` and the invariant there (10_state.md R103, R122; 20_memory.md R216;
70_reset_and_hazards.md R1300). -/

namespace Sys2Proof.Machine

open Sys2Proof.Safety

/-! ## Registers by bank -/

/-- The mode that stands for the bank of a register other than R15 in a mode (R103); User stands for the common bank. -/
def bankOf (m : Mode) (r : Reg) : Mode :=
  if r.toNat < 8 then .usr
  else if r.toNat < 13 then (if m = .fiq then .fiq else .usr)
  else if m = .sys then .usr else m

/-- The bank and the number of the register at a place of the register file (R100). -/
def placeOwner (p : Fin 30) : Mode × Reg :=
  if p.val < 15 then (.usr, BitVec.ofNat 4 p.val)
  else if p.val < 22 then (.fiq, BitVec.ofNat 4 (p.val - 7))
  else if p.val < 24 then (.irq, BitVec.ofNat 4 (p.val - 9))
  else if p.val < 26 then (.svc, BitVec.ofNat 4 (p.val - 11))
  else if p.val < 28 then (.abt, BitVec.ofNat 4 (p.val - 13))
  else (.und, BitVec.ofNat 4 (p.val - 15))

/-- Every place a mode reaches belongs to one bank and number. -/
theorem placeOwner_regPlace (m : Mode) (r : Reg) (hr : r ≠ 15#4) : placeOwner (regPlace m r) = (bankOf m r, r) := by
  revert r
  cases m <;> decide

/-- A mode reaches a register at the place its bank has for it. -/
theorem regPlace_bankOf (m : Mode) (r : Reg) : regPlace (bankOf m r) r = regPlace m r := by
  revert r
  cases m <;> decide

/-- Two modes reach the same place exactly by the same number in the same bank: a place has one owner, and the bank fixes the
place. -/
theorem regPlace_eq_iff {m m' : Mode} {r r' : Reg} (hr : r ≠ 15#4) (hr' : r' ≠ 15#4) :
    regPlace m r = regPlace m' r' ↔ r = r' ∧ bankOf m r = bankOf m' r' := by
  constructor
  · intro h
    have howner : (bankOf m r, r) = (bankOf m' r', r') := by
      rw [← placeOwner_regPlace m r hr, h, placeOwner_regPlace m' r' hr']
    exact ⟨congrArg Prod.snd howner, congrArg Prod.fst howner⟩
  · rintro ⟨rfl, hbank⟩
    rw [← regPlace_bankOf m r, hbank, regPlace_bankOf]

/-- What a register reads through one mode after a write through another. -/
theorem readRegIn_setRegIn_bankOf {m m' : Mode} {r r' : Reg} (v : Word) (s : State) (hr : r ≠ 15#4) (hr' : r' ≠ 15#4) :
    readRegIn m' r' (setRegIn m r v s) = if r = r' ∧ bankOf m r = bankOf m' r' then v else readRegIn m' r' s := by
  simp only [readRegIn, hr', if_false, setRegIn, vector_get_set, eq_comm (a := regPlace m' r'), regPlace_eq_iff hr hr']

theorem readRegIn_r15 (m : Mode) (s : State) : readRegIn m 15#4 s = s.r15 := if_pos rfl

theorem writeReg_eq_setRegIn (v : Word) (s : State) {r : Reg} (hr : r ≠ 15#4) :
    writeReg r v s = setRegIn s.cpsr.mode r v s := if_neg hr

/-! ## The state after reset -/

theorem readRegIn_reset (m : Mode) (r : Reg) (hr : r ≠ 15#4) : readRegIn m r State.reset =
    if r = 13#4 ∧ (m = .usr ∨ m = .sys ∨ m = .svc) then 0x03007F00#32
    else if r = 14#4 ∧ (m = .usr ∨ m = .sys) then 0x08000000#32 else 0#32 := by
  revert r
  cases m <;> decide

theorem cpsrWord_reset : cpsrWord State.reset = 0x0000001F#32 := by decide

theorem getDma_reset (i : Fin 4) : getDma i State.reset = .reset := by
  revert i
  decide

theorem getTimer_reset (i : Fin 4) : getTimer i State.reset = .reset := by
  revert i
  decide

theorem spsrOf_reset {m : Mode} {p : Spsr} (h : spsrOf m State.reset = some p) : p = .zero := by
  cases m with
  | usr | sys => cases h
  | fiq | irq | svc | abt | und => exact (Option.some.inj h).symm

theorem ioStored_reset (r : IoReg) : ioStored r State.reset = if r = .keyinput then 0x3FF#32 else 0#32 := by
  cases r with
  | bgcnt i | bghofs i | bgvofs i | waveRam i | dmaSad i | dmaDad i | dmaCntL i | dmaCntH i | tmCntL i | tmCntH i =>
    revert i
    decide
  | _ => rfl

theorem oneActive_reset : oneActive State.reset := by
  intro i j hi
  rw [getDma_reset] at hi
  cases hi

/-! ## The memory after the two loads -/

/-- The memory `powerOn` builds: the two images, installed in an empty memory (65_system.md R1258). -/
def loadedMemory (bios rom : List Byte) : Memory :=
  Memory.install (Memory.install [] Region.bios.base 0x4000 bios) Region.rom.base 0x2000000 rom

theorem read_loadedMemory (bios rom : List Byte) (k : Nat) : Memory.read (loadedMemory bios rom) k =
    if k < 0x4000 then bios.getD k 0#8
    else if 0x08000000 ≤ k ∧ k < 0x0A000000 then rom.getD (k - 0x08000000) 0#8 else 0#8 := by
  have hempty : Memory.wf [] = true := rfl
  have hbios := Memory.install_wf [] Region.bios.base 0x4000 bios hempty
  rw [loadedMemory, Memory.read_install _ _ _ _ _ hbios, Memory.read_install _ _ _ _ _ hempty]
  simp only [Region.base, Nat.zero_le, true_and, Nat.zero_add, Nat.sub_zero, Nat.reduceAdd, Memory.read]
  by_cases hk : k < 0x4000
  · rw [if_neg (by omega)]
    simp [hk]
  · simp [hk]

/-- The word of a cartridge image at an offset, 0 past its end. -/
def romWord (rom : List Byte) (k : Nat) : Word :=
  rom.getD (k + 3) 0#8 ++ rom.getD (k + 2) 0#8 ++ rom.getD (k + 1) 0#8 ++ rom.getD k 0#8

theorem read_loadedMemory_rom (bios rom : List Byte) {k : Nat} (hk : k < 0x2000000) :
    Memory.read (loadedMemory bios rom) (Region.rom.base + k) = rom.getD k 0#8 := by
  have hbase : Region.rom.base = 0x08000000 := rfl
  rw [read_loadedMemory, hbase, if_neg (by omega), if_pos (by omega), Nat.add_sub_cancel_left]

theorem read8_rom {a : Word} {k : Nat} (h : route a = some (.rom, k)) (s : State) :
    read8 a s = (Memory.read s.mem (Region.rom.base + k), s) := by
  simp only [read8, h]

/-- A word read from the cartridge in the loaded memory is the image's, and draws nothing. -/
theorem read32_loadedMemory {bios rom : List Byte} {s : State} {a : Word} {k : Nat} (hs : s.mem = loadedMemory bios rom)
    (hk : k + 3 < 0x2000000) (h0 : route a = some (.rom, k)) (h1 : route (a + 1#32) = some (.rom, k + 1))
    (h2 : route (a + 2#32) = some (.rom, k + 2)) (h3 : route (a + 3#32) = some (.rom, k + 3)) :
    read32 a s = (romWord rom k, s) := by
  have hbyte {i : Nat} (hi : i < 0x2000000) : Memory.read s.mem (Region.rom.base + i) = rom.getD i 0#8 := by
    rw [hs, read_loadedMemory_rom _ _ hi]
  simp only [read32, read8_rom h0, read8_rom h1, read8_rom h2, read8_rom h3, romWord]
  rw [hbyte (by omega), hbyte (by omega), hbyte (by omega), hbyte (by omega)]

/-- The refill of `start()` fills the two pipeline slots with the first two words of the cartridge. -/
theorem refill_loadedMemory {bios rom : List Byte} {s : State} (hs : s.mem = loadedMemory bios rom) (ht : s.cpsr.t = false) :
    refill 0x08000000#32 s =
      { s with pipeDecode := romWord rom 0, pipeFetch := romWord rom 4, r15 := 0x08000008#32 } := by
  have hfirst : fetch 0x08000000#32 s = (romWord rom 0, s) := by
    simp only [fetch, ht]
    exact read32_loadedMemory hs (by decide) rfl rfl rfl rfl
  have hsecond : fetch 0x08000004#32 s = (romWord rom 4, s) := by
    simp only [fetch, ht]
    exact read32_loadedMemory hs (by decide) rfl rfl rfl rfl
  have halign : alignFetch 0x08000000#32 s = 0x08000000#32 := by
    simp only [alignFetch, ht]
    rfl
  have hsize : fetchSize s = 4#32 := by
    simp only [fetchSize, ht]
    rfl
  simp only [refill, halign, hsize, hfirst, BitVec.reduceAdd, hsecond]

/-! ## The backup device (20_memory.md R216) -/

theorem not_tagAt_nil {tag : List Byte} (h : tag ≠ []) (k : Nat) : ¬tagAt tag [] k := by
  simp [tagAt, h]

/-- No image begins with both tags: their first bytes differ. -/
theorem not_sramTag_prefix {image : List Byte} (hf : flashTag <+: image) : ¬sramTag <+: image := by
  intro hr
  obtain ⟨x, hx⟩ := hf
  obtain ⟨y, hy⟩ := hr
  rw [← hx] at hy
  exact absurd (List.cons.inj hy).1 (by decide)

/-- The scan of R216 finds Flash exactly where its tag occurs below every SRAM tag. -/
theorem scanBackup_eq_flash_iff (image : List Byte) : scanBackup image = .flash128k ↔
    ∃ k, tagAt flashTag image k ∧ ∀ j, tagAt sramTag image j → k < j := by
  induction image with
  | nil =>
    constructor
    · intro h
      cases h
    · rintro ⟨k, hk, -⟩
      exact absurd hk (not_tagAt_nil (by decide) k)
  | cons b rest ih =>
    simp only [scanBackup, List.isPrefixOf_iff_prefix]
    split
    next hf =>
      refine iff_of_true rfl ⟨0, hf, fun j hj => Nat.pos_of_ne_zero ?_⟩
      rintro rfl
      exact not_sramTag_prefix hf hj
    next hf =>
      split
      next hr => exact iff_of_false (fun h => by cases h) fun ⟨k, _, hk⟩ => absurd (hk 0 hr) (Nat.not_lt_zero k)
      next hr =>
        rw [ih]
        constructor
        · rintro ⟨k, hk, hlow⟩
          refine ⟨k + 1, hk, fun j hj => ?_⟩
          cases j with
          | zero => exact absurd hj hr
          | succ j => exact Nat.succ_lt_succ (hlow j hj)
        · rintro ⟨k, hk, hlow⟩
          cases k with
          | zero => exact absurd hk hf
          | succ k => exact ⟨k, hk, fun j hj => Nat.lt_of_succ_lt_succ (hlow (j + 1) hj)⟩

/-! ## The state after `start()` -/

/-- The images reach the memory, the two pipeline slots and the kind of the backup device; all else is as in State.reset. -/
theorem powerOn_eq (bios rom : List Byte) : powerOn bios rom =
    { State.reset with
      mem := loadedMemory bios rom
      pipeDecode := romWord rom 0
      pipeFetch := romWord rom 4
      backup := { State.reset.backup with kind := scanBackup (rom.take 0x2000000) } } := by
  simp only [powerOn, start]
  rw [refill_loadedMemory (bios := bios) (rom := rom) rfl rfl]
  rfl

end Sys2Proof.Machine

namespace Sys2Proof.Proofs

open Sys2Proof.Machine

/-- Settles O59: every memory is empty, every counter 0 and every channel Idle. -/
theorem invAtReset : Obligations.InvAtReset where
  mem := rfl
  shadow := rfl
  oamSnap := rfl
  dirty := rfl
  pending := rfl
  lc := by decide
  vcount := by decide
  pc := show (0x08000008#32 : Word).extractLsb' 0 2 = 0#2 by decide
  fifoA := Nat.zero_le _
  fifoB := Nat.zero_le _
  active := oneActive_reset

/-- Settles O9: a place of the register file is reached by one number of one bank only. -/
theorem registersAreBanked : Obligations.RegistersAreBanked :=
  ⟨fun _ _ _ _ v s hr hr' => readRegIn_setRegIn_bankOf v s hr hr', readRegIn_r15, fun _ _ => rfl,
    fun _ v s hr => writeReg_eq_setRegIn v s hr⟩

/-- Settles O58: the clauses of the images hold by what `powerOn` builds of them, the others by the fields of State.reset. -/
theorem powerOn : Obligations.PowerOn := by
  intro bios rom
  rw [powerOn_eq bios rom]
  exact ⟨
    -- the processor, memory and the stored register values
    rfl, rfl, rfl, cpsrWord_reset, readRegIn_reset, read_loadedMemory bios rom, fun _ _ => spsrOf_reset, ioStored_reset,
    -- the interrupt block, the channels, the timers and the picture processor
    rfl, getDma_reset, getTimer_reset, rfl, rfl, fun _ => rfl, fun _ => rfl,
    -- the FIFOs, the keypad, the shadow buffer and the backup device
    rfl, rfl, rfl, fun _ => rfl, rfl, rfl, rfl, scanBackup_eq_flash_iff _,
    -- what is State.reset's own, and the start with no images
    rfl, rfl, rfl, rfl, rfl, rfl, rfl, powerOn_eq [] []⟩

end Sys2Proof.Proofs

/-! SUPPORT and proofs. Every step keeps the invariant (10_state.md R115; 20_memory.md R207; 40_cpu_step.md R402; 65_system.md
R1251): what is left after Laws/Invariant.lean and Laws/System.lean, instruction by instruction. -/

namespace Sys2Proof.Machine

open Sys2Proof.Safety

/-! ## The remaining shapes of an effect -/

theorem writeReg_keeps (rd : Reg) (v : State → Word) : Keeps (fun s => .next (writeReg rd (v s) s)) :=
  keeps_next fun _ h _ => h.writeReg _ _

theorem writeReg_writeReg_keeps (r q : Reg) (v w : State → Word) :
    Keeps (fun s => .next (writeReg r (v s) (writeReg q (w s) s))) :=
  keeps_next fun _ h _ => (h.writeReg _ _).writeReg _ _

theorem writeAndFlag_keeps (rd : Reg) (r : State → AluResult) : Keeps (fun s => writeAndFlag rd (r s) s) :=
  keeps_next fun _ h _ => (h.writeReg _ _).setFlags _

theorem compareFlags_keeps (r : State → AluResult) : Keeps (fun s => compareFlags (r s) s) :=
  keeps_next fun _ h _ => h.setFlags _

/-- An effect that stops the machine on some operands. -/
theorem refuseIf_keeps {p : Prop} [Decidable p] (x : Fault) {body : State → Result} (k : Keeps body) :
    Keeps (fun s => if p then .fault x else body s) :=
  keeps_ite (keeps_fault x) k

/-- A conditional branch writes R15 or nothing. -/
theorem branchIf_keeps (p : State → Prop) [DecidablePred p] (v : State → Word) :
    Keeps (fun s => if p s then .next (writeReg 15#4 (v s) s) else .next s) :=
  keeps_ite (writeReg_keeps _ v) (keeps_next fun _ h _ => h)

/-! ## The processor step -/

theorem Midway.of_inv {s : State} (h : Inv s) : Midway s :=
  ⟨h.mem, h.shadow, h.oamSnap, h.dirty, h.lc, h.vcount, h.fifoA, h.fifoB, h.active, fun _ => h.pc⟩

/-- MRS from SPSR writes a register, in a mode that has an SPSR (45_arm_psr_swi.md R650). -/
theorem execMrsSpsr_keepsInv {c : Cond} {rd : Reg} {s t : State} (h : Inv s) (e : execMrsSpsr c rd s = .next t) : Inv t := by
  unfold execMrsSpsr at e
  refine runArm_keepsInv (refuseIf_keeps _ fun v u hv _ hu => ?_) h e
  split at hu
  · cases hu
  · cases hu
    exact hv.writeReg _ _

/-- Every instruction keeps the invariant, by the shape of its effect. -/
theorem exec_keepsInv (i : Instr) {s t : State} (h : Inv s) (e : exec i s = .next t) : Inv t := by
  -- opened before the split, so that each case unifies with its own meaning and not through the dispatch
  unfold exec at e
  cases i with
  | bx => exact runArm_keepsInv (branchExchange_keeps _) h e
  | b => exact runArm_keepsInv (writeReg_keeps _ _) h e
  | bl => exact runArm_keepsInv (writeReg_writeReg_keeps _ _ _ _) h e
  | stmda | stmia | stmdb | stmib | stmdaUser | stmiaUser | stmdbUser | stmibUser =>
    exact runArm_keepsInv (storeMultiple_keeps _ _ _ _ _ _) h e
  | ldmda | ldmia | ldmdb | ldmib =>
    exact runArm_keepsInv (loadMultiple_keeps (fun r v _ k => k.writeReg r v) _ _ _ _ _) h e
  | ldmdaUser | ldmiaUser | ldmdbUser | ldmibUser => exact runArm_keepsInv (loadMultipleUser_keeps _ _ _ _ _) h e
  | swi | undefined | ldcStc | cdpMcrMrc => exact runArm_keepsInv (raiseException_keeps _) h e
  | unallocMulSpace | unallocPsrSpace => exact runArm_keepsInv (keeps_fault _) h e
  | ldrt | ldr => exact runArm_keepsInv (transferLoad_keeps loadWord_drew _ _ _ _ _ _) h e
  | ldrbt | ldrb => exact runArm_keepsInv (transferLoad_keeps loadByte_drew _ _ _ _ _ _) h e
  | ldrh => exact runArm_keepsInv (transferLoad_keeps loadHalf_drew _ _ _ _ _ _) h e
  | ldrsb => exact runArm_keepsInv (transferLoad_keeps loadSignedByte_drew _ _ _ _ _ _) h e
  | ldrsh => exact runArm_keepsInv (transferLoad_keeps loadSignedHalf_drew _ _ _ _ _ _) h e
  | strt | str => exact runArm_keepsInv (transferStore_keeps (fun a v _ k => k.storeWord a v) _ _ _ _ _ _) h e
  | strbt | strb => exact runArm_keepsInv (transferStore_keeps (fun a v _ k => k.storeByte a v) _ _ _ _ _ _) h e
  | strh => exact runArm_keepsInv (transferStore_keeps (fun a v _ k => k.storeHalf a v) _ _ _ _ _ _) h e
  | swp => exact runArm_keepsInv (swapWith_keeps loadWord_drew (fun a v _ k => k.storeWord a v) _ _ _) h e
  | swpb => exact runArm_keepsInv (swapWith_keeps loadByte_drew (fun a v _ k => k.storeByte a v) _ _ _) h e
  | mul | mla => exact runArm_keepsInv (refuseIf_keeps _ (writeProduct_keeps _ _ _)) h e
  | umull | umlal | smull | smlal => exact runArm_keepsInv (multiplyLong_keeps _ _ _ _ _ _) h e
  | mrsCpsr => exact runArm_keepsInv (refuseIf_keeps _ (writeReg_keeps _ _)) h e
  | mrsSpsr => exact execMrsSpsr_keepsInv h e
  | msrCpsrReg => exact runArm_keepsInv (refuseIf_keeps _ (writeCpsr_keeps _ _)) h e
  | msrSpsrReg => exact runArm_keepsInv (refuseIf_keeps _ (writeSpsr_keeps _ _)) h e
  | msrCpsrImm => exact runArm_keepsInv (writeCpsr_keeps _ _) h e
  | msrSpsrImm => exact runArm_keepsInv (writeSpsr_keeps _ _) h e
  | and | eor | sub | rsb | add | adc | sbc | rsc | orr | mov | bic | mvn =>
    exact runArm_keepsInv (dataProcess_keeps _ _ _) h e
  | tst | teq | cmp | cmn => exact runArm_keepsInv (compareFlags_keeps _) h e
  | tLslImm | tLsrImm | tAsrImm | tAddReg | tSubReg | tAddImm3 | tSubImm3 | tMovImm8 | tAddImm8 | tSubImm8 | tAnd | tEor |
    tLslReg | tLsrReg | tAsrReg | tAdc | tSbc | tRorReg | tNeg | tOrr | tMul | tBic | tMvn =>
    exact runThumb_keepsInv (writeAndFlag_keeps _ _) h e
  | tCmpImm8 | tTst | tCmpReg | tCmn | tCmpHi => exact runThumb_keepsInv (compareFlags_keeps _) h e
  | tAddHi | tMovHi | tAddPc | tAddSp | tAddSpImm | tSubSpImm | tB | tBlFirst =>
    exact runThumb_keepsInv (writeReg_keeps _ _) h e
  | tBx => exact runThumb_keepsInv (branchExchange_keeps _) h e
  | tLdrPc | tLdrReg | tLdrImm | tLdrSp => exact runThumb_keepsInv (thumbLoad_keeps loadWord_drew _ _) h e
  | tLdrbReg | tLdrbImm => exact runThumb_keepsInv (thumbLoad_keeps loadByte_drew _ _) h e
  | tLdrhReg | tLdrhImm => exact runThumb_keepsInv (thumbLoad_keeps loadHalf_drew _ _) h e
  | tLdsbReg => exact runThumb_keepsInv (thumbLoad_keeps loadSignedByte_drew _ _) h e
  | tLdshReg => exact runThumb_keepsInv (thumbLoad_keeps loadSignedHalf_drew _ _) h e
  | tStrReg | tStrImm | tStrSp => exact runThumb_keepsInv (thumbStore_keeps (fun a v _ k => k.storeWord a v) _ _) h e
  | tStrbReg | tStrbImm => exact runThumb_keepsInv (thumbStore_keeps (fun a v _ k => k.storeByte a v) _ _) h e
  | tStrhReg | tStrhImm => exact runThumb_keepsInv (thumbStore_keeps (fun a v _ k => k.storeHalf a v) _ _) h e
  | tPush | tStmia => exact runThumb_keepsInv (storeMultiple_keeps _ _ _ _ _ _) h e
  | tPop | tLdmia => exact runThumb_keepsInv (loadMultiple_keeps (fun r v _ k => k.writeReg r v) _ _ _ _ _) h e
  | tUndefDE | tUndefE8 | tUndefB1 | tUndefB2 | tUndefB6 | tUndefB8 | tUndefBE | tSwi =>
    exact runThumb_keepsInv (raiseException_keeps _) h e
  | tBCond => exact runThumb_keepsInv (branchIf_keeps _ _) h e
  | tBlSecond => exact runThumb_keepsInv (writeReg_writeReg_keeps _ _ _ _) h e

/-- The processor step: an interrupt entry, or the instruction in the decode slot (40_cpu_step.md R402). -/
theorem cpuStep_inv {s t : State} (h : Inv s) (e : cpuStep s = .next t) : Inv t := by
  unfold cpuStep at e
  split at e
  · cases e
    exact (enterException_midway (Midway.of_inv h) .irq).finish
  · exact exec_keepsInv _ h e

/-- The first phase of a master cycle: the Active channel, else the processor (65_system.md R1251). -/
theorem busMasterStep_inv {s t : State} (h : Inv s) (e : busMasterStep s = .next t) : Inv t := by
  unfold busMasterStep at e
  split at e
  · cases e
    exact dmaStep_inv _ h
  · exact cpuStep_inv h e

end Sys2Proof.Machine

namespace Sys2Proof.Proofs

open Sys2Proof.Machine

/-- Settles O60: the bus master of the cycle keeps the invariant, and so do the phases after it. -/
theorem stepKeepsInv : Obligations.StepKeepsInv := by
  intro s t h e
  unfold step masterCycle andThen at e
  split at e
  next u hu =>
    cases e
    exact peripheralStep_inv (busMasterStep_inv h hu)
  next => cases e
  next => cases e

end Sys2Proof.Proofs

/-! SUPPORT and proofs. The bus (20_memory.md R200 to R216): the region of each address, what reads and writes of each width do
there, and the backup devices. -/

namespace Sys2Proof.Machine

open Sys2Proof.Safety

/-! ## Routing (20_memory.md R201) -/

theorem route_bios {a : Word} (h : a.toNat < 0x4000) : route a = some (.bios, a.toNat) := by
  have hpage : a.toNat / 0x1000000 = 0 := by omega
  have hlow : a.toNat % 0x1000000 = a.toNat := by omega
  simp only [route, hpage, hlow, h, if_true]

theorem route_io {a : Word} (hpage : a.toNat / 0x1000000 = 4) (hlow : a.toNat % 0x1000000 < 0x400) :
    route a = some (.io, a.toNat % 0x1000000) := by
  simp only [route, hpage, hlow, if_true]

theorem route_rom {a : Word} (hlo : 8 ≤ a.toNat / 0x1000000) (hhi : a.toNat / 0x1000000 ≤ 0xD) :
    route a = some (.rom, a.toNat % 0x2000000) := by
  have hpage : a.toNat / 0x1000000 = 8 ∨ a.toNat / 0x1000000 = 9 ∨ a.toNat / 0x1000000 = 0xA ∨ a.toNat / 0x1000000 = 0xB ∨
      a.toNat / 0x1000000 = 0xC ∨ a.toNat / 0x1000000 = 0xD := by omega
  rcases hpage with h | h | h | h | h | h <;> simp only [route, h]

theorem route_backup {a : Word} (hpage : a.toNat / 0x1000000 = 0xE) : route a = some (.backup, a.toNat % 0x10000) := by
  simp only [route, hpage]

theorem route_unmapped {a : Word} (h : unmapped a) : route a = none := by
  simp only [unmapped] at h
  simp only [route]
  split
  case h_1 | h_4 => exact if_neg (by omega)
  case h_15 => rfl
  all_goals omega

/-- The regions of the five writable memories. -/
def Region.isRam : Region → Bool
  | .ewram | .iwram | .pram | .vram | .oam => true
  | _ => false

theorem Region.base_injective {r q : Region} (h : r.base = q.base) : r = q := by
  revert h
  cases r <;> cases q <;> decide

theorem vramOffset_eq (n : Nat) :
    vramOffset n = if n % 0x20000 < 0x18000 then n % 0x20000 else n % 0x20000 - 0x8000 := by
  simp only [vramOffset]
  split <;> split <;> omega

/-- The canonical address of a byte of the writable memories is its region's base and its offset, and the base is the page's. -/
theorem route_of_ramKey {a : Word} {k : Nat} (h : ramKey a = some k) :
    ∃ r o, route a = some (r, o) ∧ r.isRam = true ∧ r.base = a.toNat / 0x1000000 * 0x1000000 ∧ k = r.base + o := by
  simp only [ramKey, ← vramOffset_eq] at h
  split at h
  case h_1 hpage => cases h; exact ⟨.ewram, _, by simp only [route, hpage], rfl, by rw [hpage]; rfl, rfl⟩
  case h_2 hpage => cases h; exact ⟨.iwram, _, by simp only [route, hpage], rfl, by rw [hpage]; rfl, rfl⟩
  case h_3 hpage => cases h; exact ⟨.pram, _, by simp only [route, hpage], rfl, by rw [hpage]; rfl, rfl⟩
  case h_4 hpage => cases h; exact ⟨.vram, _, by simp only [route, hpage], rfl, by rw [hpage]; rfl, rfl⟩
  case h_5 hpage => cases h; exact ⟨.oam, _, by simp only [route, hpage], rfl, by rw [hpage]; rfl, rfl⟩
  case h_6 => cases h

/-- The region of a canonical address of the writable memories is the one whose base is its page's. -/
theorem region_of_page {a : Word} {r q : Region} {n : Nat} (hbase : r.base = a.toNat / 0x1000000 * 0x1000000)
    (hpage : a.toNat / 0x1000000 = n) (hq : q.base = n * 0x1000000) : r = q :=
  Region.base_injective (by rw [hbase, hpage, hq])

/-- Within a word a mirror of a whole number of words goes up byte by byte. -/
theorem add_mod_of_word {n j m : Nat} (hm : 4 ∣ m) (hj : n % 4 + j < 4) : (n + j) % m = n % m + j := by
  obtain ⟨c, rfl⟩ := hm
  have hword : (n + j) / 4 = n / 4 := by omega
  have hlow : (n + j) % 4 = n % 4 + j := by omega
  rw [Nat.mod_mul, Nat.mod_mul, hword, hlow]
  omega

theorem vramOffset_add {n j : Nat} (hj : n % 4 + j < 4) : vramOffset (n + j) = vramOffset n + j := by
  simp only [vramOffset, add_mod_of_word (m := 0x20000) (by decide) hj]
  split <;> split <;> omega

/-- The bytes of an aligned word lie in one region, at consecutive offsets: every bound and every mirror is a multiple of four. -/
theorem route_add {a : Word} {j : Nat} (hj : a.toNat % 4 + j < 4) :
    route (a + BitVec.ofNat 32 j) = (route a).map fun x => (x.1, x.2 + j) := by
  have hlt := a.isLt
  have hsum : (a + BitVec.ofNat 32 j).toNat = a.toNat + j := by
    rw [BitVec.toNat_add, BitVec.toNat_ofNat]
    omega
  have hpage : (a.toNat + j) / 0x1000000 = a.toNat / 0x1000000 := by omega
  have hmirror (m : Nat) (hm : 4 ∣ m) := add_mod_of_word hm hj
  simp only [route, hsum, hpage, hmirror _ (show 4 ∣ 0x1000000 by decide), vramOffset_add hj]
  split
  case h_1 | h_4 =>
    split
    · rw [if_pos (by omega)]
      rfl
    · rw [if_neg (by omega)]
      rfl
  case h_6 | h_15 => rfl
  all_goals rw [hmirror _ (by decide), Option.map_some]

theorem route_add_some {a : Word} {r : Region} {o j : Nat} (h : route a = some (r, o)) (hj : a.toNat % 4 + j < 4) :
    route (a + BitVec.ofNat 32 j) = some (r, o + j) := by
  rw [route_add hj, h, Option.map_some]

/-! ## Reads (R204, R208) -/

theorem read8_memory {a : Word} {r : Region} {o : Nat} (h : route a = some (r, o)) (hio : r ≠ .io) (hbackup : r ≠ .backup)
    (s : State) : read8 a s = (Memory.read s.mem (r.base + o), s) := by
  cases r with
  | io => exact absurd rfl hio
  | backup => exact absurd rfl hbackup
  | _ => simp only [read8, h]

theorem read8_ram {a : Word} {k : Nat} (h : ramKey a = some k) (s : State) : read8 a s = (Memory.read s.mem k, s) := by
  obtain ⟨r, o, hroute, hram, -, rfl⟩ := route_of_ramKey h
  exact read8_memory hroute (by rintro rfl; cases hram) (by rintro rfl; cases hram) s

theorem read8_unmapped {a : Word} (h : route a = none) (s : State) : read8 a s = draw s := by
  simp only [read8, h]

/-- A halfword whose first byte draws nothing. -/
theorem read16_eq {a : Word} {s : State} (h0 : (read8 a s).2 = s) :
    read16 a s = ((read8 (a + 1#32) s).1 ++ (read8 a s).1, (read8 (a + 1#32) s).2) := by
  simp only [read16, h0]

/-- A word whose first three bytes draw nothing. -/
theorem read32_eq {a : Word} {s : State} (h0 : (read8 a s).2 = s) (h1 : (read8 (a + 1#32) s).2 = s)
    (h2 : (read8 (a + 2#32) s).2 = s) :
    read32 a s = ((read8 (a + 3#32) s).1 ++ (read8 (a + 2#32) s).1 ++ (read8 (a + 1#32) s).1 ++ (read8 a s).1,
      (read8 (a + 3#32) s).2) := by
  simp only [read32, h0, h1, h2]

theorem extract_append_zero {n : Nat} (x : BitVec n) (b : Byte) : (x ++ b).extractLsb' (8 * 0) 8 = b :=
  BitVec.extractLsb'_append_eq_right

theorem extract_append_succ {n : Nat} (x : BitVec n) (b : Byte) (k : Nat) :
    (x ++ b).extractLsb' (8 * (k + 1)) 8 = x.extractLsb' (8 * k) 8 :=
  BitVec.extractLsb'_append_eq_of_le (Nat.le_mul_of_pos_right 8 k.succ_pos)

/-- Byte `k` of two bytes put together. -/
theorem extract_half (b : Nat → Byte) {k : Nat} (hk : k < 2) : (b 1 ++ b 0).extractLsb' (8 * k) 8 = b k := by
  match k, hk with
  | 0, _ => exact extract_append_zero _ _
  | 1, _ => exact (extract_append_succ _ _ 0).trans BitVec.extractLsb'_eq_self

/-- Byte `k` of four bytes put together. -/
theorem extract_word (b : Nat → Byte) {k : Nat} (hk : k < 4) :
    (b 3 ++ b 2 ++ b 1 ++ b 0).extractLsb' (8 * k) 8 = b k := by
  match k, hk with
  | 0, _ => exact extract_append_zero _ _
  | 1, _ => exact (extract_append_succ _ _ 0).trans (extract_append_zero _ _)
  | k + 2, hk =>
    have htop : (b 3 ++ b 2).extractLsb' (8 * k) 8 = b (k + 2) := extract_half (fun j => b (j + 2)) (by omega)
    exact (extract_append_succ _ _ (k + 1)).trans ((extract_append_succ _ _ k).trans htop)

/-! ## The bytes of a write -/

/-- A halfword write, byte by byte. -/
theorem write16_eq_putByte (a v : Word) (s : State) :
    write16 a (v.extractLsb' 0 16) s = ioCommit (putByte (a + 1#32) (byteAt v 1) (putByte a (byteAt v 0) s)) := by
  unfold write16
  rw [BitVec.extractLsb'_extractLsb'_of_le (by decide), BitVec.extractLsb'_extractLsb'_of_le (by decide)]
  rfl

/-- A word write, byte by byte. -/
theorem write32_eq_putByte (a v : Word) (s : State) :
    write32 a v s = ioCommit (putByte (a + 3#32) (byteAt v 3) (putByte (a + 2#32) (byteAt v 2)
      (putByte (a + 1#32) (byteAt v 1) (putByte a (byteAt v 0) s)))) := rfl

theorem putByte_ram {a : Word} {r : Region} {o : Nat} (h : route a = some (r, o)) (hram : r.isRam = true) (b : Byte)
    (s : State) : putByte a b s = storeMem (r.base + o) b s := by
  cases r with
  | bios | io | rom | backup => cases hram
  | _ => simp only [putByte, h]

theorem putByte_io {a : Word} {o : Nat} (h : route a = some (.io, o)) (b : Byte) (s : State) :
    putByte a b s = ioWrite8 o b s := by
  simp only [putByte, h]

theorem putByte_backup {a : Word} {o : Nat} (h : route a = some (.backup, o)) (b : Byte) (s : State) :
    putByte a b s = backupWrite o b s := by
  simp only [putByte, h]

/-! ## Writes that keep everything (R202, R203) -/

/-- A place that takes no write: none, the BIOS or the cartridge ROM. -/
def dropsWrites (x : Option (Region × Nat)) : Prop := ∀ r o, x = some (r, o) → r = .bios ∨ r = .rom

theorem dropsWrites_route {a : Word} (h : readOnlyMemory a ∨ unmapped a) : dropsWrites (route a) := by
  rcases h with (h | ⟨hlo, hhi⟩) | h
  · rw [route_bios h]
    rintro _ _ ⟨⟩
    exact .inl rfl
  · rw [route_rom hlo hhi]
    rintro _ _ ⟨⟩
    exact .inr rfl
  · rw [route_unmapped h]
    rintro _ _ ⟨⟩

theorem dropsWrites_add {a : Word} {j : Nat} (h : dropsWrites (route a)) (hj : a.toNat % 4 + j < 4) :
    dropsWrites (route (a + BitVec.ofNat 32 j)) := by
  rw [route_add hj]
  intro r o e
  obtain ⟨⟨q, p⟩, hq, he⟩ := Option.map_eq_some_iff.mp e
  cases he
  exact h q p hq

theorem putByte_dropped {a : Word} (h : dropsWrites (route a)) (b : Byte) (s : State) : putByte a b s = s := by
  cases hroute : route a with
  | none => simp only [putByte, hroute]
  | some x =>
    obtain ⟨r, o⟩ := x
    rcases h r o hroute with rfl | rfl <;> simp only [putByte, hroute]

theorem putByte8_dropped {a : Word} (h : dropsWrites (route a)) (b : Byte) (s : State) : putByte8 a b s = s := by
  cases hroute : route a with
  | none => simp only [putByte8, putByte, hroute]
  | some x =>
    obtain ⟨r, o⟩ := x
    rcases h r o hroute with rfl | rfl <;> simp only [putByte8, putByte, hroute]

theorem write8_dropped {a : Word} {s : State} (h : dropsWrites (route a)) (hd : s.dirty = []) (b : Byte) :
    write8 a b s = s := by
  rw [write8, putByte8_dropped h, ioCommit_clean s hd]

theorem write16_dropped {a : Word} {s : State} (h : dropsWrites (route a)) (hd : s.dirty = []) (ha : a.toNat % 2 = 0)
    (v : Half) : write16 a v s = s := by
  rw [write16, putByte_dropped h, putByte_dropped (dropsWrites_add h (by omega)), ioCommit_clean s hd]

theorem write32_dropped {a : Word} {s : State} (h : dropsWrites (route a)) (hd : s.dirty = []) (ha : a.toNat % 4 = 0)
    (v : Word) : write32 a v s = s := by
  rw [write32_eq_putByte, putByte_dropped h, putByte_dropped (dropsWrites_add h (by omega)),
    putByte_dropped (dropsWrites_add h (by omega)), putByte_dropped (dropsWrites_add h (by omega)), ioCommit_clean s hd]

/-! ## Writes to the writable memories (R205, R206) -/

/-- Bytes stored one after the other. -/
def storeAll : List (Nat × Byte) → State → State
  | [], s => s
  | (k, b) :: bs, s => storeAll bs (storeMem k b s)

theorem storeAll_written (bs : List (Nat × Byte)) : ∀ s : State, Memory.wf s.mem = true → (bs.map Prod.fst).Nodup →
    bytesWritten bs s (storeAll bs s) := by
  induction bs with
  | nil => exact fun s _ _ => ⟨rfl, fun _ hx => (List.not_mem_nil hx).elim, fun _ _ => rfl⟩
  | cons x bs ih =>
    obtain ⟨k, b⟩ := x
    intro s hw hnodup
    simp only [List.map_cons, List.nodup_cons] at hnodup
    obtain ⟨hstate, hread, hkept⟩ := ih (storeMem k b s) (Memory.write_wf _ _ _ hw) hnodup.2
    refine ⟨hstate, fun x hx => ?_, fun j hj => ?_⟩
    · rcases List.mem_cons.mp hx with rfl | hx
      · exact (hkept k hnodup.1).trans (Memory.read_write_same _ _ _ hw)
      · exact hread x hx
    · simp only [List.map_cons, List.mem_cons, not_or] at hj
      exact (hkept j hj.2).trans (Memory.read_write_ne _ _ hj.1)

theorem storeAll_dirty (bs : List (Nat × Byte)) : ∀ s : State, (storeAll bs s).dirty = s.dirty := by
  induction bs with
  | nil => exact fun _ => rfl
  | cons x bs ih => exact fun s => ih _

/-- A transaction that only stores bytes of memory has nothing to commit. -/
theorem commit_storeAll_written (bs : List (Nat × Byte)) {s : State} (hd : s.dirty = []) (hw : Memory.wf s.mem = true)
    (hnodup : (bs.map Prod.fst).Nodup) : bytesWritten bs s (ioCommit (storeAll bs s)) := by
  rw [ioCommit_clean _ ((storeAll_dirty bs s).trans hd)]
  exact storeAll_written bs s hw hnodup

section
variable {a : Word} {r : Region} {o : Nat} {s : State}

theorem write8_ram_written (h : route a = some (r, o)) (hr : r = .ewram ∨ r = .iwram) (hd : s.dirty = [])
    (hw : Memory.wf s.mem = true) (b : Byte) : bytesWritten [(r.base + o, b)] s (write8 a b s) := by
  have hstore : write8 a b s = ioCommit (storeAll [(r.base + o, b)] s) := by
    rcases hr with rfl | rfl <;> simp only [write8, putByte8, putByte, h, storeAll]
  rw [hstore]
  exact commit_storeAll_written [(_, _)] hd hw (by simp)

theorem write16_ram_written (h : route a = some (r, o)) (hram : r.isRam = true) (hd : s.dirty = [])
    (hw : Memory.wf s.mem = true) (ha : a.toNat % 2 = 0) (v : Word) :
    bytesWritten [(r.base + o, byteAt v 0), (r.base + o + 1, byteAt v 1)] s (write16 a (v.extractLsb' 0 16) s) := by
  rw [write16_eq_putByte, putByte_ram h hram, putByte_ram (route_add_some h (by omega)) hram]
  exact commit_storeAll_written [(_, _), (_, _)] hd hw (by simp)

theorem write32_ram_written (h : route a = some (r, o)) (hram : r.isRam = true) (hd : s.dirty = [])
    (hw : Memory.wf s.mem = true) (ha : a.toNat % 4 = 0) (v : Word) :
    bytesWritten [(r.base + o, byteAt v 0), (r.base + o + 1, byteAt v 1), (r.base + o + 2, byteAt v 2),
      (r.base + o + 3, byteAt v 3)] s (write32 a v s) := by
  rw [write32_eq_putByte, putByte_ram h hram, putByte_ram (route_add_some h (by omega)) hram,
    putByte_ram (route_add_some h (by omega)) hram, putByte_ram (route_add_some h (by omega)) hram]
  exact commit_storeAll_written [(_, _), (_, _), (_, _), (_, _)] hd hw (by simp)

/-- A byte expanded to its halfword: the region's base is even, so the halfword is that of the canonical address. -/
theorem putReplicated_written (hbase : r.base % 2 = 0) (hd : s.dirty = []) (hw : Memory.wf s.mem = true) (b : Byte) :
    bytesWritten [(r.base + o - (r.base + o) % 2, b), (r.base + o - (r.base + o) % 2 + 1, b)] s
      (ioCommit (putReplicated r o b s)) := by
  have hhalf : r.base + o - (r.base + o) % 2 = r.base + (o - o % 2) := by omega
  rw [hhalf]
  exact commit_storeAll_written [(_, _), (_, _)] hd hw (by simp)

theorem write8_pram (h : route a = some (.pram, o)) (b : Byte) : write8 a b s = ioCommit (putReplicated .pram o b s) := by
  simp only [write8, putByte8, h]

theorem write8_vram_background (h : route a = some (.vram, o)) (ho : o < vramByteLimit s) (b : Byte) :
    write8 a b s = ioCommit (putReplicated .vram o b s) := by
  simp only [write8, putByte8, h, ho, if_true]

theorem write8_vram_object (h : route a = some (.vram, o)) (ho : vramByteLimit s ≤ o) (hd : s.dirty = []) (b : Byte) :
    write8 a b s = s := by
  simp only [write8, putByte8, h, if_neg (Nat.not_lt.mpr ho), ioCommit_clean s hd]

theorem write8_oam (h : route a = some (.oam, o)) (hd : s.dirty = []) (b : Byte) : write8 a b s = s := by
  simp only [write8, putByte8, h, ioCommit_clean s hd]

end

/-- The end of the VRAM that takes byte writes, in the words of R205. -/
theorem vramByteLimit_eq (s : State) : vramByteLimit s =
    if 3 ≤ (s.ppu.dispcnt.extractLsb' 0 3).toNat ∧ (s.ppu.dispcnt.extractLsb' 0 3).toNat ≤ 5 then 0x14000 else 0x10000 := by
  simp only [vramByteLimit, bitmapMode, decide_eq_true_eq]

/-! ## Writes to the I/O window (61_io_registers.md R951, R952) -/

section
variable {a : Word} {o : Nat} {s : State}

theorem write8_io (h : route a = some (.io, o)) (b : Byte) : write8 a b s = ioCommit (ioWrite8 o b s) := by
  simp only [write8, putByte8, putByte, h]

theorem write16_io (h : route a = some (.io, o)) (ha : a.toNat % 2 = 0) (v : Word) :
    write16 a (v.extractLsb' 0 16) s = ioCommit (ioWrite8 (o + 1) (byteAt v 1) (ioWrite8 o (byteAt v 0) s)) := by
  rw [write16_eq_putByte, putByte_io h, putByte_io (route_add_some h (by omega))]

theorem write32_io (h : route a = some (.io, o)) (ha : a.toNat % 4 = 0) (v : Word) :
    write32 a v s = ioCommit (ioWrite8 (o + 3) (byteAt v 3) (ioWrite8 (o + 2) (byteAt v 2)
      (ioWrite8 (o + 1) (byteAt v 1) (ioWrite8 o (byteAt v 0) s)))) := by
  rw [write32_eq_putByte, putByte_io h, putByte_io (route_add_some h (by omega)), putByte_io (route_add_some h (by omega)),
    putByte_io (route_add_some h (by omega))]

/-! ## The backup devices (R214, R215) -/

theorem read8_backup (h : route a = some (.backup, o)) : read8 a s = (backupRead o s, s) := by
  simp only [read8, h]

theorem backupRead_sram (hkind : s.backup.kind = .sram) :
    backupRead o s = Memory.read s.mem (0x0E000000 + o % 0x8000) := by
  simp [backupRead, backupKey, Region.base, hkind]

theorem backupRead_flash (hkind : s.backup.kind = .flash128k) : backupRead o s =
    if s.backup.idMode = true ∧ o = 0 then 0x62#8
    else if s.backup.idMode = true ∧ o = 1 then 0x13#8
    else Memory.read s.mem (0x0E000000 + o) := by
  simp [backupRead, backupKey, Region.base, hkind]

theorem backupWrite_sram (hkind : s.backup.kind = .sram) (b : Byte) :
    backupWrite o b s = { s with mem := Memory.write s.mem (0x0E000000 + o % 0x8000) b } := by
  simp only [backupWrite, backupStore, backupKey, Region.base, hkind]

/-- An equation with a choice on its right is the choice of the two equations. -/
theorem eq_ite {α : Type} {c : Prop} [Decidable c] (x u v : α) : (x = if c then u else v) = if c then x = u else x = v := by
  by_cases h : c
  · rw [if_pos h, if_pos h]
  · rw [if_neg h, if_neg h]

/-- The Flash follows its three-write sequences; a write outside them is stored, and the next sequence starts anew. -/
theorem backupWrite_flash (hkind : s.backup.kind = .flash128k) (b : Byte) : backupWrite o b s =
    if s.backup.seq = 0 ∧ o = 0x5555 ∧ b = 0xAA#8 then { s with backup := { s.backup with seq := 1 } }
    else if s.backup.seq = 1 ∧ o = 0x2AAA ∧ b = 0x55#8 then { s with backup := { s.backup with seq := 2 } }
    else if s.backup.seq = 2 ∧ o = 0x5555 ∧ b = 0x90#8 then { s with backup := { s.backup with seq := 0, idMode := true } }
    else if s.backup.seq = 2 ∧ o = 0x5555 ∧ b = 0xF0#8 then { s with backup := { s.backup with seq := 0, idMode := false } }
    else { s with mem := Memory.write s.mem (0x0E000000 + o) b, backup := { s.backup with seq := 0 } } := by
  simp only [backupWrite, backupStore, backupKey, Region.base, hkind]

theorem backupWrite_dirty (o : Nat) (b : Byte) (s : State) : (backupWrite o b s).dirty = s.dirty := by
  unfold backupWrite
  split
  · rfl
  · repeat' split
    all_goals rfl

theorem write8_backup (h : route a = some (.backup, o)) (hd : s.dirty = []) (b : Byte) : write8 a b s = backupWrite o b s := by
  have hbyte : putByte8 a b s = backupWrite o b s := by simp only [putByte8, putByte, h]
  rw [write8, hbyte, ioCommit_clean _ ((backupWrite_dirty o b s).trans hd)]

/-- One byte of a wide write to the backup device is a byte write. -/
theorem putByte_eq_write8 (h : route a = some (.backup, o)) (hd : s.dirty = []) (b : Byte) : putByte a b s = write8 a b s := by
  rw [write8_backup h hd, putByte_backup h]

theorem write16_backup (h : route a = some (.backup, o)) (hd : s.dirty = []) (ha : a.toNat % 2 = 0) (v : Word) :
    write16 a (v.extractLsb' 0 16) s = write8 (a + 1#32) (byteAt v 1) (write8 a (byteAt v 0) s) := by
  rw [write16_eq_putByte, putByte_eq_write8 h hd, putByte_eq_write8 (route_add_some h (by omega)) (write8_dirty _ _ _),
    ioCommit_clean _ (write8_dirty _ _ _)]

theorem write32_backup (h : route a = some (.backup, o)) (hd : s.dirty = []) (ha : a.toNat % 4 = 0) (v : Word) :
    write32 a v s = write8 (a + 3#32) (byteAt v 3) (write8 (a + 2#32) (byteAt v 2)
      (write8 (a + 1#32) (byteAt v 1) (write8 a (byteAt v 0) s))) := by
  rw [write32_eq_putByte, putByte_eq_write8 h hd, putByte_eq_write8 (route_add_some h (by omega)) (write8_dirty _ _ _),
    putByte_eq_write8 (route_add_some h (by omega)) (write8_dirty _ _ _),
    putByte_eq_write8 (route_add_some h (by omega)) (write8_dirty _ _ _), ioCommit_clean _ (write8_dirty _ _ _)]

end

end Sys2Proof.Machine

namespace Sys2Proof.Proofs

open Sys2Proof.Machine Sys2Proof.Safety

/-- Settles O42: each address has its region, and a byte that draws nothing leaves the state in which the next is read. -/
theorem busReads : Obligations.BusReads := by
  intro a b s
  refine ⟨fun h => ?_, fun k hk => read8_ram hk s, fun hlo hhi => read8_rom (route_rom hlo hhi) s, fun h => ?_, fun hpure => ?_⟩
  · rw [read8_memory (route_bios h) (by decide) (by decide), show Region.bios.base + a.toNat = a.toNat from Nat.zero_add _]
  · exact ⟨read8_unmapped (route_unmapped h) s, fun hd => write8_dropped (dropsWrites_route (.inr h)) hd b⟩
  · have h0 : (read8 a s).2 = s := by simpa using hpure 0 (by decide)
    have h1 := hpure 1 (by decide)
    have h2 := hpure 2 (by decide)
    have h3 := hpure 3 (by decide)
    have hzero : read8 a s = read8 (a + BitVec.ofNat 32 0) s := by simp
    rw [read16_eq h0, read32_eq h0 h1 h2, hzero]
    let byte (k : Nat) : Byte := (read8 (a + BitVec.ofNat 32 k) s).1
    exact ⟨h1, h3, fun k hk => extract_half byte hk, fun k hk => extract_word byte hk⟩

/-- Settles O43: each address has its region, and the bytes of an aligned write lie in one region at consecutive offsets. -/
theorem busWrites : Obligations.BusWrites := by
  intro a v s hd hw
  refine ⟨fun k hk => ?_, fun h => ?_, fun hpage o ho hlow => ?_, fun hpage => ?_⟩
  · obtain ⟨r, o, hroute, hram, hbase, rfl⟩ := route_of_ramKey hk
    refine ⟨fun hpage => ?_, fun hpage => ?_, fun hpage hlt => ?_, fun hpage hle => ?_, fun hpage => ?_,
      fun ha => write16_ram_written hroute hram hd hw ha v, fun ha => write32_ram_written hroute hram hd hw ha v⟩
    · have hr : r = .ewram ∨ r = .iwram :=
        hpage.imp (fun h => region_of_page hbase h rfl) (fun h => region_of_page hbase h rfl)
      exact write8_ram_written hroute hr hd hw _
    · obtain rfl : r = .pram := region_of_page hbase hpage rfl
      rw [write8_pram hroute]
      exact putReplicated_written rfl hd hw _
    · obtain rfl : r = .vram := region_of_page hbase hpage rfl
      rw [← vramByteLimit_eq] at hlt
      rw [write8_vram_background hroute (Nat.lt_of_add_lt_add_left hlt)]
      exact putReplicated_written rfl hd hw _
    · obtain rfl : r = .vram := region_of_page hbase hpage rfl
      rw [← vramByteLimit_eq] at hle
      exact write8_vram_object hroute (Nat.le_of_add_le_add_left hle) hd _
    · obtain rfl : r = .oam := region_of_page hbase hpage rfl
      exact write8_oam hroute hd _
  · have hdrop := dropsWrites_route h
    exact ⟨write8_dropped hdrop hd _, fun ha => write16_dropped hdrop hd ha _, fun ha => write32_dropped hdrop hd ha v⟩
  · subst ho
    have hroute := route_io hpage hlow
    exact ⟨write8_io hroute _, fun ha => write16_io hroute (by omega) v, fun ha => write32_io hroute (by omega) v⟩
  · have hroute := route_backup hpage
    exact ⟨fun ha => write16_backup hroute hd ha v, fun ha => write32_backup hroute hd ha v⟩

/-- Settles O44: a byte of the backup region reads and writes the device at the low sixteen bits of its address. -/
theorem backupDevices : Obligations.BackupDevices := by
  intro a b s hpage hd
  have hroute := route_backup hpage
  have hmask : a.toNat % 0x10000 % 0x8000 = a.toNat % 0x8000 := Nat.mod_mod_of_dvd a.toNat (by decide)
  refine ⟨fun hsram => ?_, fun hflash => ?_⟩
  · rw [read8_backup hroute, write8_backup hroute hd, backupRead_sram hsram, backupWrite_sram hsram, hmask]
    exact ⟨rfl, rfl⟩
  · refine ⟨by rw [read8_backup hroute, backupRead_flash hflash], ?_⟩
    have hwrite := (write8_backup hroute hd b).trans (backupWrite_flash hflash b)
    simp only [eq_ite] at hwrite
    exact hwrite

end Sys2Proof.Proofs

/-! SUPPORT and proofs. The processor step (40_cpu_step.md R400 to R407; 30_encoding.md R301, R327; 60_exceptions.md R903 to R905;
65_system.md R1251): the conditions by their codes, the instruction in the decode slot, and the two outcomes of a processor cycle. -/

namespace Sys2Proof.Machine

open Sys2Proof.Safety

/-! ## Conditions (R301, R404, R405) -/

/-- Each of the sixteen codes is the code of its condition (R301). -/
theorem code_ofCode (k : BitVec 4) : (Cond.ofCode k).code = k := by
  revert k
  decide

/-- The predicate over N, Z, C and V of the upper three bits of a code, negated by its low bit; the eighth predicate is truth
(R301, R404). -/
def codePasses (k : BitVec 4) (p : Cpsr) : Bool :=
  match (k.extractLsb' 1 3).toNat with
  | 0 => p.z ^^ k.getLsbD 0
  | 1 => p.c ^^ k.getLsbD 0
  | 2 => p.n ^^ k.getLsbD 0
  | 3 => p.v ^^ k.getLsbD 0
  | 4 => (p.c && !p.z) ^^ k.getLsbD 0
  | 5 => (p.n == p.v) ^^ k.getLsbD 0
  | 6 => (!p.z && (p.n == p.v)) ^^ k.getLsbD 0
  | _ => !k.getLsbD 0

/-- An even code has its predicate itself; an odd code has the negation, moved inwards where the predicate is a conjunction. -/
theorem conditionPasses_eq_codePasses (c : Cond) (p : Cpsr) : conditionPasses c p = codePasses c.code p := by
  cases c with
  | eq | cs | mi | vs | hi | ge | gt => exact (Bool.xor_false _).symm
  | ne | cc | pl | vc | lt => exact (Bool.xor_true _).symm
  | ls =>
    have hneg : (!(p.c && !p.z)) = (!p.c || p.z) := by rw [Bool.not_and, Bool.not_not]
    exact hneg.symm.trans (Bool.xor_true _).symm
  | le =>
    have hneg : (!(!p.z && (p.n == p.v))) = (p.z || !(p.n == p.v)) := by rw [Bool.not_and, Bool.not_not]
    exact hneg.symm.trans (Bool.xor_true _).symm
  | al | nv => rfl

/-- Every instruction with a condition field has its meaning under that condition (R405). -/
theorem exec_eq_runArm_of_condOf {i : Instr} {c : Cond} (h : condOf i = some c) :
    ∃ body : State → Result, exec i = runArm c body := by
  -- the THUMB instructions, which have no condition field, leave with `h`
  cases i <;> cases h
  all_goals exact ⟨_, rfl⟩

/-! ## The instruction in the decode slot (R402; 20_memory.md R208) -/

/-- The low byte of a word divided by a power of two is the byte that begins at that bit. -/
theorem ofNat_toNat_div_pow (w : Word) (k : Nat) : BitVec.ofNat 8 (w.toNat / 2 ^ k) = w.extractLsb' k 8 :=
  congrArg (BitVec.ofNat 8) (Nat.shiftRight_eq_div_pow w.toNat k).symm

/-- The bytes laid from a bit of a word on: the one that begins there, and those laid eight bits further on. -/
theorem layBytes_div_pow (w : Word) (k n : Nat) :
    layBytes (w.toNat / 2 ^ k) (n + 1) = w.extractLsb' k 8 :: layBytes (w.toNat / 2 ^ (k + 8)) n := by
  have hrest : w.toNat / 2 ^ k / 256 = w.toNat / 2 ^ (k + 8) := by
    rw [Nat.div_div_eq_div_mul, Nat.pow_add]
  exact congr (congrArg List.cons (ofNat_toNat_div_pow w k)) (congrArg (layBytes · n) hrest)

theorem layBytes_two (w : Word) : layBytes w.toNat 2 = [w.extractLsb' 0 8, w.extractLsb' 8 8] :=
  calc layBytes w.toNat 2
    _ = layBytes (w.toNat / 2 ^ 0) 2 := congrArg (layBytes · 2) (Nat.div_one _).symm
    _ = w.extractLsb' 0 8 :: layBytes (w.toNat / 2 ^ 8) 1 := layBytes_div_pow w 0 1
    _ = [w.extractLsb' 0 8, w.extractLsb' 8 8] := congrArg _ (layBytes_div_pow w 8 0)

theorem layBytes_four (w : Word) :
    layBytes w.toNat 4 = [w.extractLsb' 0 8, w.extractLsb' 8 8, w.extractLsb' 16 8, w.extractLsb' 24 8] :=
  calc layBytes w.toNat 4
    _ = w.extractLsb' 0 8 :: w.extractLsb' 8 8 :: layBytes (w.toNat / 2 ^ 16) 2 :=
      (congrArg (layBytes · 4) (Nat.div_one _).symm).trans
        ((layBytes_div_pow w 0 3).trans (congrArg _ (layBytes_div_pow w 8 2)))
    _ = [w.extractLsb' 0 8, w.extractLsb' 8 8, w.extractLsb' 16 8, w.extractLsb' 24 8] :=
      congrArg _ (congrArg _ ((layBytes_div_pow w 16 1).trans (congrArg _ (layBytes_div_pow w 24 0))))

/-- A halfword's two bytes decode to what the halfword does. -/
theorem decode_thumb_layBytes (w : Word) : decode true (layBytes w.toNat 2) = .ok (decodeThumb (w.setWidth 16), []) := by
  have hhalf : w.extractLsb' 8 8 ++ w.extractLsb' 0 8 = w.setWidth 16 := by
    rw [BitVec.extractLsb'_append_extractLsb'_eq_extractLsb' (show 8 = 0 + 8 from rfl),
      BitVec.setWidth_eq_extractLsb' (by decide)]
  rw [layBytes_two, ← hhalf]
  rfl

/-- A word's four bytes decode to what the word does. -/
theorem decode_arm_layBytes (w : Word) : decode false (layBytes w.toNat 4) = .ok (decodeArm w, []) := by
  have hword : w.extractLsb' 24 8 ++ w.extractLsb' 16 8 ++ w.extractLsb' 8 8 ++ w.extractLsb' 0 8 = w := by
    rw [BitVec.extractLsb'_append_extractLsb'_eq_extractLsb' (show 24 = 16 + 8 from rfl),
      BitVec.extractLsb'_append_extractLsb'_eq_extractLsb' (show 16 = 8 + 8 from rfl),
      BitVec.extractLsb'_append_extractLsb'_eq_extractLsb' (show 8 = 0 + 8 from rfl)]
    exact BitVec.extractLsb'_eq_self
  rw [layBytes_four]
  exact congrArg (fun x => Except.ok (decodeArm x, [])) hword

/-- The bytes of the decode slot, as many as the state's instruction length, decode to the instruction that a step runs. -/
theorem decode_pipeDecode (s : State) :
    decode s.cpsr.t (layBytes s.pipeDecode.toNat (if s.cpsr.t then 2 else 4)) = .ok (currentInstr s, []) := by
  unfold currentInstr
  cases s.cpsr.t with
  | true => exact decode_thumb_layBytes s.pipeDecode
  | false => exact decode_arm_layBytes s.pipeDecode

/-! ## A cycle of the processor (R402; 65_system.md R1251) -/

/-- With no channel Active the cycle is the processor's, followed by the phases of the other agents. -/
theorem step_eq_cpuStep {s : State} (h : activeChannel s = none) :
    step s = andThen (cpuStep s) (fun t => .next (peripheralStep t)) := by
  unfold step masterCycle busMasterStep
  rw [h]

theorem cpuStep_of_irqPending {s : State} (h : irqPending s = true) : cpuStep s = .next (enterIrq s) := if_pos h

theorem cpuStep_of_not_irqPending {s : State} (h : irqPending s = false) : cpuStep s = exec (currentInstr s) s :=
  if_neg (Bool.eq_false_iff.mp h)

theorem irqPending_iff (s : State) :
    irqPending s = true ↔ s.cpsr.i = false ∧ s.irq.ime.getLsbD 0 = true ∧ s.irq.ie &&& s.irq.ifl ≠ 0#16 := by
  simp [irqPending, and_assoc]

theorem enterIrq_entered (s : State) : entered .irq 0x00000018#32 s (enterIrq s) :=
  enterException_entered .irq rfl s ⟨_, rfl⟩

end Sys2Proof.Machine

namespace Sys2Proof.Proofs

open Sys2Proof.Machine Sys2Proof.Safety

/-- Settles O7: every code is the code of its condition, and each condition has the predicate of its code. -/
theorem conditionsPass : Obligations.ConditionsPass := by
  intro p k
  have h : conditionPasses (Cond.ofCode k) p = codePasses k p := by rw [conditionPasses_eq_codePasses, code_ofCode]
  exact h

/-- Settles O8: such an instruction is its end alone, which is an advance where no write of R15 is pending. -/
theorem failedConditionOnlyAdvances : Obligations.FailedConditionOnlyAdvances := by
  intro i c s hi hc
  obtain ⟨body, hexec⟩ := exec_eq_runArm_of_condOf hi
  refine ⟨finish (begun s), ?_, (begun_effect s).advanced rfl rfl, (begun_effect s).onlyRegs rfl, finish_cpsr (begun s)⟩
  rw [hexec, runArm_skip hc]

/-- Settles O4: the instruction the bytes decode to is the one the processor runs. -/
theorem stepRunsDecodedInstruction : Obligations.StepRunsDecodedInstruction := by
  intro s i hdma hirq hdecode _
  obtain rfl : currentInstr s = i := by
    rw [decode_pipeDecode] at hdecode
    exact congrArg Prod.fst (Except.ok.inj hdecode)
  rw [step_eq_cpuStep hdma, cpuStep_of_not_irqPending hirq]
  cases exec (currentInstr s) s with
  | next u => rfl
  | fault x => rfl
  | refused x => rfl

/-- Settles O5: the interrupt check holds, and the entry is that of the exception IRQ. -/
theorem stepEntersIrq : Obligations.StepEntersIrq := by
  intro s hdma hi hime hreq
  refine ⟨enterIrq s, enterIrq_entered s, ?_⟩
  rw [step_eq_cpuStep hdma, cpuStep_of_irqPending ((irqPending_iff s).mpr ⟨hi, hime, hreq⟩)]
  rfl

end Sys2Proof.Proofs

/-! SUPPORT and proofs. ARM branches (41_arm_branch.md R450 to R452; 40_cpu_step.md R406): a write of R15 ends in a refill, and the
exchange of state by bit 0 of a target. -/

namespace Sys2Proof.Machine

open Sys2Proof.Safety

/-! ## A write of R15 (40_cpu_step.md R406) -/

/-- A write of R15 is pending until the end of the instruction, which refills from it. -/
theorem refilled_finish_writeR15 (v : Word) (u : State) : refilled v (finish (writeReg 15#4 v u)) := finish_refilled rfl

/-- A write of R15 before the end of the instruction changes nothing more than the effect so far. -/
theorem Effect.writeR15 {ps : List (Fin 30)} {s u : State} (h : Effect ps s u) (v : Word) : Effect ps s (writeReg 15#4 v u) :=
  ⟨h.regs, h.mem, h.devices, h.draws, h.pipeFetch, h.r15⟩

/-- A branch after an effect that left both kinds of status register as they were. -/
theorem Effect.onlyRegsNoFlags_writeR15 {ps : List (Fin 30)} {s u : State} (h : Effect ps s u) (hs : u.spsr = s.spsr)
    (hc : u.cpsr = s.cpsr) (v : Word) : onlyRegsNoFlags ps s (finish (writeReg 15#4 v u)) :=
  ⟨(h.writeR15 v).onlyRegs hs, (finish_cpsr _).trans hc⟩

theorem readReg_finish_writeR15 {r : Reg} (hr : r ≠ 15#4) (v : Word) (u : State) :
    readReg r (finish (writeReg 15#4 v u)) = readReg r u := by
  rw [readReg_finish r _ hr]
  exact readRegIn_congr _ r rfl hr

/-! ## Exchange of state (R450) -/

theorem alignHalf_alignHalf (v : Word) : alignHalf (alignHalf v) = alignHalf v := by
  rw [alignHalf, alignHalf, BitVec.and_assoc, BitVec.and_self]

/-- In THUMB state a refill clears bit 0 itself, so a target may come with or without it. -/
theorem refilled_alignHalf_iff {v : Word} {t : State} (ht : t.cpsr.t = true) : refilled (alignHalf v) t ↔ refilled v t := by
  have hv : alignHalf v &&& 0xFFFFFFFE#32 = v &&& 0xFFFFFFFE#32 := alignHalf_alignHalf v
  simp only [refilled, ht, if_true, hv]

/-- A refill from what an exchange writes to R15 is a refill from the target, in the state its bit 0 names. -/
theorem refilled_of_exchanged {target : Word} {t : State}
    (h : refilled (if target.getLsbD 0 then alignHalf target else target) t) (ht : t.cpsr.t = target.getLsbD 0) :
    refilled target t := by
  split at h
  · next hbit => exact (refilled_alignHalf_iff (ht.trans hbit)).mp h
  · exact h

/-- Branch and exchange: bit 0 of the target is the state, and the pipeline is refilled from the target in that state. -/
theorem branchExchange_spec (target : Word) (s : State) :
    ∃ u, branchExchange target (begun s) = .next u ∧ (finish u).cpsr = { s.cpsr with t := target.getLsbD 0 } ∧
      refilled target (finish u) ∧ onlyRegs [] s (finish u) := by
  let exchanged := setCpsr { s.cpsr with t := target.getLsbD 0 } (begun s)
  have heff : Effect [] s exchanged := (begun_effect s).trans (setCpsr_effect _ _)
  exact ⟨_, rfl, finish_cpsr _, refilled_of_exchanged (refilled_finish_writeR15 _ exchanged)
    (congrArg Cpsr.t (finish_cpsr _)), (heff.writeR15 _).onlyRegs rfl⟩

end Sys2Proof.Machine

namespace Sys2Proof.Proofs

open Sys2Proof.Machine Sys2Proof.Safety

/-- Settles O19: each is one write of R15 before the end of the instruction, BX after the exchange of state, BL after the link. -/
theorem armBranches : Obligations.ArmBranches := by
  intro c rn o s hc target
  have htarget : s.r15 + branchOffset o 2 = target := congrArg (s.r15 + ·) (branchOffset_eq o 2 (by decide))
  refine ⟨?bx, ?b, ?bl⟩
  case bx =>
    obtain ⟨u, hu, hspec⟩ := branchExchange_spec (readReg rn s) s
    exact ⟨finish u, runArm_next hc hu, hspec⟩
  case b =>
    rw [← htarget]
    exact ⟨_, runArm_next hc rfl, refilled_finish_writeR15 _ _, (begun_effect s).onlyRegsNoFlags_writeR15 rfl rfl _⟩
  case bl =>
    have hlink : Effect (placeOf s 14#4) s (writeReg 14#4 (s.r15 - 4#32) (begun s)) :=
      (begun_effect s).trans (writeReg_effect 14#4 _ (begun s))
    rw [← htarget]
    refine ⟨_, runArm_next hc rfl, refilled_finish_writeR15 _ _, ?_, hlink.onlyRegsNoFlags_writeR15 rfl rfl _⟩
    rw [readReg_finish_writeR15 (by decide), readReg_writeReg _ _ _ (by decide)]

end Sys2Proof.Proofs

/-! SUPPORT and proofs. ARM block transfers (42_arm_block_transfer.md R500 to R506; 40_cpu_step.md R406): the shapes of STM and LDM
between the condition and the end of the instruction, and the restore of CPSR by an LDM^ with R15 in its list. -/

namespace Sys2Proof.Machine

open Sys2Proof.Safety

/-! ## Restoring CPSR (60_exceptions.md R910) -/

theorem restoreCpsr_of_none {s : State} (h : spsrOf s.cpsr.mode s = none) : restoreCpsr s = .fault .noSpsr := by
  simp only [restoreCpsr, h]

theorem restoreCpsr_of_some {s : State} {q : Spsr} (h : spsrOf s.cpsr.mode s = some q) : restoreCpsr s = loadCpsr q s := by
  simp only [restoreCpsr, h]

theorem loadCpsr_of_mode {q : Spsr} {m : Mode} (h : modeOfBits q.m = some m) (s : State) :
    loadCpsr q s = .next (setCpsr ⟨q.n, q.z, q.c, q.v, q.i, q.f, q.t, m⟩ s) := by
  simp only [loadCpsr, h]

theorem loadCpsr_of_noMode {q : Spsr} (h : modeOfBits q.m = none) (s : State) : loadCpsr q s = .fault (.invalidMode q.m) := by
  simp only [loadCpsr, h]

/-! ## The bank an LDM writes (R505, R506) -/

/-- In a state with the CPSR of `s`, writes of the current bank are writes of the bank of the mode of `s`. -/
theorem writeRegs_current_of_cpsr {s t : State} (h : t.cpsr = s.cpsr) (rs : List Reg) (vs : List Word) :
    writeRegs writeReg rs vs t = writeRegs (writeRegIn s.cpsr.mode) rs vs t := by
  rw [writeRegs_current, h]

theorem loadMultipleUser_of_not_mem {list : BitVec 16} (h : 15#4 ∉ blockRegs list) (p u w : Bool) (rn : Reg) :
    loadMultipleUser p u w rn list = loadMultiple writeUserReg p u w rn list := by
  funext s
  exact if_neg (mt List.contains_iff_mem.mp h)

theorem loadMultipleUser_of_mem {list : BitVec 16} (h : 15#4 ∈ blockRegs list) (p u w : Bool) (rn : Reg) (s : State) :
    loadMultipleUser p u w rn list s = andThen (loadMultiple writeReg p u w rn list s) restoreCpsr :=
  if_pos (List.contains_iff_mem.mpr h)

/-! ## The shapes of STM and LDM -/

section
variable {i : Instr} {c : Cond} {p u w : Bool} {rn : Reg} {list : BitVec 16} {s : State}

/-- An instruction that runs an STM stores as an STM does, whichever bank `get` reads. -/
theorem storingMultiple_of_exec {get : Reg → State → Word} (hc : conditionPasses c s.cpsr = true)
    (hexec : exec i s = runArm c (storeMultiple get p u w rn list) s) (hget : ∀ r t, get r (begun t) = get r t) :
    storingMultiple i get p u w rn list s := by
  intro hwriteback
  obtain ⟨z, hz, hstored, hbase⟩ := storeMultiple_spec get hget p u w rn list s hwriteback
  exact ⟨finish z, hexec.trans (runArm_next hc hz), hstored, hbase⟩

/-- An instruction that runs an LDM into the bank of `m` loads as an LDM does; without R15 in the list the pipeline advances. -/
theorem loadingMultiple_of_exec {m : Mode} {write : Reg → Word → State → State} (hc : conditionPasses c s.cpsr = true)
    (hexec : exec i s = runArm c (loadMultiple write p u w rn list) s)
    (hbank : ∀ t : State, t.cpsr = s.cpsr → ∀ rs vs, writeRegs write rs vs t = writeRegs (writeRegIn m) rs vs t) :
    loadingMultiple i m p u w rn list s := by
  intro hwriteback
  obtain ⟨z, hz, hcpsr, -, hpending, -, heffect, hloaded⟩ := loadMultiple_spec m write p u w rn list s hwriteback hbank
  exact ⟨finish z, hexec.trans (runArm_next hc hz), hloaded z.cpsr, (finish_cpsr z).trans hcpsr,
    fun h15 => heffect.advanced (hpending h15) (congrArg Cpsr.t hcpsr)⟩

/-- The effect of an LDM^ with R15 in the list: the restore of CPSR, from the SPSR of the mode it began in, after the current bank
is loaded. -/
theorem loadMultipleUser_restores (h15 : 15#4 ∈ blockRegs list) (hwriteback : ¬(w = true ∧ rn = 15#4)) :
    ∃ z, loadMultipleUser p u w rn list (begun s) = restoreCpsr z ∧ spsrOf z.cpsr.mode z = spsrOf s.cpsr.mode s ∧
      ∀ restored, blockLoaded s.cpsr.mode p u w rn list s (finish (setCpsr restored z)) := by
  obtain ⟨z, hz, hcpsr, hspsr, -, -, -, hloaded⟩ :=
    loadMultiple_spec s.cpsr.mode writeReg p u w rn list s hwriteback (fun _ ht => writeRegs_current_of_cpsr ht)
  refine ⟨z, ?_, ?_, hloaded⟩
  · rw [loadMultipleUser_of_mem h15, hz]
    rfl
  · rw [hcpsr, spsrOf_congr _ hspsr]

/-- An instruction that runs an LDM^ loads the user bank, or the current bank with the restore of CPSR or its fault. -/
theorem loadingMultipleUser_of_exec (hc : conditionPasses c s.cpsr = true)
    (hexec : exec i s = runArm c (loadMultipleUser p u w rn list) s) : loadingMultipleUser i p u w rn list s := by
  refine ⟨fun h15 => ?user, fun h15 hwriteback => ?current⟩
  case user =>
    rw [loadMultipleUser_of_not_mem h15] at hexec
    exact loadingMultiple_of_exec hc hexec (fun _ _ _ _ => rfl)
  case current =>
    obtain ⟨z, hz, hspsr, hloaded⟩ := loadMultipleUser_restores (p := p) (u := u) (s := s) h15 hwriteback
    refine ⟨fun q m hq hm => ?_, fun hnone => ?_, fun q hq hm => ?_⟩
    · have hnext := hz.trans ((restoreCpsr_of_some (hspsr.trans hq)).trans (loadCpsr_of_mode hm z))
      exact ⟨_, hexec.trans (runArm_next hc hnext), hloaded _, finish_cpsr _⟩
    · exact hexec.trans (runArm_fault hc (hz.trans (restoreCpsr_of_none (hspsr.trans hnone))))
    · have hfault := hz.trans ((restoreCpsr_of_some (hspsr.trans hq)).trans (loadCpsr_of_noMode hm z))
      exact hexec.trans (runArm_fault hc hfault)

end

end Sys2Proof.Machine

namespace Sys2Proof.Proofs

open Sys2Proof.Machine

/-- Settles O25: each row is an STM after its condition, and neither bank is read through the write of R15 that the instruction
clears. -/
theorem storeMultiples : Obligations.StoreMultiples := by
  intro c w rn list s hc
  have huser (r : Reg) (t : State) : readRegIn .usr r (begun t) = readRegIn .usr r t := rfl
  exact ⟨storingMultiple_of_exec hc rfl readReg_begun, storingMultiple_of_exec hc rfl readReg_begun,
    storingMultiple_of_exec hc rfl readReg_begun, storingMultiple_of_exec hc rfl readReg_begun,
    storingMultiple_of_exec hc rfl huser, storingMultiple_of_exec hc rfl huser,
    storingMultiple_of_exec hc rfl huser, storingMultiple_of_exec hc rfl huser⟩

/-- Settles O26: each row is an LDM after its condition, into the bank of the current mode. -/
theorem loadMultiples : Obligations.LoadMultiples := by
  intro c w rn list s hc
  have hbank (t : State) (ht : t.cpsr = s.cpsr) := writeRegs_current_of_cpsr ht
  exact ⟨loadingMultiple_of_exec hc rfl hbank, loadingMultiple_of_exec hc rfl hbank,
    loadingMultiple_of_exec hc rfl hbank, loadingMultiple_of_exec hc rfl hbank⟩

/-- Settles O27: each row is an LDM^ after its condition, split by whether R15 is in the list. -/
theorem loadMultiplesUser : Obligations.LoadMultiplesUser := by
  intro c w rn list s hc
  exact ⟨loadingMultipleUser_of_exec hc rfl, loadingMultipleUser_of_exec hc rfl,
    loadingMultipleUser_of_exec hc rfl, loadingMultipleUser_of_exec hc rfl⟩

end Sys2Proof.Proofs

/-! SUPPORT and proofs. ARM single transfers and swaps (43_arm_single_transfer.md R550 to R565; 20_memory.md R209): the shapes of
a load, a store and a swap between the condition and the end of the instruction, and the refusal of a writeback to R15 (R556, R501). -/

namespace Sys2Proof.Machine

open Sys2Proof.Safety

/-! ## A bus read -/

/-- A load as an instruction makes it: it may draw and changes nothing else, and its value does not depend on the pending write of
R15 that the instruction clears. The reading side of `BusWrite`. -/
structure BusRead (load : Word → State → Word × State) (value : Word → State → Word) : Prop where
  drew : ∀ a s, Drew s (load a s).2
  value : ∀ a s, (load a (begun s)).1 = value a s

theorem loadWord_read : BusRead loadWord valueWord := ⟨loadWord_drew, loadWord_begun⟩
theorem loadByte_read : BusRead loadByte valueByte := ⟨loadByte_drew, loadByte_begun⟩
theorem loadHalf_read : BusRead loadHalf valueHalf := ⟨loadHalf_drew, loadHalf_begun⟩
theorem loadSignedByte_read : BusRead loadSignedByte valueSignedByte := ⟨loadSignedByte_drew, loadSignedByte_begun⟩
theorem loadSignedHalf_read : BusRead loadSignedHalf valueSignedHalf := ⟨loadSignedHalf_drew, loadSignedHalf_begun⟩

/-! ## The keys of a write do not depend on the draws -/

theorem byteKeys8_draws (s : State) (n : Nat) (a : Word) : byteKeys8 { s with draws := n } a = byteKeys8 s a := rfl
theorem busWordKeys_draws (s : State) (n : Nat) (a : Word) : busWordKeys { s with draws := n } a = busWordKeys s a := rfl

section
variable {i : Instr} {c : Cond} {p u w : Bool} {rn rd rm : Reg} {list : BitVec 16} {s : State}
  {load : Word → State → Word × State} {value : Word → State → Word} {write : Word → Word → State → State}
  {keys : State → Word → List Nat} {offset : State → Word}

/-! ## The shapes of a load, a store and a swap -/

/-- An instruction that runs a transfer's load loads as R550 and R556 say, from the offset of the state it begins in. -/
theorem loading_of_exec (hread : BusRead load value) (hoffset : offset (begun s) = offset s)
    (hc : conditionPasses c s.cpsr = true)
    (hexec : exec i s = runArm c (fun t => transferLoad load p u w rn rd (offset t) t) s) :
    loading i p u w rn rd (offset s) value s :=
  runArm_transferLoad c load value hread.drew hread.value i p u w rn rd (offset s) offset s hoffset hexec hc

/-- An instruction that runs a transfer's store stores as R550 and R556 say. -/
theorem storing_of_exec (hwrite : BusWrite write keys) (hoffset : offset (begun s) = offset s)
    (hc : conditionPasses c s.cpsr = true)
    (hexec : exec i s = runArm c (fun t => transferStore write p u w rn rd (offset t) t) s) :
    storing i p u w rn rd (offset s) write keys s :=
  runArm_transferStore c hwrite rfl i p u w rn rd (offset s) offset s hoffset hexec hc

/-- An instruction that runs a swap swaps as R565 says. -/
theorem swapping_of_exec (hread : BusRead load value) (hwrite : BusWrite write keys)
    (hkeys : ∀ t n a, keys { t with draws := n } a = keys t a) (hc : conditionPasses c s.cpsr = true)
    (hexec : exec i s = runArm c (swapWith load write rn rd rm) s) : swapping i rn rd rm value write keys s :=
  runArm_swapWith c hread.drew hread.value hwrite rfl hkeys i rn rd rm s hexec hc

/-! ## A writeback to R15 (R556, R501) -/

/-- The refusal of a writeback to R15. -/
abbrev writebackFault : Result := .fault (.unpredictable .writebackR15)

/-- A single load refuses before it reads. -/
theorem exec_transferLoad_writebackR15 (hc : conditionPasses c s.cpsr = true) (hwb : writesBack p w = true)
    (hexec : exec i s = runArm c (fun t => transferLoad load p u w 15#4 rd (offset t) t) s) : exec i s = writebackFault :=
  hexec.trans (runArm_fault hc (if_pos ⟨hwb, rfl⟩))

/-- A single store refuses before it writes. -/
theorem exec_transferStore_writebackR15 (hc : conditionPasses c s.cpsr = true) (hwb : writesBack p w = true)
    (hexec : exec i s = runArm c (fun t => transferStore write p u w 15#4 rd (offset t) t) s) : exec i s = writebackFault :=
  hexec.trans (runArm_fault hc (if_pos ⟨hwb, rfl⟩))

/-- An STM refuses before it writes, whichever bank it reads. -/
theorem exec_storeMultiple_writebackR15 {get : Reg → State → Word} (hc : conditionPasses c s.cpsr = true)
    (hexec : exec i s = runArm c (storeMultiple get p u true 15#4 list) s) : exec i s = writebackFault :=
  hexec.trans (runArm_fault hc (if_pos ⟨rfl, rfl⟩))

theorem loadMultiple_writebackR15 (put : Reg → Word → State → State) :
    loadMultiple put p u true 15#4 list s = writebackFault := if_pos ⟨rfl, rfl⟩

theorem exec_loadMultiple_writebackR15 {put : Reg → Word → State → State} (hc : conditionPasses c s.cpsr = true)
    (hexec : exec i s = runArm c (loadMultiple put p u true 15#4 list) s) : exec i s = writebackFault :=
  hexec.trans (runArm_fault hc (loadMultiple_writebackR15 put))

/-- The writeback is refused before CPSR would be restored. -/
theorem loadMultipleUser_writebackR15 : loadMultipleUser p u true 15#4 list s = writebackFault := by
  by_cases h15 : 15#4 ∈ blockRegs list
  · rw [loadMultipleUser_of_mem h15, loadMultiple_writebackR15]
    rfl
  · rw [loadMultipleUser_of_not_mem h15, loadMultiple_writebackR15]

theorem exec_loadMultipleUser_writebackR15 (hc : conditionPasses c s.cpsr = true)
    (hexec : exec i s = runArm c (loadMultipleUser p u true 15#4 list) s) : exec i s = writebackFault :=
  hexec.trans (runArm_fault hc loadMultipleUser_writebackR15)

end

end Sys2Proof.Machine

namespace Sys2Proof.Proofs

open Sys2Proof.Machine Sys2Proof.Safety

/-- Settles O20: each row is one bus read with the transfer's addressing, after its condition. -/
theorem armLoads : Obligations.ArmLoads := by
  intro c p u w rn rd o h s hc
  have ho := offsetValue_begun o s
  have hh := halfOffsetValue_begun h s
  exact ⟨loading_of_exec loadWord_read ho hc rfl, loading_of_exec loadByte_read ho hc rfl,
    loading_of_exec loadWord_read ho hc rfl, loading_of_exec loadByte_read ho hc rfl,
    loading_of_exec loadHalf_read hh hc rfl, loading_of_exec loadSignedByte_read hh hc rfl,
    loading_of_exec loadSignedHalf_read hh hc rfl⟩

/-- Settles O21: each row is one bus write with the transfer's addressing, after its condition. -/
theorem armStores : Obligations.ArmStores := by
  intro c p u w rn rd o h s hc
  have ho := offsetValue_begun o s
  have hh := halfOffsetValue_begun h s
  exact ⟨storing_of_exec busWord_write ho hc rfl, storing_of_exec busByte_write ho hc rfl,
    storing_of_exec busWord_write ho hc rfl, storing_of_exec busByte_write ho hc rfl,
    storing_of_exec busHalf_write hh hc rfl⟩

/-- Settles O22: each of the shared transfers refuses before anything else. LDRT, LDRBT, STRT and STRBT have P = 0, so they write
back without the hypothesis on P and W. -/
theorem writebackToR15Stops : Obligations.WritebackToR15Stops := by
  intro c p u w rd o h list s hc stop
  refine ⟨fun hwb => ?single, ?ldrt, ?ldrbt, ?strt, ?strbt, ?multiple⟩
  case single =>
    exact ⟨exec_transferLoad_writebackR15 hc hwb rfl, exec_transferLoad_writebackR15 hc hwb rfl,
      exec_transferStore_writebackR15 hc hwb rfl, exec_transferStore_writebackR15 hc hwb rfl,
      exec_transferLoad_writebackR15 hc hwb rfl, exec_transferLoad_writebackR15 hc hwb rfl,
      exec_transferLoad_writebackR15 hc hwb rfl, exec_transferStore_writebackR15 hc hwb rfl⟩
  case ldrt => exact exec_transferLoad_writebackR15 hc rfl rfl
  case ldrbt => exact exec_transferLoad_writebackR15 hc rfl rfl
  case strt => exact exec_transferStore_writebackR15 hc rfl rfl
  case strbt => exact exec_transferStore_writebackR15 hc rfl rfl
  case multiple =>
    simp only [List.forall_mem_cons]
    exact ⟨exec_storeMultiple_writebackR15 hc rfl, exec_storeMultiple_writebackR15 hc rfl,
      exec_storeMultiple_writebackR15 hc rfl, exec_storeMultiple_writebackR15 hc rfl,
      exec_storeMultiple_writebackR15 hc rfl, exec_storeMultiple_writebackR15 hc rfl,
      exec_storeMultiple_writebackR15 hc rfl, exec_storeMultiple_writebackR15 hc rfl,
      exec_loadMultiple_writebackR15 hc rfl, exec_loadMultiple_writebackR15 hc rfl,
      exec_loadMultiple_writebackR15 hc rfl, exec_loadMultiple_writebackR15 hc rfl,
      exec_loadMultipleUser_writebackR15 hc rfl, exec_loadMultipleUser_writebackR15 hc rfl,
      exec_loadMultipleUser_writebackR15 hc rfl, exec_loadMultipleUser_writebackR15 hc rfl,
      List.forall_mem_nil _⟩

/-- Settles O23: each row is a bus read and a bus write at one address, after its condition. -/
theorem swaps : Obligations.Swaps := by
  intro c rn rd rm s hc
  exact ⟨swapping_of_exec loadWord_read busWord_write busWordKeys_draws hc rfl,
    swapping_of_exec loadByte_read busByte_write byteKeys8_draws hc rfl⟩

end Sys2Proof.Proofs

/-! SUPPORT and proofs. ARM multiply and multiply long (44_arm_multiply.md R600 to R607): the exact product as a word, the flags of
a product, and the shapes of a 32-bit and of a long multiply between the condition and the end of the instruction. -/

namespace Sys2Proof.Machine

open Sys2Proof.Safety

/-! ## Exact products and sums as words (R602 to R607) -/

theorem append_eq_ofNat (x y : Word) : x ++ y = BitVec.ofNat 64 (x.toNat * 2 ^ 32 + y.toNat) := by
  apply BitVec.eq_of_toNat_eq
  rw [BitVec.toNat_append, ← Nat.shiftLeft_add_eq_or_of_lt y.isLt, Nat.shiftLeft_eq, BitVec.toNat_ofNat, Nat.mod_eq_of_lt]
  omega

theorem mul_eq_ofNat (x y : Word) : x * y = BitVec.ofNat 32 (x.toNat * y.toNat) := by
  rw [BitVec.ofNat_mul, BitVec.ofNat_toNat, BitVec.ofNat_toNat, BitVec.setWidth_eq, BitVec.setWidth_eq]

theorem mul_add_eq_ofNat (x y z : Word) : x * y + z = BitVec.ofNat 32 (x.toNat * y.toNat + z.toNat) := by
  rw [BitVec.ofNat_add, ← mul_eq_ofNat, BitVec.ofNat_toNat, BitVec.setWidth_eq]

theorem setWidth_mul_eq_ofNat (x y : Word) : x.setWidth 64 * y.setWidth 64 = BitVec.ofNat 64 (x.toNat * y.toNat) := by
  rw [BitVec.ofNat_mul, BitVec.ofNat_toNat, BitVec.ofNat_toNat]

theorem signExtend_mul_eq_ofInt (x y : Word) : x.signExtend 64 * y.signExtend 64 = BitVec.ofInt 64 (x.toInt * y.toInt) :=
  (BitVec.ofInt_mul ..).symm

/-! ## Writes of general registers before the end of an instruction -/

theorem readReg_writeReg_ne {r q : Reg} (hr : r ≠ 15#4) (hq : q ≠ 15#4) (h : r ≠ q) (v : Word) (s : State) :
    readReg r (writeReg q v s) = readReg r s := by
  rw [writeReg_eq_setRegIn v s hq]
  exact readRegIn_setRegIn_ne _ r q v s hr hq h

/-- An effect so far of general registers only: both kinds of status register are as they were and no write of R15 is pending. -/
structure RegEffect (ps : List (Fin 30)) (s u : State) : Prop where
  effect : Effect ps s u
  spsr : u.spsr = s.spsr
  cpsr : u.cpsr = s.cpsr
  pending : u.pendingPC = none

theorem begun_regEffect (s : State) : RegEffect [] s (begun s) := ⟨begun_effect s, rfl, rfl, rfl⟩

theorem RegEffect.writeReg {ps : List (Fin 30)} {s u : State} {r : Reg} (h : RegEffect ps s u) (hr : r ≠ 15#4) (v : Word) :
    RegEffect (regPlace s.cpsr.mode r :: ps) s (writeReg r v u) := by
  rw [writeReg_eq_setRegIn v u hr, h.cpsr]
  have heff : Effect (ps ++ [regPlace s.cpsr.mode r]) s (setRegIn s.cpsr.mode r v u) :=
    h.effect.trans (setRegIn_effect _ r v u)
  exact ⟨heff.mono fun _ hp => (List.perm_append_singleton _ ps).subset hp, h.spsr, h.cpsr, h.pending⟩

/-! ## The flags of a product (R601) -/

/-- The state with N and Z of a product where S is set. -/
def flagProduct (sf n z : Bool) (u : State) : State := if sf then setNZ n z u else u

theorem writeProduct_eq (sf : Bool) (rd : Reg) (p : Word) (s : State) :
    writeProduct sf rd p s = .next (flagProduct sf p.msb (decide (p = 0#32)) (writeReg rd p s)) := rfl

theorem writeLongProduct_eq (sf : Bool) (hi lo : Reg) (p : BitVec 64) (s : State) :
    writeLongProduct sf hi lo p s = .next (flagProduct sf p.msb (decide (p = 0#64))
      (writeReg hi (p.extractLsb' 32 32) (writeReg lo (p.extractLsb' 0 32) s))) := rfl

theorem flagProduct_effect (sf n z : Bool) (u : State) : Effect [] u (flagProduct sf n z u) := by
  cases sf
  · exact Effect.refl u
  · exact setCpsr_effect _ u

theorem flagProduct_regs (sf n z : Bool) (u : State) : (flagProduct sf n z u).regs = u.regs := by cases sf <;> rfl
theorem flagProduct_spsr (sf n z : Bool) (u : State) : (flagProduct sf n z u).spsr = u.spsr := by cases sf <;> rfl
theorem flagProduct_pendingPC (sf n z : Bool) (u : State) : (flagProduct sf n z u).pendingPC = u.pendingPC := by
  cases sf <;> rfl
theorem flagProduct_mode (sf n z : Bool) (u : State) : (flagProduct sf n z u).cpsr.mode = u.cpsr.mode := by cases sf <;> rfl
theorem flagProduct_t (sf n z : Bool) (u : State) : (flagProduct sf n z u).cpsr.t = u.cpsr.t := by cases sf <;> rfl

theorem readReg_finish_flagProduct {r : Reg} (hr : r ≠ 15#4) (sf n z : Bool) (u : State) :
    readReg r (finish (flagProduct sf n z u)) = readReg r u := by
  rw [readReg_finish r _ hr]
  exact readReg_congr r (flagProduct_regs ..) (flagProduct_effect ..).r15 (flagProduct_mode ..)

theorem productFlags_finish {s u : State} (h : u.cpsr = s.cpsr) (sf n z : Bool) :
    productFlags sf n z s (finish (flagProduct sf n z u)) := by
  cases sf
  · exact (finish_cpsr u).trans h
  · rw [productFlags, if_pos rfl, onlyNZ, controlKept, finish_cpsr, ← h]
    exact ⟨rfl, rfl, rfl, rfl, rfl, rfl, rfl, rfl⟩

/-- A multiply after its registers are written: the flags of the product and the end of the instruction. -/
theorem RegEffect.finish_flagProduct {ps : List (Fin 30)} {s u : State} (h : RegEffect ps s u) (sf n z : Bool) :
    productFlags sf n z s (finish (flagProduct sf n z u)) ∧ advanced s (finish (flagProduct sf n z u)) ∧
      onlyRegs ps s (finish (flagProduct sf n z u)) := by
  have heff : Effect (ps ++ []) s (flagProduct sf n z u) := h.effect.trans (flagProduct_effect sf n z u)
  rw [List.append_nil] at heff
  exact ⟨productFlags_finish h.cpsr sf n z,
    heff.advanced ((flagProduct_pendingPC ..).trans h.pending) ((flagProduct_t ..).trans (congrArg Cpsr.t h.cpsr)),
    heff.onlyRegs ((flagProduct_spsr ..).trans h.spsr)⟩

/-! ## The shapes of a multiply -/

section
variable {i : Instr} {c : Cond} {sf : Bool} {s : State}

/-- MUL refuses the registers its statement lists (R600). -/
theorem r15_mem_three_iff {rd rs rm : Reg} : 15#4 ∈ [rd, rs, rm] ↔ rd = 15#4 ∨ rs = 15#4 ∨ rm = 15#4 := by
  simp only [List.mem_cons, List.not_mem_nil, or_false, eq_comm (a := 15#4)]

/-- MLA and the long multiplies refuse the registers their statements list (R600). -/
theorem r15_mem_four_iff {r1 r2 rs rm : Reg} :
    15#4 ∈ [r1, r2, rs, rm] ↔ r1 = 15#4 ∨ r2 = 15#4 ∨ rs = 15#4 ∨ rm = 15#4 := by
  rw [List.mem_cons, r15_mem_three_iff, eq_comm]

/-- An instruction that writes the product of its operands, or refuses R15 among its registers, multiplies as R600 to R603 say. -/
theorem multiplies_of_exec {rd : Reg} {operands : List Reg} {refused : Prop} [Decidable refused] {p : Word}
    {product : State → Word} (hc : conditionPasses c s.cpsr = true)
    (hexec : exec i s = runArm c (fun t =>
      if refused then .fault (.unpredictable .multiplyR15) else writeProduct sf rd (product t) t) s)
    (hrefused : 15#4 ∈ rd :: operands ↔ refused) (hproduct : product (begun s) = p) : multiplies i sf rd operands p s := by
  subst hproduct
  refine ⟨fun h15 => ?product, fun h15 => ?r15⟩
  case product =>
    have hrd : rd ≠ 15#4 := fun h => h15 (h ▸ List.mem_cons_self)
    exact ⟨_, hexec.trans (runArm_next hc ((if_neg (mt hrefused.mpr h15)).trans (writeProduct_eq ..))),
      (readReg_finish_flagProduct hrd ..).trans (readReg_writeReg rd _ _ hrd),
      ((begun_regEffect s).writeReg hrd _).finish_flagProduct ..⟩
  case r15 => exact hexec.trans (runArm_fault hc (if_pos (hrefused.mp h15)))

/-- An instruction that runs a long multiply writes its 64-bit product, or refuses, as R600 and R604 to R607 say. -/
theorem multipliesLong_of_exec {hi lo rs rm : Reg} {p : BitVec 64} {product : Word → Word → BitVec 64 → BitVec 64}
    (hc : conditionPasses c s.cpsr = true) (hexec : exec i s = runArm c (multiplyLong product sf hi lo rs rm) s)
    (hproduct : product (readReg rm s) (readReg rs s) (readReg hi s ++ readReg lo s) = p) :
    multipliesLong i sf hi lo rs rm p s := by
  rw [multipliesLong, r15_mem_four_iff]
  refine ⟨fun h15 hne => ?product, fun h15 => ?r15, fun h15 hsame => ?same⟩
  case product =>
    have hhi : hi ≠ 15#4 := fun h => h15 (.inl h)
    have hlo : lo ≠ 15#4 := fun h => h15 (.inr (.inl h))
    have hbody : multiplyLong product sf hi lo rs rm (begun s) = writeLongProduct sf hi lo p (begun s) :=
      (if_neg h15).trans ((if_neg hne).trans (congrArg (writeLongProduct sf hi lo · (begun s)) hproduct))
    refine ⟨_, hexec.trans (runArm_next hc (hbody.trans (writeLongProduct_eq ..))), ?readHi, ?readLo,
      (((begun_regEffect s).writeReg hlo _).writeReg hhi _).finish_flagProduct ..⟩
    case readHi => rw [readReg_finish_flagProduct hhi, readReg_writeReg _ _ _ hhi]
    case readLo =>
      rw [readReg_finish_flagProduct hlo, readReg_writeReg_ne hlo hhi hne.symm, readReg_writeReg _ _ _ hlo]
  case r15 => exact hexec.trans (runArm_fault hc (if_pos h15))
  case same => exact hexec.trans (runArm_fault hc ((if_neg h15).trans (if_pos hsame)))

end

end Sys2Proof.Machine

namespace Sys2Proof.Proofs

open Sys2Proof.Machine

/-- Settles O17: each writes one product after its condition, and refuses the registers its statement lists. -/
theorem multiplies : Obligations.Multiplies := by
  intro c sf rd rn rs rm s hc x
  exact ⟨multiplies_of_exec hc rfl r15_mem_three_iff (mul_eq_ofNat ..),
    multiplies_of_exec hc rfl r15_mem_four_iff (mul_add_eq_ofNat ..)⟩

/-- Settles O18: each is the long multiply of one product, which is the exact one as a 64-bit word. -/
theorem longMultiplies : Obligations.LongMultiplies := by
  intro c sf hi lo rs rm s hc x y acc
  have hacc : readReg hi s ++ readReg lo s = BitVec.ofNat 64 acc := append_eq_ofNat ..
  have hunsigned : (readReg rm s).setWidth 64 * (readReg rs s).setWidth 64 = BitVec.ofNat 64 x := setWidth_mul_eq_ofNat ..
  have hsigned : (readReg rm s).signExtend 64 * (readReg rs s).signExtend 64 = BitVec.ofInt 64 y :=
    signExtend_mul_eq_ofInt ..
  refine ⟨multipliesLong_of_exec hc rfl hunsigned, multipliesLong_of_exec hc rfl ?umlal,
    multipliesLong_of_exec hc rfl hsigned, multipliesLong_of_exec hc rfl ?smlal⟩
  case umlal => rw [hunsigned, hacc, ← BitVec.ofNat_add]
  case smlal => rw [hsigned, hacc, ← BitVec.ofInt_natCast, ← BitVec.ofInt_add]

end Sys2Proof.Proofs

/-! SUPPORT and proofs. PSR transfers, SWI, the undefined class and the coprocessor space (45_arm_psr_swi.md R650 to R659;
49_thumb_branch.md R851, R864; 60_exceptions.md R901 to R904): MRS, MSR by the fields it leaves, and the instructions that raise an
exception. -/

namespace Sys2Proof.Machine

open Sys2Proof.Safety

/-! ## The end of an instruction that writes a status register -/

theorem spsrOf_finish (m : Mode) (u : State) : spsrOf m (finish u) = spsrOf m u := spsrOf_congr m (finish_spec u).1.spsr

/-- An effect and the end of its instruction, whatever became of the status registers. -/
theorem Effect.kept_finish {ps : List (Fin 30)} {s u : State} (h : Effect ps s u) :
    regsKeptExcept ps s (finish u) ∧ outsideKept s (finish u) ∧ (finish u).pendingPC = none := by
  have hend := (finish_spec u).1
  refine ⟨fun q hq => ?_, ⟨hend.mem.trans h.mem, devicesKept_trans h.devices hend.devices,
    Nat.le_trans h.draws hend.draws⟩, hend.pending⟩
  rw [hend.regs]
  exact h.regs q hq

section
variable {i : Instr} {c : Cond} {body : State → Result} {s : State}

/-! ## MRS (R650) -/

/-- An instruction that writes the word of a status register to a general register. -/
theorem movesFromStatus_of_exec {rd : Reg} {p : Spsr} (hrd : rd ≠ 15#4) (hc : conditionPasses c s.cpsr = true)
    (hexec : exec i s = runArm c body s) (hbody : body (begun s) = .next (writeReg rd (statusWord p) (begun s))) :
    movesFromStatus i rd p s := by
  have hwrite := (begun_regEffect s).writeReg hrd (statusWord p)
  refine ⟨_, hexec.trans (runArm_next hc hbody), ?bits,
    hwrite.effect.advanced hwrite.pending (congrArg Cpsr.t hwrite.cpsr),
    hwrite.effect.onlyRegs hwrite.spsr, (finish_cpsr _).trans hwrite.cpsr⟩
  rw [readReg_finish _ _ hrd, readReg_writeReg _ _ _ hrd]
  exact statusWord_bits p

/-! ## MSR to CPSR (R651, R652, R654) -/

/-- An MSR with this field mask writes the control byte of CPSR: field bit 0, in a privileged mode. -/
def msrControl (f : BitVec 4) (s : State) : Bool := f.getLsbD 0 && decide (s.cpsr.mode ≠ .usr)

/-- What an MSR of `v` would leave in CPSR, T and the mode field not yet checked. -/
def msrCpsrFields (v : Word) (f : BitVec 4) (s : State) : Spsr :=
  msrFields (saveCpsr s.cpsr) v (f.getLsbD 3) (msrControl f s)

section
variable {v : Word} {f : BitVec 4}

theorem msrCpsrFields_of_not_control (h : msrControl f s = false) :
    (msrCpsrFields v f s).t = s.cpsr.t ∧ (msrCpsrFields v f s).m = modeBits s.cpsr.mode := by
  rw [msrCpsrFields, h]
  exact ⟨rfl, rfl⟩

theorem msrCpsrFields_of_control (h : msrControl f s = true) :
    (msrCpsrFields v f s).t = v.getLsbD 5 ∧ (msrCpsrFields v f s).m = v.extractLsb' 0 5 := by
  rw [msrCpsrFields, h]
  exact ⟨rfl, rfl⟩

theorem writeCpsr_of_t_ne (h : (msrCpsrFields v f s).t ≠ s.cpsr.t) : writeCpsr v f s = .fault (.unpredictable .msrState) :=
  (writeCpsr_eq v f s).trans (if_pos h)

theorem writeCpsr_of_t_eq (h : (msrCpsrFields v f s).t = s.cpsr.t) : writeCpsr v f s = loadCpsr (msrCpsrFields v f s) s :=
  (writeCpsr_eq v f s).trans (if_neg (not_not_intro h))

/-- A write of CPSR that keeps T and names a mode is the whole effect of its instruction. -/
theorem writeCpsr_done {m : Mode} (hc : conditionPasses c s.cpsr = true) (hexec : exec i s = runArm c body s)
    (hbody : body (begun s) = writeCpsr v f (begun s)) (ht : (msrCpsrFields v f s).t = s.cpsr.t)
    (hm : modeOfBits (msrCpsrFields v f s).m = some m) :
    let p := msrCpsrFields v f s
    ∃ t, exec i s = .next t ∧ t.cpsr = ⟨p.n, p.z, p.c, p.v, p.i, p.f, s.cpsr.t, m⟩ ∧ advanced s t ∧ onlyRegs [] s t := by
  intro p
  have hnext := hbody.trans ((writeCpsr_of_t_eq (s := begun s) ht).trans (loadCpsr_of_mode hm _))
  have heff : Effect [] s (setCpsr ⟨p.n, p.z, p.c, p.v, p.i, p.f, p.t, m⟩ (begun s)) :=
    (begun_effect s).trans (setCpsr_effect _ _)
  exact ⟨_, hexec.trans (runArm_next hc hnext), (finish_cpsr _).trans (congrArg (Cpsr.mk _ _ _ _ _ _ · m) ht),
    heff.advanced rfl ht, heff.onlyRegs rfl⟩

/-- An instruction that writes a value to CPSR by a field mask moves it there, or stops, as R651 says. -/
theorem movesToCpsr_of_exec (hc : conditionPasses c s.cpsr = true) (hexec : exec i s = runArm c body s)
    (hbody : body (begun s) = writeCpsr v f (begun s)) : movesToCpsr i v f s := by
  have hfault {x : Fault} (h : writeCpsr v f (begun s) = .fault x) : exec i s = .fault x :=
    hexec.trans (runArm_fault hc (hbody.trans h))
  refine ⟨fun hcontrol => ?flagsOnly, fun hcontrol ht m hm => ?both, fun hcontrol ht => ?state,
    fun hcontrol ht hm => ?noMode⟩
  case flagsOnly =>
    obtain ⟨hT, hM⟩ := msrCpsrFields_of_not_control (v := v) hcontrol
    exact writeCpsr_done hc hexec hbody hT (hM ▸ modeOfBits_modeBits _)
  case both =>
    obtain ⟨hT, hM⟩ := msrCpsrFields_of_control (v := v) hcontrol
    exact writeCpsr_done hc hexec hbody (hT.trans ht) (hM ▸ hm)
  case state =>
    obtain ⟨hT, -⟩ := msrCpsrFields_of_control (v := v) hcontrol
    exact hfault (writeCpsr_of_t_ne (s := begun s) (fun hsame => ht (hT.symm.trans hsame)))
  case noMode =>
    obtain ⟨hT, hM⟩ := msrCpsrFields_of_control (v := v) hcontrol
    rw [← hM] at hm ⊢
    exact hfault ((writeCpsr_of_t_eq (s := begun s) (hT.trans ht)).trans (loadCpsr_of_noMode hm _))

end

/-! ## MSR to the SPSR of the current mode (R651, R653, R655) -/

theorem writeSpsr_of_none {v : Word} {f : BitVec 4} (h : spsrOf s.cpsr.mode s = none) : writeSpsr v f s = .fault .noSpsr := by
  simp only [writeSpsr, h]

/-- An instruction that writes a value to the SPSR by a field mask moves it there, or stops, as R651 says. -/
theorem movesToSpsr_of_exec {v : Word} {f : BitVec 4} (hc : conditionPasses c s.cpsr = true)
    (hexec : exec i s = runArm c body s) (hbody : body (begun s) = writeSpsr v f (begun s)) : movesToSpsr i v f s := by
  have hspsr (m : Mode) : spsrOf m (begun s) = spsrOf m s := spsrOf_congr m rfl
  refine ⟨fun p hp => ?moved, fun hnone => ?noSpsr⟩
  case moved =>
    have hbegun := (hspsr s.cpsr.mode).trans hp
    let new := msrFields p v (f.getLsbD 3) (f.getLsbD 0)
    have heff : Effect [] s (setSpsrOf s.cpsr.mode new (begun s)) := (begun_effect s).trans (setSpsrOf_effect _ _ _)
    refine ⟨_, hexec.trans (runArm_next hc (hbody.trans (writeSpsr_eq v f _ p hbegun))), ?current, fun m hm => ?other,
      (finish_cpsr _).trans (setSpsrOf_cpsr ..), heff.advanced (setSpsrOf_pendingPC ..) (by rw [setSpsrOf_cpsr]),
      heff.kept_finish⟩
    case current => exact (spsrOf_finish _ _).trans (spsrOf_setSpsrOf _ new p _ hbegun)
    case other => exact (spsrOf_finish _ _).trans ((spsrOf_setSpsrOf_ne _ m new _ hm).trans (hspsr m))
  case noSpsr =>
    exact hexec.trans (runArm_fault hc (hbody.trans (writeSpsr_of_none ((hspsr s.cpsr.mode).trans hnone))))

/-! ## Raising an exception (R657 to R659, R851, R864, R901) -/

/-- Every entry mode has an SPSR, in which the old CPSR is saved (60_exceptions.md R900). -/
theorem spsrOf_entryMode (k : ExceptionKind) (s : State) : ∃ p, spsrOf (entryMode k) s = some p := by
  cases k <;> exact ⟨_, rfl⟩

theorem runThumb_raiseException (k : ExceptionKind) (s : State) :
    runThumb (raiseException k) s = .next (finish (enterException k (begun s))) := rfl

theorem runArm_raiseException (k : ExceptionKind) (hc : conditionPasses c s.cpsr = true) :
    runArm c (raiseException k) s = .next (finish (enterException k (begun s))) := runArm_next hc rfl

/-- An instruction that raises an exception does nothing but enter it, where its condition, if it has one, passes; the exception
leaves F. -/
theorem exec_of_raises {m : Mode} {vec : Word} (h : raises i = some (m, vec))
    (hc : ∀ c, condOf i = some c → conditionPasses c s.cpsr = true) :
    ∃ k, setsF k = false ∧ entryMode k = m ∧ vectorOf k = vec ∧ exec i s = .next (finish (enterException k (begun s))) := by
  -- the instructions that raise nothing leave with `h`
  cases i <;> cases h
  case swi => exact ⟨.swi, rfl, rfl, rfl, runArm_raiseException _ (hc _ rfl)⟩
  case undefined | ldcStc | cdpMcrMrc => exact ⟨.undefined, rfl, rfl, rfl, runArm_raiseException _ (hc _ rfl)⟩
  case tSwi => exact ⟨.swi, rfl, rfl, rfl, runThumb_raiseException _ s⟩
  case tUndefDE | tUndefE8 | tUndefB1 | tUndefB2 | tUndefB6 | tUndefB8 | tUndefBE =>
    exact ⟨.undefined, rfl, rfl, rfl, runThumb_raiseException _ s⟩

end

end Sys2Proof.Machine

namespace Sys2Proof.Proofs

open Sys2Proof.Machine

/-- Settles O28: each row writes the word of its status register after its condition, or refuses R15 or a mode with no SPSR. -/
theorem moveFromStatus : Obligations.MoveFromStatus := by
  intro c rd s hc
  have hspsr : spsrOf s.cpsr.mode (begun s) = spsrOf s.cpsr.mode s := spsrOf_congr _ rfl
  refine ⟨fun hrd => ⟨movesFromStatus_of_exec hrd hc rfl (if_neg hrd), fun p hp => ?spsr, fun hnone => ?noSpsr⟩,
    fun hrd => ⟨runArm_fault hc (if_pos hrd), runArm_fault hc (if_pos hrd)⟩⟩
  case spsr => exact movesFromStatus_of_exec hrd hc rfl ((if_neg hrd).trans (by rw [hspsr, hp]))
  case noSpsr => exact runArm_fault hc ((if_neg hrd).trans (by rw [hspsr, hnone]))

/-- Settles O29: both rows are the same write of CPSR, of a register's value or of a rotated immediate. -/
theorem moveToCpsr : Obligations.MoveToCpsr := by
  intro c f rot imm8 rm s hc
  exact ⟨fun hrm => movesToCpsr_of_exec hc rfl (if_neg hrm), fun hrm => runArm_fault hc (if_pos hrm),
    movesToCpsr_of_exec hc rfl rfl⟩

/-- Settles O30: both rows are the same write of the current mode's SPSR, of a register's value or of a rotated immediate. -/
theorem moveToSpsr : Obligations.MoveToSpsr := by
  intro c f rot imm8 rm s hc
  exact ⟨fun hrm => movesToSpsr_of_exec hc rfl (if_neg hrm), fun hrm => runArm_fault hc (if_pos hrm),
    movesToSpsr_of_exec hc rfl rfl⟩

/-- Settles O31: the instruction is the entry to its exception, which is the whole of its effect. -/
theorem exceptionsAreTaken : Obligations.ExceptionsAreTaken := by
  intro i m vec s hraises hc
  obtain ⟨k, hf, rfl, rfl, hexec⟩ := exec_of_raises hraises hc
  exact ⟨_, hexec, enterException_entered k hf (begun s) (spsrOf_entryMode k _)⟩

end Sys2Proof.Proofs

/-! SUPPORT and proofs. ARM data processing (46_arm_dataproc.md R702 to R722; 30_encoding.md R305, R306, R308): the shifter by its
columns, the exact sums, and the shapes of the logical and the arithmetic opcodes. -/

namespace Sys2Proof.Machine

open Sys2Proof.Safety

/-! ## A shift by 1 to 31 places (R702, R703) -/

theorem shiftBy_lsl (v : Word) (n : Nat) :
    (shiftBy .lsl v n).1.toNat = v.toNat * 2 ^ n % 2 ^ 32 ∧ (shiftBy .lsl v n).2 = v.getLsbD (32 - n) := by
  refine ⟨?_, rfl⟩
  rw [shiftBy, BitVec.toNat_shiftLeft, Nat.shiftLeft_eq]

theorem shiftBy_lsr (v : Word) (n : Nat) :
    (shiftBy .lsr v n).1.toNat = v.toNat / 2 ^ n ∧ (shiftBy .lsr v n).2 = v.getLsbD (n - 1) := by
  refine ⟨?_, rfl⟩
  rw [shiftBy, BitVec.toNat_ushiftRight, Nat.shiftRight_eq_div_pow]

theorem shiftBy_asr (v : Word) (n : Nat) :
    (shiftBy .asr v n).1.toInt = v.toInt / 2 ^ n ∧ (shiftBy .asr v n).2 = v.getLsbD (n - 1) := by
  refine ⟨?_, rfl⟩
  rw [shiftBy, BitVec.toInt_sshiftRight, Int.shiftRight_eq_div_pow, Int.natCast_pow, Int.cast_ofNat_Int]

/-- Bit k of a word rotated right by any number of places is the bit that many places above it, round the word. -/
theorem getLsbD_rotateRight_mod (v : Word) (n : Nat) {k : Nat} (hk : k < 32) :
    (v.rotateRight n).getLsbD k = v.getLsbD ((k + n) % 32) := by
  rw [BitVec.getLsbD_rotateRight]
  by_cases hlow : k < 32 - n % 32
  · rw [decide_eq_true hlow, cond_true]
    congr 1
    omega
  · rw [decide_eq_false hlow, cond_false, decide_eq_true hk, Bool.true_and]
    congr 1
    omega

theorem rotateRight_zero (v : Word) : v.rotateRight 0 = v := by
  apply BitVec.eq_of_getLsbD_eq
  intro k hk
  rw [getLsbD_rotateRight_mod v 0 hk, Nat.add_zero, Nat.mod_eq_of_lt hk]

theorem shiftBy_ror (v : Word) (n : Nat) :
    (∀ k, k < 32 → (shiftBy .ror v n).1.getLsbD k = v.getLsbD ((k + n) % 32)) ∧ (shiftBy .ror v n).2 = v.getLsbD (n - 1) :=
  ⟨fun _ hk => getLsbD_rotateRight_mod v n hk, rfl⟩

/-! ## A shift by an immediate (R702) -/

theorem shiftImmediate_of_ne_zero {a : BitVec 5} (ha : a.toNat ≠ 0) (t : ShiftType) (v : Word) (c : Bool) :
    shiftImmediate t v a c = shiftBy t v a.toNat := if_neg (mt (congrArg BitVec.toNat) ha)

/-- RRX: the carry comes in above the 31 bits that move down. -/
theorem ofBool_append_extractLsb' (c : Bool) (v : Word) :
    (BitVec.ofBool c ++ v.extractLsb' 1 31 : Word) = (if c then 0x80000000#32 else 0#32) ||| v >>> 1 := by
  have hcarry : (if c then 0x80000000#32 else 0#32).toNat = (BitVec.ofBool c).toNat <<< 31 := by cases c <;> rfl
  have hlow : v.toNat >>> 1 < 2 ^ 31 := by rw [Nat.shiftRight_eq_div_pow]; omega
  apply BitVec.eq_of_toNat_eq
  rw [BitVec.toNat_append, BitVec.extractLsb'_toNat, Nat.mod_eq_of_lt hlow, BitVec.toNat_or, hcarry, BitVec.toNat_ushiftRight]

/-! ## A shift by the low byte of a register (R703) -/

theorem shiftRegister_of_lt {a : Byte} (ha : a.toNat ≠ 0) (hlt : a.toNat < 32) (t : ShiftType) (v : Word) (c : Bool) :
    shiftRegister t v a c = shiftBy t v a.toNat := (if_neg ha).trans (if_pos hlt)

section
variable {a : Byte} (v : Word) (c : Bool)

theorem shiftRegister_lsl_of_le (ha : 32 ≤ a.toNat) :
    shiftRegister .lsl v a c = (0#32, decide (a.toNat = 32) && v.getLsbD 0) :=
  (if_neg (by omega)).trans (if_neg (Nat.not_lt.mpr ha))

theorem shiftRegister_lsr_of_le (ha : 32 ≤ a.toNat) :
    shiftRegister .lsr v a c = (0#32, decide (a.toNat = 32) && v.msb) :=
  (if_neg (by omega)).trans (if_neg (Nat.not_lt.mpr ha))

theorem shiftRegister_asr_of_le (ha : 32 ≤ a.toNat) : shiftRegister .asr v a c = (signFill v, v.msb) :=
  (if_neg (by omega)).trans (if_neg (Nat.not_lt.mpr ha))

/-- ROR by a register is the rotation by any amount but 0; a multiple of 32 leaves the word and gives its bit 31 as carry. -/
theorem shiftRegister_ror (ha : a.toNat ≠ 0) :
    shiftRegister .ror v a c = (v.rotateRight a.toNat, v.getLsbD (if a.toNat % 32 = 0 then 31 else a.toNat % 32 - 1)) := by
  by_cases hlt : a.toNat < 32
  · rw [shiftRegister_of_lt ha hlt, Nat.mod_eq_of_lt hlt, if_neg ha, shiftBy]
  · have hror : shiftRegister .ror v a c = if a.toNat % 32 = 0 then (v, v.msb) else shiftBy .ror v (a.toNat % 32) :=
      (if_neg ha).trans (if_neg hlt)
    rw [hror, ← BitVec.rotateRight_mod_eq_rotateRight]
    by_cases hmod : a.toNat % 32 = 0
    · rw [if_pos hmod, if_pos hmod, hmod, rotateRight_zero, BitVec.msb_eq_getLsbD_last]
    · rw [if_neg hmod, if_neg hmod, shiftBy]

end

/-! ## The shapes of data processing (R705, R706)

The result of an opcode is a function of R[n] and the second operand, with the shifter's carry where it is logical, and with the C
flag where it is arithmetic. A move is a logical function that ignores R[n]. -/

theorem logicalOf_begun (op : Word → Word → Word) (rn : Reg) (o : Operand2) (s : State) :
    logicalOf op rn o (begun s) = logicalOf op rn o s := by
  simp only [logicalOf, operand2_begun, readReg_begun, logical]

theorem arithmeticOf_begun (op : Word → Word → AluResult) (rn : Reg) (o : Operand2) (s : State) :
    arithmeticOf op rn o (begun s) = arithmeticOf op rn o s := by
  simp only [arithmeticOf, operand2_begun, readReg_begun]

section
variable {mk : Cond → Bool → Reg → Reg → Operand2 → Instr}

/-- An opcode that writes the result of a logical function. -/
theorem dataProcessing_of_logical (op : Word → Word → Word)
    (hexec : ∀ c sf rn rd o s, exec (mk c sf rn rd o) s = runArm c (fun u => dataProcess sf rd (logicalOf op rn o u) u) s) :
    dataProcessing mk (fun a x p => ⟨op a x.1, x.2, p.v⟩) := by
  intro c sf rn rd o s hc
  rw [hexec]
  exact runArm_dataProcess c sf rd (logicalOf op rn o) s (logicalOf_begun op rn o s) hc

/-- An opcode that writes a sum or a difference, which may take the C flag in. -/
theorem dataProcessing_of_arithmetic {f : Word → Word × Bool → Cpsr → Flagged} (op : Bool → Word → Word → AluResult)
    (hexec : ∀ c sf rn rd o s, exec (mk c sf rn rd o) s =
      runArm c (fun u => dataProcess sf rd (arithmeticOf (op u.cpsr.c) rn o u) u) s)
    (hflagged : ∀ a x p, flagged (op p.c a x.1) = f a x p) : dataProcessing mk f := by
  intro c sf rn rd o s hc
  rw [hexec, ← hflagged]
  exact runArm_dataProcess c sf rd (fun u => arithmeticOf (op u.cpsr.c) rn o u) s (arithmeticOf_begun _ rn o s) hc

end

section
variable {mk : Cond → Reg → Reg → Operand2 → Instr}

/-- An opcode that sets the flags of a logical function. -/
theorem comparing_of_logical (op : Word → Word → Word)
    (hexec : ∀ c rn rd o s, exec (mk c rn rd o) s = runArm c (fun u => compareFlags (logicalOf op rn o u) u) s) :
    comparing mk (fun a x p => ⟨op a x.1, x.2, p.v⟩) := by
  intro c rn rd o s hc
  rw [hexec]
  exact runArm_compare (logicalOf op rn o s) c _ s hc (congrArg (compareFlags · _) (logicalOf_begun op rn o s))

/-- An opcode that sets the flags of a sum or a difference. -/
theorem comparing_of_arithmetic {f : Word → Word × Bool → Cpsr → Flagged} (op : Word → Word → AluResult)
    (hexec : ∀ c rn rd o s, exec (mk c rn rd o) s = runArm c (fun u => compareFlags (arithmeticOf op rn o u) u) s)
    (hflagged : ∀ a x p, flagged (op a x.1) = f a x p) : comparing mk f := by
  intro c rn rd o s hc
  rw [hexec, ← hflagged]
  exact runArm_compare (arithmeticOf op rn o s) c _ s hc (congrArg (compareFlags · _) (arithmeticOf_begun op rn o s))

end

end Sys2Proof.Machine

namespace Sys2Proof.Proofs

open Sys2Proof.Machine Sys2Proof.Safety

/-- Settles O11: the amount 0 has a value of its own for each type; every other amount shifts by 1 to 31 places. -/
theorem shiftByImmediate : Obligations.ShiftByImmediate := by
  intro a t rm s v x n
  have hzero (h : n = 0) : x = shiftImmediate t v 0#5 s.cpsr.c :=
    congrArg (shiftImmediate t v · s.cpsr.c) (BitVec.eq_of_toNat_eq h)
  have hshift (h : n ≠ 0) : x = shiftBy t v n := shiftImmediate_of_ne_zero h t v s.cpsr.c
  refine ⟨rfl, ?_⟩
  cases t
  case lsl => exact ⟨hzero, fun h => hshift h ▸ shiftBy_lsl v n⟩
  case lsr => exact ⟨hzero, fun h => hshift h ▸ shiftBy_lsr v n⟩
  case asr => exact ⟨hzero, fun h => hshift h ▸ shiftBy_asr v n⟩
  case ror =>
    rw [← ofBool_append_extractLsb']
    exact ⟨hzero, fun h => hshift h ▸ shiftBy_ror v n⟩

/-- Settles O12: the amount 0 keeps value and carry, 1 to 31 shift by so many places, and each type has its own column from 32 on,
but for ROR, which has one for every amount. -/
theorem shiftByRegister : Obligations.ShiftByRegister := by
  intro rs rm t s v x n
  let a : Byte := (readReg rs s).setWidth 8
  have ha : a.toNat = n := BitVec.toNat_setWidth ..
  have hshift (h0 : n ≠ 0) (hlt : n < 32) : x = shiftBy t v n :=
    ha ▸ shiftRegister_of_lt (ha ▸ h0) (ha ▸ hlt) t v s.cpsr.c
  refine ⟨fun h => if_pos (ha.trans h), fun h0 => ?_⟩
  cases t
  case lsl =>
    have hlong (h : 32 ≤ n) : x = (0#32, decide (n = 32) && v.getLsbD 0) :=
      ha ▸ shiftRegister_lsl_of_le v _ (ha ▸ h)
    refine ⟨fun h => hshift h0 h ▸ shiftBy_lsl v n, fun h => ?at32, fun h => ?above⟩
    case at32 => rw [hlong (Nat.le_of_eq h.symm), decide_eq_true h, Bool.true_and]
    case above => rw [hlong (Nat.le_of_lt h), decide_eq_false (Nat.ne_of_gt h), Bool.false_and]
  case lsr =>
    have hlong (h : 32 ≤ n) : x = (0#32, decide (n = 32) && v.getLsbD 31) :=
      ha ▸ shiftRegister_lsr_of_le v _ (ha ▸ h)
    refine ⟨fun h => hshift h0 h ▸ shiftBy_lsr v n, fun h => ?at32, fun h => ?above⟩
    case at32 => rw [hlong (Nat.le_of_eq h.symm), decide_eq_true h, Bool.true_and]
    case above => rw [hlong (Nat.le_of_lt h), decide_eq_false (Nat.ne_of_gt h), Bool.false_and]
  case asr =>
    exact ⟨fun h => hshift h0 h ▸ shiftBy_asr v n, fun h => shiftRegister_asr_of_le v _ (ha ▸ h)⟩
  case ror =>
    have hror : x = (v.rotateRight n, v.getLsbD (if n % 32 = 0 then 31 else n % 32 - 1)) :=
      ha ▸ shiftRegister_ror v _ (ha ▸ h0)
    rw [hror]
    exact ⟨fun k hk => getLsbD_rotateRight_mod v n hk, rfl⟩

/-- Settles O13: the sum is taken in the naturals and in the integers, and the sum with NOT y is the exact difference. -/
theorem additionWithCarry : Obligations.AdditionWithCarry := by
  intro x y c
  refine ⟨⟨BitVec.toNat_ofNat .., decide_eq_true_iff, ?overflow⟩, ?difference⟩
  case overflow =>
    simp only [addWithCarry, decide_eq_true_eq]
    omega
  case difference =>
    have hdiff : flagged (addWithCarry x (~~~y) c) = differenceOf x y (borrowOf c) := flagged_subtractCarry x y c
    exact ⟨congrArg Flagged.res hdiff, congrArg Flagged.c hdiff, congrArg Flagged.v hdiff⟩

/-- Settles O14: each writes a logical function of R[n] and the second operand. -/
theorem logicalOperations : Obligations.LogicalOperations :=
  ⟨dataProcessing_of_logical (fun a x => a &&& x) fun _ _ _ _ _ _ => rfl,
   dataProcessing_of_logical (fun a x => a ^^^ x) fun _ _ _ _ _ _ => rfl,
   dataProcessing_of_logical (fun a x => a ||| x) fun _ _ _ _ _ _ => rfl,
   dataProcessing_of_logical (fun a x => a &&& ~~~x) fun _ _ _ _ _ _ => rfl,
   dataProcessing_of_logical (fun _ x => x) fun _ _ _ _ _ _ => rfl,
   dataProcessing_of_logical (fun _ x => ~~~x) fun _ _ _ _ _ _ => rfl⟩

/-- Settles O15: each writes an addition with carry, of the operands or with NOT of one, whose flags are those of the exact sum or
difference. -/
theorem arithmeticOperations : Obligations.ArithmeticOperations :=
  ⟨dataProcessing_of_arithmetic (fun _ a x => subtract a x) (fun _ _ _ _ _ _ => rfl) fun _ _ _ => flagged_subtract ..,
   dataProcessing_of_arithmetic (fun _ a x => subtract x a) (fun _ _ _ _ _ _ => rfl) fun _ _ _ => flagged_subtract ..,
   dataProcessing_of_arithmetic (fun _ a x => addWithCarry a x false) (fun _ _ _ _ _ _ => rfl) fun _ _ _ => flagged_add ..,
   dataProcessing_of_arithmetic (fun c a x => addWithCarry a x c) (fun _ _ _ _ _ _ => rfl) fun _ _ _ => flagged_add ..,
   dataProcessing_of_arithmetic (fun c a x => subtractCarry a x c) (fun _ _ _ _ _ _ => rfl)
    fun _ _ _ => flagged_subtractCarry ..,
   dataProcessing_of_arithmetic (fun c a x => subtractCarry x a c) (fun _ _ _ _ _ _ => rfl)
    fun _ _ _ => flagged_subtractCarry ..⟩

/-- Settles O16: each sets the flags of a logical function, a sum or a difference, and its Rd field is not read. -/
theorem compareOperations : Obligations.CompareOperations :=
  ⟨comparing_of_logical (fun a x => a &&& x) fun _ _ _ _ _ => rfl,
   comparing_of_logical (fun a x => a ^^^ x) fun _ _ _ _ _ => rfl,
   comparing_of_arithmetic (fun a x => subtract a x) (fun _ _ _ _ _ => rfl) fun _ _ _ => flagged_subtract ..,
   comparing_of_arithmetic (fun a x => addWithCarry a x false) (fun _ _ _ _ _ => rfl) fun _ _ _ => flagged_add ..⟩

end Sys2Proof.Proofs

/-! SUPPORT and proofs. THUMB register instructions and branches (47_thumb_alu.md R750 to R784; 49_thumb_branch.md R850 to R863;
40_cpu_step.md R406): each runs one of the shared shapes on an operand it reads before anything is written. -/

namespace Sys2Proof.Machine

open Sys2Proof.Safety

/-! ## The shapes of the register instructions (R750 to R784)

The operand of a shape is a function of the state the effect runs in; `hexec` reads it off the instruction's meaning. -/

section
variable {i : Instr} {s : State}

/-- An instruction that writes a result and its flags to a low register. -/
theorem thumbWrites_of_exec {rd : LowReg} {x : Flagged} (op : State → AluResult)
    (hexec : exec i s = runThumb (fun u => writeAndFlag (lowReg rd) (op u) u) s) (hflagged : flagged (op (begun s)) = x) :
    thumbWrites i rd x s :=
  hflagged ▸ thumbWrites_of _ hexec rfl

/-- An instruction that writes a logical result to a low register: C and V are as they were. -/
theorem thumbWrites_of_logical {rd : LowReg} {v : Word} (res : State → Word)
    (hexec : exec i s = runThumb (fun u => writeAndFlag (lowReg rd) (logical (res u) u.cpsr.c u) u) s)
    (hres : res (begun s) = v) : thumbWrites i rd ⟨v, s.cpsr.c, s.cpsr.v⟩ s :=
  hres ▸ thumbWrites_of_exec _ hexec rfl

/-- An instruction that sets the flags of a result and writes no register. -/
theorem thumbCompares_of_exec {x : Flagged} (op : State → AluResult)
    (hexec : exec i s = runThumb (fun u => compareFlags (op u) u) s) (hflagged : flagged (op (begun s)) = x) :
    thumbCompares i x s :=
  hflagged ▸ thumbCompares_of _ hexec rfl

/-- An instruction that writes a value to a register and sets no flag. -/
theorem thumbMoves_of_exec {rd : Reg} {v : Word} (value : State → Word)
    (hexec : exec i s = runThumb (fun u => .next (writeReg rd (value u) u)) s) (hvalue : value (begun s) = v) :
    thumbMoves i rd v s :=
  hvalue ▸ thumbMoves_of _ hexec (Drew.refl _) rfl

end

/-! ## Branches (R850, R852, R862, R863) -/

section
variable {i : Instr} {body : State → Result} {s : State}

/-- An instruction whose effect is one write of R15 refills from it. -/
theorem branch_of_exec {v : Word} (hexec : exec i s = runThumb body s)
    (hbody : body (begun s) = .next (writeReg 15#4 v (begun s))) :
    ∃ t, exec i s = .next t ∧ refilled v t ∧ onlyRegsNoFlags [] s t :=
  ⟨_, hexec.trans (runThumb_next hbody), refilled_finish_writeR15 v _,
    (begun_effect s).onlyRegsNoFlags_writeR15 rfl rfl v⟩

/-- An instruction with no effect only advances the pipeline. -/
theorem advance_of_exec (hexec : exec i s = runThumb body s) (hbody : body (begun s) = .next (begun s)) :
    ∃ t, exec i s = .next t ∧ advanced s t ∧ onlyRegsNoFlags [] s t :=
  ⟨_, hexec.trans (runThumb_next hbody), (begun_effect s).advanced rfl rfl, (begun_effect s).onlyRegs rfl, finish_cpsr _⟩

end

theorem exec_tBCond (c : Cond) (o : BitVec 8) (s : State) :
    exec (.tBCond c o) s = runThumb (fun u =>
      if conditionPasses c u.cpsr then .next (writeReg 15#4 (u.r15 + branchOffset o 1) u) else .next u) s := rfl

/-- A write of a register other than R15 leaves the pipeline to advance. -/
theorem wrote_iff_of_ne {rd : Reg} (h : rd ≠ 15#4) (v : Word) (s t : State) :
    wrote rd v s t ↔ readReg rd t = v ∧ advanced s t := by
  rw [wrote, if_neg h]

end Sys2Proof.Machine

namespace Sys2Proof.Proofs

open Sys2Proof.Machine Sys2Proof.Safety

/-- Settles O34: each writes what the shifter gives for the registers it reads, and V as it was. -/
theorem thumbShifts : Obligations.ThumbShifts := fun o rs rd _ =>
  ⟨thumbWrites_of_exec (thumbShiftImm .lsl o rs) rfl rfl, thumbWrites_of_exec (thumbShiftImm .lsr o rs) rfl rfl,
   thumbWrites_of_exec (thumbShiftImm .asr o rs) rfl rfl, thumbWrites_of_exec (thumbShiftReg .lsl rs rd) rfl rfl,
   thumbWrites_of_exec (thumbShiftReg .lsr rs rd) rfl rfl, thumbWrites_of_exec (thumbShiftReg .asr rs rd) rfl rfl,
   thumbWrites_of_exec (thumbShiftReg .ror rs rd) rfl rfl⟩

/-- Settles O35: each adds with carry, its operands or one of them and NOT of the other, and the flags are those of the exact sum or
difference. -/
theorem thumbArithmetic : Obligations.ThumbArithmetic := by
  intro k i rn rs rd d e s x y z
  refine ⟨?addReg, ?subReg, ?addImm3, ?subImm3, ?addImm8, ?subImm8, ?adc, ?sbc, ?neg, ?cmpImm8, ?cmpReg, ?cmn, ?cmpHi⟩
  case addReg =>
    exact thumbWrites_of_exec (fun u => addWithCarry (readLow rs u) (readLow rn u) false) rfl (flagged_add x y false)
  case subReg => exact thumbWrites_of_exec (fun u => subtract (readLow rs u) (readLow rn u)) rfl (flagged_subtract x y)
  case addImm3 =>
    exact thumbWrites_of_exec (fun u => addWithCarry (readLow rs u) (k.setWidth 32) false) rfl (flagged_add x _ false)
  case subImm3 => exact thumbWrites_of_exec (fun u => subtract (readLow rs u) (k.setWidth 32)) rfl (flagged_subtract x _)
  case addImm8 =>
    exact thumbWrites_of_exec (fun u => addWithCarry (readLow rd u) (i.setWidth 32) false) rfl (flagged_add z _ false)
  case subImm8 => exact thumbWrites_of_exec (fun u => subtract (readLow rd u) (i.setWidth 32)) rfl (flagged_subtract z _)
  case adc =>
    exact thumbWrites_of_exec (fun u => addWithCarry (readLow rd u) (readLow rs u) u.cpsr.c) rfl (flagged_add z x _)
  case sbc =>
    exact thumbWrites_of_exec (fun u => subtractCarry (readLow rd u) (readLow rs u) u.cpsr.c) rfl (flagged_subtractCarry z x _)
  case neg => exact thumbWrites_of_exec (fun u => subtract 0#32 (readLow rs u)) rfl (flagged_subtract 0#32 x)
  case cmpImm8 => exact thumbCompares_of_exec (fun u => subtract (readLow rd u) (i.setWidth 32)) rfl (flagged_subtract z _)
  case cmpReg => exact thumbCompares_of_exec (fun u => subtract (readLow rd u) (readLow rs u)) rfl (flagged_subtract z x)
  case cmn =>
    exact thumbCompares_of_exec (fun u => addWithCarry (readLow rd u) (readLow rs u) false) rfl (flagged_add z x false)
  case cmpHi => exact thumbCompares_of_exec (fun u => subtract (readReg e u) (readReg d u)) rfl (flagged_subtract ..)

/-- Settles O36: each is a logical result of the registers it reads, with C and V as they were; the product of words is the exact
one as a word. -/
theorem thumbLogical : Obligations.ThumbLogical := fun i rs rd _ =>
  ⟨thumbWrites_of_logical (fun _ => i.setWidth 32) rfl rfl,
   thumbWrites_of_logical (fun u => readLow rd u &&& readLow rs u) rfl rfl,
   thumbWrites_of_logical (fun u => readLow rd u ^^^ readLow rs u) rfl rfl,
   thumbWrites_of_logical (fun u => readLow rd u ||| readLow rs u) rfl rfl,
   thumbWrites_of_logical (fun u => readLow rd u &&& ~~~readLow rs u) rfl rfl,
   thumbWrites_of_logical (fun u => ~~~readLow rs u) rfl rfl,
   thumbWrites_of_logical (fun u => readLow rs u * readLow rd u) rfl (mul_eq_ofNat ..),
   thumbCompares_of_exec (fun u => logical (readLow rd u &&& readLow rs u) u.cpsr.c u) rfl rfl⟩

/-- Settles O37: each is one write of a register, of a sum with a register or with an offset in words. -/
theorem thumbMoves : Obligations.ThumbMoves := fun d e _ i k s =>
  ⟨thumbMoves_of_exec (fun u => readReg e u + readReg d u) rfl rfl,
   thumbMoves_of_exec (readReg d) rfl rfl,
   thumbMoves_of_exec (fun u => alignWord u.r15 + scaledOffset i 2) rfl (congrArg (alignWord s.r15 + ·) (scaledOffset_eq i 2)),
   thumbMoves_of_exec (fun u => readReg 13#4 u + scaledOffset i 2) rfl (congrArg (readReg 13#4 s + ·) (scaledOffset_eq i 2)),
   thumbMoves_of_exec (fun u => readReg 13#4 u + scaledOffset k 2) rfl (congrArg (readReg 13#4 s + ·) (scaledOffset_eq k 2)),
   thumbMoves_of_exec (fun u => readReg 13#4 u - scaledOffset k 2) rfl (congrArg (readReg 13#4 s - ·) (scaledOffset_eq k 2))⟩

/-- Settles O41: each branch is one write of R15 before the end of the instruction, BX after the exchange of state, the second
half of BL after the link; the first half is a write of R14 alone. -/
theorem thumbBranches : Obligations.ThumbBranches := by
  intro c i o d e s lr
  refine ⟨?bx, ?taken, ?notTaken, ?b, ?blFirst, ?blSecond⟩
  case bx =>
    obtain ⟨u, hu, hspec⟩ := branchExchange_spec (readReg d s) s
    exact ⟨finish u, runThumb_next hu, hspec⟩
  case taken =>
    intro hc
    have htarget : s.r15 + branchOffset i 1 = s.r15 + BitVec.ofInt 32 (2 * i.toInt) :=
      congrArg (s.r15 + ·) (branchOffset_eq i 1 (by decide))
    rw [← htarget]
    exact branch_of_exec (exec_tBCond c i s) (if_pos hc)
  case notTaken =>
    intro hc
    exact advance_of_exec (exec_tBCond c i s) (if_neg (ne_true_of_eq_false hc))
  case b =>
    have htarget : s.r15 + branchOffset o 1 = s.r15 + BitVec.ofInt 32 (2 * o.toInt) :=
      congrArg (s.r15 + ·) (branchOffset_eq o 1 (by decide))
    rw [← htarget]
    exact branch_of_exec (body := fun u => .next (writeReg 15#4 (u.r15 + branchOffset o 1) u)) rfl rfl
  case blFirst =>
    have hmoves : Safety.thumbMoves (.tBlFirst o) 14#4 (s.r15 + BitVec.ofInt 32 (4096 * o.toInt)) s :=
      thumbMoves_of_exec (fun u => u.r15 + branchOffset o 12) rfl
        (congrArg (s.r15 + ·) (branchOffset_eq o 12 (by decide)))
    obtain ⟨t, hnext, hwrote, hkept⟩ := hmoves
    obtain ⟨hlink, hadvanced⟩ := (wrote_iff_of_ne (by decide) _ _ _).mp hwrote
    exact ⟨t, hnext, hlink, hadvanced, hkept⟩
  case blSecond =>
    have htarget : alignHalf (lr + scaledOffset o 1) = (lr + BitVec.ofNat 32 (2 * o.toNat)) &&& 0xFFFFFFFE#32 :=
      congrArg (fun k => alignHalf (lr + k)) (scaledOffset_eq o 1)
    have hlink : Effect (placeOf s 14#4) s (writeReg 14#4 ((s.r15 - 2#32) ||| 1#32) (begun s)) :=
      (begun_effect s).trans (writeReg_effect 14#4 _ (begun s))
    rw [← htarget]
    have hnext : execTBlSecond o s = _ := runThumb_next rfl
    refine ⟨_, hnext, refilled_finish_writeR15 _ _, ?_, hlink.onlyRegsNoFlags_writeR15 rfl rfl _⟩
    rw [readReg_finish_writeR15 (by decide), readReg_writeReg _ _ _ (by decide)]

end Sys2Proof.Proofs

/-! SUPPORT and proofs. The mode of CPSR (60_exceptions.md R914): which effects keep it, what an exception, an MSR and a restore make of
it, and that the other agents of a cycle leave the processor alone (65_system.md R1251, R1252). -/

namespace Sys2Proof.Machine

open Sys2Proof.Safety

/-! ## Effects that keep the mode -/

/-- An effect that keeps the mode where it answers a next state. -/
def KeepsMode (body : State → Result) : Prop := ∀ s u : State, body s = .next u → u.cpsr.mode = s.cpsr.mode

/-- The end of an instruction keeps the mode, and so does a failed condition. -/
theorem runThumb_keepsMode {body : State → Result} (k : KeepsMode body) : KeepsMode (runThumb body) := by
  intro s t e
  obtain ⟨u, hu, rfl⟩ := runThumb_inv e
  rw [finish_cpsr]
  exact k (begun s) u hu

theorem runArm_keepsMode {c : Cond} {body : State → Result} (k : KeepsMode body) : KeepsMode (runArm c body) := by
  intro s t e
  rcases runArm_inv e with ⟨_, u, hu, rfl⟩ | ⟨_, rfl⟩
  · rw [finish_cpsr]
    exact k (begun s) u hu
  · rw [finish_cpsr]

theorem keepsMode_next {f : State → State} (k : ∀ s, (f s).cpsr.mode = s.cpsr.mode) : KeepsMode (fun s => .next (f s)) := by
  intro s u e
  cases e
  exact k s

theorem keepsMode_fault (x : Fault) : KeepsMode (fun _ => .fault x) := fun _ _ e => by cases e

theorem keepsMode_ite {p : State → Prop} [DecidablePred p] {a b : State → Result} (ha : KeepsMode a) (hb : KeepsMode b) :
    KeepsMode (fun s => if p s then a s else b s) := by
  intro s u e
  by_cases h : p s
  · exact ha s u ((if_pos h).symm.trans e)
  · exact hb s u ((if_neg h).symm.trans e)

theorem refuseIf_keepsMode {p : Prop} [Decidable p] (x : Fault) {body : State → Result} (k : KeepsMode body) :
    KeepsMode (fun s => if p then .fault x else body s) :=
  keepsMode_ite (keepsMode_fault x) k

theorem Drew.cpsr {s t : State} (h : Drew s t) : t.cpsr = s.cpsr := by
  obtain ⟨n, rfl⟩ := h
  rfl

theorem writeRegs_cpsr {write : Reg → Word → State → State} (hw : ∀ r v s, (write r v s).cpsr = s.cpsr) (rs : List Reg) :
    ∀ (vs : List Word) (s : State), (writeRegs write rs vs s).cpsr = s.cpsr := by
  induction rs with
  | nil => intro vs s; cases vs <;> rfl
  | cons r rs ih =>
    intro vs s
    cases vs with
    | nil => rfl
    | cons v vs => exact (ih vs _).trans (hw r v s)

theorem writeReg_keepsMode (rd : Reg) (v : State → Word) : KeepsMode (fun s => .next (writeReg rd (v s) s)) :=
  keepsMode_next fun _ => congrArg Cpsr.mode (writeReg_cpsr _ _ _)

theorem writeReg_writeReg_keepsMode (r q : Reg) (v w : State → Word) :
    KeepsMode (fun s => .next (writeReg r (v s) (writeReg q (w s) s))) :=
  keepsMode_next fun _ => congrArg Cpsr.mode ((writeReg_cpsr _ _ _).trans (writeReg_cpsr _ _ _))

theorem writeAndFlag_keepsMode (rd : Reg) (r : State → AluResult) : KeepsMode (fun s => writeAndFlag rd (r s) s) :=
  keepsMode_next fun s => by
    show (writeReg rd (r s).res s).cpsr.mode = s.cpsr.mode
    rw [writeReg_cpsr]

theorem compareFlags_keepsMode (r : State → AluResult) : KeepsMode (fun s => compareFlags (r s) s) :=
  keepsMode_next fun _ => rfl

theorem branchExchange_keepsMode (a : State → Word) : KeepsMode (fun s => branchExchange (a s) s) :=
  keepsMode_next fun _ => rfl

theorem branchIf_keepsMode (p : State → Prop) [DecidablePred p] (v : State → Word) :
    KeepsMode (fun s => if p s then .next (writeReg 15#4 (v s) s) else .next s) :=
  keepsMode_ite (writeReg_keepsMode _ v) (keepsMode_next fun _ => rfl)

theorem transferLoad_keepsMode {load : Word → State → Word × State} {value : Word → State → Word} (h : BusRead load value)
    (p u w : Bool) (rn rd : Reg) (off : State → Word) : KeepsMode (fun s => transferLoad load p u w rn rd (off s) s) := by
  intro s t e
  unfold transferLoad at e
  split at e
  · cases e
  · cases e
    rw [writeReg_cpsr]
    split
    · rw [writeReg_cpsr, (h.drew _ s).cpsr]
    · rw [(h.drew _ s).cpsr]

theorem transferStore_keepsMode {write : Word → Word → State → State} {keys : State → Word → List Nat} (h : BusWrite write keys)
    (p u w : Bool) (rn rd : Reg) (off : State → Word) : KeepsMode (fun s => transferStore write p u w rn rd (off s) s) := by
  intro s t e
  unfold transferStore at e
  split at e
  · cases e
  · cases e
    split
    · rw [writeReg_cpsr, (h.effect _ _ s).cpsr]
    · rw [(h.effect _ _ s).cpsr]

theorem thumbLoad_keepsMode {load : Word → State → Word × State} {value : Word → State → Word} (h : BusRead load value)
    (rd : Reg) (a : State → Word) : KeepsMode (fun s => thumbLoad load rd (a s) s) :=
  keepsMode_next fun s => congrArg Cpsr.mode ((writeReg_cpsr _ _ _).trans (h.drew _ s).cpsr)

theorem thumbStore_keepsMode {write : Word → Word → State → State} {keys : State → Word → List Nat} (h : BusWrite write keys)
    (rd : Reg) (a : State → Word) : KeepsMode (fun s => thumbStore write rd (a s) s) :=
  keepsMode_next fun s => congrArg Cpsr.mode (h.effect _ _ s).cpsr

theorem swapWith_keepsMode {load : Word → State → Word × State} {value : Word → State → Word}
    {write : Word → Word → State → State} {keys : State → Word → List Nat} (hr : BusRead load value) (hw : BusWrite write keys)
    (rn rd rm : Reg) : KeepsMode (swapWith load write rn rd rm) := by
  intro s t e
  unfold swapWith at e
  split at e
  · cases e
  · cases e
    rw [writeReg_cpsr, (hw.effect _ _ _).cpsr, (hr.drew _ s).cpsr]

theorem storeMultiple_keepsMode (get : Reg → State → Word) (p u w : Bool) (rn : Reg) (list : BitVec 16) :
    KeepsMode (storeMultiple get p u w rn list) := by
  intro s t e
  unfold storeMultiple at e
  split at e
  · cases e
  · cases e
    split
    · rw [writeReg_cpsr, (storeWords_effect _ _ s).cpsr]
    · rw [(storeWords_effect _ _ s).cpsr]

theorem loadMultiple_keepsMode {write : Reg → Word → State → State} (hw : ∀ r v s, (write r v s).cpsr = s.cpsr) (p u w : Bool)
    (rn : Reg) (list : BitVec 16) : KeepsMode (loadMultiple write p u w rn list) := by
  intro s t e
  unfold loadMultiple at e
  split at e
  · cases e
  · cases e
    rw [writeRegs_cpsr hw]
    split
    · rw [writeReg_cpsr, (loadWords_drew _ _ s).cpsr]
    · rw [(loadWords_drew _ _ s).cpsr]

theorem writeProduct_keepsMode (sf : Bool) (rd : Reg) (p : State → Word) : KeepsMode (fun s => writeProduct sf rd (p s) s) := by
  refine keepsMode_next fun s => ?_
  exact (flagProduct_mode sf _ _ _).trans (congrArg Cpsr.mode (writeReg_cpsr rd (p s) s))

theorem multiplyLong_keepsMode (f : Word → Word → BitVec 64 → BitVec 64) (sf : Bool) (hi lo rs rm : Reg) :
    KeepsMode (multiplyLong f sf hi lo rs rm) := by
  refine refuseIf_keepsMode _ (refuseIf_keepsMode _ (keepsMode_next fun s => ?_))
  exact (flagProduct_mode sf _ _ _).trans (congrArg Cpsr.mode ((writeReg_cpsr _ _ _).trans (writeReg_cpsr _ _ _)))

theorem setSpsrOf_keepsMode (m : Mode) (p : Spsr) (s : State) : (setSpsrOf m p s).cpsr.mode = s.cpsr.mode :=
  congrArg Cpsr.mode (setSpsrOf_cpsr m p s)

theorem writeSpsr_keepsMode (v : State → Word) (f : BitVec 4) : KeepsMode (fun s => writeSpsr (v s) f s) := by
  intro s u e
  simp only [writeSpsr] at e
  split at e
  · cases e
  · cases e
    exact setSpsrOf_keepsMode _ _ s

theorem execMrsSpsr_keepsMode (c : Cond) (rd : Reg) : KeepsMode (execMrsSpsr c rd) := by
  refine runArm_keepsMode (refuseIf_keepsMode _ fun s u e => ?_)
  split at e
  · cases e
  · cases e
    exact congrArg Cpsr.mode (writeReg_cpsr _ _ _)

/-! ## Effects that change it -/

/-- The mode of `t` is the mode field of the SPSR of the mode of `s`. -/
def modeRestored (s : State) (m : Mode) : Prop := ∃ p, spsrOf s.cpsr.mode s = some p ∧ modeOfBits p.m = some m

theorem ne_usr_of_modeRestored {s : State} {m : Mode} (h : modeRestored s m) : s.cpsr.mode ≠ .usr := by
  obtain ⟨p, hp, -⟩ := h
  intro hm
  rw [hm] at hp
  cases hp

theorem loadCpsr_mode {p : Spsr} {s u : State} (e : loadCpsr p s = .next u) : modeOfBits p.m = some u.cpsr.mode := by
  unfold loadCpsr at e
  split at e
  · next m hm =>
    cases e
    exact hm
  · cases e

theorem restoreCpsr_mode {s u : State} (e : restoreCpsr s = .next u) : modeRestored s u.cpsr.mode := by
  unfold restoreCpsr at e
  split at e
  · cases e
  · next p hp => exact ⟨p, hp, loadCpsr_mode e⟩

/-- An effect that keeps the mode unless it restores CPSR, which `r` says that it does. -/
def MayRestore (r : Bool) (body : State → Result) : Prop :=
  ∀ s u : State, body (begun s) = .next u → u.cpsr.mode ≠ s.cpsr.mode → r = true ∧ modeRestored s u.cpsr.mode

/-- An ARM instruction with such an effect changes the mode by a restore alone. -/
theorem runArm_mayRestore {c : Cond} {r : Bool} {body : State → Result} (k : MayRestore r body) {s t : State}
    (e : runArm c body s = .next t) (h : t.cpsr.mode ≠ s.cpsr.mode) : r = true ∧ modeRestored s t.cpsr.mode := by
  rcases runArm_inv e with ⟨_, u, hu, rfl⟩ | ⟨_, rfl⟩
  · rw [finish_cpsr] at h ⊢
    exact k s u hu h
  · exact absurd (congrArg Cpsr.mode (finish_cpsr _)) h

/-- Data processing restores CPSR with S and Rd = 15 (46_arm_dataproc.md R705). -/
theorem dataProcess_mayRestore (sf : Bool) (rd : Reg) (r : State → AluResult) :
    MayRestore (sf && rd == 15#4) (fun s => dataProcess sf rd (r s) s) := by
  intro s u e h
  simp only [dataProcess] at e
  split at e
  · next hs =>
    obtain ⟨p, hp, hm⟩ := restoreCpsr_mode e
    have hspsr : (writeReg rd (r (begun s)).res (begun s)).spsr = s.spsr := writeRegIn_spsr _ _ _ _
    rw [writeReg_cpsr, spsrOf_congr _ hspsr] at hp
    exact ⟨by simp [hs], p, hp, hm⟩
  · split at e
    · exact absurd (writeAndFlag_keepsMode rd r _ u e) h
    · exact absurd (writeReg_keepsMode rd (fun s => (r s).res) _ u e) h

/-- LDM^ restores CPSR with R15 in its list (42_arm_block_transfer.md R506). -/
theorem loadMultipleUser_mayRestore (p u w : Bool) (rn : Reg) (list : BitVec 16) :
    MayRestore ((blockRegs list).contains 15#4) (loadMultipleUser p u w rn list) := by
  intro s t e h
  by_cases h15 : 15#4 ∈ blockRegs list
  · by_cases hwb : w = true ∧ rn = 15#4
    · obtain ⟨rfl, rfl⟩ := hwb
      rw [loadMultipleUser_writebackR15] at e
      cases e
    · obtain ⟨z, hz, hspsr, -⟩ := loadMultipleUser_restores (p := p) (u := u) (s := s) h15 hwb
      obtain ⟨q, hq, hm⟩ := restoreCpsr_mode (hz.symm.trans e)
      exact ⟨List.contains_iff_mem.mpr h15, q, hspsr.symm.trans hq, hm⟩
  · rw [loadMultipleUser_of_not_mem h15] at e
    exact absurd (loadMultiple_keepsMode (fun _ _ _ => writeRegIn_cpsr _ _ _ _) p u w rn list _ _ e) h

/-- MSR to CPSR changes the mode by its control field, in a privileged mode (45_arm_psr_swi.md R651). -/
theorem writeCpsr_mode {v : Word} {f : BitVec 4} {s u : State} (e : writeCpsr v f s = .next u)
    (h : u.cpsr.mode ≠ s.cpsr.mode) : s.cpsr.mode ≠ .usr ∧ f.getLsbD 0 = true := by
  have hcontrol : msrControl f s = true := by
    by_contra hc
    obtain ⟨ht, hm⟩ := msrCpsrFields_of_not_control (v := v) (Bool.eq_false_iff.mpr hc)
    rw [writeCpsr_of_t_eq ht] at e
    have hmode := loadCpsr_mode e
    rw [hm, modeOfBits_modeBits] at hmode
    exact h (Option.some.inj hmode).symm
  simp only [msrControl, Bool.and_eq_true, decide_eq_true_eq] at hcontrol
  exact hcontrol.symm

/-- An effect that may refuse and answered a next state did not refuse. -/
theorem next_of_refuseIf {p : Prop} [Decidable p] {x : Fault} {r : Result} {u : State}
    (h : (if p then .fault x else r) = .next u) : r = .next u := by
  split at h
  · cases h
  · exact h

/-- MSR to CPSR by an instruction, which may refuse its operand. -/
theorem runArm_writeCpsr_mode {c : Cond} {f : BitVec 4} {body : State → Result} {s t : State} (e : runArm c body s = .next t)
    (hbody : ∀ x u, body x = .next u → ∃ v, writeCpsr v f x = .next u) (h : t.cpsr.mode ≠ s.cpsr.mode) :
    s.cpsr.mode ≠ .usr ∧ f.getLsbD 0 = true := by
  rcases runArm_inv e with ⟨_, u, hu, rfl⟩ | ⟨_, rfl⟩
  · obtain ⟨v, hv⟩ := hbody _ u hu
    rw [finish_cpsr] at h
    exact writeCpsr_mode (s := begun s) hv h
  · exact absurd (congrArg Cpsr.mode (finish_cpsr _)) h

theorem finish_enterException_mode (k : ExceptionKind) (s : State) : (finish (enterException k s)).cpsr.mode = entryMode k :=
  congrArg Cpsr.mode (finish_cpsr _)

theorem runThumb_raiseException_mode {k : ExceptionKind} {s t : State} (e : runThumb (raiseException k) s = .next t) :
    t.cpsr.mode = entryMode k := by
  cases e
  exact finish_enterException_mode k _

/-- An instruction that raises an exception enters the exception's mode, where its condition passes. -/
theorem runArm_raiseException_mode {c : Cond} {k : ExceptionKind} {s t : State} (e : runArm c (raiseException k) s = .next t)
    (h : t.cpsr.mode ≠ s.cpsr.mode) : t.cpsr.mode = entryMode k := by
  rcases runArm_inv e with ⟨_, u, hu, rfl⟩ | ⟨_, rfl⟩
  · cases hu
    exact finish_enterException_mode k _
  · exact absurd (congrArg Cpsr.mode (finish_cpsr _)) h

/-! ## Every instruction (R914) -/

/-- How an instruction may bring about the mode `m`: an exception, or in a privileged mode an MSR to CPSR with the control field or a
restore of CPSR. -/
def modeChange (i : Instr) (s : State) (m : Mode) : Prop :=
  (∃ vec, raises i = some (m, vec)) ∨
    (s.cpsr.mode ≠ .usr ∧
      ((∃ c f rm, i = .msrCpsrReg c f rm ∧ f.getLsbD 0 = true) ∨
        (∃ c f rot imm8, i = .msrCpsrImm c f rot imm8 ∧ f.getLsbD 0 = true) ∨
        (restores i = true ∧ modeRestored s m)))

theorem modeChange_of_restored {i : Instr} {s : State} {m : Mode} (h : restores i = true ∧ modeRestored s m) :
    modeChange i s m :=
  .inr ⟨ne_usr_of_modeRestored h.2, .inr (.inr h)⟩

/-- An instruction that changes the mode does so in one of these ways; every other keeps it, by the shape of its effect. -/
theorem exec_modeChange (i : Instr) {s t : State} (e : exec i s = .next t) (h : t.cpsr.mode ≠ s.cpsr.mode) :
    modeChange i s t.cpsr.mode := by
  have arm {c : Cond} {body : State → Result} (k : KeepsMode body) (e : runArm c body s = .next t) :
      modeChange i s t.cpsr.mode := absurd (runArm_keepsMode k s t e) h
  have thumb {body : State → Result} (k : KeepsMode body) (e : runThumb body s = .next t) :
      modeChange i s t.cpsr.mode := absurd (runThumb_keepsMode k s t e) h
  -- opened before the split, so that each case unifies with its own meaning and not through the dispatch
  unfold exec at e
  cases i with
  -- the three ways of R914
  | swi => exact .inl ⟨_, by rw [runArm_raiseException_mode e h]; rfl⟩
  | undefined | ldcStc | cdpMcrMrc => exact .inl ⟨_, by rw [runArm_raiseException_mode e h]; rfl⟩
  | tSwi => exact .inl ⟨_, by rw [runThumb_raiseException_mode e]; rfl⟩
  | tUndefDE | tUndefE8 | tUndefB1 | tUndefB2 | tUndefB6 | tUndefB8 | tUndefBE =>
    exact .inl ⟨_, by rw [runThumb_raiseException_mode e]; rfl⟩
  | msrCpsrReg c f rm =>
    obtain ⟨hmode, hf⟩ := runArm_writeCpsr_mode e (fun _ _ hu => ⟨_, next_of_refuseIf hu⟩) h
    exact .inr ⟨hmode, .inl ⟨c, f, rm, rfl, hf⟩⟩
  | msrCpsrImm c f rot imm8 =>
    obtain ⟨hmode, hf⟩ := runArm_writeCpsr_mode e (fun _ _ hu => ⟨_, hu⟩) h
    exact .inr ⟨hmode, .inr (.inl ⟨c, f, rot, imm8, rfl, hf⟩)⟩
  | and | eor | sub | rsb | add | adc | sbc | rsc | orr | mov | bic | mvn =>
    exact modeChange_of_restored (runArm_mayRestore (dataProcess_mayRestore _ _ _) e h)
  | ldmdaUser | ldmiaUser | ldmdbUser | ldmibUser =>
    exact modeChange_of_restored (runArm_mayRestore (loadMultipleUser_mayRestore _ _ _ _ _) e h)
  -- the instructions that keep the mode
  | bx => exact arm (branchExchange_keepsMode _) e
  | b => exact arm (writeReg_keepsMode _ _) e
  | bl => exact arm (writeReg_writeReg_keepsMode _ _ _ _) e
  | stmda | stmia | stmdb | stmib | stmdaUser | stmiaUser | stmdbUser | stmibUser =>
    exact arm (storeMultiple_keepsMode _ _ _ _ _ _) e
  | ldmda | ldmia | ldmdb | ldmib => exact arm (loadMultiple_keepsMode writeReg_cpsr _ _ _ _ _) e
  | unallocMulSpace | unallocPsrSpace => exact arm (keepsMode_fault _) e
  | ldrt | ldr => exact arm (transferLoad_keepsMode loadWord_read _ _ _ _ _ _) e
  | ldrbt | ldrb => exact arm (transferLoad_keepsMode loadByte_read _ _ _ _ _ _) e
  | ldrh => exact arm (transferLoad_keepsMode loadHalf_read _ _ _ _ _ _) e
  | ldrsb => exact arm (transferLoad_keepsMode loadSignedByte_read _ _ _ _ _ _) e
  | ldrsh => exact arm (transferLoad_keepsMode loadSignedHalf_read _ _ _ _ _ _) e
  | strt | str => exact arm (transferStore_keepsMode busWord_write _ _ _ _ _ _) e
  | strbt | strb => exact arm (transferStore_keepsMode busByte_write _ _ _ _ _ _) e
  | strh => exact arm (transferStore_keepsMode busHalf_write _ _ _ _ _ _) e
  | swp => exact arm (swapWith_keepsMode loadWord_read busWord_write _ _ _) e
  | swpb => exact arm (swapWith_keepsMode loadByte_read busByte_write _ _ _) e
  | mul | mla => exact arm (refuseIf_keepsMode _ (writeProduct_keepsMode _ _ _)) e
  | umull | umlal | smull | smlal => exact arm (multiplyLong_keepsMode _ _ _ _ _ _) e
  | mrsCpsr => exact arm (refuseIf_keepsMode _ (writeReg_keepsMode _ _)) e
  | mrsSpsr c rd => exact absurd (execMrsSpsr_keepsMode c rd s t e) h
  | msrSpsrReg => exact arm (refuseIf_keepsMode _ (writeSpsr_keepsMode _ _)) e
  | msrSpsrImm => exact arm (writeSpsr_keepsMode _ _) e
  | tst | teq | cmp | cmn => exact arm (compareFlags_keepsMode _) e
  | tLslImm | tLsrImm | tAsrImm | tAddReg | tSubReg | tAddImm3 | tSubImm3 | tMovImm8 | tAddImm8 | tSubImm8 | tAnd | tEor |
    tLslReg | tLsrReg | tAsrReg | tAdc | tSbc | tRorReg | tNeg | tOrr | tMul | tBic | tMvn =>
    exact thumb (writeAndFlag_keepsMode _ _) e
  | tCmpImm8 | tTst | tCmpReg | tCmn | tCmpHi => exact thumb (compareFlags_keepsMode _) e
  | tAddHi | tMovHi | tAddPc | tAddSp | tAddSpImm | tSubSpImm | tB | tBlFirst => exact thumb (writeReg_keepsMode _ _) e
  | tBx => exact thumb (branchExchange_keepsMode _) e
  | tLdrPc | tLdrReg | tLdrImm | tLdrSp => exact thumb (thumbLoad_keepsMode loadWord_read _ _) e
  | tLdrbReg | tLdrbImm => exact thumb (thumbLoad_keepsMode loadByte_read _ _) e
  | tLdrhReg | tLdrhImm => exact thumb (thumbLoad_keepsMode loadHalf_read _ _) e
  | tLdsbReg => exact thumb (thumbLoad_keepsMode loadSignedByte_read _ _) e
  | tLdshReg => exact thumb (thumbLoad_keepsMode loadSignedHalf_read _ _) e
  | tStrReg | tStrImm | tStrSp => exact thumb (thumbStore_keepsMode busWord_write _ _) e
  | tStrbReg | tStrbImm => exact thumb (thumbStore_keepsMode busByte_write _ _) e
  | tStrhReg | tStrhImm => exact thumb (thumbStore_keepsMode busHalf_write _ _) e
  | tPush | tStmia => exact thumb (storeMultiple_keepsMode _ _ _ _ _ _) e
  | tPop | tLdmia => exact thumb (loadMultiple_keepsMode writeReg_cpsr _ _ _ _ _) e
  | tBCond => exact thumb (branchIf_keepsMode _ _) e
  | tBlSecond => exact thumb (writeReg_writeReg_keepsMode _ _ _ _) e

/-! ## The other agents of a cycle (65_system.md R1251, R1252) -/

/-- The processor is as it was: registers, status registers and pipeline. -/
structure CpuKept (s t : State) : Prop where
  regs : t.regs = s.regs
  r15 : t.r15 = s.r15
  cpsr : t.cpsr = s.cpsr
  spsr : t.spsr = s.spsr
  pipeDecode : t.pipeDecode = s.pipeDecode
  pipeFetch : t.pipeFetch = s.pipeFetch

theorem CpuKept.trans {s t u : State} (h : CpuKept s t) (k : CpuKept t u) : CpuKept s u :=
  ⟨k.regs.trans h.regs, k.r15.trans h.r15, k.cpsr.trans h.cpsr, k.spsr.trans h.spsr, k.pipeDecode.trans h.pipeDecode,
   k.pipeFetch.trans h.pipeFetch⟩

theorem BusEffect.cpuKept {s t : State} (h : BusEffect s t) : CpuKept s t :=
  ⟨h.regs, h.r15, h.cpsr, h.spsr, h.pipeDecode, h.pipeFetch⟩

/-- A DMA step reads and writes the bus, and draws. -/
theorem dmaStep_cpuKept (i : Fin 4) (s : State) : CpuKept s (dmaStep i s) := by
  obtain ⟨n, h, -⟩ := dmaStep_spec i s
  exact ⟨h.regs, h.r15, h.cpsr, h.spsr, h.pipeDecode, h.pipeFetch⟩

theorem dmaPromote_cpuKept (s : State) : CpuKept s (dmaPromote s) := by
  rw [dmaPromote_frame]
  exact ⟨rfl, rfl, rfl, rfl, rfl, rfl⟩

theorem updateStatus_cpuKept (s : State) : CpuKept s (updateStatus s) := by
  have hflag (u : State) (prev new enable : Bool) (k : Nat) (d : Option DmaStart) :=
    (statusRise_effect prev new enable k d u).cpuKept
  exact (((hflag s _ _ _ _ _).trans (hflag _ _ _ _ _ _)).trans (hflag _ _ _ _ _ _)).trans ⟨rfl, rfl, rfl, rfl, rfl, rfl⟩

theorem lineWrap_cpuKept (s : State) : CpuKept s (lineWrap s) := by
  unfold lineWrap
  dsimp only
  split
  · split <;> exact ⟨rfl, rfl, rfl, rfl, rfl, rfl⟩
  · exact ⟨rfl, rfl, rfl, rfl, rfl, rfl⟩

theorem renderLine_cpuKept (y : Nat) (s : State) : CpuKept s (renderLine y s) := by
  obtain ⟨n, f, h⟩ := renderLine_spec y s
  rw [h]
  exact ⟨rfl, rfl, rfl, rfl, rfl, rfl⟩

/-- The picture processor with its line-cycle counter one on. -/
def lineCounted (s : State) : State := setPpu { s.ppu with lc := s.ppu.lc + 1 } s

/-- The visible line rendered where the counter has reached cycle 960 (63_ppu.md R1101). -/
def lineRendered (s : State) : State := if s.ppu.lc = 960 ∧ s.ppu.vcount < 160 then renderLine s.ppu.vcount s else s

theorem ppuStep_eq (s : State) : ppuStep s = updateStatus (lineWrap (lineRendered (lineCounted s))) := rfl

theorem lineRendered_cpuKept (s : State) : CpuKept s (lineRendered s) := by
  unfold lineRendered
  split
  · exact renderLine_cpuKept _ s
  · exact ⟨rfl, rfl, rfl, rfl, rfl, rfl⟩

theorem ppuStep_cpuKept (s : State) : CpuKept s (ppuStep s) := by
  have hcounted : CpuKept s (lineCounted s) := ⟨rfl, rfl, rfl, rfl, rfl, rfl⟩
  rw [ppuStep_eq]
  exact ((hcounted.trans (lineRendered_cpuKept _)).trans (lineWrap_cpuKept _)).trans (updateStatus_cpuKept _)

theorem peripheralStep_cpuKept (s : State) : CpuKept s (peripheralStep s) :=
  ((dmaPromote_cpuKept s).trans (ppuStep_cpuKept _)).trans (timersStep_effect _).cpuKept

/-- With a channel Active the cycle is its DMA step, followed by the phases of the other agents. -/
theorem step_eq_dmaStep {s : State} {i : Fin 4} (h : activeChannel s = some i) :
    step s = .next (peripheralStep (dmaStep i s)) := by
  simp only [step, masterCycle, busMasterStep, h, andThen]

/-- A cycle of the processor that changes the mode is an interrupt entry or the instruction in the decode slot. -/
theorem cpuStep_modeChange {s u : State} (e : cpuStep s = .next u) (h : u.cpsr.mode ≠ s.cpsr.mode) :
    (irqPending s = true ∧ u.cpsr.mode = .irq) ∨
      (irqPending s = false ∧ modeChange (currentInstr s) s u.cpsr.mode) := by
  cases hirq : irqPending s with
  | true =>
    rw [cpuStep_of_irqPending hirq] at e
    cases e
    exact .inl ⟨rfl, finish_enterException_mode .irq s⟩
  | false =>
    rw [cpuStep_of_not_irqPending hirq] at e
    exact .inr ⟨rfl, exec_modeChange _ e h⟩

/-- A step that changes the mode is a cycle of the processor that does. -/
theorem step_modeChange {s t : State} (e : step s = .next t) (h : t.cpsr.mode ≠ s.cpsr.mode) :
    activeChannel s = none ∧
      ((irqPending s = true ∧ t.cpsr.mode = .irq) ∨
        (irqPending s = false ∧ modeChange (currentInstr s) s t.cpsr.mode)) := by
  cases hdma : activeChannel s with
  | some i =>
    rw [step_eq_dmaStep hdma] at e
    cases e
    exact absurd (congrArg Cpsr.mode ((dmaStep_cpuKept i s).trans (peripheralStep_cpuKept _)).cpsr) h
  | none =>
    rw [step_eq_cpuStep hdma] at e
    cases hcpu : cpuStep s with
    | next u =>
      rw [hcpu] at e
      cases e
      rw [(peripheralStep_cpuKept u).cpsr] at h ⊢
      exact ⟨rfl, cpuStep_modeChange hcpu h⟩
    | fault x =>
      rw [hcpu] at e
      cases e
    | refused x =>
      rw [hcpu] at e
      cases e

end Sys2Proof.Machine

namespace Sys2Proof.Proofs

open Sys2Proof.Machine

/-- Settles O33: by the shape of each instruction's effect, and a step runs one instruction or enters IRQ, while the other agents keep
the processor. -/
theorem modeChangesOnlySo : Obligations.ModeChangesOnlySo :=
  ⟨fun i _ _ e h => exec_modeChange i e h, fun _ _ e h => step_modeChange e h, rfl, fun _ _ => rfl⟩

/-- Settles O6: the Active channel takes the cycle, and neither its unit nor the agents after it reach the processor. -/
theorem dmaTakesTheCycle : Obligations.DmaTakesTheCycle := by
  intro s i hi
  obtain ⟨hregs, hr15, hcpsr, hspsr, hdecode, hfetch⟩ := (dmaStep_cpuKept i s).trans (peripheralStep_cpuKept _)
  exact ⟨_, step_eq_dmaStep hi, rfl, hregs, hr15, hcpsr, hspsr, hdecode, hfetch⟩

end Sys2Proof.Proofs

/-! SUPPORT and proofs. THUMB memory instructions (48_thumb_memory.md R800 to R820): a single transfer is one bus access at an address
the effect computes before it writes anything, and a multiple transfer is the ARM block transfer of its list. -/

namespace Sys2Proof.Machine

open Sys2Proof.Safety

section
variable {i : Instr} {rd : LowReg} {a : Word} {s : State}

/-- An instruction that runs a THUMB load loads from the address its effect computes. -/
theorem thumbLoads_of_exec {load : Word → State → Word × State} {value : Word → State → Word} (hread : BusRead load value)
    (address : State → Word) (hexec : exec i s = runThumb (fun u => thumbLoad load (lowReg rd) (address u) u) s)
    (haddress : address (begun s) = a) : thumbLoads i rd (value a s) s := by
  subst haddress
  rw [← hread.value]
  exact thumbMoves_of _ hexec (hread.drew _ _) rfl

/-- An instruction that runs a THUMB store stores at the address its effect computes. -/
theorem thumbStores_of_exec {write : Word → Word → State → State} {keys : State → Word → List Nat} (hwrite : BusWrite write keys)
    (address : State → Word) (hexec : exec i s = runThumb (fun u => thumbStore write (lowReg rd) (address u) u) s)
    (haddress : address (begun s) = a) : thumbStores i rd a write keys s := by
  subst haddress
  exact thumbStores_of hwrite rfl _ hexec rfl

end

/-- An offset in bytes. -/
theorem scaledOffset_zero {n : Nat} (o : BitVec n) : scaledOffset o 0 = BitVec.ofNat 32 o.toNat := by
  rw [scaledOffset_eq, Nat.pow_zero, Nat.one_mul]

/-! ## Multiple transfers (R817 to R820) -/

theorem pushList_eq (r : Bool) (list : BitVec 8) :
    pushList r list = if r then list.setWidth 16 ||| 0x4000#16 else list.setWidth 16 := by
  cases r <;> (revert list; decide)

theorem popList_eq (r : Bool) (list : BitVec 8) :
    popList r list = if r then list.setWidth 16 ||| 0x8000#16 else list.setWidth 16 := by
  cases r <;> (revert list; decide)

section
variable {i : Instr} {p u w : Bool} {rn : Reg} {list : BitVec 16} {s : State}

/-- A THUMB instruction runs as an ARM one whose condition always passes. -/
theorem runThumb_eq_runArm_al (body : State → Result) (s : State) : runThumb body s = runArm .al body s := rfl

theorem storingMultiple_of_thumb (hexec : exec i s = runThumb (storeMultiple readReg p u w rn list) s) :
    storingMultiple i readReg p u w rn list s :=
  storingMultiple_of_exec rfl (hexec.trans (runThumb_eq_runArm_al _ s)) readReg_begun

theorem loadingMultiple_of_thumb (hexec : exec i s = runThumb (loadMultiple writeReg p u w rn list) s) :
    loadingMultiple i s.cpsr.mode p u w rn list s :=
  loadingMultiple_of_exec rfl (hexec.trans (runThumb_eq_runArm_al _ s)) fun _ ht => writeRegs_current_of_cpsr ht

end

end Sys2Proof.Machine

namespace Sys2Proof.Proofs

open Sys2Proof.Machine

/-- Settles O38: each is one bus read at the sum of a base and a register or a scaled offset. -/
theorem thumbLoads : Obligations.ThumbLoads := by
  intro i o ro rb rd s b a sp
  let index (u : State) : Word := readLow rb u + readLow ro u
  refine ⟨?pc, thumbLoads_of_exec loadWord_read index rfl rfl, thumbLoads_of_exec loadByte_read index rfl rfl,
    thumbLoads_of_exec loadSignedByte_read index rfl rfl, thumbLoads_of_exec loadHalf_read index rfl rfl,
    thumbLoads_of_exec loadSignedHalf_read index rfl rfl, ?word, ?byte, ?half, ?sp⟩
  case pc =>
    exact thumbLoads_of_exec loadWord_read (fun u => alignWord u.r15 + scaledOffset i 2) rfl
      (congrArg (alignWord s.r15 + ·) (scaledOffset_eq i 2))
  case word =>
    exact thumbLoads_of_exec loadWord_read (fun u => readLow rb u + scaledOffset o 2) rfl (congrArg (b + ·) (scaledOffset_eq o 2))
  case byte =>
    exact thumbLoads_of_exec loadByte_read (fun u => readLow rb u + scaledOffset o 0) rfl (congrArg (b + ·) (scaledOffset_zero o))
  case half =>
    exact thumbLoads_of_exec loadHalf_read (fun u => readLow rb u + scaledOffset o 1) rfl (congrArg (b + ·) (scaledOffset_eq o 1))
  case sp =>
    exact thumbLoads_of_exec loadWord_read (fun u => readReg 13#4 u + scaledOffset i 2) rfl
      (congrArg (sp + ·) (scaledOffset_eq i 2))

/-- Settles O39: each is one bus write at the sum of a base and a register or a scaled offset. -/
theorem thumbStores : Obligations.ThumbStores := by
  intro i o ro rb rd s b a sp
  let index (u : State) : Word := readLow rb u + readLow ro u
  refine ⟨thumbStores_of_exec busWord_write index rfl rfl, thumbStores_of_exec busByte_write index rfl rfl,
    thumbStores_of_exec busHalf_write index rfl rfl, ?word, ?byte, ?half, ?sp⟩
  case word =>
    exact thumbStores_of_exec busWord_write (fun u => readLow rb u + scaledOffset o 2) rfl (congrArg (b + ·) (scaledOffset_eq o 2))
  case byte =>
    exact thumbStores_of_exec busByte_write (fun u => readLow rb u + scaledOffset o 0) rfl (congrArg (b + ·) (scaledOffset_zero o))
  case half =>
    exact thumbStores_of_exec busHalf_write (fun u => readLow rb u + scaledOffset o 1) rfl (congrArg (b + ·) (scaledOffset_eq o 1))
  case sp =>
    exact thumbStores_of_exec busWord_write (fun u => readReg 13#4 u + scaledOffset i 2) rfl
      (congrArg (sp + ·) (scaledOffset_eq i 2))

/-- Settles O40: each runs the block transfer its rule names, on the list its halfword encodes. -/
theorem thumbMultiples : Obligations.ThumbMultiples := by
  intro r list rb s low
  refine ⟨?push, ?pop, storingMultiple_of_thumb rfl, loadingMultiple_of_thumb rfl⟩
  case push =>
    rw [← pushList_eq]
    exact storingMultiple_of_thumb rfl
  case pop =>
    rw [← popList_eq]
    exact loadingMultiple_of_thumb rfl

end Sys2Proof.Proofs

/-! SUPPORT and proofs. The I/O window (61_io_registers.md R950 to R975): which register an offset lies in, the bytes of a transaction
in the shadow buffer, and what its commit makes of each register. -/

namespace Sys2Proof.Machine

open Sys2Proof.Safety

/-! ## The registers of the window (R955, R956, R960) -/

theorem ioWidth_cases (r : IoReg) : ioWidth r = 2 ∨ ioWidth r = 4 := by
  unfold ioWidth
  split <;> simp

/-- A register holds an offset. -/
abbrev ioHolds (r : IoReg) (o : Nat) : Prop := ioOffset r ≤ o ∧ o < ioOffset r + ioWidth r

/-- An offset lies in one register at most: two registers of the rising list share no byte. -/
theorem ioHolds_unique {r r' : IoReg} {o : Nat} (h : ioHolds r o) (h' : ioHolds r' o) : r = r' := by
  obtain ⟨pre, post, e⟩ := List.append_of_mem (mem_allIoRegs r)
  have p := ioRegs_disjoint
  rw [e, List.pairwise_append, List.pairwise_cons] at p
  obtain ⟨-, ⟨hpost, -⟩, hpre⟩ := p
  have hmem := mem_allIoRegs r'
  rw [e, List.mem_append, List.mem_cons] at hmem
  rcases hmem with hm | rfl | hm
  · have := hpre r' hm r List.mem_cons_self
    omega
  · rfl
  · have := hpost r' hm
    omega

theorem ioAt_eq_some_iff {r : IoReg} {o : Nat} : ioAt o = some r ↔ ioHolds r o := by
  constructor
  · intro h
    have hfind : allIoRegs.find? (fun r => decide (ioHolds r o)) = some r := h
    have hdec := List.find?_some hfind
    exact of_decide_eq_true hdec
  · intro h
    cases hat : ioAt o with
    | none => exact absurd (decide_eq_true h) (List.find?_eq_none.mp hat r (mem_allIoRegs r))
    | some r' =>
      have hfind : allIoRegs.find? (fun r => decide (ioHolds r o)) = some r' := hat
      have hdec := List.find?_some hfind
      rw [ioHolds_unique h (of_decide_eq_true hdec)]

/-- The known offsets are those some register holds. -/
theorem knownOffset_iff (o : Nat) : knownOffset o = true ↔ ∃ r : IoReg, ioHolds r o := by
  have hlow : ∀ o < 0x20A, knownOffset o = allIoRegs.any (fun r => decide (ioOffset r ≤ o ∧ o < ioOffset r + ioWidth r)) := by
    decide +kernel
  by_cases h : o < 0x20A
  · rw [hlow o h, List.any_eq_true]
    exact ⟨fun ⟨r, _, hr⟩ => ⟨r, of_decide_eq_true hr⟩, fun ⟨r, hr⟩ => ⟨r, mem_allIoRegs r, decide_eq_true hr⟩⟩
  · have hend : ∀ r ∈ allIoRegs, ioOffset r + ioWidth r ≤ 0x20A := by decide
    constructor
    · intro hk
      simp only [knownOffset, Bool.or_eq_true, decide_eq_true_eq] at hk
      omega
    · rintro ⟨r, hr⟩
      have := hend r (mem_allIoRegs r)
      omega

theorem ioAt_of_unknown {o : Nat} (h : knownOffset o = false) : ioAt o = none := by
  cases hat : ioAt o with
  | none => rfl
  | some r =>
    have := (knownOffset_iff o).mpr ⟨r, ioAt_eq_some_iff.mp hat⟩
    rw [h] at this
    cases this

/-! ## Addresses of the window -/

theorem ioAddress_toNat {o : Nat} (h : o < 0x400) : (ioAddress o).toNat = 0x04000000 + o := by
  rw [ioAddress, BitVec.toNat_add, BitVec.toNat_ofNat, BitVec.toNat_ofNat]
  omega

theorem route_ioAddress {o : Nat} (h : o < 0x400) : route (ioAddress o) = some (.io, o) := by
  have hnat := ioAddress_toNat h
  have hroute := route_io (a := ioAddress o) (by omega) (by omega)
  rwa [show (ioAddress o).toNat % 0x1000000 = o by omega] at hroute

theorem read8_ioAddress {o : Nat} (h : o < 0x400) (s : State) : read8 (ioAddress o) s = ioReadByte o s := by
  simp only [read8, route_ioAddress h]

theorem ioHolds_lt {r : IoReg} {o : Nat} (h : ioHolds r o) : o < 0x400 := by
  have hend : ∀ r ∈ allIoRegs, ioOffset r + ioWidth r ≤ 0x400 := by decide
  have := hend r (mem_allIoRegs r)
  omega

theorem byteOf_eq_extract (w : Word) (k : Nat) : byteOf w k = w.extractLsb' (8 * k) 8 := by
  apply BitVec.eq_of_toNat_eq
  rw [byteOf, BitVec.toNat_setWidth, BitVec.toNat_ushiftRight, BitVec.extractLsb'_toNat]

theorem extract_wide {k : Nat} (h : Half) : (wide h).extractLsb' (8 * k) 8 = h.extractLsb' (8 * k) 8 := by
  apply BitVec.eq_of_toNat_eq
  rw [BitVec.extractLsb'_toNat, BitVec.extractLsb'_toNat, wide, BitVec.toNat_setWidth_of_le (by decide)]

/-- A byte of a register that is no FIFO port reads its live value, without effect. -/
theorem read8_of_ioRead {r : IoReg} {k : Nat} {s : State} {v : Word} (hk : k < ioWidth r) (hread : ioRead r s = some v) :
    read8 (ioAddress (ioOffset r + k)) s = (v.extractLsb' (8 * k) 8, s) := by
  have hholds : ioHolds r (ioOffset r + k) := ⟨Nat.le_add_right _ _, Nat.add_lt_add_left hk _⟩
  rw [read8_ioAddress (ioHolds_lt hholds)]
  simp only [ioReadByte, ioAt_eq_some_iff.mpr hholds, hread, Nat.add_sub_cancel_left, byteOf_eq_extract]

/-- A byte of a FIFO port is a draw. -/
theorem read8_fifo {d : FifoId} {k : Nat} (hk : k < 4) (s : State) :
    read8 (ioAddress (ioOffset (.fifo d) + k)) s = draw s := by
  have hholds : ioHolds (.fifo d) (ioOffset (.fifo d) + k) := ⟨Nat.le_add_right _ _, Nat.add_lt_add_left hk _⟩
  rw [read8_ioAddress (ioHolds_lt hholds)]
  simp only [ioReadByte, ioAt_eq_some_iff.mpr hholds, ioRead]

/-! ## The bytes of a transaction in the shadow buffer (R951, R206) -/

theorem mem_addDirty {k o : Nat} : ∀ {ks : List Nat}, k ∈ addDirty o ks ↔ k = o ∨ k ∈ ks
  | [] => by simp [addDirty]
  | j :: ks => by
    unfold addDirty
    split
    · exact List.mem_cons
    · split
      · next h =>
        rw [List.mem_cons, h]
        tauto
      · rw [List.mem_cons, List.mem_cons, mem_addDirty]
        tauto

/-- The low `n` bytes of a word in the shadow buffer from an offset on, marked dirty, in ascending order. -/
def ioWriteBytes (o : Nat) (v : Word) : Nat → State → State
  | 0, s => s
  | n + 1, s => ioWrite8 (o + n) (byteAt v n) (ioWriteBytes o v n s)

/-- The state with another shadow buffer and other dirty offsets. -/
def withIo (shadow : Memory) (dirty : List Nat) (s : State) : State := { s with shadow := shadow, dirty := dirty }

theorem ioWriteBytes_eq (o : Nat) (v : Word) (n : Nat) (s : State) :
    ioWriteBytes o v n s = withIo (ioWriteBytes o v n s).shadow (ioWriteBytes o v n s).dirty s := by
  induction n with
  | zero => rfl
  | succ n ih =>
    unfold ioWriteBytes
    rw [ih]
    rfl

theorem mem_ioWriteBytes_dirty {o : Nat} {v : Word} {s : State} (hd : s.dirty = []) (n k : Nat) :
    k ∈ (ioWriteBytes o v n s).dirty ↔ o ≤ k ∧ k < o + n := by
  induction n with
  | zero =>
    show k ∈ s.dirty ↔ _
    rw [hd]
    simp
  | succ n ih =>
    show k ∈ addDirty (o + n) (ioWriteBytes o v n s).dirty ↔ _
    rw [mem_addDirty, ih]
    omega

theorem isDirty_ioWriteBytes {o : Nat} {v : Word} {s : State} (hd : s.dirty = []) (n k : Nat) :
    isDirty (ioWriteBytes o v n s) k = decide (o ≤ k ∧ k < o + n) := by
  rw [isDirty, List.contains_eq_mem]
  exact decide_eq_decide.mpr (mem_ioWriteBytes_dirty hd n k)

theorem ioWriteBytes_wf {o : Nat} {v : Word} {s : State} (hw : Memory.wf s.shadow = true) (n : Nat) :
    Memory.wf (ioWriteBytes o v n s).shadow = true := by
  induction n with
  | zero => exact hw
  | succ n ih => exact Memory.write_wf _ _ _ ih

theorem read_ioWriteBytes {o : Nat} {v : Word} {s : State} (hw : Memory.wf s.shadow = true) {n k : Nat} (ho : o ≤ k)
    (hk : k < o + n) : Memory.read (ioWriteBytes o v n s).shadow k = byteAt v (k - o) := by
  induction n with
  | zero => omega
  | succ n ih =>
    show Memory.read (Memory.write (ioWriteBytes o v n s).shadow (o + n) (byteAt v n)) k = _
    by_cases hlast : k = o + n
    · rw [hlast, Memory.read_write_same _ _ _ (ioWriteBytes_wf hw n), Nat.add_sub_cancel_left]
    · rw [Memory.read_write_ne _ _ hlast, ih (by omega)]

theorem byteAt_setWidth (b : Byte) : byteAt (b.setWidth 32) 0 = b := by
  apply BitVec.eq_of_toNat_eq
  simpa [byteAt] using b.isLt

/-- A byte, a halfword at an even offset and a word at a multiple of four are transactions of 1, 2 and 4 bytes. -/
theorem write8_ioAddress {o : Nat} (ho : o < 0x400) (b : Byte) (s : State) :
    write8 (ioAddress o) b s = ioCommit (ioWriteBytes o (b.setWidth 32) 1 s) := by
  rw [write8_io (route_ioAddress ho)]
  simp only [ioWriteBytes, byteAt_setWidth, Nat.add_zero]

theorem write16_ioAddress {o : Nat} (ho : o < 0x400) (heven : o % 2 = 0) (v : Word) (s : State) :
    write16 (ioAddress o) (v.extractLsb' 0 16) s = ioCommit (ioWriteBytes o v 2 s) := by
  have hnat := ioAddress_toNat ho
  exact write16_io (route_ioAddress ho) (by omega) v

theorem write32_ioAddress {o : Nat} (ho : o < 0x400) (hfour : o % 4 = 0) (v : Word) (s : State) :
    write32 (ioAddress o) v s = ioCommit (ioWriteBytes o v 4 s) := by
  have hnat := ioAddress_toNat ho
  exact write32_io (route_ioAddress ho) (by omega) v

/-! ## A commit visits the registers the transaction touches -/

/-- The registers that share a byte with the `n` bytes from an offset on. -/
def touchedRegs (o n : Nat) : List IoReg :=
  allIoRegs.filter fun r => decide (ioOffset r < o + n ∧ o < ioOffset r + ioWidth r)

theorem ioCommit_fold_filter (p : IoReg → Bool) (rs : List IoReg) : ∀ s : State,
    (∀ r, p r = false → ∀ o ∈ s.dirty, ¬ioHolds r o) → rs.foldl ioCommitOne s = (rs.filter p).foldl ioCommitOne s := by
  induction rs with
  | nil => exact fun _ _ => rfl
  | cons r rs ih =>
    intro s h
    cases hp : p r with
    | true =>
      rw [List.filter_cons_of_pos hp, List.foldl_cons, List.foldl_cons]
      exact ih _ (by rw [(ioCommitOne_io s r).2]; exact h)
    | false =>
      have hskip : ioCommitOne s r = s := by simp only [ioCommitOne, ioMask_clean r s (h r hp), if_true]
      rw [List.filter_cons_of_neg (by rw [hp]; decide), List.foldl_cons, hskip]
      exact ih s h

/-- A transaction commits by the turns of the registers it touches. -/
theorem ioCommit_ioWriteBytes {o n : Nat} {v : Word} {s : State} (hd : s.dirty = []) (hn : 0 < n) :
    ioCommit (ioWriteBytes o v n s) = { (touchedRegs o n).foldl ioCommitOne (ioWriteBytes o v n s) with dirty := [] } := by
  have hne : (ioWriteBytes o v n s).dirty ≠ [] := by
    intro h
    have hmem := (mem_ioWriteBytes_dirty (o := o) (v := v) hd n o).mpr (by omega)
    rw [h] at hmem
    cases hmem
  rw [ioCommit, if_neg hne, touchedRegs, ioCommit_fold_filter]
  intro r hr k hk hholds
  rw [mem_ioWriteBytes_dirty hd] at hk
  have := of_decide_eq_false hr
  omega

/-! ## The bits of a register that a transaction writes -/

/-- Byte `j` of a word, from a byte put there. -/
theorem placedByte_bit (b : Byte) {j q t : Nat} (hj : j < 4) (hq : q < 4) (ht : t < 8) :
    (b.setWidth 32 <<< (8 * j) : Word).getLsbD (8 * q + t) = (decide (j = q) && b.getLsbD t) := by
  rw [BitVec.getLsbD_shiftLeft, BitVec.getLsbD_setWidth]
  by_cases hjq : j = q
  · subst hjq
    have h1 : 8 * j + t < 32 := by omega
    have h2 : 8 * j + t - 8 * j = t := by omega
    simp [h1, h2, show t < 32 by omega]
  · by_cases hlt : j < q
    · have : b.getLsbD (8 * q + t - 8 * j) = false := BitVec.getLsbD_of_ge _ _ (by omega)
      simp [hjq, this]
    · simp [hjq, show 8 * q + t < 8 * j by omega]

/-- Two or four bytes put together, the first the least significant. -/
def assemble (w : Nat) (f : Nat → Byte) : Word :=
  if w = 4 then (f 0).setWidth 32 <<< (8 * 0) ||| (f 1).setWidth 32 <<< (8 * 1) ||| (f 2).setWidth 32 <<< (8 * 2) |||
    (f 3).setWidth 32 <<< (8 * 3)
  else (f 0).setWidth 32 <<< (8 * 0) ||| (f 1).setWidth 32 <<< (8 * 1)

theorem assemble_bit {w : Nat} (hw : w = 2 ∨ w = 4) (f : Nat → Byte) {q t : Nat} (hq : q < 4) (ht : t < 8) :
    (assemble w f).getLsbD (8 * q + t) = (decide (q < w) && (f q).getLsbD t) := by
  have hcases : q = 0 ∨ q = 1 ∨ q = 2 ∨ q = 3 := by omega
  unfold assemble
  rcases hw with rfl | rfl
  · rw [if_neg (by decide)]
    simp only [BitVec.getLsbD_or, placedByte_bit _ _ hq ht, show 0 < 4 by decide, show 1 < 4 by decide]
    rcases hcases with rfl | rfl | rfl | rfl <;> simp
  · rw [if_pos rfl]
    simp only [BitVec.getLsbD_or, placedByte_bit _ _ hq ht, show 0 < 4 by decide, show 1 < 4 by decide, show 2 < 4 by decide,
      show 3 < 4 by decide]
    rcases hcases with rfl | rfl | rfl | rfl <;> simp

theorem ioShadow_eq_assemble (r : IoReg) (s : State) :
    ioShadow r s = assemble (ioWidth r) fun k => Memory.read s.shadow (ioOffset r + k) := rfl

theorem ioMask_eq_assemble (r : IoReg) (s : State) :
    ioMask r s = assemble (ioWidth r) fun k => if isDirty s (ioOffset r + k) then 0xFF#8 else 0#8 := by
  have hplace : ∀ k, ((if isDirty s (ioOffset r + k) then 0xFF#8 else 0#8).setWidth 32 <<< (8 * k) : Word) =
      if isDirty s (ioOffset r + k) then 0xFF#32 <<< (8 * k) else 0#32 := by
    intro k
    split
    · rfl
    · simp
  simp only [ioMask, assemble, hplace]

theorem ones8_bit {t : Nat} (ht : t < 8) : (0xFF#8).getLsbD t = true := by
  have : ∀ t < 8, (0xFF#8).getLsbD t = true := by decide
  exact this t ht

theorem ioMask_bit (r : IoReg) (s : State) {q t : Nat} (hq : q < 4) (ht : t < 8) :
    (ioMask r s).getLsbD (8 * q + t) = (decide (q < ioWidth r) && isDirty s (ioOffset r + q)) := by
  rw [ioMask_eq_assemble, assemble_bit (ioWidth_cases r) _ hq ht]
  cases isDirty s (ioOffset r + q) <;> simp [ones8_bit ht]

theorem ioShadow_bit (r : IoReg) (s : State) {q t : Nat} (hq : q < 4) (ht : t < 8) :
    (ioShadow r s).getLsbD (8 * q + t) = (decide (q < ioWidth r) && (Memory.read s.shadow (ioOffset r + q)).getLsbD t) := by
  rw [ioShadow_eq_assemble, assemble_bit (ioWidth_cases r) _ hq ht]

/-- Words are equal that agree in the bits of each byte. -/
theorem word_ext {x y : Word} (h : ∀ q t, q < 4 → t < 8 → x.getLsbD (8 * q + t) = y.getLsbD (8 * q + t)) : x = y := by
  apply BitVec.eq_of_getLsbD_eq
  intro k hk
  have := h (k / 8) (k % 8) (by omega) (by omega)
  rwa [show 8 * (k / 8) + k % 8 = k by omega] at this

theorem byteAt_bit (v : Word) (j : Nat) {t : Nat} (ht : t < 8) : (byteAt v j).getLsbD t = v.getLsbD (8 * j + t) := by
  rw [byteAt, BitVec.getLsbD_extractLsb', decide_eq_true ht, Bool.true_and]

theorem bitsFor_bit (r : IoReg) (o : Nat) (v : Word) {q t : Nat} (hq : q < 4) (ht : t < 8) :
    (bitsFor r o v).getLsbD (8 * q + t) =
      (decide (q < ioWidth r) && (decide (o ≤ ioOffset r + q) && v.getLsbD (8 * (ioOffset r + q - o) + t))) := by
  have hmask : (if ioWidth r = 4 then 0xFFFFFFFF#32 else 0xFFFF#32).getLsbD (8 * q + t) = decide (q < ioWidth r) := by
    have hfour : ∀ k < 32, (0xFFFFFFFF#32).getLsbD k = true := by decide
    have htwo : ∀ k < 32, (0xFFFF#32).getLsbD k = decide (k < 16) := by decide
    rcases ioWidth_cases r with h | h
    · rw [h, if_neg (by decide), htwo _ (by omega)]
      exact decide_eq_decide.mpr (by omega)
    · rw [h, if_pos rfl, hfour _ (by omega)]
      exact (decide_eq_true hq).symm
  rw [bitsFor, BitVec.getLsbD_and, hmask, Bool.and_comm]
  congr 1
  split
  · next h =>
    rw [BitVec.getLsbD_ushiftRight, decide_eq_true (show o ≤ ioOffset r + q by omega), Bool.true_and]
    congr 1
    omega
  · next h =>
    rw [BitVec.getLsbD_shiftLeft, decide_eq_true (show 8 * q + t < 32 by omega), Bool.true_and]
    by_cases hle : o ≤ ioOffset r + q
    · rw [decide_eq_true hle, decide_eq_false (show ¬8 * q + t < 8 * (o - ioOffset r) by omega)]
      congr 2
      omega
    · rw [decide_eq_false hle, decide_eq_true (show 8 * q + t < 8 * (o - ioOffset r) by omega)]
      rfl

/-- The low `n` bytes of a word. -/
def coversBytes (m : Word) (n : Nat) : Prop := ∀ k, k < 32 → m.getLsbD k = decide (k < 8 * n)

theorem coversBytes_bit {m : Word} {n : Nat} (hm : coversBytes m n) (hn : n ≤ 4) (j : Nat) {t : Nat} (ht : t < 8) :
    m.getLsbD (8 * j + t) = decide (j < n) := by
  by_cases hj : j < 4
  · rw [hm _ (by omega)]
    exact decide_eq_decide.mpr (by omega)
  · rw [BitVec.getLsbD_of_ge _ _ (by omega)]
    exact (decide_eq_false (by omega)).symm

section Transaction

variable {o n : Nat} {v m : Word} {s : State} (hd : s.dirty = []) (hw : Memory.wf s.shadow = true) (hm : coversBytes m n)
  (hn : n ≤ 4)

include hd hm hn in
/-- The dirty bits of a register are the written bits that fall into it. -/
theorem ioMask_ioWriteBytes (r : IoReg) : ioMask r (ioWriteBytes o v n s) = bitsFor r o m := by
  apply word_ext
  intro q t hq ht
  rw [ioMask_bit r _ hq ht, bitsFor_bit r o m hq ht, isDirty_ioWriteBytes hd, coversBytes_bit hm hn _ ht]
  congr 1
  rw [← Bool.decide_and]
  exact decide_eq_decide.mpr (by omega)

omit hd in
include hw hm hn in
/-- The shadow value of a register, in its dirty bits, is the stored value that falls into it. -/
theorem ioShadow_ioWriteBytes (r : IoReg) :
    ioShadow r (ioWriteBytes o v n s) &&& bitsFor r o m = bitsFor r o v &&& bitsFor r o m := by
  apply word_ext
  intro q t hq ht
  rw [BitVec.getLsbD_and, BitVec.getLsbD_and, ioShadow_bit r _ hq ht, bitsFor_bit r o m hq ht, bitsFor_bit r o v hq ht,
    coversBytes_bit hm hn _ ht]
  by_cases hin : o ≤ ioOffset r + q ∧ ioOffset r + q - o < n
  · rw [read_ioWriteBytes hw hin.1 (by omega), byteAt_bit v _ ht, decide_eq_true hin.1, Bool.true_and, Bool.true_and]
  · have hout : (decide (o ≤ ioOffset r + q) && decide (ioOffset r + q - o < n)) = false := by
      rw [← Bool.decide_and]
      exact decide_eq_false hin
    rw [hout, Bool.and_false, Bool.and_false, Bool.and_false]

end Transaction

/-- A written value depends on the written bits alone. -/
theorem writtenValue_congr (r : IoReg) (old m : Word) {v w : Word} (h : v &&& m = w &&& m) :
    writtenValue r old v m = writtenValue r old w m := by
  unfold writtenValue
  simp only [← BitVec.and_assoc, h]

theorem ioStored_withIo (r : IoReg) (shadow : Memory) (dirty : List Nat) (s : State) :
    ioStored r (withIo shadow dirty s) = ioStored r s := by
  cases r <;> rfl

theorem withIo_effect {shadow : Memory} (dirty : List Nat) {s : State}
    (hw : Memory.wf s.shadow = true → Memory.wf shadow = true) : BusEffect s (withIo shadow dirty s) :=
  ⟨rfl, rfl, rfl, rfl, rfl, rfl, rfl, rfl, rfl, rfl, rfl, rfl, rfl, rfl, id, hw, id, id, fun _ h => h⟩

theorem ioWriteBytes_effect (o : Nat) (v : Word) (n : Nat) (s : State) : BusEffect s (ioWriteBytes o v n s) := by
  rw [ioWriteBytes_eq]
  exact withIo_effect _ fun hw => ioWriteBytes_wf hw n

/-- A transaction of the window leaves in every register the written bits that fall into it. -/
theorem ioCommit_windowWritten {o n : Nat} {v m : Word} {s : State} (hd : s.dirty = []) (hw : Memory.wf s.shadow = true)
    (hm : coversBytes m n) (hn : n ≤ 4) : windowWritten o v m s (ioCommit (ioWriteBytes o v n s)) := by
  have heffect := (ioWriteBytes_effect o v n s).trans (ioCommit_effect _)
  refine ⟨fun r => ?_, ?_, heffect.regs, heffect.cpsr, ioCommit_dirty _⟩
  · rw [ioStored_ioCommit, ioMask_ioWriteBytes hd hm hn]
    rw [show ioStored r (ioWriteBytes o v n s) = ioStored r s by rw [ioWriteBytes_eq, ioStored_withIo]]
    exact writtenValue_congr r _ _ (ioShadow_ioWriteBytes hw hm hn r)
  · rw [ioCommit_mem, ioWriteBytes_eq]
    rfl

/-! ## The value a commit leaves in a halfword register -/

/-- A dirty byte of the shadow buffer, else another byte. -/
def dirtyByte (s : State) (k : Nat) (old : Byte) : Byte := if isDirty s k then Memory.read s.shadow k else old

theorem half_ext {x y : Half} (h : ∀ q t, q < 2 → t < 8 → x.getLsbD (8 * q + t) = y.getLsbD (8 * q + t)) : x = y := by
  apply BitVec.eq_of_getLsbD_eq
  intro k hk
  have := h (k / 8) (k % 8) (by omega) (by omega)
  rwa [show 8 * (k / 8) + k % 8 = k by omega] at this

theorem bytes_bit (hi lo : Byte) {q t : Nat} (hq : q < 2) (ht : t < 8) :
    (hi ++ lo : Half).getLsbD (8 * q + t) = (if q = 0 then lo else hi).getLsbD t := by
  have hcases : q = 0 ∨ q = 1 := by omega
  rcases hcases with rfl | rfl
  · rw [getLsbD_append_low _ _ _ (by omega), if_pos rfl, Nat.mul_zero, Nat.zero_add]
  · rw [getLsbD_append_high _ _ _ (by omega), if_neg (by decide), Nat.mul_one, Nat.add_sub_cancel_left]

/-- A halfword register with the dirty bytes of the shadow buffer merged into it. -/
def committedHalf (r : IoReg) (old : Half) (s : State) : Half :=
  dirtyByte s (ioOffset r + 1) (old.extractLsb' 8 8) ++ dirtyByte s (ioOffset r) (old.extractLsb' 0 8)

theorem committedHalf_bit (r : IoReg) (old : Half) (s : State) {q t : Nat} (hq : q < 2) (ht : t < 8) :
    (committedHalf r old s).getLsbD (8 * q + t) =
      if isDirty s (ioOffset r + q) then (Memory.read s.shadow (ioOffset r + q)).getLsbD t else old.getLsbD (8 * q + t) := by
  have hcases : q = 0 ∨ q = 1 := by omega
  rw [committedHalf, bytes_bit _ _ hq ht]
  rcases hcases with rfl | rfl
  · rw [if_pos rfl, dirtyByte, Nat.add_zero]
    split
    · rfl
    · rw [BitVec.getLsbD_extractLsb', decide_eq_true ht, Bool.true_and]
  · rw [if_neg (by decide), dirtyByte]
    split
    · rfl
    · rw [BitVec.getLsbD_extractLsb', decide_eq_true ht, Bool.true_and]

theorem narrow_getLsbD (w : Word) {k : Nat} (hk : k < 16) : (narrow w).getLsbD k = w.getLsbD k := by
  simp [narrow, hk]

/-- The merge of a halfword register all of whose bits are writable. -/
theorem narrow_ioMerge {r : IoReg} (hr : ioWritable r = 0xFFFF#32) (old : Half) (s : State) :
    narrow (ioMerge r (wide old) (ioShadow r s) (ioMask r s)) = committedHalf r old s := by
  have hones : ∀ k < 16, (0xFFFF#32).getLsbD k = true := by decide
  have hwidth : ∀ q < 2, q < ioWidth r := by
    intro q hq
    have := ioWidth_cases r
    omega
  apply half_ext
  intro q t hq ht
  have hk : 8 * q + t < 16 := by omega
  have hold : (wide old).getLsbD (8 * q + t) = old.getLsbD (8 * q + t) := by simp [wide]; omega
  rw [narrow_getLsbD _ hk, committedHalf_bit r old s hq ht, ioMerge, hr]
  simp only [BitVec.getLsbD_or, BitVec.getLsbD_and, BitVec.getLsbD_not, hones _ hk, hold, ioMask_bit r s (show q < 4 by omega) ht,
    ioShadow_bit r s (show q < 4 by omega) ht, decide_eq_true (hwidth q hq), decide_eq_true (show 8 * q + t < 32 by omega),
    Bool.true_and, Bool.and_true]
  cases isDirty s (ioOffset r + q) <;> simp

/-- The written bits of IF. -/
theorem narrow_ioShadow_ioMask (r : IoReg) (s : State) :
    narrow (ioShadow r s &&& ioMask r s) = committedHalf r 0#16 s := by
  have hwidth : ∀ q < 2, q < ioWidth r := by
    intro q hq
    have := ioWidth_cases r
    omega
  apply half_ext
  intro q t hq ht
  have hk : 8 * q + t < 16 := by omega
  rw [narrow_getLsbD _ hk, committedHalf_bit r 0#16 s hq ht, BitVec.getLsbD_and, ioMask_bit r s (show q < 4 by omega) ht,
    ioShadow_bit r s (show q < 4 by omega) ht, decide_eq_true (hwidth q hq), Bool.true_and, Bool.true_and]
  cases isDirty s (ioOffset r + q) <;> simp

theorem dirtyByte_ioWriteBytes {o n : Nat} {v : Word} {s : State} (hd : s.dirty = []) (hw : Memory.wf s.shadow = true) (k : Nat)
    (old : Byte) : dirtyByte (ioWriteBytes o v n s) k old = if o ≤ k ∧ k < o + n then byteAt v (k - o) else old := by
  rw [dirtyByte, isDirty_ioWriteBytes hd]
  by_cases h : o ≤ k ∧ k < o + n
  · rw [if_pos (decide_eq_true h), if_pos h, read_ioWriteBytes hw h.1 h.2]
  · rw [if_neg (by simpa using h), if_neg h]

theorem dirtyByte_congr {s t : State} (hs : t.shadow = s.shadow) (hd : t.dirty = s.dirty) (k : Nat) (old : Byte) :
    dirtyByte t k old = dirtyByte s k old := by
  unfold dirtyByte isDirty
  rw [hs, hd]

theorem bytes_of_word (v : Word) (k : Nat) : byteAt v (k + 1) ++ byteAt v k = v.extractLsb' (8 * k) 16 := by
  apply half_ext
  intro q t hq ht
  have hcases : q = 0 ∨ q = 1 := by omega
  rw [bytes_bit _ _ hq ht, BitVec.getLsbD_extractLsb', decide_eq_true (show 8 * q + t < 16 by omega), Bool.true_and]
  rcases hcases with rfl | rfl
  · rw [if_pos rfl, byteAt_bit v k ht, Nat.mul_zero, Nat.zero_add]
  · rw [if_neg (by decide), byteAt_bit v (k + 1) ht]
    congr 1
    omega

section Committed

variable {r : IoReg} {s : State} (hd : s.dirty = []) (hw : Memory.wf s.shadow = true)

include hd hw in
theorem committedHalf_byte0 {o : Nat} (ho : ioOffset r = o) (b : Byte) (old : Half) :
    committedHalf r old (ioWriteBytes o (b.setWidth 32) 1 s) = old.extractLsb' 8 8 ++ b := by
  subst ho
  rw [committedHalf, dirtyByte_ioWriteBytes hd hw, dirtyByte_ioWriteBytes hd hw, if_neg (by omega), if_pos (by omega), Nat.sub_self,
    byteAt_setWidth]

include hd hw in
theorem committedHalf_byte1 {o : Nat} (ho : ioOffset r + 1 = o) (b : Byte) (old : Half) :
    committedHalf r old (ioWriteBytes o (b.setWidth 32) 1 s) = b ++ old.extractLsb' 0 8 := by
  subst ho
  rw [committedHalf, dirtyByte_ioWriteBytes hd hw, dirtyByte_ioWriteBytes hd hw, if_pos (by omega), if_neg (by omega), Nat.sub_self,
    byteAt_setWidth]

include hd hw in
theorem committedHalf_wide {o n j : Nat} (v : Word) (old : Half) (ho : ioOffset r = o + j) (hn : j + 2 ≤ n) :
    committedHalf r old (ioWriteBytes o v n s) = v.extractLsb' (8 * j) 16 := by
  rw [committedHalf, dirtyByte_ioWriteBytes hd hw, dirtyByte_ioWriteBytes hd hw, if_pos (by omega), if_pos (by omega),
    ← bytes_of_word]
  congr 2 <;> omega

end Committed

theorem committedHalf_congr (r : IoReg) (old : Half) {s t : State} (hs : t.shadow = s.shadow) (hd : t.dirty = s.dirty) :
    committedHalf r old t = committedHalf r old s := by
  rw [committedHalf, committedHalf, dirtyByte_congr hs hd, dirtyByte_congr hs hd]

/-- The turn of a register one of whose bytes is dirty. -/
theorem ioCommitOne_dirty {r : IoReg} {s : State} {q : Nat} (hq : q < ioWidth r) (hdirty : isDirty s (ioOffset r + q) = true) :
    ioCommitOne s r = ioCommitReg r (ioShadow r s) (ioMask r s) s := by
  have hfour : q < 4 := by
    have := ioWidth_cases r
    omega
  have hmask : ioMask r s ≠ 0#32 := by
    intro h
    have hbit := ioMask_bit r s hfour (show 0 < 8 by decide)
    rw [h, hdirty, decide_eq_true hq, Bool.and_true, BitVec.getLsbD_zero] at hbit
    cases hbit
  rw [ioCommitOne]
  exact if_neg hmask

end Sys2Proof.Machine

namespace Sys2Proof.Proofs

open Sys2Proof.Machine Sys2Proof.Safety

/-- Settles O45: an offset lies in one register at most, and in none exactly where it is unknown, so a byte written there reaches
the shadow buffer alone. -/
theorem ioRegisterReads : Obligations.IoRegisterReads := by
  unfold Obligations.IoRegisterReads
  refine ⟨fun o b s ho hunknown => ⟨?_, fun hd => ?_⟩, knownOffset_iff, fun r k s hk => ?_⟩
  · rw [read8_ioAddress ho, ioReadByte, ioAt_of_unknown hunknown]
  · have htouched : touchedRegs o 1 = [] := by
      apply List.filter_eq_nil_iff.mpr
      intro r _ hr
      have hoverlap := of_decide_eq_true hr
      have hknown := (knownOffset_iff o).mpr ⟨r, by omega⟩
      rw [hunknown] at hknown
      cases hknown
    rw [write8_ioAddress ho, ioCommit_ioWriteBytes hd (by decide), htouched]
    show { s with shadow := Memory.write s.shadow (o + 0) (byteAt (b.setWidth 32) 0), dirty := [] } = _
    rw [byteAt_setWidth, ← hd]
    rfl
  · cases r with
    | fifo d => exact read8_fifo hk s
    | tmCntL i => exact (read8_of_ioRead hk rfl).trans (by rw [extract_wide])
    | _ => exact read8_of_ioRead hk rfl

end Sys2Proof.Proofs

/-! SUPPORT and proofs. Transactions of the window that lie in one register or in two that adjoin: the timers, and the bits that no
write changes (61_io_registers.md R952, R953, R971, R975). -/

namespace Sys2Proof.Machine

open Sys2Proof.Safety

/-! ## Exact transactions -/

/-- A transaction within one register touches that register alone. -/
theorem touchedRegs_within {r : IoReg} {o n : Nat} (hn : 0 < n) (hlo : ioOffset r ≤ o) (hhi : o + n ≤ ioOffset r + ioWidth r) :
    touchedRegs o n = [r] := by
  obtain ⟨pre, post, e⟩ := List.append_of_mem (mem_allIoRegs r)
  have p := ioRegs_disjoint
  rw [e, List.pairwise_append, List.pairwise_cons] at p
  obtain ⟨-, ⟨hpost, -⟩, hpre⟩ := p
  have hbefore : pre.filter (fun r' => decide (ioOffset r' < o + n ∧ o < ioOffset r' + ioWidth r')) = [] := by
    apply List.filter_eq_nil_iff.mpr
    intro r' hr' h
    have hoverlap := of_decide_eq_true h
    have := hpre r' hr' r List.mem_cons_self
    omega
  have hafter : post.filter (fun r' => decide (ioOffset r' < o + n ∧ o < ioOffset r' + ioWidth r')) = [] := by
    apply List.filter_eq_nil_iff.mpr
    intro r' hr' h
    have hoverlap := of_decide_eq_true h
    have := hpost r' hr'
    omega
  rw [touchedRegs, e, List.filter_append, hbefore, List.filter_cons, if_pos (decide_eq_true (by omega)), hafter]
  rfl

/-- A byte of the transaction is dirty. -/
theorem isDirty_touched {o n k : Nat} {v : Word} {s : State} (hd : s.dirty = []) (hlo : o ≤ k) (hhi : k < o + n) :
    isDirty (ioWriteBytes o v n s) k = true := by
  rw [isDirty_ioWriteBytes hd]
  exact decide_eq_true ⟨hlo, hhi⟩

/-- The turn of a register within which the transaction lies. -/
theorem ioCommitOne_within {r : IoReg} {o n : Nat} {v : Word} {s : State} (hd : s.dirty = []) (hn : 0 < n)
    (hlo : ioOffset r ≤ o) (hhi : o + n ≤ ioOffset r + ioWidth r) :
    ioCommitOne (ioWriteBytes o v n s) r =
      ioCommitReg r (ioShadow r (ioWriteBytes o v n s)) (ioMask r (ioWriteBytes o v n s)) (ioWriteBytes o v n s) := by
  have hdirty : isDirty (ioWriteBytes o v n s) (ioOffset r + (o - ioOffset r)) = true := isDirty_touched hd (by omega) (by omega)
  exact ioCommitOne_dirty (by omega) hdirty

theorem halfword_of_wide (h : Half) : (wide h).extractLsb' 0 16 = h := by
  apply BitVec.eq_of_toNat_eq
  simpa [wide] using h.isLt

theorem write16_ioAddress_half {o : Nat} (ho : o < 0x400) (heven : o % 2 = 0) (h : Half) (s : State) :
    write16 (ioAddress o) h s = ioCommit (ioWriteBytes o (wide h) 2 s) := by
  rw [← write16_ioAddress ho heven, halfword_of_wide]

theorem committedHalf_half {r : IoReg} {o : Nat} {s : State} (hd : s.dirty = []) (hw : Memory.wf s.shadow = true)
    (ho : ioOffset r = o) (h old : Half) : committedHalf r old (ioWriteBytes o (wide h) 2 s) = h :=
  (committedHalf_wide hd hw (j := 0) (wide h) old ho (by decide)).trans (halfword_of_wide h)

/-! ## The timers (R971, R1204, R1205) -/

theorem setTimer_setTimer (i : Fin 4) (c d : Timer) (s : State) : setTimer i d (setTimer i c s) = setTimer i d s := by
  simp [setTimer]

theorem getTimer_ioWriteBytes (i : Fin 4) (o : Nat) (v : Word) (n : Nat) (s : State) :
    getTimer i (ioWriteBytes o v n s) = getTimer i s := by
  rw [ioWriteBytes_eq]
  rfl

theorem timerEnableChange_controlled (c : Timer) (h : Half) : timerEnableChange c.ctl h { c with ctl := h } = timerControlled c h := by
  unfold timerEnableChange timerControlled
  split
  · next h => simp only [h, and_self, if_true]
  · next h => simp only [h, if_false]

/-- The turn of a reload latch, and of a timer's control register. -/
theorem ioCommitReg_tmCntL (i : Fin 4) (s : State) :
    ioCommitReg (.tmCntL i) (ioShadow (.tmCntL i) s) (ioMask (.tmCntL i) s) s =
      setTimer i { getTimer i s with reload := committedHalf (.tmCntL i) (getTimer i s).reload s } s := by
  rw [← narrow_ioMerge rfl]
  rfl

theorem ioCommitReg_tmCntH (i : Fin 4) (s : State) :
    ioCommitReg (.tmCntH i) (ioShadow (.tmCntH i) s) (ioMask (.tmCntH i) s) s =
      setTimer i (timerControlled (getTimer i s) (committedHalf (.tmCntH i) (getTimer i s).ctl s)) s := by
  have hmerge := narrow_ioMerge (r := .tmCntH i) rfl (getTimer i s).ctl s
  have hold : narrow (wide (getTimer i s).ctl) = (getTimer i s).ctl := by simp [narrow, wide]
  simp only [ioCommitReg, ioSetStored, show ioStored (.tmCntH i) s = wide (getTimer i s).ctl from rfl, hmerge, hold,
    getTimer_setTimer, setTimer_setTimer, timerEnableChange_controlled]

/-- A transaction whose turns set one timer writes that timer alone. -/
theorem timerWritten_of_turns {i : Fin 4} {c : Timer} {o n : Nat} {v : Word} {s : State} (hd : s.dirty = []) (hn : 0 < n)
    (hturns : (touchedRegs o n).foldl ioCommitOne (ioWriteBytes o v n s) = setTimer i c (ioWriteBytes o v n s)) :
    timerWritten i c s (ioCommit (ioWriteBytes o v n s)) := by
  rw [ioCommit_ioWriteBytes hd hn, hturns, ioWriteBytes_eq, timerWritten]
  show { s with timers := s.timers.set i c, shadow := _, dirty := [] } = _
  rw [← hd]

section Timer

variable {i : Fin 4} {o n : Nat} {v : Word} {h : Half} {s : State} (hd : s.dirty = []) (hn : 0 < n)

include hd hn in
theorem timerLow_written (hlo : 0x100 + 4 * i.val ≤ o) (hhi : o + n ≤ 0x100 + 4 * i.val + 2)
    (hh : committedHalf (.tmCntL i) (getTimer i s).reload (ioWriteBytes o v n s) = h) :
    timerWritten i { getTimer i s with reload := h } s (ioCommit (ioWriteBytes o v n s)) := by
  apply timerWritten_of_turns hd hn
  rw [touchedRegs_within (r := .tmCntL i) hn hlo hhi, List.foldl_cons, List.foldl_nil,
    ioCommitOne_within (r := .tmCntL i) hd hn hlo hhi, ioCommitReg_tmCntL, getTimer_ioWriteBytes, hh]

include hd hn in
theorem timerHigh_written (hlo : 0x102 + 4 * i.val ≤ o) (hhi : o + n ≤ 0x102 + 4 * i.val + 2)
    (hh : committedHalf (.tmCntH i) (getTimer i s).ctl (ioWriteBytes o v n s) = h) :
    timerWritten i (timerControlled (getTimer i s) h) s (ioCommit (ioWriteBytes o v n s)) := by
  apply timerWritten_of_turns hd hn
  rw [touchedRegs_within (r := .tmCntH i) hn hlo hhi, List.foldl_cons, List.foldl_nil,
    ioCommitOne_within (r := .tmCntH i) hd hn hlo hhi, ioCommitReg_tmCntH, getTimer_ioWriteBytes, hh]

end Timer

theorem touchedRegs_timer (i : Fin 4) : touchedRegs (0x100 + 4 * i.val) 4 = [.tmCntL i, .tmCntH i] := by
  revert i
  decide

/-- A word to a timer writes the latch first. -/
theorem timerWord_written {i : Fin 4} {v : Word} {s : State} (hd : s.dirty = []) (hw : Memory.wf s.shadow = true) :
    timerWritten i (timerControlled { getTimer i s with reload := v.extractLsb' 0 16 } (v.extractLsb' 16 16)) s
      (ioCommit (ioWriteBytes (0x100 + 4 * i.val) v 4 s)) := by
  apply timerWritten_of_turns hd (by decide)
  have hlow : ioCommitOne (ioWriteBytes (0x100 + 4 * i.val) v 4 s) (.tmCntL i) =
      setTimer i { getTimer i s with reload := v.extractLsb' 0 16 } (ioWriteBytes (0x100 + 4 * i.val) v 4 s) := by
    have hdirty : isDirty (ioWriteBytes (0x100 + 4 * i.val) v 4 s) (ioOffset (.tmCntL i) + 0) = true :=
      isDirty_touched hd (Nat.le_refl _) (by simp only [ioOffset]; omega)
    rw [ioCommitOne_dirty Nat.zero_lt_two hdirty, ioCommitReg_tmCntL, getTimer_ioWriteBytes,
      committedHalf_wide hd hw (j := 0) v _ rfl (by decide)]
  have hhigh : isDirty (ioCommitOne (ioWriteBytes (0x100 + 4 * i.val) v 4 s) (.tmCntL i)) (ioOffset (.tmCntH i) + 0) = true := by
    rw [isDirty, (ioCommitOne_io _ _).2]
    exact isDirty_touched hd (by simp only [ioOffset]; omega) (by simp only [ioOffset]; omega)
  rw [touchedRegs_timer, List.foldl_cons, List.foldl_cons, List.foldl_nil, ioCommitOne_dirty Nat.zero_lt_two hhigh,
    ioCommitReg_tmCntH, committedHalf_congr _ _ (ioCommitOne_io _ _).1 (ioCommitOne_io _ _).2,
    committedHalf_wide hd hw (j := 2) v _ (by simp only [ioOffset]; omega) (by decide), hlow, getTimer_setTimer, setTimer_setTimer]

/-! ## What no write changes (R953, R962, R963, R972) -/

theorem putByte_irq_ppu (a : Word) (b : Byte) (s : State) : (putByte a b s).irq = s.irq ∧ (putByte a b s).ppu = s.ppu := by
  have hbackup : ∀ o (s : State), (backupWrite o b s).irq = s.irq ∧ (backupWrite o b s).ppu = s.ppu := by
    intro o s
    unfold backupWrite backupStore
    split
    · exact ⟨rfl, rfl⟩
    · repeat' split
      all_goals exact ⟨rfl, rfl⟩
  unfold putByte
  split
  case h_5 => exact hbackup _ s
  all_goals exact ⟨rfl, rfl⟩

theorem putByte8_irq_ppu (a : Word) (b : Byte) (s : State) : (putByte8 a b s).irq = s.irq ∧ (putByte8 a b s).ppu = s.ppu := by
  unfold putByte8
  split
  · exact ⟨rfl, rfl⟩
  · split <;> exact ⟨rfl, rfl⟩
  · exact ⟨rfl, rfl⟩
  · exact putByte_irq_ppu a b s

/-- A commit only clears bits of IF. -/
theorem ioCommit_ifl (s : State) : (ioCommit s).irq.ifl &&& ~~~s.irq.ifl = 0#16 := by
  have hstored : wide (ioCommit s).irq.ifl = wide s.irq.ifl &&& ~~~(ioShadow .ifl s &&& ioMask .ifl s) := ioStored_ioCommit .ifl s
  apply BitVec.eq_of_getLsbD_eq
  intro k hk
  have hbit := congrArg (fun w => w.getLsbD k) hstored
  have hwide : ∀ h : Half, (wide h).getLsbD k = h.getLsbD k := by intro h; simp [wide]; omega
  simp only [BitVec.getLsbD_and, hwide] at hbit
  rw [BitVec.getLsbD_and, hbit, BitVec.getLsbD_not (x := s.irq.ifl), BitVec.getLsbD_zero]
  cases s.irq.ifl.getLsbD k <;> simp

/-- A commit keeps the three flags of DISPSTAT. -/
theorem ioCommit_flags (s : State) : (ioCommit s).ppu.dispstat.extractLsb' 0 3 = s.ppu.dispstat.extractLsb' 0 3 := by
  have hstored : wide (ioCommit s).ppu.dispstat = _ := ioStored_ioCommit .dispstat s
  have hold : ioStored .dispstat s = wide s.ppu.dispstat := rfl
  have hkept : ∀ k < 3, (0xFFF8#32).getLsbD k = false := by decide
  apply BitVec.eq_of_getLsbD_eq
  intro k hk
  have hbit := congrArg (fun w => w.getLsbD k) hstored
  have hwide : ∀ h : Half, (wide h).getLsbD k = h.getLsbD k := by intro h; simp [wide]; omega
  simp only [writtenValue, hold, BitVec.getLsbD_or, BitVec.getLsbD_and, BitVec.getLsbD_not, hwide, hkept k hk, Bool.and_false,
    Bool.false_or, Bool.not_false, decide_eq_true (show k < 32 by omega), Bool.and_true] at hbit
  rw [BitVec.getLsbD_extractLsb', BitVec.getLsbD_extractLsb', Nat.zero_add, hbit]

/-- A write of any width and address: its bytes, which reach neither the interrupt registers nor the picture processor, and the
commit. -/
theorem write_eq_ioCommit {a v : Word} {s t : State}
    (h : t = write8 a (v.setWidth 8) s ∨ t = write16 a (v.setWidth 16) s ∨ t = write32 a v s) :
    BusEffect s t ∧ ∃ u, t = ioCommit u ∧ u.irq = s.irq ∧ u.ppu = s.ppu := by
  have hput := fun a b s => putByte_irq_ppu a b s
  rcases h with rfl | rfl | rfl
  · exact ⟨write8_effect _ _ _, _, rfl, putByte8_irq_ppu _ _ s⟩
  · exact ⟨write16_effect _ _ _, _, rfl, by simp only [hput, and_self]⟩
  · exact ⟨write32_effect _ _ _, _, rfl, by simp only [hput, and_self]⟩

/-! ## A write to IF (R907, R975) -/

theorem ioCommit_ifl_within {o n : Nat} {v : Word} {s : State} (hd : s.dirty = []) (hn : 0 < n) (hlo : 0x202 ≤ o)
    (hhi : o + n ≤ 0x202 + 2) : (ioCommit (ioWriteBytes o v n s)).irq =
      { s.irq with ifl := s.irq.ifl &&& ~~~committedHalf .ifl 0#16 (ioWriteBytes o v n s) } := by
  rw [ioCommit_ioWriteBytes hd hn, touchedRegs_within (r := .ifl) hn hlo hhi, List.foldl_cons, List.foldl_nil,
    ioCommitOne_within (r := .ifl) hd hn hlo hhi, ← narrow_ioShadow_ioMask]
  have hirq : (ioWriteBytes o v n s).irq = s.irq := by
    rw [ioWriteBytes_eq]
    rfl
  rw [← hirq]
  rfl

theorem setWidth_byte (v : Word) : (v.setWidth 8 : Byte) = byteAt v 0 := by
  apply BitVec.eq_of_toNat_eq
  simp [byteAt]

theorem setWidth_half (v : Word) : (v.setWidth 16 : Half) = v.extractLsb' 0 16 := by
  apply BitVec.eq_of_toNat_eq
  simp

/-- The low byte of a word in the low or in the high byte of a halfword. -/
theorem low_byte_half (v : Word) : (0#8 ++ byteAt v 0 : Half) = (v &&& 0xFF#32).setWidth 16 ∧
    (byteAt v 0 ++ 0#8 : Half) = ((v &&& 0xFF#32) <<< 8).setWidth 16 := by
  have hand : (v &&& 0xFF#32).toNat = v.toNat % 2 ^ 8 := by
    rw [BitVec.toNat_and]
    exact Nat.and_two_pow_sub_one_eq_mod _ 8
  have hbyte : (byteAt v 0).toNat = v.toNat % 2 ^ 8 := by simp [byteAt]
  constructor <;> apply BitVec.eq_of_toNat_eq
  · rw [toNat_bytes, BitVec.toNat_setWidth, hand, hbyte]
    simp
    omega
  · rw [toNat_bytes, BitVec.toNat_setWidth, BitVec.toNat_shiftLeft, hand, hbyte, Nat.shiftLeft_eq]
    simp
    omega

end Sys2Proof.Machine

namespace Sys2Proof.Proofs

open Sys2Proof.Machine Sys2Proof.Safety

/-- Settles O47: a commit clears bits of IF and keeps the flags of DISPSTAT, and the bytes before it reach neither. -/
theorem liveBitsAreReadOnly : Obligations.LiveBitsAreReadOnly := by
  unfold Obligations.LiveBitsAreReadOnly
  refine ⟨fun a v s t h => ?_, fun v s hd hw => ⟨?_, ?_, ?_⟩⟩
  · obtain ⟨heffect, u, rfl, hirq, hppu⟩ := write_eq_ioCommit h
    refine ⟨?_, heffect.vcount, heffect.lc, ?_, heffect.keyinput⟩
    · rw [← hirq]
      exact ioCommit_ifl u
    · rw [← hppu]
      exact ioCommit_flags u
  · have hwrite := write16_ioAddress (o := 0x202) (by decide) (by decide) v s
    rw [setWidth_half, show 0x04000202#32 = ioAddress 0x202 from rfl, hwrite,
      ioCommit_ifl_within hd (by decide) (by decide) (by decide), committedHalf_wide hd hw (r := .ifl) (j := 0) v _ rfl (by decide)]
  · rw [setWidth_byte, show 0x04000202#32 = ioAddress 0x202 from rfl, write8_ioAddress (by decide),
      ioCommit_ifl_within hd (by decide) (by decide) (by decide), committedHalf_byte0 hd hw (o := 0x202) rfl, ← (low_byte_half v).1]
    rfl
  · rw [setWidth_byte, show 0x04000203#32 = ioAddress 0x203 from rfl, write8_ioAddress (by decide),
      ioCommit_ifl_within hd (by decide) (by decide) (by decide), committedHalf_byte1 hd hw (o := 0x203) rfl, ← (low_byte_half v).2]
    rfl

/-- Settles O46: a transaction merges its bytes into the registers it touches, and a timer's two registers take their turns in
the order of their offsets. -/
theorem ioRegisterWrites : Obligations.IoRegisterWrites := by
  unfold Obligations.IoRegisterWrites
  refine ⟨fun o b h v s ho hd hw => ⟨?_, fun heven => ?_, fun hfour => ?_⟩, fun i b h v s hd hw => ?_⟩
  · rw [write8_ioAddress ho]
    exact ioCommit_windowWritten hd hw (by unfold coversBytes; decide) (by decide)
  · rw [write16_ioAddress_half ho heven]
    exact ioCommit_windowWritten hd hw (by unfold coversBytes; decide) (by decide)
  · rw [write32_ioAddress ho hfour]
    exact ioCommit_windowWritten hd hw (by unfold coversBytes; decide) (by decide)
  · have hi := i.isLt
    intro c o
    refine ⟨?_, ?_, ?_, ?_, ?_, ?_, ?_⟩
    · rw [write16_ioAddress_half (by omega) (by omega)]
      exact timerLow_written hd (by decide) (by omega) (by omega) (committedHalf_half hd hw rfl h _)
    · rw [write8_ioAddress (by omega)]
      exact timerLow_written hd (by decide) (by omega) (by omega) (committedHalf_byte0 hd hw rfl b _)
    · rw [write8_ioAddress (by omega)]
      exact timerLow_written hd (by decide) (by omega) (by omega) (committedHalf_byte1 hd hw rfl b _)
    · rw [write16_ioAddress_half (by omega) (by omega)]
      exact timerHigh_written hd (by decide) (by omega) (by omega) (committedHalf_half hd hw (by simp only [ioOffset]; omega) h _)
    · rw [write8_ioAddress (by omega)]
      exact timerHigh_written hd (by decide) (by omega) (by omega) (committedHalf_byte0 hd hw (by simp only [ioOffset]; omega) b _)
    · rw [write8_ioAddress (by omega)]
      exact timerHigh_written hd (by decide) (by omega) (by omega) (committedHalf_byte1 hd hw (by simp only [ioOffset]; omega) b _)
    · rw [write32_ioAddress (by omega) (by omega)]
      exact timerWord_written hd hw

end Sys2Proof.Proofs

/-! SUPPORT and proofs. The triggering of waiting channels; the sound FIFOs and SOUNDCNT_H, and the control registers of the DMA
channels, as transactions of the window (61_io_registers.md R968 to R970, 62_dma.md R1002 to R1004, R1020 to R1030). -/

namespace Sys2Proof.Machine

open Sys2Proof.Safety

theorem fin4_cases (i : Fin 4) : i = 0 ∨ i = 1 ∨ i = 2 ∨ i = 3 := by
  revert i
  decide

/-! ## Triggering (R1003 to R1005) -/

theorem triggerIf_frame (p : Fin 4 → State → Bool) (i : Fin 4) (s : State) :
    triggerIf p i s = { s with dma := (triggerIf p i s).dma } := by
  unfold triggerIf
  split <;> rfl

theorem triggerAll_frame (p : Fin 4 → State → Bool) (s : State) : triggerAll p s = { s with dma := (triggerAll p s).dma } := by
  unfold triggerAll
  rw [triggerIf_frame p 3, triggerIf_frame p 2, triggerIf_frame p 1, triggerIf_frame p 0]

/-- A condition on a channel that reads no other channel. -/
def readsOwnChannel (p : Fin 4 → State → Bool) : Prop :=
  ∀ (i : Fin 4) (s : State) (d : Vector DmaChannel 4),
    getDma i { s with dma := d } = getDma i s → p i { s with dma := d } = p i s

theorem getDma_triggerIf_same (p : Fin 4 → State → Bool) (i : Fin 4) (s : State) :
    getDma i (triggerIf p i s) = if p i s then dmaTrigger (getDma i s) else getDma i s := by
  unfold triggerIf
  split
  · exact getDma_setDma i _ s
  · rfl

theorem getDma_triggerIf_ne {i j : Fin 4} (h : j ≠ i) (p : Fin 4 → State → Bool) (s : State) :
    getDma j (triggerIf p i s) = getDma j s := by
  unfold triggerIf
  split
  · exact getDma_setDma_ne h _ s
  · rfl

theorem condition_triggerIf_ne {p : Fin 4 → State → Bool} (hp : readsOwnChannel p) {i j : Fin 4} (h : j ≠ i) (s : State) :
    p j (triggerIf p i s) = p j s := by
  have hkept := getDma_triggerIf_ne h p s
  rw [triggerIf_frame] at hkept ⊢
  exact hp j s _ hkept

/-- What triggering makes of each channel. -/
theorem getDma_triggerAll {p : Fin 4 → State → Bool} (hp : readsOwnChannel p) (i : Fin 4) (s : State) :
    getDma i (triggerAll p s) = if p i s then dmaTrigger (getDma i s) else getDma i s := by
  have hkept : ∀ {i j : Fin 4} (s : State), j ≠ i → getDma j (triggerIf p i s) = getDma j s := fun s h => getDma_triggerIf_ne h p s
  have hcond : ∀ {i j : Fin 4} (s : State), j ≠ i → p j (triggerIf p i s) = p j s := fun s h => condition_triggerIf_ne hp h s
  unfold triggerAll
  rcases fin4_cases i with rfl | rfl | rfl | rfl
  · rw [hkept _ (by decide), hkept _ (by decide), hkept _ (by decide), getDma_triggerIf_same]
  · rw [hkept _ (by decide), hkept _ (by decide), getDma_triggerIf_same, hcond _ (by decide), hkept _ (by decide)]
  · rw [hkept _ (by decide), getDma_triggerIf_same, hcond _ (by decide), hcond _ (by decide), hkept _ (by decide),
      hkept _ (by decide)]
  · rw [getDma_triggerIf_same, hcond _ (by decide), hcond _ (by decide), hcond _ (by decide), hkept _ (by decide),
      hkept _ (by decide), hkept _ (by decide)]

/-! ## FIFO resets (R1004, R1030) -/

/-- A FIFO reset where it is asked for. -/
def resetIf (c : Bool) (d : FifoId) (s : State) : State := if c then fifoReset d s else s

theorem servedFifo_congr {i : Fin 4} {c c' : DmaChannel} (h : c'.start = c.start ∧ c'.curDst = c.curDst) :
    servedFifo i c' = servedFifo i c := by
  unfold servedFifo
  rw [h.1, h.2]

theorem servedFifo_eq_some_iff (i : Fin 4) (c : DmaChannel) (d : FifoId) : servedFifo i c = some d ↔
    c.start = .special ∧ (i = 1 ∨ i = 2) ∧ c.curDst = (match d with | .a => 0x040000A0#32 | .b => 0x040000A4#32) := by
  have hne : ¬(0x040000A4#32 : Word) = 0x040000A0#32 := by decide
  have hne' : ¬(0x040000A0#32 : Word) = 0x040000A4#32 := by decide
  unfold servedFifo soundFifoMode
  by_cases hmode : c.start = .special ∧ (i = 1 ∨ i = 2)
  · rw [decide_eq_true hmode, if_pos rfl, ← and_assoc, and_iff_right hmode]
    split
    · next h => cases d <;> simp [h, hne']
    · next h =>
      split
      · next h' => cases d <;> simp [h', hne]
      · next h' => cases d <;> simp [h, h']
  · rw [decide_eq_false hmode, if_neg (by decide), ← and_assoc]
    simp [hmode]

theorem dmaTrigger_kept (c : DmaChannel) : dmaTrigger c = { c with phase := (dmaTrigger c).phase } := by
  unfold dmaTrigger
  split <;> rfl

theorem readsOwnChannel_served (d : FifoId) : readsOwnChannel fun i t => decide (servedFifo i (getDma i t) = some d) := by
  intro i s dma h
  dsimp only
  rw [h]

/-- A FIFO emptied, with its slot kept, where it is reset. -/
def emptiedIf (c : Bool) (f : Fifo) : Fifo := if c then { f with bytes := [] } else f

theorem fifoReset_frame (d : FifoId) (s : State) :
    ∃ x, fifoReset d s = { setFifo d { getFifo d s with bytes := [] } s with dma := x } := by
  unfold fifoReset
  generalize setFifo d { getFifo d s with bytes := [] } s = u
  exact ⟨_, triggerAll_frame _ u⟩

theorem resetIf_frame (c : Bool) (d : FifoId) (s : State) :
    ∃ x, resetIf c d s = { setFifo d (emptiedIf c (getFifo d s)) s with dma := x } := by
  cases c with
  | false =>
    have hsame : setFifo d (getFifo d s) s = s := by cases d <;> rfl
    refine ⟨s.dma, ?_⟩
    simp only [resetIf, emptiedIf, Bool.false_eq_true, if_false, hsame]
  | true =>
    simp only [resetIf, emptiedIf, if_true]
    exact fifoReset_frame d s

theorem resets_frame (a b : Bool) (s : State) : ∃ x, resetIf b .b (resetIf a .a s) =
    { s with fifoA := emptiedIf a s.fifoA, fifoB := emptiedIf b s.fifoB, dma := x } := by
  obtain ⟨x, hx⟩ := resetIf_frame a .a s
  obtain ⟨y, hy⟩ := resetIf_frame b .b (resetIf a .a s)
  refine ⟨y, ?_⟩
  rw [hy, hx]
  rfl

theorem getDma_resetIf (c : Bool) (d : FifoId) (i : Fin 4) (s : State) : getDma i (resetIf c d s) =
    if c = true ∧ servedFifo i (getDma i s) = some d then dmaTrigger (getDma i s) else getDma i s := by
  have hfifo : ∀ f, getDma i (setFifo d f s) = getDma i s := by
    intro f
    cases d <;> rfl
  unfold resetIf
  cases c
  · simp
  · rw [if_pos rfl, fifoReset, getDma_triggerAll (readsOwnChannel_served d), hfifo]
    simp

/-- The two resets of a write to SOUNDCNT_H. -/
theorem getDma_resets (a b : Bool) (i : Fin 4) (s : State) : getDma i (resetIf b .b (resetIf a .a s)) =
    if (getDma i s).phase = .wait ∧ ((a = true ∧ servedFifo i (getDma i s) = some .a) ∨
      (b = true ∧ servedFifo i (getDma i s) = some .b)) then { getDma i s with phase := .triggered } else getDma i s := by
  have hserved : servedFifo i (dmaTrigger (getDma i s)) = servedFifo i (getDma i s) := by
    apply servedFifo_congr
    rw [dmaTrigger_kept]
    exact ⟨rfl, rfl⟩
  rw [getDma_resetIf, getDma_resetIf]
  by_cases ha : a = true ∧ servedFifo i (getDma i s) = some .a
  · rw [if_pos ha, hserved, if_neg (by simp [ha.2]), dmaTrigger]
    simp only [ha, and_self, true_or, and_true]
  · rw [if_neg ha]
    by_cases hb : b = true ∧ servedFifo i (getDma i s) = some .b
    · rw [if_pos hb, dmaTrigger]
      simp only [hb, and_self, or_true, and_true]
    · rw [if_neg hb, if_neg (by tauto)]

/-! ## SOUNDCNT_H (R968) -/

/-- Bit `t` of the high byte of SOUNDCNT_H is written as 1. -/
def highBitWritten (s : State) (t : Nat) : Bool := isDirty s 0x083 && (Memory.read s.shadow 0x083).getLsbD t

theorem ioCommitReg_soundcntH (s : State) :
    ioCommitReg .soundcntH (ioShadow .soundcntH s) (ioMask .soundcntH s) s =
      resetIf (highBitWritten s 7) .b (resetIf (highBitWritten s 3) .a
        (setSound { s.sound with cntH := committedHalf .soundcntH s.sound.cntH s } s)) := by
  have hbit : ∀ t < 8, ((ioMask .soundcntH s).getLsbD (8 * 1 + t) && (ioShadow .soundcntH s).getLsbD (8 * 1 + t)) =
      highBitWritten s t := by
    intro t ht
    rw [ioMask_bit _ _ (by decide) ht, ioShadow_bit _ _ (by decide) ht]
    rfl
  rw [← narrow_ioMerge rfl, ← hbit 3 (by decide), ← hbit 7 (by decide)]
  rfl

theorem soundTurn_controlled {s u : State} {shadow : Memory} {dirty : List Nat} (hd : s.dirty = []) (hu : u = withIo shadow dirty s) :
    soundControlled (committedHalf .soundcntH s.sound.cntH u) (highBitWritten u 3) (highBitWritten u 7) s
      { ioCommitReg .soundcntH (ioShadow .soundcntH u) (ioMask .soundcntH u) u with dirty := [] } := by
  have hsound : u.sound = s.sound := by rw [hu]; rfl
  rw [ioCommitReg_soundcntH, hsound]
  generalize highBitWritten u 3 = a
  generalize highBitWritten u 7 = b
  generalize committedHalf .soundcntH s.sound.cntH u = h
  subst hu
  refine ⟨?_, fun i => ?_⟩
  · obtain ⟨x, hx⟩ := resets_frame a b (setSound { s.sound with cntH := h } (withIo shadow dirty s))
    rw [hx, ← hd]
    rfl
  · have hresets := getDma_resets a b i (setSound { s.sound with cntH := h } (withIo shadow dirty s))
    simp only [servedFifo_eq_some_iff] at hresets
    exact hresets

theorem ioCommit_within_turn {r : IoReg} {o n : Nat} {v : Word} {s : State} (hd : s.dirty = []) (hn : 0 < n)
    (hlo : ioOffset r ≤ o) (hhi : o + n ≤ ioOffset r + ioWidth r) : ioCommit (ioWriteBytes o v n s) =
      { ioCommitReg r (ioShadow r (ioWriteBytes o v n s)) (ioMask r (ioWriteBytes o v n s)) (ioWriteBytes o v n s) with
        dirty := [] } := by
  rw [ioCommit_ioWriteBytes hd hn, touchedRegs_within hn hlo hhi, List.foldl_cons, List.foldl_nil,
    ioCommitOne_within hd hn hlo hhi]

/-- A transaction within SOUNDCNT_H. -/
theorem soundcntH_controlled {o n : Nat} {v : Word} {h : Half} {a b : Bool} {s : State} (hd : s.dirty = []) (hn : 0 < n)
    (hlo : 0x082 ≤ o) (hhi : o + n ≤ 0x082 + 2)
    (hh : committedHalf .soundcntH s.sound.cntH (ioWriteBytes o v n s) = h) (ha : highBitWritten (ioWriteBytes o v n s) 3 = a)
    (hb : highBitWritten (ioWriteBytes o v n s) 7 = b) : soundControlled h a b s (ioCommit (ioWriteBytes o v n s)) := by
  rw [ioCommit_within_turn (r := .soundcntH) hd hn hlo hhi, ← hh, ← ha, ← hb]
  exact soundTurn_controlled hd (ioWriteBytes_eq o v n s)

theorem highBitWritten_ioWriteBytes {o n t : Nat} {v : Word} {s : State} (hd : s.dirty = []) (hw : Memory.wf s.shadow = true)
    (ht : t < 8) : highBitWritten (ioWriteBytes o v n s) t =
      (decide (o ≤ 0x083 ∧ 0x083 < o + n) && v.getLsbD (8 * (0x083 - o) + t)) := by
  rw [highBitWritten, isDirty_ioWriteBytes hd]
  by_cases h : o ≤ 0x083 ∧ 0x083 < o + n
  · rw [read_ioWriteBytes hw h.1 h.2, byteAt_bit _ _ ht]
  · rw [decide_eq_false h, Bool.false_and, Bool.false_and]

theorem touchedRegs_sound : touchedRegs 0x080 4 = [.soundcntL, .soundcntH] := by decide

theorem ioCommitReg_soundcntL (s : State) :
    ioCommitReg .soundcntL (ioShadow .soundcntL s) (ioMask .soundcntL s) s =
      setSound { s.sound with cntL := committedHalf .soundcntL s.sound.cntL s } s := by
  rw [← narrow_ioMerge rfl]
  rfl

/-- A word to SOUNDCNT_L stores both registers and resets by its upper half. -/
theorem soundWord_controlled {v : Word} {s : State} (hd : s.dirty = []) (hw : Memory.wf s.shadow = true) :
    soundControlled (v.extractLsb' 16 16) (v.getLsbD 27) (v.getLsbD 31)
      { s with sound := { s.sound with cntL := v.extractLsb' 0 16 } } (ioCommit (ioWriteBytes 0x080 v 4 s)) := by
  have hlow : ioCommitOne (ioWriteBytes 0x080 v 4 s) .soundcntL =
      withIo (ioWriteBytes 0x080 v 4 s).shadow (ioWriteBytes 0x080 v 4 s).dirty
        { s with sound := { s.sound with cntL := v.extractLsb' 0 16 } } := by
    rw [ioCommitOne_dirty (r := .soundcntL) (q := 0) (by decide) (isDirty_touched hd (by decide) (by decide)),
      ioCommitReg_soundcntL, committedHalf_wide hd hw (j := 0) v _ rfl (by decide)]
    conv => lhs; rw [ioWriteBytes_eq]
    rfl
  have hbits : ∀ t < 8, highBitWritten (ioWriteBytes 0x080 v 4 s) t = v.getLsbD (24 + t) := by
    intro t ht
    rw [highBitWritten_ioWriteBytes hd hw ht]
    rfl
  have hhalf : committedHalf .soundcntH s.sound.cntH (ioWriteBytes 0x080 v 4 s) = v.extractLsb' 16 16 :=
    committedHalf_wide hd hw (j := 2) v _ rfl (by decide)
  have hturn := soundTurn_controlled (s := { s with sound := { s.sound with cntL := v.extractLsb' 0 16 } }) hd hlow
  have hio := ioCommitOne_io (ioWriteBytes 0x080 v 4 s) .soundcntL
  have hhigh : ∀ t, highBitWritten (ioCommitOne (ioWriteBytes 0x080 v 4 s) .soundcntL) t =
      highBitWritten (ioWriteBytes 0x080 v 4 s) t := by
    intro t
    unfold highBitWritten isDirty
    rw [hio.1, hio.2]
  have hdirty : isDirty (ioCommitOne (ioWriteBytes 0x080 v 4 s) .soundcntL) (ioOffset .soundcntH + 0) = true := by
    rw [isDirty, hio.2]
    exact isDirty_touched hd (by decide) (by decide)
  rw [committedHalf_congr _ _ hio.1 hio.2, hhigh, hhigh, hbits 3 (by decide), hbits 7 (by decide), hhalf] at hturn
  rw [ioCommit_ioWriteBytes hd (by decide), touchedRegs_sound, List.foldl_cons, List.foldl_cons, List.foldl_nil,
    ioCommitOne_dirty (by decide) hdirty]
  exact hturn

/-! ## The FIFO ports (R969, R1021) -/

/-- Bytes `k` to `k + n - 1` of a port pushed, from the low bytes of a word. -/
def pushedBytes (k n : Nat) (v : Word) (f : Fifo) : Fifo :=
  let push (j : Nat) (f : Fifo) : Fifo := if k ≤ j ∧ j < k + n then pushByte (byteAt v (j - k)) f else f
  push 3 (push 2 (push 1 (push 0 f)))

theorem byteOf_ioShadow (d : FifoId) (s : State) {j : Nat} (hj : j < 4) :
    byteOf (ioShadow (.fifo d) s) j = Memory.read s.shadow (ioOffset (.fifo d) + j) := by
  apply BitVec.eq_of_getLsbD_eq
  intro t ht
  rw [byteOf_eq_extract, BitVec.getLsbD_extractLsb', decide_eq_true ht, Bool.true_and, ioShadow_bit _ _ hj ht,
    decide_eq_true (show j < ioWidth (.fifo d) from hj), Bool.true_and]

theorem ioCommitReg_fifo {d : FifoId} {k n : Nat} {v : Word} {s : State} (hd : s.dirty = []) (hw : Memory.wf s.shadow = true) :
    let u := ioWriteBytes (ioOffset (.fifo d) + k) v n s
    ioCommitReg (.fifo d) (ioShadow (.fifo d) u) (ioMask (.fifo d) u) u = setFifo d (pushedBytes k n v (getFifo d u)) u := by
  intro u
  have hstep : ∀ j < 4, ∀ f : Fifo,
      (if (ioMask (.fifo d) u).getLsbD (8 * j) then pushByte (byteOf (ioShadow (.fifo d) u) j) f else f) =
        if k ≤ j ∧ j < k + n then pushByte (byteAt v (j - k)) f else f := by
    intro j hj f
    have hmask := ioMask_bit (.fifo d) u hj (show 0 < 8 by decide)
    rw [Nat.add_zero, decide_eq_true (show j < ioWidth (.fifo d) from hj), Bool.true_and, isDirty_ioWriteBytes hd] at hmask
    by_cases h : k ≤ j ∧ j < k + n
    · rw [hmask, if_pos (decide_eq_true (by omega)), if_pos h, byteOf_ioShadow d u hj, read_ioWriteBytes hw (by omega) (by omega)]
      congr 2
      omega
    · rw [hmask, if_neg (by rw [decide_eq_true_eq]; omega), if_neg h]
  have h0 := hstep 0 (by decide)
  have h1 := hstep 1 (by decide)
  have h2 := hstep 2 (by decide)
  have h3 := hstep 3 (by decide)
  simp only [ioCommitReg, ioPush, pushedBytes, h0, h1, h2, h3]

theorem fifoPort_written {d : FifoId} {k n : Nat} {v : Word} {s : State} (hd : s.dirty = []) (hw : Memory.wf s.shadow = true)
    (hn : 0 < n) (hk : k + n ≤ 4) :
    fifoWritten d (pushedBytes k n v (getFifo d s)) s (ioCommit (ioWriteBytes (ioOffset (.fifo d) + k) v n s)) := by
  have hfifo : getFifo d (ioWriteBytes (ioOffset (.fifo d) + k) v n s) = getFifo d s := by
    rw [ioWriteBytes_eq]
    cases d <;> rfl
  rw [ioCommit_within_turn (r := .fifo d) hd hn (Nat.le_add_right _ _) (by simp only [ioWidth]; omega), ioCommitReg_fifo hd hw, hfifo,
    ioWriteBytes_eq, fifoWritten]
  have hsame : setFifo d (pushedBytes k n v (getFifo d s)) { s with dirty := [] } = setFifo d (pushedBytes k n v (getFifo d s)) s := by
    rw [← hd]
  rw [← hsame]
  cases d <;> rfl

/-! ## The control registers of the DMA channels (R970, R1002, R1009) -/

theorem setDma_setDma (i : Fin 4) (c d : DmaChannel) (s : State) : setDma i d (setDma i c s) = setDma i d s := by
  simp [setDma]

theorem getDma_ioWriteBytes (i : Fin 4) (o : Nat) (v : Word) (n : Nat) (s : State) :
    getDma i (ioWriteBytes o v n s) = getDma i s := by
  rw [ioWriteBytes_eq]
  rfl

theorem twoBits_cases (x : BitVec 2) : x = 0#2 ∨ x = 1#2 ∨ x = 2#2 ∨ x = 3#2 := by
  revert x
  decide

theorem dmaStart_eq (h : Half) : dmaStart h =
    if h.extractLsb' 12 2 = 0#2 then .immediate else if h.extractLsb' 12 2 = 1#2 then .vblank
    else if h.extractLsb' 12 2 = 2#2 then .hblank else .special := by
  unfold dmaStart
  rcases twoBits_cases (h.extractLsb' 12 2) with e | e | e | e <;> rw [e] <;> rfl

theorem dmaSrcStep_eq (h : Half) : dmaSrcStep h =
    if h.extractLsb' 7 2 = 0#2 then .inc else if h.extractLsb' 7 2 = 1#2 then .dec
    else if h.extractLsb' 7 2 = 2#2 then .fixed else .inc := by
  unfold dmaSrcStep
  rcases twoBits_cases (h.extractLsb' 7 2) with e | e | e | e <;> rw [e] <;> rfl

theorem dmaDstStep_eq (h : Half) : dmaDstStep h =
    if h.extractLsb' 5 2 = 0#2 then .inc else if h.extractLsb' 5 2 = 1#2 then .dec
    else if h.extractLsb' 5 2 = 2#2 then .fixed else if h.getLsbD 9 then .incReload else .inc := by
  unfold dmaDstStep
  rcases twoBits_cases (h.extractLsb' 5 2) with e | e | e | e <;> rw [e] <;> rfl

/-- The count a latch takes: on channel 3 all 16 bits of CNT_L count. -/
theorem dmaCount_eq (i : Fin 4) (cntL : Half) : dmaCount i cntL = latchedCount i cntL := by
  unfold dmaCount latchedCount
  by_cases hi : i = 3
  · have hmod : cntL.toNat % 0x10000 = cntL.toNat := Nat.mod_eq_of_lt cntL.isLt
    have hzero : cntL = 0#16 ↔ cntL.toNat = 0 := by rw [← BitVec.toNat_inj]; rfl
    simp only [hi, if_true, hmod, hzero]
  · simp only [hi, if_false]

theorem dmaLatch_eq (i : Fin 4) (c : DmaChannel) (h : Half) : dmaLatch i { c with cntH := h } = latchedChannel i c h := by
  unfold dmaLatch latchedChannel soundFifoMode
  simp only [dmaStart_eq, dmaSrcStep_eq, dmaDstStep_eq, dmaCount_eq, Bool.or_eq_true, decide_eq_true_eq]

theorem dmaEnableChange_controlled (i : Fin 4) (c : DmaChannel) (h : Half) :
    dmaEnableChange i c.cntH h { c with cntH := h } = channelControlled i c h := by
  unfold dmaEnableChange channelControlled
  cases c.cntH.getLsbD 15 <;> cases h.getLsbD 15
  · rfl
  · exact dmaLatch_eq i c h
  · rfl
  · rfl

theorem ioCommitReg_dmaCntL (i : Fin 4) (s : State) :
    ioCommitReg (.dmaCntL i) (ioShadow (.dmaCntL i) s) (ioMask (.dmaCntL i) s) s =
      setDma i { getDma i s with cntL := committedHalf (.dmaCntL i) (getDma i s).cntL s } s := by
  rw [← narrow_ioMerge rfl]
  rfl

theorem ioCommitReg_dmaCntH (i : Fin 4) (s : State) :
    ioCommitReg (.dmaCntH i) (ioShadow (.dmaCntH i) s) (ioMask (.dmaCntH i) s) s =
      setDma i (channelControlled i (getDma i s) (committedHalf (.dmaCntH i) (getDma i s).cntH s)) s := by
  have hmerge := narrow_ioMerge (r := .dmaCntH i) rfl (getDma i s).cntH s
  have hold : narrow (wide (getDma i s).cntH) = (getDma i s).cntH := by simp [narrow, wide]
  simp only [ioCommitReg, ioSetStored, show ioStored (.dmaCntH i) s = wide (getDma i s).cntH from rfl, hmerge, hold,
    getDma_setDma, setDma_setDma, dmaEnableChange_controlled]

/-- A transaction whose turns set one channel writes that channel alone. -/
theorem channelWritten_of_turns {i : Fin 4} {c : DmaChannel} {o n : Nat} {v : Word} {s : State} (hd : s.dirty = []) (hn : 0 < n)
    (hturns : (touchedRegs o n).foldl ioCommitOne (ioWriteBytes o v n s) = setDma i c (ioWriteBytes o v n s)) :
    channelWritten i c s (ioCommit (ioWriteBytes o v n s)) := by
  rw [ioCommit_ioWriteBytes hd hn, hturns, ioWriteBytes_eq, channelWritten]
  show { s with dma := s.dma.set i c, shadow := _, dirty := [] } = _
  rw [← hd]

theorem channelControl_written {i : Fin 4} {o n : Nat} {v : Word} {h : Half} {s : State} (hd : s.dirty = []) (hn : 0 < n)
    (hlo : 0x0BA + 12 * i.val ≤ o) (hhi : o + n ≤ 0x0BA + 12 * i.val + 2)
    (hh : committedHalf (.dmaCntH i) (getDma i s).cntH (ioWriteBytes o v n s) = h) :
    channelWritten i (channelControlled i (getDma i s) h) s (ioCommit (ioWriteBytes o v n s)) := by
  apply channelWritten_of_turns hd hn
  rw [touchedRegs_within (r := .dmaCntH i) hn hlo hhi, List.foldl_cons, List.foldl_nil,
    ioCommitOne_within (r := .dmaCntH i) hd hn hlo hhi, ioCommitReg_dmaCntH, getDma_ioWriteBytes, hh]

theorem touchedRegs_channel (i : Fin 4) : touchedRegs (0x0B8 + 12 * i.val) 4 = [.dmaCntL i, .dmaCntH i] := by
  revert i
  decide

/-- A word to CNT_L writes the count first, so that the latch takes it. -/
theorem channelWord_written {i : Fin 4} {v : Word} {s : State} (hd : s.dirty = []) (hw : Memory.wf s.shadow = true) :
    channelWritten i (channelControlled i { getDma i s with cntL := v.extractLsb' 0 16 } (v.extractLsb' 16 16)) s
      (ioCommit (ioWriteBytes (0x0B8 + 12 * i.val) v 4 s)) := by
  apply channelWritten_of_turns hd (by decide)
  have hlow : ioCommitOne (ioWriteBytes (0x0B8 + 12 * i.val) v 4 s) (.dmaCntL i) =
      setDma i { getDma i s with cntL := v.extractLsb' 0 16 } (ioWriteBytes (0x0B8 + 12 * i.val) v 4 s) := by
    have hdirty : isDirty (ioWriteBytes (0x0B8 + 12 * i.val) v 4 s) (ioOffset (.dmaCntL i) + 0) = true :=
      isDirty_touched hd (Nat.le_refl _) (by simp only [ioOffset]; omega)
    rw [ioCommitOne_dirty Nat.zero_lt_two hdirty, ioCommitReg_dmaCntL, getDma_ioWriteBytes,
      committedHalf_wide hd hw (j := 0) v _ rfl (by decide)]
  have hhigh : isDirty (ioCommitOne (ioWriteBytes (0x0B8 + 12 * i.val) v 4 s) (.dmaCntL i)) (ioOffset (.dmaCntH i) + 0) = true := by
    rw [isDirty, (ioCommitOne_io _ _).2]
    exact isDirty_touched hd (by simp only [ioOffset]; omega) (by simp only [ioOffset]; omega)
  rw [touchedRegs_channel, List.foldl_cons, List.foldl_cons, List.foldl_nil, ioCommitOne_dirty Nat.zero_lt_two hhigh,
    ioCommitReg_dmaCntH, committedHalf_congr _ _ (ioCommitOne_io _ _).1 (ioCommitOne_io _ _).2,
    committedHalf_wide hd hw (j := 2) v _ (by simp only [ioOffset]; omega) (by decide), hlow, getDma_setDma, setDma_setDma]

theorem dmaCopy_eq (c : DmaChannel) (s : State) : dmaCopy c s = unitCopied c s := by
  unfold dmaCopy unitCopied
  cases c.size <;> rfl

theorem dmaStep_eq (i : Fin 4) (s : State) : dmaStep i s = dmaUnitDone i (unitCopied (getDma i s) s) := by
  rw [dmaStep, dmaCopy_eq]

end Sys2Proof.Machine

namespace Sys2Proof.Proofs

open Sys2Proof.Machine Sys2Proof.Safety

/-- Settles O48: a transaction within a port pushes its bytes in order, and one on SOUNDCNT_H is its turn, whose two resets reach
the waiting channels that serve the FIFO. -/
theorem fifoQueues : Obligations.FifoQueues := by
  unfold Obligations.FifoQueues
  refine ⟨fun _ _ => rfl, fun _ => rfl, fun d k v s hk hd hw => ?_, fun b h v s hd hw => ?_⟩
  · have hport : ioOffset (.fifo d) % 4 = 0 ∧ ioOffset (.fifo d) + 4 ≤ 0x400 := by cases d <;> decide
    obtain ⟨haligned, hin⟩ := hport
    intro p f push
    refine ⟨?_, fun heven => ?_, fun hzero => ?_⟩
    · have hbytes : pushedBytes k 1 v f = push 0 f := by
        have hcases : k = 0 ∨ k = 1 ∨ k = 2 ∨ k = 3 := by omega
        rcases hcases with rfl | rfl | rfl | rfl <;> rfl
      rw [setWidth_byte, write8_io (route_ioAddress (by omega)), ← hbytes]
      exact fifoPort_written hd hw (by decide) (by omega)
    · have hbytes : pushedBytes k 2 v f = push 1 (push 0 f) := by
        have hcases : k = 0 ∨ k = 2 := by omega
        rcases hcases with rfl | rfl <;> rfl
      rw [setWidth_half, write16_ioAddress (by omega) (by omega), ← hbytes]
      exact fifoPort_written hd hw (by decide) (by omega)
    · subst hzero
      rw [write32_ioAddress (by omega) (by omega)]
      exact fifoPort_written (n := 4) hd hw (by decide) (by decide)
  · intro old
    have hbit : ∀ {o n : Nat} {v : Word} (t : Nat), t < 8 → highBitWritten (ioWriteBytes o v n s) t =
        (decide (o ≤ 0x083 ∧ 0x083 < o + n) && v.getLsbD (8 * (0x083 - o) + t)) := fun t => highBitWritten_ioWriteBytes hd hw
    refine ⟨?_, ?_, ?_, ?_⟩
    · rw [write16_ioAddress_half (by decide) (by decide)]
      refine soundcntH_controlled hd (by decide) (by decide) (by decide) (committedHalf_half hd hw rfl h _) ?_ ?_
      · rw [hbit 3 (by decide)]
        simp [wide]
      · rw [hbit 7 (by decide)]
        simp [wide]
    · rw [write8_ioAddress (by decide)]
      refine soundcntH_controlled hd (by decide) (by decide) (by decide) (committedHalf_byte1 hd hw rfl b _) ?_ ?_
      · rw [hbit 3 (by decide)]
        simp
      · rw [hbit 7 (by decide)]
        simp
    · rw [write8_ioAddress (by decide)]
      exact soundcntH_controlled hd (by decide) (by decide) (by decide) (committedHalf_byte0 hd hw rfl b _)
        (hbit 3 (by decide)) (hbit 7 (by decide))
    · rw [write32_ioAddress (by decide) (by decide)]
      exact soundWord_controlled hd hw

/-- Settles O49: the turn of CNT_H stores it and follows the change of its enable bit. -/
theorem dmaEnable : Obligations.DmaEnable := by
  unfold Obligations.DmaEnable
  refine ⟨fun i b h v s hd hw => ?_, fun i s => ?_⟩
  · have hi := i.isLt
    intro c o
    refine ⟨?_, ?_, ?_, ?_⟩
    · rw [write16_ioAddress_half (by omega) (by omega)]
      exact channelControl_written hd (by decide) (by omega) (by omega)
        (committedHalf_half hd hw (by simp only [ioOffset]; omega) h _)
    · rw [write8_ioAddress (by omega)]
      exact channelControl_written hd (by decide) (by omega) (by omega)
        (committedHalf_byte0 hd hw (by simp only [ioOffset]; omega) b _)
    · rw [write8_ioAddress (by omega)]
      exact channelControl_written hd (by decide) (by omega) (by omega)
        (committedHalf_byte1 hd hw (by simp only [ioOffset]; omega) b _)
    · rw [write32_ioAddress (by omega) (by omega)]
      exact channelWord_written hd hw
  · intro u hphase
    rw [dmaStep_eq]
    exact if_neg hphase

end Sys2Proof.Proofs

/-! SUPPORT and proofs. The units of a DMA channel and the promotion phase (62_dma.md R1004 to R1011, R1023). -/

namespace Sys2Proof.Machine

open Sys2Proof.Safety

/-! ## A channel that stays Active keeps what it latched -/

/-- Where the second channel is Active it is the first with other registers: no latched field has changed. -/
def latchKept (c c' : DmaChannel) : Prop :=
  c'.phase = .active → c' = { c with sad := c'.sad, dad := c'.dad, cntL := c'.cntL, cntH := c'.cntH }

/-- Every channel that is Active has kept what it latched. -/
def latchesKept (s t : State) : Prop := ∀ i, latchKept (getDma i s) (getDma i t)

theorem latchesKept_of_dma {s t : State} (h : t.dma = s.dma) : latchesKept s t := by
  intro i _
  unfold getDma
  rw [h]

theorem latchesKept.trans {s t u : State} (h : latchesKept s t) (k : latchesKept t u) : latchesKept s u := by
  intro i hu
  have htu := k i hu
  have ht : (getDma i t).phase = .active := by rwa [htu] at hu
  rw [htu, h i ht]

theorem latchesKept_setDma {i : Fin 4} {c : DmaChannel} {s : State} (h : latchKept (getDma i s) c) : latchesKept s (setDma i c s) := by
  intro j
  by_cases hj : j = i
  · subst hj
    rwa [getDma_setDma]
  · rw [getDma_setDma_ne hj]
    exact fun _ => rfl

theorem latchKept_dmaTrigger (c : DmaChannel) : latchKept c (dmaTrigger c) := by
  unfold dmaTrigger
  split
  · intro h
    cases h
  · exact fun _ => rfl

theorem latchKept_dmaEnableChange (i : Fin 4) (old new : Half) (c : DmaChannel) : latchKept c (dmaEnableChange i old new c) := by
  unfold dmaEnableChange
  split
  · intro h
    cases h
  · intro h
    cases h
  · exact fun _ => rfl

theorem latchesKept_triggerIf (p : Fin 4 → State → Bool) (i : Fin 4) (s : State) : latchesKept s (triggerIf p i s) := by
  unfold triggerIf
  split
  · exact latchesKept_setDma (latchKept_dmaTrigger _)
  · exact latchesKept_of_dma rfl

theorem latchesKept_fifoReset (d : FifoId) (s : State) : latchesKept s (fifoReset d s) := by
  have hfifo : latchesKept s (setFifo d { getFifo d s with bytes := [] } s) := latchesKept_of_dma (by cases d <;> rfl)
  unfold fifoReset triggerAll
  generalize setFifo d { getFifo d s with bytes := [] } s = u at hfifo
  exact (((hfifo.trans (latchesKept_triggerIf _ 0 _)).trans (latchesKept_triggerIf _ 1 _)).trans
    (latchesKept_triggerIf _ 2 _)).trans (latchesKept_triggerIf _ 3 _)

theorem latchesKept_ioSetStored (r : IoReg) (v : Word) (s : State) : latchesKept s (ioSetStored r v s) := by
  cases r with
  | dmaSad i | dmaDad i | dmaCntL i | dmaCntH i => exact latchesKept_setDma fun _ => rfl
  | _ => exact latchesKept_of_dma rfl

theorem latchesKept_ioCommitReg (r : IoReg) (value mask : Word) (s : State) : latchesKept s (ioCommitReg r value mask s) := by
  have hstored := latchesKept_ioSetStored r (ioMerge r (ioStored r s) value mask) s
  cases r with
  | fifo d => exact latchesKept_of_dma (by cases d <;> rfl)
  | ifl => exact latchesKept_of_dma rfl
  | dmaCntH i => exact hstored.trans (latchesKept_setDma (latchKept_dmaEnableChange _ _ _ _))
  | tmCntH i => exact hstored.trans (latchesKept_of_dma rfl)
  | soundcntH =>
    unfold ioCommitReg
    dsimp only
    split <;> split
    · exact (hstored.trans (latchesKept_fifoReset _ _)).trans (latchesKept_fifoReset _ _)
    · exact hstored.trans (latchesKept_fifoReset _ _)
    · exact hstored.trans (latchesKept_fifoReset _ _)
    · exact hstored
  | _ => exact hstored

theorem latchesKept_ioCommit_fold (rs : List IoReg) : ∀ s, latchesKept s (rs.foldl ioCommitOne s) := by
  induction rs with
  | nil => exact fun _ => latchesKept_of_dma rfl
  | cons r rs ih =>
    intro s
    have hone : latchesKept s (ioCommitOne s r) := by
      unfold ioCommitOne
      dsimp only
      split
      · exact latchesKept_of_dma rfl
      · exact latchesKept_ioCommitReg _ _ _ s
    exact hone.trans (ih _)

theorem latchesKept_ioCommit (s : State) : latchesKept s (ioCommit s) := by
  unfold ioCommit
  split
  · exact latchesKept_of_dma rfl
  · exact (latchesKept_ioCommit_fold allIoRegs s).trans (latchesKept_of_dma rfl)

theorem putByte_dma (a : Word) (b : Byte) (s : State) : (putByte a b s).dma = s.dma := by
  have hbackup : ∀ o (s : State), (backupWrite o b s).dma = s.dma := by
    intro o s
    unfold backupWrite backupStore
    split
    · rfl
    · repeat' split
      all_goals rfl
  unfold putByte
  split
  case h_5 => exact hbackup _ s
  all_goals rfl

theorem latchesKept_write16 (a : Word) (v : Half) (s : State) : latchesKept s (write16 a v s) :=
  (latchesKept_of_dma (by rw [putByte_dma, putByte_dma])).trans (latchesKept_ioCommit _)

theorem latchesKept_write32 (a v : Word) (s : State) : latchesKept s (write32 a v s) :=
  (latchesKept_of_dma (by rw [putByte_dma, putByte_dma, putByte_dma, putByte_dma])).trans (latchesKept_ioCommit _)

theorem Drew.dma {s t : State} (h : Drew s t) : t.dma = s.dma := by
  obtain ⟨n, rfl⟩ := h
  rfl

/-- The copy of a unit leaves every channel that is Active after it with what it latched. -/
theorem latchesKept_unitCopied (c : DmaChannel) (s : State) : latchesKept s (unitCopied c s) := by
  unfold unitCopied
  split
  · exact (latchesKept_of_dma (read32_drew _ s).dma).trans (latchesKept_write32 _ _ _)
  · exact (latchesKept_of_dma (read16_drew _ s).dma).trans (latchesKept_write16 _ _ _)

/-! ## The bookkeeping of a unit (R1006 to R1011) -/

theorem dmaAdjust_eq (a : Word) (size : UnitSize) (m : AddrStep) : dmaAdjust a size m = movedBy a size m := by
  cases size <;> cases m <;> rfl

/-- A channel after a unit that leaves it Active. -/
def movedChannel (c : DmaChannel) : DmaChannel :=
  { c with
    curSrc := movedBy c.curSrc c.size c.srcStep, curDst := movedBy c.curDst c.size c.dstStep, count := c.count - 1 }

/-- The channel of before the copy may stand for the one after it in the bookkeeping. -/
theorem movedChannel_of_latchKept {c c' : DmaChannel} (h : latchKept c c') (hactive : c'.phase = .active) :
    movedChannel c' = { c' with
      curSrc := movedBy c.curSrc c.size c.srcStep, curDst := movedBy c.curDst c.size c.dstStep, count := c.count - 1 } ∧
    c'.count = c.count ∧ c'.irq = c.irq ∧ c'.rep = c.rep ∧ c'.start = c.start ∧ c'.dstStep = c.dstStep := by
  have hlatch := h hactive
  unfold movedChannel
  rw [hlatch]
  exact ⟨rfl, rfl, rfl, rfl, rfl, rfl⟩

theorem dmaUnitDone_active {i : Fin 4} {s : State} (h : (getDma i s).phase = .active) : dmaUnitDone i s =
    if (getDma i s).count - 1 = 0 then dmaComplete i (setDma i (movedChannel (getDma i s)) s)
    else setDma i (movedChannel (getDma i s)) s := by
  unfold dmaUnitDone
  simp only [if_pos h, dmaAdjust_eq]
  rfl

/-- A channel after its last unit: rearmed, or ended. -/
def completedChannel (i : Fin 4) (c : DmaChannel) : DmaChannel :=
  if c.rep = true ∧ (c.start ≠ .immediate ∨ Config.immediateRearm = true) then
    { c with
      count := if c.start = .special ∧ (i = 1 ∨ i = 2) then 4 else latchedCount i c.cntL
      curDst := if c.dstStep = .incReload then c.dad else c.curDst
      phase := .wait }
  else { c with cntH := c.cntH &&& 0x7FFF#16, phase := .idle }

theorem dmaComplete_eq (i : Fin 4) (s : State) : dmaComplete i s =
    setDma i (completedChannel i (getDma i s)) (if (getDma i s).irq then raiseIrq (8 + i.val) s else s) := by
  have hchannel : getDma i (if (getDma i s).irq then raiseIrq (8 + i.val) s else s) = getDma i s := by
    split <;> rfl
  unfold dmaComplete completedChannel soundFifoMode
  simp only [hchannel, dmaCount_eq, decide_eq_true_eq]
  split <;> rfl

/-! ## Promotion (R1004, R1005, R1023) -/

theorem startObserved_iff (i : Fin 4) (s : State) : startObserved i s = true ↔ startsNow s i := by
  have hcases : ∀ o : Option FifoId, o = none ∨ o = some .a ∨ o = some .b := by
    intro o
    rcases o with _ | d
    · exact .inl rfl
    · cases d
      · exact .inr (.inl rfl)
      · exact .inr (.inr rfl)
  have ha := servedFifo_eq_some_iff i (getDma i s) .a
  have hb := servedFifo_eq_some_iff i (getDma i s) .b
  unfold startObserved fifoRequest startsNow
  rw [Bool.or_eq_true, decide_eq_true_eq]
  apply or_congr_right
  rcases hcases (servedFifo i (getDma i s)) with e | e | e <;> rw [e] at ha hb ⊢
  · simp only [reduceCtorEq, false_iff] at ha hb
    simp only [Bool.false_eq_true, false_iff]
    tauto
  · have hserved := ha.mp rfl
    simp only [decide_eq_true_eq, hserved, true_and]
    simp [getFifo]
  · have hserved := hb.mp rfl
    simp only [decide_eq_true_eq, hserved, true_and]
    simp [getFifo]

theorem readsOwnChannel_startObserved : readsOwnChannel startObserved := by
  intro i s d h
  have hfifo : ∀ id, getFifo id { s with dma := d } = getFifo id s := by
    intro id
    cases id <;> rfl
  unfold startObserved fifoRequest
  simp only [h, hfifo]

/-- Which channel the grant takes. -/
theorem dmaGrant_phase (i : Fin 4) (s : State) : getDma i (dmaGrant s) =
    if (∀ j, (getDma j s).phase ≠ .active) ∧ (getDma i s).phase = .triggered ∧ ∀ j, j < i → (getDma j s).phase ≠ .triggered then
      { getDma i s with phase := .active }
    else getDma i s := by
  unfold dmaGrant
  split
  · next k hactive =>
    have hk := (firstInPhase_some hactive).1
    rw [if_neg fun h => h.1 k hk]
  · next hactive =>
    have hnone := firstInPhase_none hactive
    split
    · next k hfirst =>
      obtain ⟨hk, hbefore⟩ := firstInPhase_some hfirst
      by_cases hik : i = k
      · subst hik
        rw [getDma_setDma, if_pos ⟨hnone, hk, hbefore⟩]
      · rw [getDma_setDma_ne hik, if_neg]
        rintro ⟨-, hi, hlt⟩
        rcases lt_or_gt_of_ne hik with h | h
        · exact hbefore i h hi
        · exact hlt k h hk
    · next hfirst => rw [if_neg fun h => firstInPhase_none hfirst i h.2.1]

/-- Whether a channel is Triggered before the grant. -/
def triggeredNow (s : State) (i : Fin 4) : Prop :=
  (getDma i s).phase = .triggered ∨ ((getDma i s).phase = .wait ∧ startsNow s i)

theorem getDma_promotion (i : Fin 4) (s : State) :
    getDma i (triggerAll startObserved s) = { getDma i s with phase := (getDma i (triggerAll startObserved s)).phase } ∧
      ((getDma i (triggerAll startObserved s)).phase = .triggered ↔ triggeredNow s i) ∧
      (¬triggeredNow s i → (getDma i (triggerAll startObserved s)).phase = (getDma i s).phase) ∧
      ((getDma i (triggerAll startObserved s)).phase = .active ↔ (getDma i s).phase = .active) := by
  rw [getDma_triggerAll readsOwnChannel_startObserved]
  unfold triggeredNow dmaTrigger
  rw [← startObserved_iff]
  cases startObserved i s with
  | false => simp
  | true =>
    by_cases hwait : (getDma i s).phase = .wait
    · simp [hwait]
    · simp [hwait]

end Sys2Proof.Machine

namespace Sys2Proof.Proofs

open Sys2Proof.Machine Sys2Proof.Safety

/-- Settles O50: a channel that stays Active has kept what it latched, so the bookkeeping reads the channel of before the copy. -/
theorem dmaUnits : Obligations.DmaUnits := by
  unfold Obligations.DmaUnits
  intro i s c u t moved hactive hstays
  obtain ⟨hmoved, hcount, hirq, hrep, hstart, hdst⟩ := movedChannel_of_latchKept (latchesKept_unitCopied c s i) hstays
  have hstep : t = if c.count - 1 = 0 then dmaComplete i (setDma i moved u) else setDma i moved u := by
    rw [← hcount, show moved = movedChannel (getDma i u) from hmoved.symm]
    exact (dmaStep_eq i s).trans (dmaUnitDone_active hstays)
  refine ⟨fun htwo => ?_, fun hone => ?_⟩
  · rw [hstep, if_neg (by omega)]
    rfl
  · have hdone : t = setDma i (completedChannel i moved)
        (if c.irq then raiseIrq (8 + i.val) (setDma i moved u) else setDma i moved u) := by
      rw [hstep, if_pos (by omega), dmaComplete_eq, getDma_setDma, show moved.irq = c.irq from hirq]
    have hchannel : getDma i t = completedChannel i moved := by rw [hdone, getDma_setDma]
    refine ⟨?_, fun j hj => ?_, fun hrepeats => ?_, fun hends => ?_⟩
    · rw [hdone]
      cases c.irq <;> simp [setDma, raiseIrq]
    · rw [hdone, getDma_setDma_ne hj]
      cases c.irq <;> exact getDma_setDma_ne hj _ u
    · rw [hchannel, completedChannel, show moved.rep = c.rep from hrep, show moved.start = c.start from hstart,
        show moved.dstStep = c.dstStep from hdst, if_pos hrepeats]
    · rw [hchannel, completedChannel, show moved.rep = c.rep from hrep, show moved.start = c.start from hstart, if_neg hends]

/-- Settles O51: the trigger pass reads each channel by itself, and the grant takes the first that is Triggered after it. -/
theorem dmaPromotion : Obligations.DmaPromotion := by
  unfold Obligations.DmaPromotion
  intro s t triggered granted
  refine ⟨dmaPromote_frame s, fun i => ?_⟩
  obtain ⟨hrest, htriggered, hother, hactive⟩ := getDma_promotion i s
  have hgranted : granted i ↔ (∀ j, (getDma j (triggerAll startObserved s)).phase ≠ .active) ∧
      (getDma i (triggerAll startObserved s)).phase = .triggered ∧
      ∀ j, j < i → (getDma j (triggerAll startObserved s)).phase ≠ .triggered := by
    have hnone : ∀ j, (getDma j (triggerAll startObserved s)).phase ≠ .active ↔ (getDma j s).phase ≠ .active :=
      fun j => not_congr (getDma_promotion j s).2.2.2
    have hbefore : ∀ j, (getDma j (triggerAll startObserved s)).phase ≠ .triggered ↔ ¬triggered j :=
      fun j => not_congr (getDma_promotion j s).2.1
    simp only [hnone, hbefore, htriggered]
    rfl
  have hgrant : getDma i t = _ := dmaGrant_phase i (triggerAll startObserved s)
  by_cases hg : granted i
  · rw [hgrant, if_pos (hgranted.mp hg)]
    refine ⟨?_, fun _ => rfl, fun hn => absurd hg hn, fun hn => absurd hg.2.1 hn⟩
    rw [hrest]
  · rw [hgrant, if_neg (fun h => hg (hgranted.mpr h))]
    exact ⟨hrest, fun h => absurd h hg, fun _ h => htriggered.mpr h, hother⟩

end Sys2Proof.Proofs

/-! SUPPORT and proofs. The timers (64_timers.md) and the keypad (65_system.md R1255, R1256). -/

namespace Sys2Proof.Machine

open Sys2Proof.Safety

/-! ## Timers -/

theorem prescaler_eq (ctl : Half) : prescaler ctl = divisorOf ctl := by
  have hcases : ∀ x : BitVec 2, x = 0#2 ∨ x = 1#2 ∨ x = 2#2 ∨ x = 3#2 := by decide
  unfold prescaler divisorOf
  rcases hcases (ctl.extractLsb' 0 2) with e | e | e | e <;> rw [e] <;> rfl

/-- A FIFO whose selection bit names timer `i`, which is timer 0 or 1 (R1203). -/
def fifoSelects (i : Fin 4) (k : Nat) (s : State) : Bool :=
  decide (i.val ≤ 1 ∧ (s.sound.cntH.getLsbD k).toNat = i.val)

theorem popIfSelected_eq {i : Fin 4} (hi : i.val ≤ 1) (d : FifoId) (k : Nat) (s : State) :
    popIfSelected d k i s = setFifo d (if fifoSelects i k s then popped (getFifo d s) else getFifo d s) s := by
  have hsame : setFifo d (getFifo d s) s = s := by cases d <;> rfl
  unfold popIfSelected fifoSelects
  by_cases h : (s.sound.cntH.getLsbD k).toNat = i.val
  · rw [if_pos h, if_pos (decide_eq_true ⟨hi, h⟩)]
    rfl
  · rw [if_neg h, if_neg (by simp [h]), hsame]

theorem fifoTick_eq (i : Fin 4) (s : State) : fifoTick i s =
    { s with
      fifoA := if fifoSelects i 10 s then popped s.fifoA else s.fifoA
      fifoB := if fifoSelects i 14 s then popped s.fifoB else s.fifoB } := by
  unfold fifoTick
  by_cases hi : i.val ≤ 1
  · rw [if_pos (by omega), popIfSelected_eq hi, popIfSelected_eq hi]
    rfl
  · have hnone : ∀ k, fifoSelects i k s = false := fun k => decide_eq_false fun h => hi h.1
    rw [if_neg (by omega), hnone, hnone]
    rfl

theorem raiseIrq_if (b : Bool) (n : Nat) (s : State) : (if b then raiseIrq n s else s) =
    { s with irq := { s.irq with ifl := if b then s.irq.ifl ||| 1#16 <<< n else s.irq.ifl } } := by
  cases b <;> rfl

theorem timerOverflow_eq (i : Fin 4) (s : State) : timerOverflow i s = overflowed i s := by
  unfold timerOverflow
  dsimp only
  rw [raiseIrq_if, fifoTick_eq]
  rfl

theorem getTimer_overflowed_ne {i j : Fin 4} (h : j ≠ i) (s : State) : getTimer j (overflowed i s) = getTimer j s :=
  getTimer_setTimer_ne h _ s

/-- A tick below 0xFFFF. -/
theorem timerTick_count {i : Fin 4} {rest : List (Fin 4)} {s : State} (h : (getTimer i s).counter ≠ 0xFFFF#16) :
    timerTick (i :: rest) s = setTimer i { getTimer i s with counter := (getTimer i s).counter + 1#16 } s := by
  rw [timerTick]
  exact if_neg h

/-- A tick at 0xFFFF of a timer with a next one. -/
theorem timerTick_overflow {i j : Fin 4} {rest : List (Fin 4)} {s : State} (h : (getTimer i s).counter = 0xFFFF#16) (hne : j ≠ i) :
    timerTick (i :: j :: rest) s =
      if (getTimer j s).ctl.getLsbD 2 = true ∧ (getTimer j s).ctl.getLsbD 7 = true then timerTick (j :: rest) (overflowed i s)
      else overflowed i s := by
  rw [timerTick]
  simp only [if_pos h, timerOverflow_eq, getTimer_overflowed_ne hne, cascades, Bool.and_eq_true]

theorem timerTick_overflow_last {i : Fin 4} {s : State} (h : (getTimer i s).counter = 0xFFFF#16) :
    timerTick [i] s = overflowed i s := by
  rw [timerTick]
  simp only [if_pos h, timerOverflow_eq]

/-- A chain starts at its timer. -/
theorem timerChain_head (i : Fin 4) : ∃ rest, timerChain i = i :: rest := by
  match i with
  | 0 => exact ⟨[1, 2, 3], rfl⟩
  | 1 => exact ⟨[2, 3], rfl⟩
  | 2 => exact ⟨[3], rfl⟩
  | 3 => exact ⟨[], rfl⟩

/-- A chain is its timer and the chain of the next one, if there is one. -/
theorem timerChain_next (i : Fin 4) :
    (∃ j : Fin 4, j.val = i.val + 1 ∧ timerChain i = i :: timerChain j) ∨ (i.val = 3 ∧ timerChain i = [i]) := by
  match i with
  | 0 => exact .inl ⟨1, rfl, rfl⟩
  | 1 => exact .inl ⟨2, rfl, rfl⟩
  | 2 => exact .inl ⟨3, rfl, rfl⟩
  | 3 => exact .inr ⟨rfl, rfl⟩

/-! ## The keypad -/

theorem bits_ne_zero_iff {n : Nat} (x : BitVec n) : x ≠ 0#n ↔ ∃ k, k < n ∧ x.getLsbD k = true := by
  constructor
  · intro h
    by_contra hnone
    apply h
    apply BitVec.eq_of_getLsbD_eq
    intro k hk
    rw [BitVec.getLsbD_zero]
    exact Bool.eq_false_iff.mpr fun hbit => hnone ⟨k, hk, hbit⟩
  · rintro ⟨k, _, hbit⟩ rfl
    rw [BitVec.getLsbD_zero] at hbit
    cases hbit

theorem keyMask_bit (keys : List Key) {k : Nat} (hk : k < 10) :
    (keyMask keys).getLsbD k = true ↔ ∃ key ∈ keys, keyBit key = k := by
  have hone : ∀ key : Key, (1#10 <<< keyBit key).getLsbD k = true ↔ keyBit key = k := by
    intro key
    have hall : ∀ k < 10, (1#10 <<< keyBit key).getLsbD k = true ↔ keyBit key = k := by cases key <;> decide
    exact hall k hk
  induction keys with
  | nil => simp [keyMask]
  | cons key keys ih =>
    rw [keyMask, BitVec.getLsbD_or, Bool.or_eq_true, List.exists_mem_cons_iff]
    exact or_congr (hone key) ih

/-- KEYINPUT of a frame holds 0 exactly for the pressed keys. -/
theorem keyinput_bit (keys : List Key) {k : Nat} (hk : k < 10) :
    (0x3FF#10 &&& ~~~keyMask keys).getLsbD k = true ↔ ¬∃ key ∈ keys, keyBit key = k := by
  have hones : ∀ k < 10, (0x3FF#10).getLsbD k = true := by decide
  rw [← keyMask_bit keys hk, BitVec.getLsbD_and, BitVec.getLsbD_not, hones k hk, decide_eq_true hk]
  simp

/-- The interrupt condition of KEYCNT, bit by bit. -/
theorem keypadIrq_iff (old new : BitVec 10) (keycnt : Half) : keypadIrq old new keycnt = true ↔
    keycnt.getLsbD 14 = true ∧
      (∃ k, k < 10 ∧ keycnt.getLsbD k = true ∧ old.getLsbD k = true ∧ new.getLsbD k = false) ∧
      (keycnt.getLsbD 15 = true → ∀ k, k < 10 → keycnt.getLsbD k = true → new.getLsbD k = false) := by
  have hany : (old &&& ~~~new) &&& keycnt.extractLsb' 0 10 ≠ 0#10 ↔
      ∃ k, k < 10 ∧ keycnt.getLsbD k = true ∧ old.getLsbD k = true ∧ new.getLsbD k = false := by
    rw [bits_ne_zero_iff]
    refine exists_congr fun k => and_congr_right fun hk => ?_
    simp only [BitVec.getLsbD_and, BitVec.getLsbD_not, BitVec.getLsbD_extractLsb', hk, decide_true, Bool.true_and, Nat.zero_add,
      Bool.and_eq_true, Bool.not_eq_true']
    tauto
  have hall : ~~~new &&& keycnt.extractLsb' 0 10 = keycnt.extractLsb' 0 10 ↔
      ∀ k, k < 10 → keycnt.getLsbD k = true → new.getLsbD k = false := by
    have hbit : ∀ k < 10, (~~~new &&& keycnt.extractLsb' 0 10).getLsbD k = (!new.getLsbD k && keycnt.getLsbD k) ∧
        (keycnt.extractLsb' 0 10).getLsbD k = keycnt.getLsbD k := by
      intro k hk
      simp [hk]
    constructor
    · intro h k hk hsel
      have hk' := hbit k hk
      rw [h, hk'.2, hsel, Bool.and_true] at hk'
      simpa using hk'.1
    · intro h
      apply BitVec.eq_of_getLsbD_eq
      intro k hk
      rw [(hbit k hk).1, (hbit k hk).2]
      cases hsel : keycnt.getLsbD k with
      | false => rw [Bool.and_false]
      | true => rw [h k hk hsel]; rfl
  unfold keypadIrq
  simp only [Bool.and_eq_true, Bool.or_eq_true, Bool.not_eq_true', decide_eq_true_eq, hany, hall]
  cases keycnt.getLsbD 15 <;> simp [and_assoc]

end Sys2Proof.Machine

namespace Sys2Proof.Proofs

open Sys2Proof.Machine Sys2Proof.Safety

/-- Settles O52: by the branches of the step, and by the chain of the timers that follow. -/
theorem timerSteps : Obligations.TimerSteps := by
  unfold Obligations.TimerSteps
  refine ⟨fun i s => ?_, fun i s => ?_⟩
  · intro c runs
    simp only [timerStep, prescaler_eq]
    refine ⟨fun h => if_neg h, fun hruns hbelow => ?_, fun hruns hreached => ?_⟩
    · exact (if_pos hruns).trans (if_neg (Nat.not_le.mpr hbelow))
    · exact (if_pos hruns).trans (if_pos hreached)
  · intro c
    refine ⟨fun hcount => ?_, fun hmax => ?_⟩
    · obtain ⟨rest, hchain⟩ := timerChain_head i
      rw [hchain, timerTick_count hcount]
      rfl
    · rcases timerChain_next i with ⟨j, hj, hchain⟩ | ⟨hlast, hchain⟩
      · obtain ⟨rest, hnext⟩ := timerChain_head j
        have htick := timerTick_overflow (rest := rest) hmax (show j ≠ i by omega)
        rw [hchain, hnext, htick]
        refine ⟨fun j' hj' hcascade henabled => ?_, fun hnone => if_neg (hnone j hj)⟩
        obtain rfl : j' = j := by omega
        rw [if_pos ⟨hcascade, henabled⟩, hnext]
      · rw [hchain, timerTick_overflow_last hmax]
        exact ⟨fun j hj => absurd j.isLt (by omega), fun _ => rfl⟩

/-- Settles O57: the mask of the keys bit by bit, and the condition of KEYCNT on it. -/
theorem keypadUpdate : Obligations.KeypadUpdate := by
  unfold Obligations.KeypadUpdate
  intro keys s t old sel pressed condition
  have ht : t = if keypadIrq old (0x3FF#10 &&& ~~~keyMask keys) s.keypad.keycnt then
      raiseIrq 12 { s with keypad := { s.keypad with keyinput := 0x3FF#10 &&& ~~~keyMask keys } }
    else { s with keypad := { s.keypad with keyinput := 0x3FF#10 &&& ~~~keyMask keys } } := rfl
  have hinput : t.keypad.keyinput = 0x3FF#10 &&& ~~~keyMask keys := by
    rw [ht]
    split <;> rfl
  have hpressed : ∀ k, k < 10 → ((0x3FF#10 &&& ~~~keyMask keys).getLsbD k = false ↔ pressed k) := by
    intro k hk
    rw [← Bool.not_eq_true, keyinput_bit keys hk, not_not]
  have hcondition : keypadIrq old (0x3FF#10 &&& ~~~keyMask keys) s.keypad.keycnt = true ↔ condition := by
    rw [keypadIrq_iff]
    refine and_congr_right fun _ => and_congr ?_ ?_
    · exact exists_congr fun k => and_congr_right fun hk => by rw [hpressed k hk]
    · exact imp_congr_right fun _ => forall_congr' fun k => imp_congr_right fun hk => imp_congr_right fun _ => hpressed k hk
  refine ⟨fun k hk => ?_, fun h => ?_, fun h => ?_, ?_⟩
  · rw [hinput]
    exact keyinput_bit keys hk
  · rw [ht, if_pos (hcondition.mpr h)]
    rfl
  · rw [ht, if_neg (fun hirq => h (hcondition.mp hirq))]
  · rw [ht]
    split <;> rfl

end Sys2Proof.Proofs

/-! SUPPORT and proofs. The counters, the status flags, the snapshot and the rendered lines of the picture processor (63_ppu.md R1100
to R1107, R1114). -/

namespace Sys2Proof.Machine

open Sys2Proof.Safety

/-! ## The list of rendered lines -/

theorem frameLine_putLine_same (y : Nat) (ps : List Pixel) : ∀ l, frameLine y (putLine y ps l) = some ps
  | [] => if_pos rfl
  | (k, qs) :: rest => by
    unfold putLine
    split
    · exact if_pos rfl
    · split
      · exact if_pos rfl
      · next hne => exact (if_neg (fun h => hne h.symm)).trans (frameLine_putLine_same y ps rest)

theorem frameLine_putLine_ne {y z : Nat} (h : z ≠ y) (ps : List Pixel) : ∀ l, frameLine z (putLine y ps l) = frameLine z l
  | [] => if_neg fun e => h e.symm
  | (k, qs) :: rest => by
    unfold putLine
    split
    · exact if_neg fun e => h e.symm
    · split
      · next hk =>
        subst hk
        exact (if_neg fun e => h e.symm).trans (if_neg fun e => h e.symm).symm
      · unfold frameLine
        rw [frameLine_putLine_ne h ps rest]

/-! ## The flags of DISPSTAT (R1102, R1103) -/

theorem withFlags_bit (d : Half) (vb hb vm : Bool) {k : Nat} (hk : k < 16) : (withFlags d vb hb vm).getLsbD k =
    if k = 0 then vb else if k = 1 then hb else if k = 2 then vm else d.getLsbD k := by
  have hflags : ∀ vb hb vm : Bool, ∀ k < 16,
      (0#13 ++ BitVec.ofBool vm ++ BitVec.ofBool hb ++ BitVec.ofBool vb : Half).getLsbD k =
        if k = 0 then vb else if k = 1 then hb else if k = 2 then vm else false := by decide
  have hmask : ∀ k < 16, (0xFFF8#16).getLsbD k = decide (3 ≤ k) := by decide
  rw [withFlags, BitVec.getLsbD_or, BitVec.getLsbD_and, hflags vb hb vm k hk, hmask k hk]
  by_cases h : 3 ≤ k
  · rw [decide_eq_true h, if_neg (by omega), if_neg (by omega), if_neg (by omega), if_neg (by omega), if_neg (by omega),
      if_neg (by omega), Bool.and_true, Bool.or_false]
  · have hcases : k = 0 ∨ k = 1 ∨ k = 2 := by omega
    rw [decide_eq_false h, Bool.and_false, Bool.false_or]
    rcases hcases with rfl | rfl | rfl <;> rfl

theorem statusRise_frame (prev new enable : Bool) (n : Nat) (start : Option DmaStart) (s : State) :
    ∃ x y, statusRise prev new enable n start s = { s with irq := x, dma := y } := by
  have hraise : ∃ x, (if enable then raiseIrq n s else s) = { s with irq := x } := by
    cases enable
    · exact ⟨s.irq, rfl⟩
    · exact ⟨_, rfl⟩
  obtain ⟨x, hx⟩ := hraise
  unfold statusRise
  split
  · rw [hx]
    cases start with
    | none => exact ⟨x, s.dma, rfl⟩
    | some d => exact ⟨x, _, triggerAll_frame _ _⟩
  · exact ⟨s.irq, s.dma, rfl⟩

theorem statusRise_irq (prev new enable : Bool) (n : Nat) (start : Option DmaStart) (s : State) :
    (statusRise prev new enable n start s).irq =
      { s.irq with ifl := if prev = false ∧ new = true ∧ enable = true then s.irq.ifl ||| 1#16 <<< n else s.irq.ifl } := by
  have hraise : (if enable then raiseIrq n s else s).irq =
      { s.irq with ifl := if enable = true then s.irq.ifl ||| 1#16 <<< n else s.irq.ifl } := by
    cases enable <;> rfl
  unfold statusRise
  split
  · next h =>
    have htrigger : ∀ p u, (triggerAll p u).irq = u.irq := by
      intro p u
      rw [triggerAll_frame]
    simp only [h.1, h.2, true_and]
    cases start with
    | none => exact hraise
    | some d => exact (htrigger _ _).trans hraise
  · next h => rw [if_neg (fun e => h ⟨e.1, e.2.1⟩)]

theorem readsOwnChannel_start (d : DmaStart) : readsOwnChannel fun i t => decide ((getDma i t).start = d) := by
  intro i s dma h
  dsimp only
  rw [h]

theorem getDma_statusRise (prev new enable : Bool) (n : Nat) (d : DmaStart) (i : Fin 4) (s : State) :
    getDma i (statusRise prev new enable n (some d) s) =
      if (prev = false ∧ new = true) ∧ (getDma i s).start = d then dmaTrigger (getDma i s) else getDma i s := by
  have hraise : getDma i (if enable then raiseIrq n s else s) = getDma i s := by cases enable <;> rfl
  unfold statusRise
  split
  · next h =>
    rw [getDma_triggerAll (readsOwnChannel_start d), hraise]
    simp only [decide_eq_true_eq, h, and_self, true_and]
  · next h => rw [if_neg fun e => h e.1]

theorem getDma_statusRise_none (prev new enable : Bool) (n : Nat) (i : Fin 4) (s : State) :
    getDma i (statusRise prev new enable n none s) = getDma i s := by
  have hraise : getDma i (if enable then raiseIrq n s else s) = getDma i s := by cases enable <;> rfl
  unfold statusRise
  split
  · exact hraise
  · rfl

/-- DISPSTAT with the flags of the counters. -/
def statusNow (s : State) : Half :=
  withFlags s.ppu.dispstat (decide (160 ≤ s.ppu.vcount)) (decide (960 ≤ s.ppu.lc))
    (decide (s.ppu.vcount = (s.ppu.dispstat.extractLsb' 8 8).toNat))

/-- The status update changes the flags of DISPSTAT, the interrupt flags and the channels alone. -/
theorem updateStatus_frame (s : State) :
    ∃ x y, updateStatus s = { s with irq := x, dma := y, ppu := { s.ppu with dispstat := statusNow s } } := by
  unfold updateStatus
  dsimp only
  obtain ⟨x1, y1, h1⟩ := statusRise_frame (s.ppu.dispstat.getLsbD 0) (decide (160 ≤ s.ppu.vcount)) (s.ppu.dispstat.getLsbD 3) 0
    (some .vblank) s
  rw [h1]
  obtain ⟨x2, y2, h2⟩ := statusRise_frame (s.ppu.dispstat.getLsbD 1) (decide (960 ≤ s.ppu.lc)) (s.ppu.dispstat.getLsbD 4) 1
    (some .hblank) { s with irq := x1, dma := y1 }
  rw [h2]
  obtain ⟨x3, y3, h3⟩ := statusRise_frame (s.ppu.dispstat.getLsbD 2) (decide (s.ppu.vcount = fieldOf s.ppu.dispstat 8 8))
    (s.ppu.dispstat.getLsbD 5) 2 none { s with irq := x2, dma := y2 }
  rw [h3]
  exact ⟨x3, y3, rfl⟩

/-- A bit of IF after a raise. -/
theorem raised_bit (c : Prop) [Decidable c] (x : Half) (n : Nat) {k : Nat} (hk : k < 16) :
    (if c then x ||| 1#16 <<< n else x).getLsbD k = true ↔ x.getLsbD k = true ∨ (k = n ∧ c) := by
  have hone : (1#16 <<< n).getLsbD k = decide (k = n) := by
    rw [BitVec.getLsbD_shiftLeft, decide_eq_true hk, Bool.true_and, BitVec.getLsbD_one]
    by_cases h : k = n
    · simp [h]
    · rw [decide_eq_false h]
      by_cases hlt : k < n
      · simp [hlt]
      · simp [hlt]
        omega
  split
  · next h => rw [BitVec.getLsbD_or, hone]; simp [h]
  · next h => simp [h]

theorem updateStatus_irq (s : State) :
    let d := s.ppu.dispstat
    (updateStatus s).irq.ie = s.irq.ie ∧ (updateStatus s).irq.ime = s.irq.ime ∧
    ∀ k, k < 16 → ((updateStatus s).irq.ifl.getLsbD k = true ↔ s.irq.ifl.getLsbD k = true ∨
      (k = 0 ∧ d.getLsbD 0 = false ∧ decide (160 ≤ s.ppu.vcount) = true ∧ d.getLsbD 3 = true) ∨
      (k = 1 ∧ d.getLsbD 1 = false ∧ decide (960 ≤ s.ppu.lc) = true ∧ d.getLsbD 4 = true) ∨
      (k = 2 ∧ d.getLsbD 2 = false ∧ decide (s.ppu.vcount = (d.extractLsb' 8 8).toNat) = true ∧ d.getLsbD 5 = true)) := by
  intro d
  unfold updateStatus setPpu
  dsimp only
  rw [statusRise_irq, statusRise_irq, statusRise_irq]
  refine ⟨rfl, rfl, fun k hk => ?_⟩
  rw [raised_bit _ _ 2 hk, raised_bit _ _ 1 hk, raised_bit _ _ 0 hk, fieldOf]
  tauto

theorem getDma_updateStatus (i : Fin 4) (s : State) : getDma i (updateStatus s) =
    let c := getDma i s
    if c.phase = .wait ∧ ((c.start = .vblank ∧ s.ppu.dispstat.getLsbD 0 = false ∧ decide (160 ≤ s.ppu.vcount) = true) ∨
      (c.start = .hblank ∧ s.ppu.dispstat.getLsbD 1 = false ∧ decide (960 ≤ s.ppu.lc) = true)) then { c with phase := .triggered }
    else c := by
  have hstart : (dmaTrigger (getDma i s)).start = (getDma i s).start := by rw [dmaTrigger_kept]
  have hupdate : getDma i (updateStatus s) = getDma i (statusRise (s.ppu.dispstat.getLsbD 1) (decide (960 ≤ s.ppu.lc))
      (s.ppu.dispstat.getLsbD 4) 1 (some .hblank) (statusRise (s.ppu.dispstat.getLsbD 0) (decide (160 ≤ s.ppu.vcount))
        (s.ppu.dispstat.getLsbD 3) 0 (some .vblank) s)) := getDma_statusRise_none _ _ _ _ _ _
  rw [hupdate, getDma_statusRise, getDma_statusRise]
  dsimp only
  by_cases hv : (s.ppu.dispstat.getLsbD 0 = false ∧ decide (160 ≤ s.ppu.vcount) = true) ∧ (getDma i s).start = .vblank
  · rw [if_pos hv, hstart, if_neg (by simp [hv.2]), dmaTrigger]
    simp only [hv.1, hv.2, and_self, true_or, and_true]
  · rw [if_neg hv]
    by_cases hh : (s.ppu.dispstat.getLsbD 1 = false ∧ decide (960 ≤ s.ppu.lc) = true) ∧ (getDma i s).start = .hblank
    · rw [if_pos hh, dmaTrigger]
      simp only [hh.1, hh.2, and_self, or_true, and_true]
    · rw [if_neg hh, if_neg (by tauto)]

/-! ## The snapshot (R1104) -/

theorem read_shifted (m : Memory) (lo n : Nat) {o : Nat} (ho : o < n) :
    Memory.read ((m.filter (fun c => decide (lo ≤ c.1 ∧ c.1 < lo + n))).map (fun c => (c.1 - lo, c.2))) o =
      Memory.read m (lo + o) := by
  induction m with
  | nil => rfl
  | cons c m ih =>
    obtain ⟨k, b⟩ := c
    by_cases hin : lo ≤ k ∧ k < lo + n
    · rw [List.filter_cons, if_pos (decide_eq_true hin), List.map_cons]
      simp only [Memory.read, ih]
      by_cases hk : k = lo + o
      · rw [if_pos (by omega), if_pos hk]
      · rw [if_neg (by omega), if_neg hk]
    · rw [List.filter_cons, if_neg (by simpa using hin), ih]
      simp only [Memory.read]
      rw [if_neg (by omega)]

/-! ## The step before the status update (R1101) -/

/-- The picture processor before its status update. -/
def wrapped (s : State) : State := lineWrap (lineRendered (lineCounted s))

theorem lineRendered_frame (s : State) : ∃ f n, lineRendered s = { s with ppu := { s.ppu with frame := f }, draws := n } := by
  unfold lineRendered
  split
  · obtain ⟨n, f, h⟩ := renderLine_spec s.ppu.vcount s
    exact ⟨f, _, h⟩
  · exact ⟨s.ppu.frame, s.draws, rfl⟩

theorem lineWrap_lc (s : State) : (lineWrap s).ppu.lc = if s.ppu.lc = 1232 then 0 else s.ppu.lc := by
  unfold lineWrap
  split
  · dsimp only
    split <;> rfl
  · rfl

theorem lineWrap_vcount (s : State) :
    (lineWrap s).ppu.vcount = if s.ppu.lc = 1232 then (s.ppu.vcount + 1) % 228 else s.ppu.vcount := by
  unfold lineWrap
  split
  · dsimp only
    split <;> rfl
  · rfl

/-- The wrap keeps all but the counters and the snapshot. -/
theorem lineWrap_frame (s : State) : ∃ l v o, lineWrap s = { s with ppu := { s.ppu with lc := l, vcount := v, oamSnap := o } } := by
  unfold lineWrap
  split
  · dsimp only
    split
    · exact ⟨_, _, _, rfl⟩
    · exact ⟨_, _, s.ppu.oamSnap, rfl⟩
  · exact ⟨s.ppu.lc, s.ppu.vcount, s.ppu.oamSnap, rfl⟩

theorem lineWrap_oamSnap (s : State) : (lineWrap s).ppu.oamSnap =
    if s.ppu.lc = 1232 ∧ (s.ppu.vcount + 1) % 228 = 0 then (oamSnapshot s).ppu.oamSnap else s.ppu.oamSnap := by
  unfold lineWrap
  by_cases hlc : s.ppu.lc = 1232
  · by_cases hv : (s.ppu.vcount + 1) % 228 = 0
    · simp only [hlc, hv, and_self, if_true]
      rfl
    · simp only [hlc, hv, and_false, if_true, if_false]
      rfl
  · simp only [hlc, false_and, if_false]

/-- What the line's rendering keeps. -/
structure RenderKept (s t : State) : Prop where
  lc : t.ppu.lc = s.ppu.lc
  vcount : t.ppu.vcount = s.ppu.vcount
  dispstat : t.ppu.dispstat = s.ppu.dispstat
  oamSnap : t.ppu.oamSnap = s.ppu.oamSnap
  mem : t.mem = s.mem
  irq : t.irq = s.irq
  dma : t.dma = s.dma

theorem lineRendered_kept (s : State) : RenderKept s (lineRendered s) := by
  obtain ⟨f, n, h⟩ := lineRendered_frame s
  rw [h]
  exact ⟨rfl, rfl, rfl, rfl, rfl, rfl, rfl⟩

theorem updateStatus_ppu (s : State) :
    (updateStatus s).ppu = { s.ppu with dispstat := statusNow s } ∧ (updateStatus s).mem = s.mem ∧
      (updateStatus s).draws = s.draws := by
  obtain ⟨x, y, h⟩ := updateStatus_frame s
  rw [h]
  exact ⟨rfl, rfl, rfl⟩

/-- Before the status update: the counters, and what the line keeps. -/
theorem wrapped_lc (s : State) : (wrapped s).ppu.lc = if s.ppu.lc + 1 = 1232 then 0 else s.ppu.lc + 1 := by
  rw [wrapped, lineWrap_lc, (lineRendered_kept _).lc]
  rfl

theorem wrapped_vcount (s : State) :
    (wrapped s).ppu.vcount = if s.ppu.lc + 1 = 1232 then (s.ppu.vcount + 1) % 228 else s.ppu.vcount := by
  rw [wrapped, lineWrap_vcount, (lineRendered_kept _).lc, (lineRendered_kept _).vcount]
  rfl

theorem wrapped_oamSnap (s : State) : (wrapped s).ppu.oamSnap =
    if s.ppu.lc + 1 = 1232 ∧ (s.ppu.vcount + 1) % 228 = 0 then (oamSnapshot s).ppu.oamSnap else s.ppu.oamSnap := by
  have hkept := lineRendered_kept (lineCounted s)
  have hsnap : (oamSnapshot (lineRendered (lineCounted s))).ppu.oamSnap = (oamSnapshot s).ppu.oamSnap := by
    unfold oamSnapshot setPpu
    dsimp only
    rw [hkept.mem]
    rfl
  rw [wrapped, lineWrap_oamSnap, hkept.lc, hkept.vcount, hkept.oamSnap, hsnap]
  rfl

/-- The wrap keeps what the rendering made of the frame and of the draws. -/
theorem wrapped_frame (s : State) : (wrapped s).ppu.frame = (lineRendered (lineCounted s)).ppu.frame ∧
    (wrapped s).draws = (lineRendered (lineCounted s)).draws := by
  unfold wrapped
  obtain ⟨l, v, o, h⟩ := lineWrap_frame (lineRendered (lineCounted s))
  rw [h]
  exact ⟨rfl, rfl⟩

theorem wrapped_kept (s : State) : (wrapped s).ppu.dispstat = s.ppu.dispstat ∧ (wrapped s).irq = s.irq ∧
    (wrapped s).dma = s.dma ∧ (wrapped s).mem = s.mem := by
  have hkept := lineRendered_kept (lineCounted s)
  unfold wrapped
  obtain ⟨l, v, o, h⟩ := lineWrap_frame (lineRendered (lineCounted s))
  rw [h]
  exact ⟨hkept.dispstat, hkept.irq, hkept.dma, hkept.mem⟩

theorem ppuStep_wrapped (s : State) : ppuStep s = updateStatus (wrapped s) := ppuStep_eq s

/-- The pixels a rendering makes of a line. -/
def linePixels (y : Nat) (s : State) : List Pixel :=
  if displayMode s = 2 ∨ 5 ≤ displayMode s then (drawPixels 240 s).1
  else (List.range 240).map fun x => pixelOf (composed x y s)

theorem renderLine_frame (y : Nat) (s : State) :
    (renderLine y s).ppu.frame = putLine y (linePixels y s) s.ppu.frame := by
  obtain ⟨n, hn⟩ := drawPixels_drew 240 s
  unfold renderLine linePixels
  generalize drawPixels 240 s = drawn at hn
  dsimp only
  split
  · rw [hn]
    rfl
  · rfl

/-- The line of a rendering, and the lines it leaves. -/
theorem frameLine_renderLine (y : Nat) (s : State) : frameLine y (renderLine y s).ppu.frame = some (linePixels y s) := by
  rw [renderLine_frame, frameLine_putLine_same]

theorem frameLine_renderLine_ne {y z : Nat} (h : z ≠ y) (s : State) :
    frameLine z (renderLine y s).ppu.frame = frameLine z s.ppu.frame := by
  rw [renderLine_frame, frameLine_putLine_ne h]

theorem read_oamSnapshot (s : State) {o : Nat} (ho : o < 0x400) :
    Memory.read (oamSnapshot s).ppu.oamSnap o = Memory.read s.mem (0x07000000 + o) :=
  read_shifted s.mem 0x07000000 0x400 ho

end Sys2Proof.Machine

namespace Sys2Proof.Proofs

open Sys2Proof.Machine Sys2Proof.Safety

/-- Settles O53: the count, the rendering at 960 and the wrap at 1232, after which the status update changes none of them. -/
theorem pictureTiming : Obligations.PictureTiming := by
  unfold Obligations.PictureTiming
  intro s hlc hvcount t
  have ht : t = updateStatus (wrapped s) := ppuStep_wrapped s
  have hcpu := ppuStep_cpuKept s
  obtain ⟨hppu, hmem, hdraws⟩ := updateStatus_ppu (wrapped s)
  rw [← ht] at hppu hmem hdraws
  have hlines := wrapped_frame s
  refine ⟨?_, ?_, fun hline hvisible => ?_, fun hnone => ?_, fun hend hlast hwf o ho => ?_, fun hnone => ?_, ?_, hcpu.regs, hcpu.cpsr⟩
  · rw [hppu]
    show (wrapped s).ppu.lc = _
    rw [wrapped_lc]
    split <;> omega
  · rw [hppu]
    show (wrapped s).ppu.vcount = _
    rw [wrapped_vcount]
    split <;> split <;> omega
  · have hrender : lineRendered (lineCounted s) = renderLine s.ppu.vcount (lineCounted s) :=
      if_pos ⟨by show s.ppu.lc + 1 = 960; omega, hvisible⟩
    have hframe : t.ppu.frame = (renderLine s.ppu.vcount (lineCounted s)).ppu.frame := by
      rw [hppu, ← hrender]
      exact hlines.1
    rw [hframe]
    refine ⟨?_, fun y hy => frameLine_renderLine_ne hy _⟩
    rw [frameLine_renderLine]
    exact Option.some_ne_none _
  · have hskip : lineRendered (lineCounted s) = lineCounted s :=
      if_neg fun h => hnone ⟨by have : s.ppu.lc + 1 = 960 := h.1; omega, h.2⟩
    rw [hskip] at hlines
    rw [hppu, hdraws]
    exact hlines
  · rw [hppu]
    show Memory.read (wrapped s).ppu.oamSnap o = _
    rw [wrapped_oamSnap, if_pos (by omega), read_oamSnapshot s ho]
  · rw [hppu]
    show (wrapped s).ppu.oamSnap = _
    rw [wrapped_oamSnap, if_neg (by omega)]
  · rw [hmem]
    exact (wrapped_kept s).2.2.2

/-- Settles O54: the status update compares the flags of before the step with those of the counters after it. -/
theorem statusFlags : Obligations.StatusFlags := by
  unfold Obligations.StatusFlags
  intro s t irq
  have ht : t = updateStatus (wrapped s) := ppuStep_wrapped s
  obtain ⟨hdispstat, hirq, hdma, -⟩ := wrapped_kept s
  obtain ⟨hppu, -, -⟩ := updateStatus_ppu (wrapped s)
  rw [← ht] at hppu
  have hbit : ∀ k < 16, t.ppu.dispstat.getLsbD k = if k = 0 then decide (160 ≤ t.ppu.vcount) else if k = 1 then
      decide (960 ≤ t.ppu.lc) else if k = 2 then decide (t.ppu.vcount = (s.ppu.dispstat.extractLsb' 8 8).toNat)
      else s.ppu.dispstat.getLsbD k := by
    intro k hk
    rw [hppu, ← hdispstat]
    exact withFlags_bit _ _ _ _ hk
  have hv : t.ppu.dispstat.getLsbD 0 = decide (160 ≤ t.ppu.vcount) := hbit 0 (by decide)
  have hh : t.ppu.dispstat.getLsbD 1 = decide (960 ≤ t.ppu.lc) := hbit 1 (by decide)
  have hm : t.ppu.dispstat.getLsbD 2 = decide (t.ppu.vcount = (s.ppu.dispstat.extractLsb' 8 8).toNat) := hbit 2 (by decide)
  have hvcount : (wrapped s).ppu.vcount = t.ppu.vcount := by rw [hppu]
  have hlc : (wrapped s).ppu.lc = t.ppu.lc := by rw [hppu]
  obtain ⟨hie, hime, hifl⟩ := updateStatus_irq (wrapped s)
  rw [← ht, hirq] at hie hime
  rw [← ht, hirq, hdispstat, hvcount, hlc] at hifl
  refine ⟨hv, hh, hm, ?_, fun k hk => ?_, hie, hime, fun i => ?_⟩
  · apply BitVec.eq_of_getLsbD_eq
    intro k hk
    rw [BitVec.getLsbD_extractLsb', BitVec.getLsbD_extractLsb', hbit (3 + k) (by omega), if_neg (by omega), if_neg (by omega),
      if_neg (by omega)]
  · rw [hifl k hk, ← hv, ← hh, ← hm]
    apply or_congr_right
    show _ ↔ k < 3 ∧ (s.ppu.dispstat.getLsbD k = false ∧ t.ppu.dispstat.getLsbD k = true) ∧ s.ppu.dispstat.getLsbD (k + 3) = true
    have hcases : k = 0 ∨ k = 1 ∨ k = 2 ∨ 3 ≤ k := by omega
    rcases hcases with rfl | rfl | rfl | h3
    · simp [and_assoc]
    · simp [and_assoc]
    · simp [and_assoc]
    · simp only [show k ≠ 0 by omega, show k ≠ 1 by omega, show k ≠ 2 by omega, show ¬k < 3 by omega, false_and, or_false]
  · intro c fires
    have hc : getDma i (wrapped s) = c := by
      unfold getDma
      rw [hdma]
      rfl
    have hchannel := getDma_updateStatus i (wrapped s)
    rw [← ht, hc, hdispstat, hvcount, hlc, ← hv, ← hh] at hchannel
    exact ⟨fun h => hchannel.trans (if_pos h), fun h => hchannel.trans (if_neg h)⟩

end Sys2Proof.Proofs

/-! SUPPORT and proofs. The bytes of a rendered line (63_ppu.md R1106, R1107, R1114). -/

namespace Sys2Proof.Machine

open Sys2Proof.Safety

/-- A free pixel: the four bytes from a count of draws on. -/
def freePixel (n : Nat) : Pixel :=
  ⟨Config.freeByte n, Config.freeByte (n + 1), Config.freeByte (n + 2), Config.freeByte (n + 3)⟩

/-- The pixels drawn for a line come from left to right, four draws each. -/
theorem drawPixels_getElem? (n : Nat) : ∀ (x : Nat) (s : State), x < n →
    (drawPixels n s).1[x]? = some (freePixel (s.draws + 4 * x)) := by
  induction n with
  | zero => exact fun x s h => absurd h (Nat.not_lt_zero x)
  | succ n ih =>
    intro x s hx
    cases x with
    | zero => rfl
    | succ x =>
      have hrest := ih x { s with draws := s.draws + 1 + 1 + 1 + 1 } (by omega)
      have hcount : s.draws + 1 + 1 + 1 + 1 + 4 * x = s.draws + 4 * (x + 1) := by omega
      rw [← hcount]
      exact hrest

/-- A byte of the frame buffer on the rendered line. -/
theorem frameBuffer_renderLine {y x c : Nat} {p : Pixel} {s : State} (hx : x < 240) (hc : c < 4)
    (hp : (linePixels y s)[x]? = some p) : frameBuffer (renderLine y s) (4 * (240 * y + x) + c) = pixelByte p c := by
  have hline : (4 * (240 * y + x) + c) / 960 = y := by omega
  have hpoint : (4 * (240 * y + x) + c) % 960 / 4 = x := by omega
  have hbyte : (4 * (240 * y + x) + c) % 4 = c := by omega
  rw [frameBuffer, frameByte, hline, frameLine_renderLine, hpoint, hbyte]
  simp only [hp]

theorem linePixels_composed {y x : Nat} {s : State} (hx : x < 240) (hm : displayMode s ∈ [0, 1, 3, 4]) :
    (linePixels y s)[x]? = some (pixelOf (composed x y s)) := by
  simp only [List.mem_cons, List.not_mem_nil, or_false] at hm
  rw [linePixels, if_neg (by omega), List.getElem?_map, List.getElem?_range hx]
  rfl

theorem displayMode_lt (s : State) : displayMode s < 8 := (s.ppu.dispcnt.extractLsb' 0 3).isLt

theorem linePixels_drawn {y x : Nat} {s : State} (hx : x < 240) (hm : displayMode s ∉ [0, 1, 3, 4]) :
    (linePixels y s)[x]? = some (freePixel (s.draws + 4 * x)) := by
  have hlt := displayMode_lt s
  simp only [List.mem_cons, List.not_mem_nil, or_false] at hm
  rw [linePixels, if_pos (by omega), drawPixels_getElem? 240 x s hx]

theorem renderLine_draws {y : Nat} {s : State} (hm : displayMode s ∈ [0, 1, 3, 4]) : (renderLine y s).draws = s.draws := by
  simp only [List.mem_cons, List.not_mem_nil, or_false] at hm
  unfold renderLine
  dsimp only
  rw [if_neg (by omega)]
  rfl

theorem pixelByte_freePixel (n : Nat) {c : Nat} (hc : c < 4) : pixelByte (freePixel n) c = Config.freeByte (n + c) := by
  have hcases : c = 0 ∨ c = 1 ∨ c = 2 ∨ c = 3 := by omega
  rcases hcases with rfl | rfl | rfl | rfl <;> rfl

end Sys2Proof.Machine

namespace Sys2Proof.Proofs

open Sys2Proof.Machine Sys2Proof.Safety

/-- Settles O55: the rendered line stands in the frame, with its points composed or drawn. -/
theorem renderedLines : Obligations.RenderedLines := by
  unfold Obligations.RenderedLines
  intro y x s _ hx t byte
  refine ⟨fun hm => ?_, fun hm c hc => ?_⟩
  · have hbyte : ∀ c, c < 4 → byte c = pixelByte (pixelOf (composed x y s)) c :=
      fun c hc => frameBuffer_renderLine hx hc (linePixels_composed hx hm)
    generalize composed x y s = colour at hbyte
    exact ⟨hbyte 0 (by decide), hbyte 1 (by decide), hbyte 2 (by decide), hbyte 3 (by decide), renderLine_draws hm⟩
  · have hbyte : byte c = _ := frameBuffer_renderLine hx hc (linePixels_drawn hx hm)
    rw [hbyte, pixelByte_freePixel _ hc]

end Sys2Proof.Proofs

/-! SUPPORT and proofs. What is composed at a point, and the pixel of each layer and sprite (63_ppu.md R1105 to R1120). -/

namespace Sys2Proof.Machine

open Sys2Proof.Safety

/-! ## The sprite that shows (R1117, R1120) -/

/-- The first `n` of a sequence of drawn pixels, placed in order. -/
def placedObjs (f : Nat → Option (Half × Nat)) (n : Nat) : Option (Half × Nat) :=
  (List.range n).foldl (fun cur k => placeObj cur (f k)) none

theorem placedObjs_succ (f : Nat → Option (Half × Nat)) (n : Nat) :
    placedObjs f (n + 1) = placeObj (placedObjs f n) (f n) := by
  rw [placedObjs, List.range_succ, List.foldl_append]
  rfl

theorem placedObjs_none {f : Nat → Option (Half × Nat)} {n : Nat} (h : ∀ k, k < n → f k = none) : placedObjs f n = none := by
  induction n with
  | zero => rfl
  | succ n ih =>
    rw [placedObjs_succ, ih fun k hk => h k (by omega), h n (by omega)]
    rfl

theorem placeObj_some {cur new : Option (Half × Nat)} {v : Half × Nat} (h : placeObj cur new = some v) :
    cur = some v ∨ new = some v := by
  unfold placeObj at h
  split at h
  · exact .inr h
  · split at h
    · exact .inr h
    · exact .inl h
  · exact .inl h

/-- The pixel present was drawn. -/
theorem placedObjs_mem {f : Nat → Option (Half × Nat)} {n : Nat} {v : Half × Nat} (h : placedObjs f n = some v) :
    ∃ k, k < n ∧ f k = some v := by
  induction n with
  | zero => cases h
  | succ n ih =>
    rw [placedObjs_succ] at h
    rcases placeObj_some h with hcur | hnew
    · obtain ⟨k, hk, hfk⟩ := ih hcur
      exact ⟨k, by omega, hfk⟩
    · exact ⟨n, by omega, hnew⟩

/-- The pixel that shows is the one of the highest priority, the earlier where priorities are equal. -/
theorem placedObjs_best {f : Nat → Option (Half × Nat)} {n k : Nat} {c : Half} {p : Nat} (hk : k < n) (hfk : f k = some (c, p))
    (hbest : ∀ j c' q, j < n → f j = some (c', q) → p < q ∨ (p = q ∧ k ≤ j)) : placedObjs f n = some (c, p) := by
  induction n with
  | zero => exact absurd hk (Nat.not_lt_zero k)
  | succ n ih =>
    rw [placedObjs_succ]
    by_cases hlast : k = n
    · subst hlast
      rw [hfk]
      cases hcur : placedObjs f k with
      | none => rfl
      | some cur =>
        obtain ⟨j, hj, hfj⟩ := placedObjs_mem hcur
        have hlower := hbest j cur.1 cur.2 (by omega) hfj
        exact if_pos (by show p < cur.2; omega)
    · rw [ih (by omega) fun j c' q hj => hbest j c' q (by omega)]
      cases hnew : f n with
      | none => rfl
      | some new =>
        have hlower := hbest n new.1 new.2 (by omega) hnew
        exact if_neg (by show ¬new.2 < p; omega)

theorem objPixel_eq (x y : Nat) (s : State) : objPixel x y s = (placedObjs (fun k => spriteAt k x y s) 128).map Prod.fst := rfl

theorem objPixel_shows {k x y : Nat} {c : Half} {s : State} (h : spriteShows k x y c s) : objPixel x y s = some c := by
  obtain ⟨hk, p, hdraws, hbest⟩ := h
  rw [objPixel_eq, placedObjs_best hk hdraws hbest]
  rfl

theorem objPixel_none {x y : Nat} {s : State} (h : ∀ k, k < 128 → spriteAt k x y s = none) : objPixel x y s = none := by
  rw [objPixel_eq, placedObjs_none h]
  rfl

/-! ## The layer in front (R1106, R1108) -/

theorem layersOf_sorted (mode : Nat) : (layersOf mode).Pairwise (· < ·) := by
  unfold layersOf
  split <;> decide

theorem bgPriority_lt (s : State) (l : Fin 4) : bgPriority s l < 4 := ((s.ppu.bgcnt.get l).extractLsb' 0 2).isLt

theorem mem_orderedLayers (mode : Nat) (s : State) (l : Fin 4) : l ∈ orderedLayers mode s ↔ l ∈ layersOf mode := by
  have hlt := bgPriority_lt s l
  have hcases : bgPriority s l = 0 ∨ bgPriority s l = 1 ∨ bgPriority s l = 2 ∨ bgPriority s l = 3 := by omega
  unfold orderedLayers
  simp only [List.mem_append, List.mem_filter, decide_eq_true_eq]
  tauto

theorem inFrontOf_iff (s : State) (l k : Fin 4) :
    inFrontOf s l k ↔ bgPriority s l < bgPriority s k ∨ (bgPriority s l = bgPriority s k ∧ l < k) := by
  rw [bgPriority_bits, bgPriority_bits]
  rfl

/-- The layers of a priority before those of higher numbers, each in order of their numbers. -/
theorem orderedLayers_sorted (mode : Nat) (s : State) : (orderedLayers mode s).Pairwise (inFrontOf s) := by
  have hsame : ∀ p, ((layersOf mode).filter fun l => bgPriority s l = p).Pairwise (inFrontOf s) := by
    intro p
    refine List.Pairwise.imp_of_mem ?_ ((layersOf_sorted mode).filter _)
    intro l k hl hk hlt
    have hpl := of_decide_eq_true (List.mem_filter.mp hl).2
    have hpk := of_decide_eq_true (List.mem_filter.mp hk).2
    exact (inFrontOf_iff s l k).mpr (.inr ⟨hpl.trans hpk.symm, hlt⟩)
  have hacross : ∀ {p q : Nat} {l k : Fin 4}, p < q → l ∈ (layersOf mode).filter (fun l => bgPriority s l = p) →
      k ∈ (layersOf mode).filter (fun l => bgPriority s l = q) → inFrontOf s l k := by
    intro p q l k hpq hl hk
    have hpl := of_decide_eq_true (List.mem_filter.mp hl).2
    have hpk := of_decide_eq_true (List.mem_filter.mp hk).2
    exact (inFrontOf_iff s l k).mpr (.inl (by omega))
  unfold orderedLayers
  refine List.pairwise_append.mpr ⟨hsame 0, List.pairwise_append.mpr ⟨hsame 1, List.pairwise_append.mpr
    ⟨hsame 2, hsame 3, fun l hl k hk => hacross (by decide) hl hk⟩, fun l hl k hk => ?_⟩, fun l hl k hk => ?_⟩
  · rcases List.mem_append.mp hk with hk | hk
    · exact hacross (by decide) hl hk
    · exact hacross (by decide) hl hk
  · rcases List.mem_append.mp hk with hk | hk
    · exact hacross (by decide) hl hk
    · rcases List.mem_append.mp hk with hk | hk
      · exact hacross (by decide) hl hk
      · exact hacross (by decide) hl hk

/-- In a sorted list the first that answers is the one before which none answers. -/
theorem findSome_sorted {α β : Type} {R : α → α → Prop} {f : α → Option β} {xs : List α} {a : α} {b : β} (hsorted : xs.Pairwise R)
    (ha : a ∈ xs) (hfa : f a = some b) (hfirst : ∀ x ∈ xs, R x a → f x = none) : xs.findSome? f = some b := by
  induction xs with
  | nil => cases ha
  | cons x xs ih =>
    obtain ⟨hx, hxs⟩ := List.pairwise_cons.mp hsorted
    rcases List.mem_cons.mp ha with rfl | hin
    · rw [List.findSome?_cons_of_isSome (by rw [hfa]; rfl)]
      exact hfa
    · rw [List.findSome?_cons, hfirst x List.mem_cons_self (hx a hin)]
      exact ih hxs hin fun x' hx' => hfirst x' (List.mem_cons_of_mem _ hx')

theorem composed_layer {x y : Nat} {s : State} {l : Fin 4} {c : Half} (hobj : objPixel x y s = none)
    (hl : l ∈ layersOf (modeOf s)) (hc : bgPixel (modeOf s) l x y s = some c)
    (hfront : ∀ j ∈ layersOf (modeOf s), inFrontOf s j l → bgPixel (modeOf s) j x y s = none) : composed x y s = c := by
  have hfind := findSome_sorted (orderedLayers_sorted (modeOf s) s) ((mem_orderedLayers _ s l).mpr hl) hc
    fun j hj => hfront j ((mem_orderedLayers _ s j).mp hj)
  unfold composed
  rw [hobj, displayMode_bits]
  dsimp only
  rw [hfind]

theorem composed_backdrop {x y : Nat} {s : State} (hobj : objPixel x y s = none)
    (hnone : ∀ l ∈ layersOf (modeOf s), bgPixel (modeOf s) l x y s = none) : composed x y s = colourAt s 0 := by
  have hfind : (orderedLayers (modeOf s) s).findSome? (fun l => bgPixel (modeOf s) l x y s) = none := by
    rw [List.findSome?_eq_none_iff]
    exact fun l hl => hnone l ((mem_orderedLayers _ s l).mp hl)
  unfold composed
  rw [hobj, displayMode_bits]
  dsimp only
  rw [hfind]
  exact pram16_colour s 0

/-! ## The pixel of a layer (R1109 to R1113) -/

/-- A pixel of a palette layer: opaque at an index other than 0. -/
theorem paletteColour_iff (s : State) (idx i : Nat) (c : Half) :
    (if idx = 0 then none else some (pram16 s (2 * i))) = some c ↔ idx ≠ 0 ∧ c = colourAt s i := by
  rw [pram16_colour]
  by_cases h : idx = 0
  · simp [h]
  · rw [if_neg h, Option.some.injEq]
    exact ⟨fun e => ⟨h, e.symm⟩, fun e => e.2.symm⟩

/-- The size of a text layer, by its code. -/
theorem textSize_bits (v : Nat) : (bitsAt v 14 1 = 1 ↔ bitsAt v 14 2 = 1 ∨ bitsAt v 14 2 = 3) ∧
    (bitsAt v 15 1 = 1 ↔ bitsAt v 14 2 = 2 ∨ bitsAt v 14 2 = 3) := by
  simp only [bitsAt, Nat.reducePow]
  omega

theorem bgText_shows (l : Fin 4) (x y : Nat) (s : State) (c : Half) : bgText l x y s = some c ↔ textShows l x y s c := by
  have hcontrol : (s.ppu.bgcnt.get l).toNat = controlOf l s := rfl
  have hbit := bitsAt_one_lt (controlOf l s) 7
  unfold bgText textShows
  simp only [fieldOf_bits, getLsbD_bits, charBase_bits, screenBase_bits, vram8_byte, vram16_half, nibbleOf_half, hcontrol,
    decide_eq_true_eq, (textSize_bits _).1, (textSize_bits _).2]
  by_cases h7 : bitsAt (controlOf l s) 7 1 = 0
  · rw [if_neg (by omega), if_pos h7, paletteColour_iff]
  · rw [if_pos (by omega), if_neg h7, paletteColour_iff]

theorem bgAffine_shows (x y : Nat) (s : State) (c : Half) : bgAffine x y s = some c ↔ affineShows x y s c := by
  have hsize : 128 * 2 ^ bitsAt (s.ppu.bgcnt.get 2).toNat 14 2 = 2 ^ (7 + bitsAt (controlOf 2 s) 14 2) := by
    rw [Nat.pow_add]
    rfl
  have hpos : 0 < 2 ^ (7 + bitsAt (controlOf 2 s) 14 2) := Nat.two_pow_pos _
  unfold bgAffine affineShows
  simp only [fieldOf_bits, param_signed, refPoint_signed, charBase_bits, screenBase_bits, vram8_byte, hsize,
    ← wrapCoord_sampled _ _ _ _ hpos]
  generalize wrapCoord ((s.ppu.bgcnt.get 2).getLsbD 13) (2 ^ (7 + bitsAt (controlOf 2 s) 14 2))
    ((signed 16 s.ppu.bg2.pa.toNat * x + signed 16 s.ppu.bg2.pb.toNat * y + signed 28 s.ppu.bg2.x.toNat) / 256) = u
  generalize wrapCoord ((s.ppu.bgcnt.get 2).getLsbD 13) (2 ^ (7 + bitsAt (controlOf 2 s) 14 2))
    ((signed 16 s.ppu.bg2.pc.toNat * x + signed 16 s.ppu.bg2.pd.toNat * y + signed 28 s.ppu.bg2.y.toNat) / 256) = v
  cases u with
  | none => simp
  | some tu =>
    cases v with
    | none => simp
    | some tv =>
      rw [paletteColour_iff]
      constructor
      · exact fun h => ⟨tu, tv, rfl, rfl, h⟩
      · rintro ⟨tu', tv', hu, hv, h⟩
        obtain rfl := Option.some.inj hu
        obtain rfl := Option.some.inj hv
        exact h

theorem bgMode3_shows (x y : Nat) (s : State) (c : Half) : bgMode3 x y s = some c ↔ c.toNat = vramHalf s (2 * (240 * y + x)) := by
  rw [bgMode3, Option.some.injEq, ← vram16_half, BitVec.toNat_inj]
  exact eq_comm

theorem bgMode4_shows (x y : Nat) (s : State) (c : Half) : bgMode4 x y s = some c ↔ bitmapShows x y s c := by
  have hpage : (if s.ppu.dispcnt.getLsbD 4 then 0xA000 else 0) = 0xA000 * bitsAt s.ppu.dispcnt.toNat 4 1 := by
    have hbit := bitsAt_one_lt s.ppu.dispcnt.toNat 4
    rw [getLsbD_bits]
    simp only [decide_eq_true_eq]
    split <;> omega
  unfold bgMode4 bitmapShows
  simp only [hpage, vram8_byte]
  exact paletteColour_iff s _ _ c

/-! ## The pixel of a sprite (R1115 to R1119) -/

/-- A side of a sprite's rectangle, doubled where the sprite is rotated in a doubled field; its top and its left. -/
def rectangleSide (a0 : Half) (n : Nat) : Nat := if (a0.getLsbD 8 && a0.getLsbD 9) = true then 2 * n else n
def rectangleTop (a0 : Half) : Int := if 160 ≤ fieldOf a0 0 8 then (fieldOf a0 0 8 : Int) - 256 else fieldOf a0 0 8
def rectangleLeft (a1 : Half) : Int := (a1.extractLsb' 0 9).toInt

theorem rectangleSide_bits (a0 : Half) (n : Nat) :
    rectangleSide a0 n = if bitsAt a0.toNat 8 1 = 1 ∧ bitsAt a0.toNat 9 1 = 1 then 2 * n else n := by
  unfold rectangleSide
  rw [getLsbD_bits, getLsbD_bits]
  simp only [Bool.and_eq_true, decide_eq_true_eq]

theorem rectangleTop_bits (a0 : Half) :
    rectangleTop a0 = if bitsAt a0.toNat 0 8 < 160 then (bitsAt a0.toNat 0 8 : Int) else (bitsAt a0.toNat 0 8 : Int) - 256 := by
  unfold rectangleTop
  rw [fieldOf_bits]
  split <;> split <;> omega

theorem rectangleLeft_bits (a1 : Half) : rectangleLeft a1 = signed 9 a1.toNat := by
  rw [rectangleLeft, toInt_signed _ (by decide), toNat_extract]
  simp [signed, bitsAt]

/-- A sprite of a size draws where the point lies in its rectangle, has an object-space point, and that has an index. -/
theorem spriteAt_some_iff {k x y w h p : Nat} {c : Half} {s : State} (a0 a1 a2 : Half) (h0 : a0 = oams16 s (8 * k))
    (h1 : a1 = oams16 s (8 * k + 2)) (h2 : a2 = oams16 s (8 * k + 4)) (henabled : ¬(a0.getLsbD 8 = false ∧ a0.getLsbD 9 = true))
    (hsize : spriteSize (fieldOf a0 14 2) (fieldOf a1 14 2) = some (w, h)) : spriteAt k x y s = some (c, p) ↔
      ∃ dx dy sx sy, insideObj (x - rectangleLeft a1) (rectangleSide a0 w) = some dx ∧
        insideObj (y - rectangleTop a0) (rectangleSide a0 h) = some dy ∧
        objPoint a0 a1 w h (rectangleSide a0 w) (rectangleSide a0 h) dx dy s = some (sx, sy) ∧
        (spritePixel a0 a2 sx sy w s).1 ≠ 0 ∧ c = (spritePixel a0 a2 sx sy w s).2 ∧ p = fieldOf a2 10 2 := by
  have hleft : (a1.extractLsb' 0 9).toInt = rectangleLeft a1 := rfl
  have htop : (if 160 ≤ fieldOf a0 0 8 then (fieldOf a0 0 8 : Int) - 256 else fieldOf a0 0 8) = rectangleTop a0 := rfl
  have hside : ∀ n, (if (a0.getLsbD 8 && a0.getLsbD 9) = true then 2 * n else n) = rectangleSide a0 n := fun _ => rfl
  unfold spriteAt
  simp only [← h0, ← h1, ← h2, if_neg henabled, hsize, hleft, htop, hside]
  cases insideObj (x - rectangleLeft a1) (rectangleSide a0 w) with
  | none => simp
  | some dx =>
    cases insideObj (y - rectangleTop a0) (rectangleSide a0 h) with
    | none => simp
    | some dy =>
      cases hpoint : objPoint a0 a1 w h (rectangleSide a0 w) (rectangleSide a0 h) dx dy s with
      | none => simp [hpoint]
      | some point =>
        obtain ⟨sx, sy⟩ := point
        dsimp only
        rw [hpoint]
        dsimp only
        constructor
        · intro hdraws
          by_cases hidx : (spritePixel a0 a2 sx sy w s).1 = 0
          · rw [if_pos hidx] at hdraws
            cases hdraws
          · rw [if_neg hidx, Option.some.injEq, Prod.mk.injEq] at hdraws
            exact ⟨dx, dy, sx, sy, rfl, rfl, hpoint, hidx, hdraws.1.symm, hdraws.2.symm⟩
        · rintro ⟨dx', dy', sx', sy', hdx, hdy, hpoint', hidx, rfl, rfl⟩
          obtain rfl := Option.some.inj hdx
          obtain rfl := Option.some.inj hdy
          rw [hpoint, Option.some.injEq, Prod.mk.injEq] at hpoint'
          obtain ⟨rfl, rfl⟩ := hpoint'
          exact if_neg hidx

/-- The object-space point, from the screen point itself. -/
theorem objPoint_screen {a0 a1 : Half} {w h dx dy sx sy : Nat} {px py : Int} {s : State}
    (henabled : ¬(bitsAt a0.toNat 8 1 = 0 ∧ bitsAt a0.toNat 9 1 = 1))
    (hx : (0 ≤ px - rectangleLeft a1 ∧ px - rectangleLeft a1 < rectangleSide a0 w) ∧ px - rectangleLeft a1 = dx)
    (hy : (0 ≤ py - rectangleTop a0 ∧ py - rectangleTop a0 < rectangleSide a0 h) ∧ py - rectangleTop a0 = dy) :
    let group (o : Nat) : Int := signed 16 (oamHalf s (o + 0x20 * bitsAt a1.toNat 9 5))
    let cx : Int := px - (rectangleLeft a1 + (rectangleSide a0 w / 2 : Nat))
    let cy : Int := py - (rectangleTop a0 + (rectangleSide a0 h / 2 : Nat))
    objPoint a0 a1 w h (rectangleSide a0 w) (rectangleSide a0 h) dx dy s = some (sx, sy) ↔
      sx < w ∧ sy < h ∧
      if bitsAt a0.toNat 8 1 = 0 then
        (sx : Int) = (if bitsAt a1.toNat 12 1 = 1 then w - 1 - (px - rectangleLeft a1) else px - rectangleLeft a1) ∧
        (sy : Int) = (if bitsAt a1.toNat 13 1 = 1 then h - 1 - (py - rectangleTop a0) else py - rectangleTop a0)
      else
        (sx : Int) = (group 0x06 * cx + group 0x0E * cy) / 256 + (w / 2 : Nat) ∧
        (sy : Int) = (group 0x16 * cx + group 0x1E * cy) / 256 + (h / 2 : Nat) := by
  intro group cx cy
  obtain ⟨hxin, hdx⟩ := hx
  obtain ⟨hyin, hdy⟩ := hy
  have hcx : (dx : Int) - (rectangleSide a0 w / 2 : Nat) = cx := by omega
  have hcy : (dy : Int) - (rectangleSide a0 h / 2 : Nat) = cy := by omega
  refine (objPoint_spec a0 a1 w h _ _ dx dy s sx sy).trans ?_
  rw [hcx, hcy]
  by_cases hrot : bitsAt a0.toNat 8 1 = 0
  · have hside : ∀ n, rectangleSide a0 n = n := by
      intro n
      rw [rectangleSide_bits, if_neg fun h => henabled ⟨hrot, h.2⟩]
    rw [hside] at hxin hyin
    rw [if_pos hrot, if_pos hrot]
    split <;> split <;> omega
  · rw [if_neg hrot, if_neg hrot]
    constructor
    · rintro ⟨⟨h1, h2⟩, h3, h4⟩
      exact ⟨h1, h3, h2, h4⟩
    · rintro ⟨h1, h3, h2, h4⟩
      exact ⟨⟨h1, h2⟩, h3, h4⟩

/-- Sprite `k` draws by the formulas of its attributes. -/
theorem spriteAt_draws {x y : Nat} {s : State} (hm : modeOf s ∈ [0, 1, 3, 4]) (k : Nat) (c : Half) (p : Nat) :
    spriteAt k x y s = some (c, p) ↔ spriteDraws k x y s c p := by
  have h0 := (oams16_half s (8 * k)).symm
  have h1 := (oams16_half s (8 * k + 2)).symm
  have h2 := (oams16_half s (8 * k + 4)).symm
  have hbit8 := bitsAt_one_lt (oams16 s (8 * k)).toNat 8
  have htable := spriteSize_table (fieldOf (oams16 s (8 * k)) 14 2) (fieldOf (oams16 s (8 * k + 2)) 14 2)
    ((oams16 s (8 * k)).extractLsb' 14 2).isLt ((oams16 s (8 * k + 2)).extractLsb' 14 2).isLt
  have henabled : (oams16 s (8 * k)).getLsbD 8 = false ∧ (oams16 s (8 * k)).getLsbD 9 = true ↔
      bitsAt (oams16 s (8 * k)).toNat 8 1 = 0 ∧ bitsAt (oams16 s (8 * k)).toNat 9 1 = 1 := by
    rw [getLsbD_bits, getLsbD_bits, decide_eq_true_eq, decide_eq_false_iff_not]
    exact and_congr_left fun _ => by omega
  unfold spriteDraws
  simp only [h0, h1, h2, ← rectangleLeft_bits, ← rectangleTop_bits, ← rectangleSide_bits]
  by_cases hoff : bitsAt (oams16 s (8 * k)).toNat 8 1 = 0 ∧ bitsAt (oams16 s (8 * k)).toNat 9 1 = 1
  · have hnone : spriteAt k x y s = none := if_pos (henabled.mpr hoff)
    rw [hnone]
    exact iff_of_false (by simp) fun h => h.2.1 hoff
  · by_cases hshape : bitsAt (oams16 s (8 * k)).toNat 14 2 = 3
    · have hnone : spriteAt k x y s = none := by
        unfold spriteAt
        dsimp only
        rw [if_neg (mt henabled.mp hoff), htable, if_pos ((fieldOf_bits _ _ _).trans hshape)]
      rw [hnone]
      exact iff_of_false (by simp) fun h => h.1 hshape
    · simp only [fieldOf_bits, if_neg hshape] at htable
      generalize (spriteSizes.getD (bitsAt (oams16 s (8 * k)).toNat 14 2) []).getD (bitsAt (oams16 s (8 * k + 2)).toNat 14 2) (0, 0) =
        size at htable ⊢
      obtain ⟨w, h⟩ := size
      rw [spriteAt_some_iff _ _ _ rfl rfl rfl (mt henabled.mp hoff) (by rw [fieldOf_bits, fieldOf_bits]; exact htable)]
      simp only [spritePixel_texel _ _ _ _ _ s hm, fieldOf_bits]
      constructor
      · rintro ⟨dx, dy, sx, sy, hdx, hdy, hpoint, hcolour⟩
        rw [insideObj_some] at hdx hdy
        obtain ⟨hsx, hsy, hformula⟩ := (objPoint_screen hoff hdx hdy).mp hpoint
        exact ⟨hshape, hoff, by omega, by omega, sx, hsx, sy, hsy, hformula, hcolour⟩
      · rintro ⟨-, -, hx, hy, sx, hsx, sy, hsy, hformula, hcolour⟩
        obtain ⟨dx, hdx⟩ := Int.eq_ofNat_of_zero_le (show 0 ≤ (x : Int) - rectangleLeft (oams16 s (8 * k + 2)) by omega)
        obtain ⟨dy, hdy⟩ := Int.eq_ofNat_of_zero_le (show 0 ≤ (y : Int) - rectangleTop (oams16 s (8 * k)) by omega)
        refine ⟨dx, dy, sx, sy, (insideObj_some _ _ _).mpr (by omega), (insideObj_some _ _ _).mpr (by omega), ?_, hcolour⟩
        exact (objPoint_screen hoff (by omega) (by omega)).mpr ⟨hsx, hsy, hformula⟩

end Sys2Proof.Machine

namespace Sys2Proof.Proofs

open Sys2Proof.Machine Sys2Proof.Safety

/-- Settles O56: the fold of the sprites and the sorted list of layers give the point, and each pixel is its formula. -/
theorem pointsAreComposed : Obligations.PointsAreComposed := by
  unfold Obligations.PointsAreComposed
  intro x y s mode
  refine ⟨fun k c h => ?_, fun hnone => ?_, ⟨rfl, rfl, rfl, rfl⟩, fun l c => bgText_shows l x y s c, fun l c hl => ?_,
    fun c => bgAffine_shows x y s c, fun c => bgMode3_shows x y s c, fun c => bgMode4_shows x y s c,
    fun hm k c p _ => spriteAt_draws hm k c p⟩
  · unfold composed
    rw [objPixel_shows h]
  · have hobj := objPixel_none hnone
    refine ⟨fun l hl c hc hfront => composed_layer hobj hl hc hfront, composed_backdrop hobj, fun hmode => ?_⟩
    have hlayers : layersOf (modeOf s) = [2] := congrArg layersOf hmode
    have hpixel : bgPixel (modeOf s) 2 x y s = some (vram16 s (2 * (240 * y + x))) := congrArg (bgPixel · 2 x y s) hmode
    rw [← vram16_half, composed_layer hobj (by rw [hlayers]; exact List.mem_singleton_self 2) hpixel]
    intro j hj hfront
    rw [hlayers, List.mem_singleton] at hj
    rcases (inFrontOf_iff s j 2).mp hfront with h | h
    · rw [hj] at h
      exact absurd h (lt_irrefl _)
    · rw [hj] at h
      exact absurd h.2 (lt_irrefl _)
  · have hne : l ≠ 2 := by rcases hl with rfl | rfl <;> decide
    rw [show bgPixel 1 l x y s = bgText l x y s from if_neg hne]
    exact bgText_shows l x y s c

end Sys2Proof.Proofs

/-! SUPPORT and proofs. The rotated immediate (30_encoding.md R305), the registers of a block transfer (R310), the words that no
rule gives a meaning (R326), and the words and halfwords of the spec's examples. -/

namespace Sys2Proof.Machine

/-- Rotated right by `2 * rot`, bit k is the byte's bit that many places above it, round the word (R305). -/
theorem getLsbD_rotatedImmediate (rot : BitVec 4) (imm8 : BitVec 8) {k : Nat} (hk : k < 32) :
    (rotatedImmediate rot imm8).getLsbD k =
      (decide ((k + 2 * rot.toNat) % 32 < 8) && imm8.getLsbD ((k + 2 * rot.toNat) % 32)) := by
  rw [rotatedImmediate, getLsbD_rotateRight_mod _ _ hk, BitVec.getLsbD_setWidth, decide_eq_true (Nat.mod_lt _ (by decide)),
    Bool.true_and]
  by_cases hbyte : (k + 2 * rot.toNat) % 32 < 8
  · rw [decide_eq_true hbyte, Bool.true_and]
  · rw [decide_eq_false hbyte, Bool.false_and, BitVec.getLsbD_of_ge _ _ (Nat.not_lt.mp hbyte)]

theorem mem_allRegs : ∀ r : Reg, r ∈ allRegs := by decide

theorem mem_blockRegs_iff {list : BitVec 16} (hlist : list ≠ 0#16) (r : Reg) :
    r ∈ blockRegs list ↔ list.getLsbD r.toNat = true := by
  rw [blockRegs, if_neg hlist, List.mem_filter]
  exact and_iff_right (mem_allRegs r)

end Sys2Proof.Machine

namespace Sys2Proof.Proofs

open Sys2Proof.Machine

/-- Settles O10: the bits of a rotation, and the carry in its two cases. -/
theorem rotatedImmediate : Obligations.RotatedImmediate := by
  unfold Obligations.RotatedImmediate
  intro rot imm8 s
  refine ⟨fun k hk => getLsbD_rotatedImmediate rot imm8 hk, fun hrot => if_pos hrot, fun hrot => ?_⟩
  exact (if_neg hrot).trans (BitVec.msb_eq_getLsbD_last _)

/-- Settles O24: the list filters the sixteen registers, which stand in ascending order. -/
theorem blockRegisters : Obligations.BlockRegisters := by
  unfold Obligations.BlockRegisters
  exact fun list => ⟨blockRegs_sorted list, fun hempty => if_pos hempty, mem_blockRegs_iff⟩

/-- Settles O32: each of the two rows runs under its condition and stops there. -/
theorem unallocatedStops : Obligations.UnallocatedStops := by
  unfold Obligations.UnallocatedStops
  intro c x y y' z b k s hc
  exact ⟨runArm_fault hc rfl, runArm_fault hc rfl⟩

/-- Settles O1: the decoder evaluated on each word and halfword. -/
theorem wordsDecode : Obligations.WordsDecode := by
  unfold Obligations.WordsDecode
  decide

end Sys2Proof.Proofs

/-! SUPPORT and proofs. The decoder and the encoder (30_encoding.md R302, R303, R326, R330, R333, R334): the fields of a code, the
layout of each group of rows, and that each of the two functions inverts the other. -/

namespace Sys2Proof.Machine

/-! ## Fields of a code

A concatenation equals a code exactly where each part is the field of the code at its place. Every layout below is this one fact,
applied part by part; read forwards it gives the fields that the decoder tests, read backwards it rebuilds the code. -/

theorem extractLsb'_extractLsb' {n : Nat} (w : BitVec n) (i m j l : Nat) (h : j + l ≤ m) :
    (w.extractLsb' i m).extractLsb' j l = w.extractLsb' (i + j) l := by
  apply BitVec.eq_of_getLsbD_eq
  intro k hk
  rw [BitVec.getLsbD_extractLsb', BitVec.getLsbD_extractLsb', BitVec.getLsbD_extractLsb', decide_eq_true hk,
    decide_eq_true (show j + k < m by omega), Bool.true_and, Bool.true_and, Bool.true_and, Nat.add_assoc]

theorem append_eq_extractLsb'_iff {a b n : Nat} {x : BitVec a} {y : BitVec b} {w : BitVec n} {k : Nat} :
    x ++ y = w.extractLsb' k (a + b) ↔ x = w.extractLsb' (k + b) a ∧ y = w.extractLsb' k b := by
  constructor
  · intro h
    have hhigh : (x ++ y).extractLsb' b a = x := BitVec.extractLsb'_append_eq_left
    have hlow : (x ++ y).extractLsb' 0 b = y := BitVec.extractLsb'_append_eq_right
    rw [h, extractLsb'_extractLsb' _ _ _ _ _ (by omega)] at hhigh hlow
    exact ⟨hhigh.symm, hlow.symm⟩
  · rintro ⟨rfl, rfl⟩
    exact BitVec.extractLsb'_append_extractLsb'_eq_extractLsb' rfl

theorem append_eq_iff {a b : Nat} {x : BitVec a} {y : BitVec b} {w : BitVec (a + b)} :
    x ++ y = w ↔ x = w.extractLsb' b a ∧ y = w.extractLsb' 0 b := by
  have h := append_eq_extractLsb'_iff (x := x) (y := y) (w := w) (k := 0)
  rwa [BitVec.extractLsb'_eq_self, Nat.zero_add] at h

/-- A part of a field is a field. -/
theorem extractLsb'_of_field {m n : Nat} {k : BitVec m} {w : BitVec n} {i : Nat} (h : k = w.extractLsb' i m) (j l : Nat)
    (hle : j + l ≤ m) : w.extractLsb' (i + j) l = k.extractLsb' j l := by
  rw [h, extractLsb'_extractLsb' _ _ _ _ _ hle]

theorem bit_of_field {m n : Nat} {k : BitVec m} {w : BitVec n} {i : Nat} (h : k = w.extractLsb' i m) (j : Nat) (hj : j < m) :
    bit w (i + j) = k.getLsbD j := by
  rw [h, bit, BitVec.getLsbD_extractLsb', decide_eq_true hj, Bool.true_and]

theorem field_eq_of_toNat_eq {n v : Nat} {b : BitVec n} (h : b.toNat = v) : BitVec.ofNat n v = b := by
  rw [← h, BitVec.ofNat_toNat, BitVec.setWidth_eq]

/-! The value that the last alternative of a match on a field stands for. -/

theorem three_eq_of_toNat_ne {b : BitVec 2} (h0 : b.toNat = 0 → False) (h1 : b.toNat = 1 → False) (h2 : b.toNat = 2 → False) :
    3#2 = b := by
  have hlt := b.isLt
  simp only [imp_false] at *
  exact field_eq_of_toNat_eq (by omega)

theorem seven_eq_of_toNat_ne {b : BitVec 3} (h0 : b.toNat = 0 → False) (h1 : b.toNat = 1 → False) (h2 : b.toNat = 2 → False)
    (h3 : b.toNat = 3 → False) (h4 : b.toNat = 4 → False) (h5 : b.toNat = 5 → False) (h6 : b.toNat = 6 → False) : 7#3 = b := by
  have hlt := b.isLt
  simp only [imp_false] at *
  exact field_eq_of_toNat_eq (by omega)

theorem fifteen_eq_of_toNat_ne {b : BitVec 4} (h0 : b.toNat = 0 → False) (h1 : b.toNat = 1 → False) (h2 : b.toNat = 2 → False)
    (h3 : b.toNat = 3 → False) (h4 : b.toNat = 4 → False) (h5 : b.toNat = 5 → False) (h6 : b.toNat = 6 → False)
    (h7 : b.toNat = 7 → False) (h8 : b.toNat = 8 → False) (h9 : b.toNat = 9 → False) (h10 : b.toNat = 10 → False)
    (h11 : b.toNat = 11 → False) (h12 : b.toNat = 12 → False) (h13 : b.toNat = 13 → False)
    (h14 : b.toNat = 14 → False) : 15#4 = b := by
  have hlt := b.isLt
  simp only [imp_false] at *
  exact field_eq_of_toNat_eq (by omega)

theorem flag_eq_iff {n : Nat} {b : Bool} {w : BitVec n} {k : Nat} : flag b = w.extractLsb' k 1 ↔ b = bit w k := by
  rw [bit, BitVec.getLsbD_eq_extractLsb']
  generalize w.extractLsb' k 1 = field
  revert b field
  decide

/-- A field with the bit below it is a field. -/
theorem append_flag_bit {m n : Nat} {k : BitVec m} {w : BitVec n} {i : Nat} (h : k = w.extractLsb' (i + 1) m) :
    k ++ flag (bit w i) = w.extractLsb' i (m + 1) :=
  append_eq_extractLsb'_iff.mpr ⟨h, flag_eq_iff.mpr rfl⟩

theorem code_eq_iff {c : Cond} {k : BitVec 4} : c.code = k ↔ c = Cond.ofCode k := by
  constructor
  · rintro rfl
    cases c <;> rfl
  · rintro rfl
    exact code_ofCode k

theorem shiftCode_eq_iff {t : ShiftType} {k : BitVec 2} : t.code = k ↔ t = ShiftType.ofCode k := by
  constructor
  · rintro rfl
    cases t <;> rfl
  · rintro rfl
    revert k
    decide

/-! ## The layouts of the ARM words (R302) -/

section
variable {c : Cond} {rn rd rm : Reg} {w : Word}

theorem armBlock_eq_iff {p u s wb l : Bool} {list : BitVec 16} :
    armBlock c p u s wb l rn list = w ↔
      c = .ofCode (w.extractLsb' 28 4) ∧ 0b100#3 = w.extractLsb' 25 3 ∧ p = bit w 24 ∧ u = bit w 23 ∧ s = bit w 22 ∧ wb = bit w 21 ∧
      l = bit w 20 ∧ rn = nib16 w ∧ list = w.extractLsb' 0 16 := by
  rw [armBlock, append_eq_iff]
  repeat rw [append_eq_extractLsb'_iff]
  simp only [code_eq_iff, flag_eq_iff, nib16, and_assoc, Nat.reduceAdd]

/-- B, BL, SWI and the coprocessor instructions of class 4b: a field of 24 bits under three bits of class and bit 24. -/
theorem armField24_eq_iff {class3 : BitVec 3} {l : Bool} {o : BitVec 24} :
    (c.code ++ (class3 ++ flag l) ++ o : Word) = w ↔
      c = .ofCode (w.extractLsb' 28 4) ∧ class3 = w.extractLsb' 25 3 ∧ l = bit w 24 ∧ o = w.extractLsb' 0 24 := by
  rw [append_eq_iff]
  repeat rw [append_eq_extractLsb'_iff]
  simp only [code_eq_iff, flag_eq_iff, and_assoc, Nat.reduceAdd]

theorem armUndefined_eq_iff {x : BitVec 20} {y : BitVec 4} :
    (c.code ++ 0b011#3 ++ x ++ flag true ++ y : Word) = w ↔
      c = .ofCode (w.extractLsb' 28 4) ∧ 0b011#3 = w.extractLsb' 25 3 ∧ x = w.extractLsb' 5 20 ∧ true = bit w 4 ∧ y = nib0 w := by
  rw [append_eq_iff]
  repeat rw [append_eq_extractLsb'_iff]
  simp only [code_eq_iff, flag_eq_iff, nib0, and_assoc, Nat.reduceAdd]

theorem armLdcStc_eq_iff {x : BitVec 25} :
    (c.code ++ 0b110#3 ++ x : Word) = w ↔
      c = .ofCode (w.extractLsb' 28 4) ∧ 0b110#3 = w.extractLsb' 25 3 ∧ x = w.extractLsb' 0 25 := by
  rw [append_eq_iff, append_eq_extractLsb'_iff]
  simp only [code_eq_iff, and_assoc, Nat.reduceAdd]

/-! Words of the data space: bits 27:26 are 00. -/

/-- SWP and SWPB. -/
theorem armSwap_eq_iff {b : Bool} :
    (c.code ++ (0b00#2 ++ flag false ++ 0b10#2 ++ flag b ++ 0b00#2) ++ rn ++ rd ++ (0#4 ++ flag true ++ 0b00#2 ++ flag true) ++ rm :
      Word) = w ↔
      c = .ofCode (w.extractLsb' 28 4) ∧ 0b00#2 = w.extractLsb' 26 2 ∧ false = bit w 25 ∧ 0b10#2 = w.extractLsb' 23 2 ∧
      b = bit w 22 ∧ 0b00#2 = w.extractLsb' 20 2 ∧ rn = nib16 w ∧ rd = nib12 w ∧ 0#4 = w.extractLsb' 8 4 ∧ true = bit w 7 ∧
      0b00#2 = w.extractLsb' 5 2 ∧ true = bit w 4 ∧ rm = nib0 w := by
  rw [append_eq_iff]
  repeat rw [append_eq_extractLsb'_iff]
  simp only [code_eq_iff, flag_eq_iff, nib0, nib12, nib16, and_assoc, Nat.reduceAdd]

theorem armMultiply_eq_iff {op : BitVec 7} {sf : Bool} {hi lo rs : Reg} :
    armMultiply c op sf hi lo rs rm = w ↔
      c = .ofCode (w.extractLsb' 28 4) ∧ op = w.extractLsb' 21 7 ∧ sf = bit w 20 ∧ hi = nib16 w ∧ lo = nib12 w ∧ rs = nib8 w ∧
      true = bit w 7 ∧ 0b00#2 = w.extractLsb' 5 2 ∧ true = bit w 4 ∧ rm = nib0 w := by
  have hlayout : armMultiply c op sf hi lo rs rm =
      c.code ++ op ++ flag sf ++ hi ++ lo ++ rs ++ (flag true ++ 0b00#2 ++ flag true) ++ rm := rfl
  rw [hlayout, append_eq_iff]
  repeat rw [append_eq_extractLsb'_iff]
  simp only [code_eq_iff, flag_eq_iff, nib0, nib8, nib12, nib16, and_assoc, Nat.reduceAdd]

theorem halfOffset_imm_eq_iff {o : BitVec 8} :
    HalfOffset.imm o = decodeHalfOffset w ↔ true = bit w 22 ∧ o.extractLsb' 4 4 = nib8 w ∧ o.extractLsb' 0 4 = nib0 w := by
  have hsplit : o = nib8 w ++ nib0 w ↔ o.extractLsb' 4 4 = nib8 w ∧ o.extractLsb' 0 4 = nib0 w :=
    eq_comm.trans (append_eq_iff.trans (and_congr eq_comm eq_comm))
  unfold decodeHalfOffset
  cases bit w 22 <;> simp [hsplit]

theorem halfOffset_reg_eq_iff {g : BitVec 4} :
    HalfOffset.reg g rm = decodeHalfOffset w ↔ false = bit w 22 ∧ g = nib8 w ∧ rm = nib0 w := by
  unfold decodeHalfOffset
  cases bit w 22 <;> simp

theorem armHalf_eq_iff {p u wb l : Bool} {sh : BitVec 2} {off : HalfOffset} :
    armHalf c p u wb l sh rn rd off = w ↔
      c = .ofCode (w.extractLsb' 28 4) ∧ 0b00#2 = w.extractLsb' 26 2 ∧ false = bit w 25 ∧ p = bit w 24 ∧ u = bit w 23 ∧
      wb = bit w 21 ∧ l = bit w 20 ∧ rn = nib16 w ∧ rd = nib12 w ∧ true = bit w 7 ∧ sh = w.extractLsb' 5 2 ∧ true = bit w 4 ∧
      off = decodeHalfOffset w := by
  cases off with
  | imm o =>
    have hlayout : armHalf c p u wb l sh rn rd (.imm o) =
        c.code ++ (0b00#2 ++ flag false) ++ flag p ++ flag u ++ flag true ++ flag wb ++ flag l ++ rn ++ rd ++ o.extractLsb' 4 4 ++
          flag true ++ sh ++ flag true ++ o.extractLsb' 0 4 := rfl
    rw [hlayout, append_eq_iff]
    repeat rw [append_eq_extractLsb'_iff]
    simp only [code_eq_iff, flag_eq_iff, halfOffset_imm_eq_iff, nib0, nib8, nib12, nib16, and_assoc, Nat.reduceAdd]
    tauto
  | reg g rm =>
    have hlayout : armHalf c p u wb l sh rn rd (.reg g rm) =
        c.code ++ (0b00#2 ++ flag false) ++ flag p ++ flag u ++ flag false ++ flag wb ++ flag l ++ rn ++ rd ++ g ++
          flag true ++ sh ++ flag true ++ rm := rfl
    rw [hlayout, append_eq_iff]
    repeat rw [append_eq_extractLsb'_iff]
    simp only [code_eq_iff, flag_eq_iff, halfOffset_reg_eq_iff, nib0, nib8, nib12, nib16, and_assoc, Nat.reduceAdd]
    tauto

theorem armUnallocMul_eq_iff {x : BitVec 17} {y : BitVec 2} {z : BitVec 4} :
    (c.code ++ (0b00#2 ++ flag false) ++ x ++ flag true ++ y ++ flag true ++ z : Word) = w ↔
      c = .ofCode (w.extractLsb' 28 4) ∧ 0b00#2 = w.extractLsb' 26 2 ∧ false = bit w 25 ∧ x = w.extractLsb' 8 17 ∧
      true = bit w 7 ∧ y = w.extractLsb' 5 2 ∧ true = bit w 4 ∧ z = nib0 w := by
  rw [append_eq_iff]
  repeat rw [append_eq_extractLsb'_iff]
  simp only [code_eq_iff, flag_eq_iff, nib0, and_assoc, Nat.reduceAdd]

theorem armBx_eq_iff :
    (c.code ++ (0b00#2 ++ flag false ++ 0b10#2 ++ 0b01#2 ++ flag false ++ 0xFFF1#16) ++ rn : Word) = w ↔
      c = .ofCode (w.extractLsb' 28 4) ∧ 0b00#2 = w.extractLsb' 26 2 ∧ false = bit w 25 ∧ 0b10#2 = w.extractLsb' 23 2 ∧
      0b01#2 = w.extractLsb' 21 2 ∧ false = bit w 20 ∧ 0xFFF1#16 = w.extractLsb' 4 16 ∧ rn = nib0 w := by
  rw [append_eq_iff]
  repeat rw [append_eq_extractLsb'_iff]
  simp only [code_eq_iff, flag_eq_iff, nib0, and_assoc, Nat.reduceAdd]

theorem armMrs_eq_iff {spsr : Bool} :
    (c.code ++ (0b00#2 ++ flag false ++ 0b10#2 ++ flag spsr ++ 0#1 ++ flag false) ++ 0xF#4 ++ rd ++ 0#12 : Word) = w ↔
      c = .ofCode (w.extractLsb' 28 4) ∧ 0b00#2 = w.extractLsb' 26 2 ∧ false = bit w 25 ∧ 0b10#2 = w.extractLsb' 23 2 ∧
      spsr = bit w 22 ∧ 0#1 = w.extractLsb' 21 1 ∧ false = bit w 20 ∧ 0xF#4 = w.extractLsb' 16 4 ∧ rd = nib12 w ∧
      0#12 = w.extractLsb' 0 12 := by
  rw [append_eq_iff]
  repeat rw [append_eq_extractLsb'_iff]
  simp only [code_eq_iff, flag_eq_iff, nib12, and_assoc, Nat.reduceAdd]

theorem armMsrReg_eq_iff {spsr : Bool} {m : BitVec 4} :
    (c.code ++ (0b00#2 ++ flag false ++ 0b10#2 ++ flag spsr ++ 1#1 ++ flag false) ++ m ++ 0xF00#12 ++ rm : Word) = w ↔
      c = .ofCode (w.extractLsb' 28 4) ∧ 0b00#2 = w.extractLsb' 26 2 ∧ false = bit w 25 ∧ 0b10#2 = w.extractLsb' 23 2 ∧
      spsr = bit w 22 ∧ 1#1 = w.extractLsb' 21 1 ∧ false = bit w 20 ∧ m = nib16 w ∧ 0xF00#12 = w.extractLsb' 4 12 ∧
      rm = nib0 w := by
  rw [append_eq_iff]
  repeat rw [append_eq_extractLsb'_iff]
  simp only [code_eq_iff, flag_eq_iff, nib0, nib16, and_assoc, Nat.reduceAdd]

theorem armMsrImm_eq_iff {spsr : Bool} {m rot : BitVec 4} {imm8 : BitVec 8} :
    (c.code ++ (0b00#2 ++ flag true ++ 0b10#2 ++ flag spsr ++ 1#1 ++ flag false) ++ m ++ 0xF#4 ++ rot ++ imm8 : Word) = w ↔
      c = .ofCode (w.extractLsb' 28 4) ∧ 0b00#2 = w.extractLsb' 26 2 ∧ true = bit w 25 ∧ 0b10#2 = w.extractLsb' 23 2 ∧
      spsr = bit w 22 ∧ 1#1 = w.extractLsb' 21 1 ∧ false = bit w 20 ∧ m = nib16 w ∧ 0xF#4 = w.extractLsb' 12 4 ∧ rot = nib8 w ∧
      imm8 = w.extractLsb' 0 8 := by
  rw [append_eq_iff]
  repeat rw [append_eq_extractLsb'_iff]
  simp only [code_eq_iff, flag_eq_iff, nib8, nib16, and_assoc, Nat.reduceAdd]

theorem armUnallocPsr_eq_iff {i : Bool} {x : BitVec 2} {y : BitVec 20} :
    (c.code ++ 0b00#2 ++ flag i ++ 0b10#2 ++ x ++ flag false ++ y : Word) = w ↔
      c = .ofCode (w.extractLsb' 28 4) ∧ 0b00#2 = w.extractLsb' 26 2 ∧ i = bit w 25 ∧ 0b10#2 = w.extractLsb' 23 2 ∧
      x = w.extractLsb' 21 2 ∧ false = bit w 20 ∧ y = w.extractLsb' 0 20 := by
  rw [append_eq_iff]
  repeat rw [append_eq_extractLsb'_iff]
  simp only [code_eq_iff, flag_eq_iff, and_assoc, Nat.reduceAdd]

/-- Bits 25, 7 and 4 put a word of the data space among the multiplies, swaps and halfword transfers. -/
def inMulSpace (w : Word) : Prop := bit w 25 = false ∧ bit w 7 = true ∧ bit w 4 = true

/-- The three forms of a second operand tell themselves apart by bits 25 and 4; bit 7 of the form with a register amount is 0. -/
theorem operand2_eq_iff {o : Operand2} :
    operand2Bit25 o = w.extractLsb' 25 1 ∧ operand2Bits o = w.extractLsb' 0 12 ↔ ¬ inMulSpace w ∧ o = decodeOperand2 w := by
  cases o with
  | imm rot imm8 =>
    have hbit25 : operand2Bit25 (.imm rot imm8) = flag true := rfl
    rw [hbit25, operand2Bits, append_eq_extractLsb'_iff, flag_eq_iff]
    cases h25 : bit w 25 <;> cases h4 : bit w 4 <;> simp [inMulSpace, decodeOperand2, nib8, h25, h4]
  | shiftImm a t rm =>
    have hbit25 : operand2Bit25 (.shiftImm a t rm) = flag false := rfl
    have hbits : operand2Bits (.shiftImm a t rm) = a ++ t.code ++ flag false ++ rm := rfl
    rw [hbit25, hbits]
    repeat rw [append_eq_extractLsb'_iff]
    simp only [flag_eq_iff, shiftCode_eq_iff, and_assoc, Nat.reduceAdd]
    cases h25 : bit w 25 <;> cases h4 : bit w 4 <;> simp [inMulSpace, decodeOperand2, nib0, h25, h4]
  | shiftReg rs t rm =>
    have hbit25 : operand2Bit25 (.shiftReg rs t rm) = flag false := rfl
    have hbits : operand2Bits (.shiftReg rs t rm) = rs ++ flag false ++ t.code ++ flag true ++ rm := rfl
    rw [hbit25, hbits]
    repeat rw [append_eq_extractLsb'_iff]
    simp only [flag_eq_iff, shiftCode_eq_iff, and_assoc, Nat.reduceAdd]
    cases h25 : bit w 25 <;> cases h4 : bit w 4 <;> cases h7 : bit w 7 <;>
      simp [inMulSpace, decodeOperand2, nib0, nib8, h25, h4, h7]

theorem armDataProc_eq_iff {op : BitVec 4} {sf : Bool} {o : Operand2} :
    armDataProc c op sf rn rd o = w ↔
      c = .ofCode (w.extractLsb' 28 4) ∧ 0b00#2 = w.extractLsb' 26 2 ∧ op = w.extractLsb' 21 4 ∧ sf = bit w 20 ∧ rn = nib16 w ∧
      rd = nib12 w ∧ ¬ inMulSpace w ∧ o = decodeOperand2 w := by
  rw [armDataProc, append_eq_iff]
  repeat rw [append_eq_extractLsb'_iff]
  rw [← operand2_eq_iff]
  simp only [code_eq_iff, flag_eq_iff, nib12, nib16, and_assoc, Nat.reduceAdd]
  tauto

/-! Words of the single transfers: bits 27:26 are 01. -/

/-- The offset that `decodeTransfer` reads from a word. -/
def decodeOffset (w : Word) : Offset :=
  if bit w 25 then .reg (w.extractLsb' 7 5) (.ofCode (w.extractLsb' 5 2)) (nib0 w) else .imm (w.extractLsb' 0 12)

theorem offset_eq_iff {off : Offset} :
    offsetBit25 off = w.extractLsb' 25 1 ∧ offsetBits off = w.extractLsb' 0 12 ↔
      ¬ (bit w 25 = true ∧ bit w 4 = true) ∧ off = decodeOffset w := by
  cases off with
  | imm o =>
    have hbit25 : offsetBit25 (.imm o) = flag false := rfl
    rw [hbit25, offsetBits, flag_eq_iff]
    cases h25 : bit w 25 <;> simp [decodeOffset, h25]
  | reg a t rm =>
    have hbit25 : offsetBit25 (.reg a t rm) = flag true := rfl
    have hbits : offsetBits (.reg a t rm) = a ++ t.code ++ flag false ++ rm := rfl
    rw [hbit25, hbits]
    repeat rw [append_eq_extractLsb'_iff]
    simp only [flag_eq_iff, shiftCode_eq_iff, and_assoc, Nat.reduceAdd]
    cases h25 : bit w 25 <;> cases bit w 4 <;> simp [decodeOffset, nib0, h25]

theorem armTransfer_eq_iff {p u byte wb l : Bool} {off : Offset} :
    armTransfer c p u byte wb l rn rd off = w ↔
      c = .ofCode (w.extractLsb' 28 4) ∧ 0b01#2 = w.extractLsb' 26 2 ∧ p = bit w 24 ∧ u = bit w 23 ∧ byte = bit w 22 ∧
      wb = bit w 21 ∧ l = bit w 20 ∧ rn = nib16 w ∧ rd = nib12 w ∧ ¬ (bit w 25 = true ∧ bit w 4 = true) ∧ off = decodeOffset w := by
  rw [armTransfer, append_eq_iff]
  repeat rw [append_eq_extractLsb'_iff]
  rw [← offset_eq_iff]
  simp only [code_eq_iff, flag_eq_iff, nib12, nib16, and_assoc, Nat.reduceAdd]
  tauto

end

/-! ## The groups of the ARM decoder (R303) -/

section
variable {w : Word}

theorem decodeArm_dataSpace (hclass : 0b00#2 = w.extractLsb' 26 2) :
    decodeArm w = decodeDataSpace (.ofCode (w.extractLsb' 28 4)) w := by
  have hfield : 0b00#2 ++ flag (bit w 25) = w.extractLsb' 25 3 := append_flag_bit hclass
  unfold decodeArm
  rw [← hfield]
  cases bit w 25 <;> rfl

theorem decodeArm_mulSpace (hclass : 0b00#2 = w.extractLsb' 26 2) (hspace : inMulSpace w) :
    decodeArm w = decodeMulSpace (.ofCode (w.extractLsb' 28 4)) w :=
  (decodeArm_dataSpace hclass).trans (if_pos hspace)

theorem decodeArm_psrSpace (hclass : 0b00#2 = w.extractLsb' 26 2) (hspace : ¬ inMulSpace w) (hop : 0b10#2 = w.extractLsb' 23 2)
    (hs : false = bit w 20) : decodeArm w = decodePsrSpace (.ofCode (w.extractLsb' 28 4)) w :=
  (decodeArm_dataSpace hclass).trans ((if_neg hspace).trans (if_pos ⟨hop.symm, hs.symm⟩))

theorem decodeArm_dataProc (hclass : 0b00#2 = w.extractLsb' 26 2) (hspace : ¬ inMulSpace w)
    (hop : ¬ (w.extractLsb' 23 2 = 0b10#2 ∧ bit w 20 = false)) :
    decodeArm w = decodeDataProc (.ofCode (w.extractLsb' 28 4)) w :=
  (decodeArm_dataSpace hclass).trans ((if_neg hspace).trans (if_neg hop))

theorem decodeArm_transfer (hclass : 0b01#2 = w.extractLsb' 26 2) (hoff : ¬ (bit w 25 = true ∧ bit w 4 = true)) :
    decodeArm w = decodeTransfer (.ofCode (w.extractLsb' 28 4)) w := by
  have hfield : 0b01#2 ++ flag (bit w 25) = w.extractLsb' 25 3 := append_flag_bit hclass
  unfold decodeArm
  rw [← hfield]
  cases h25 : bit w 25 with
  | false => rfl
  | true => exact if_neg fun h4 => hoff ⟨h25, h4⟩

theorem decodeArm_block (hclass : 0b100#3 = w.extractLsb' 25 3) :
    decodeArm w = decodeBlock (.ofCode (w.extractLsb' 28 4)) w := by
  unfold decodeArm
  rw [← hclass]
  rfl

section
variable (h7 : true = bit w 7) (h4 : true = bit w 4)
include h7 h4

theorem mulSpace_payload : w.extractLsb' 8 17 ++ 1#1 ++ w.extractLsb' 5 2 ++ 1#1 ++ nib0 w = w.extractLsb' 0 25 := by
  have hfields : w.extractLsb' 8 17 ++ flag true ++ w.extractLsb' 5 2 ++ flag true ++ nib0 w = w.extractLsb' 0 25 := by
    repeat rw [append_eq_extractLsb'_iff]
    exact ⟨⟨⟨⟨rfl, flag_eq_iff.mpr h7⟩, rfl⟩, flag_eq_iff.mpr h4⟩, rfl⟩
  exact hfields

/-- The checks of an unallocated word of the multiply space with bits 6:5 zero, as tests of the word (R326 a). -/
theorem unallocMulFieldsOk_of_zero (hsh : w.extractLsb' 5 2 = 0#2) :
    unallocMulFieldsOk (w.extractLsb' 8 17) (w.extractLsb' 5 2) (nib0 w) = true ↔
      ¬ (w.extractLsb' 23 2 = 0b10#2 ∧ w.extractLsb' 20 2 = 0b00#2 ∧ w.extractLsb' 8 4 = 0#4) ∧ ¬ w.extractLsb' 22 3 = 0b000#3 ∧
      ¬ w.extractLsb' 23 2 = 0b01#2 := by
  simp only [unallocMulFieldsOk, mulSpace_payload h7 h4]
  simp [hsh, and_assoc, imp_iff_not_or]

/-- The same with bits 6:5 not zero (R326 b). -/
theorem unallocMulFieldsOk_of_ne_zero (hsh : w.extractLsb' 5 2 ≠ 0#2) :
    unallocMulFieldsOk (w.extractLsb' 8 17) (w.extractLsb' 5 2) (nib0 w) = true ↔
      bit w 20 = false ∧ w.extractLsb' 6 1 = 1#1 := by
  have hload : w.extractLsb' 20 1 = 0#1 ↔ bit w 20 = false := eq_comm.trans ((flag_eq_iff (b := false)).trans eq_comm)
  simp [unallocMulFieldsOk, mulSpace_payload h7 h4, hsh, hload]

theorem decodeMulSpace_unalloc (c : Cond)
    (hok : unallocMulFieldsOk (w.extractLsb' 8 17) (w.extractLsb' 5 2) (nib0 w) = true) :
    decodeMulSpace c w = .unallocMulSpace c (w.extractLsb' 8 17) (w.extractLsb' 5 2) (nib0 w) := by
  unfold decodeMulSpace
  dsimp only
  by_cases hsh : w.extractLsb' 5 2 = 0#2
  · obtain ⟨hswap, hmul, hlong⟩ := (unallocMulFieldsOk_of_zero h7 h4 hsh).mp hok
    rw [hsh]
    exact (if_neg hswap).trans ((if_neg hmul).trans (if_neg hlong))
  · obtain ⟨hload, hsigned⟩ := (unallocMulFieldsOk_of_ne_zero h7 h4 hsh).mp hok
    split
    case h_1 hzero => exact absurd (field_eq_of_toNat_eq hzero).symm hsh
    case h_2 hone =>
      have hunsigned := extractLsb'_of_field (field_eq_of_toNat_eq hone) 1 1 (by decide)
      exact absurd (hsigned.symm.trans hunsigned) (by decide)
    case h_3 | h_4 => rw [hload]; rfl

end

/-- The checks of an unallocated word of the status-register space, as tests of the word (R326 c). -/
theorem unallocPsrFieldsOk_of_imm (h25 : bit w 25 = true) :
    unallocPsrFieldsOk (bit w 25) (w.extractLsb' 21 2) (w.extractLsb' 0 20) = true ↔
      ¬ (w.extractLsb' 21 1 = 1#1 ∧ w.extractLsb' 12 4 = 0xF#4) := by
  simp [unallocPsrFieldsOk, extractLsb'_extractLsb', h25, imp_iff_not_or]

theorem unallocPsrFieldsOk_of_reg (h25 : bit w 25 = false) :
    unallocPsrFieldsOk (bit w 25) (w.extractLsb' 21 2) (w.extractLsb' 0 20) = true ↔
      ¬ inMulSpace w ∧ ¬ (w.extractLsb' 21 2 = 0b01#2 ∧ w.extractLsb' 4 16 = 0xFFF1#16) ∧
      ¬ (w.extractLsb' 21 1 = 0#1 ∧ w.extractLsb' 16 4 = 0xF#4 ∧ w.extractLsb' 0 12 = 0#12) ∧
      ¬ (w.extractLsb' 21 1 = 1#1 ∧ w.extractLsb' 4 12 = 0xF00#12) := by
  have hbit (k : Nat) : bit w k = true ↔ w.extractLsb' k 1 = 1#1 := eq_comm.trans ((flag_eq_iff (b := true)).symm.trans eq_comm)
  have hmsr : w.extractLsb' 21 1 = 1#1 ↔ ¬ w.extractLsb' 21 1 = 0#1 := by
    generalize w.extractLsb' 21 1 = field
    revert field
    decide
  simp [unallocPsrFieldsOk, inMulSpace, extractLsb'_extractLsb', h25, hmsr, hbit, and_assoc, imp_iff_not_or]

theorem decodePsrSpace_unalloc (c : Cond)
    (hok : unallocPsrFieldsOk (bit w 25) (w.extractLsb' 21 2) (w.extractLsb' 0 20) = true) : ¬ inMulSpace w ∧
    decodePsrSpace c w = .unallocPsrSpace c (bit w 25) (w.extractLsb' 21 2) (w.extractLsb' 0 20) := by
  unfold decodePsrSpace
  dsimp only
  cases h25 : bit w 25 with
  | true =>
    have hmsr := (unallocPsrFieldsOk_of_imm h25).mp hok
    exact ⟨fun hin => Bool.noConfusion (h25.symm.trans hin.1), if_neg hmsr⟩
  | false =>
    obtain ⟨hspace, hbx, hmrs, hmsr⟩ := (unallocPsrFieldsOk_of_reg h25).mp hok
    exact ⟨hspace, (if_neg hbx).trans ((if_neg hmrs).trans (if_neg hmsr))⟩

theorem transferFieldsOk_iff {p wb : Bool} : transferFieldsOk p wb = true ↔ ¬ (p = false ∧ wb = true) := by
  revert p wb
  decide

variable {c : Cond} {rn rd rm : Reg}

theorem decodeArm_swap {b : Bool}
    (h : (c.code ++ (0b00#2 ++ flag false ++ 0b10#2 ++ flag b ++ 0b00#2) ++ rn ++ rd ++
      (0#4 ++ flag true ++ 0b00#2 ++ flag true) ++ rm : Word) = w) :
    decodeArm w = if b then .swpb c rn rd rm else .swp c rn rd rm := by
  obtain ⟨rfl, hclass, h25, hop, rfl, hlow, rfl, rfl, hzero, h7, hsh, h4, rfl⟩ := armSwap_eq_iff.mp h
  rw [decodeArm_mulSpace hclass ⟨h25.symm, h7.symm, h4.symm⟩]
  simp [decodeMulSpace, ← hop, ← hlow, ← hzero, ← hsh]

theorem decodeArm_mrs {spsr : Bool}
    (h : (c.code ++ (0b00#2 ++ flag false ++ 0b10#2 ++ flag spsr ++ 0#1 ++ flag false) ++ 0xF#4 ++ rd ++ 0#12 : Word) = w) :
    decodeArm w = if spsr then .mrsSpsr c rd else .mrsCpsr c rd := by
  obtain ⟨rfl, hclass, h25, hop, rfl, h21, h20, h16, rfl, hlow⟩ := armMrs_eq_iff.mp h
  have hspace : ¬ inMulSpace w := fun hin => Bool.noConfusion ((bit_of_field hlow 7 (by decide)).symm.trans hin.2.1)
  have hbx : ¬ w.extractLsb' 21 2 = 0b01#2 := fun hop => by
    have := h21.trans (extractLsb'_of_field hop.symm 0 1 (by decide))
    exact absurd this (by decide)
  rw [decodeArm_psrSpace hclass hspace hop h20]
  simp [decodePsrSpace, ← h25, ← h21, ← hlow, ← h16, hbx]

theorem decodeArm_msrReg {spsr : Bool} {m : BitVec 4}
    (h : (c.code ++ (0b00#2 ++ flag false ++ 0b10#2 ++ flag spsr ++ 1#1 ++ flag false) ++ m ++ 0xF00#12 ++ rm : Word) = w) :
    decodeArm w = if spsr then .msrSpsrReg c m rm else .msrCpsrReg c m rm := by
  obtain ⟨rfl, hclass, h25, hop, rfl, h21, h20, rfl, hlow, rfl⟩ := armMsrReg_eq_iff.mp h
  have hspace : ¬ inMulSpace w := fun hin => Bool.noConfusion ((bit_of_field hlow 3 (by decide)).symm.trans hin.2.1)
  have hbx : ¬ w.extractLsb' 4 16 = 0xFFF1#16 := fun hop => by
    have := hlow.trans (extractLsb'_of_field hop.symm 0 12 (by decide))
    exact absurd this (by decide)
  rw [decodeArm_psrSpace hclass hspace hop h20]
  simp [decodePsrSpace, ← h25, ← h21, ← hlow, hbx]

theorem decodeArm_msrImm {spsr : Bool} {m rot : BitVec 4} {imm8 : BitVec 8}
    (h : (c.code ++ (0b00#2 ++ flag true ++ 0b10#2 ++ flag spsr ++ 1#1 ++ flag false) ++ m ++ 0xF#4 ++ rot ++ imm8 : Word) = w) :
    decodeArm w = if spsr then .msrSpsrImm c m rot imm8 else .msrCpsrImm c m rot imm8 := by
  obtain ⟨rfl, hclass, h25, hop, rfl, h21, h20, rfl, hlow, rfl, rfl⟩ := armMsrImm_eq_iff.mp h
  have hspace : ¬ inMulSpace w := fun hin => Bool.noConfusion (h25.trans hin.1)
  rw [decodeArm_psrSpace hclass hspace hop h20]
  simp [decodePsrSpace, ← h25, ← h21, ← hlow]

end

/-! ## The ARM decoder reads an instruction back -/

theorem decodeArm_of_encode {i : Instr} {x : Word} (hwf : i.wellFormed = true) (h : encode i = .arm x) : decodeArm x = i := by
  cases i with
  | stmda c w rn list | stmia c w rn list | stmdb c w rn list | stmib c w rn list | stmdaUser c w rn list
  | stmiaUser c w rn list | stmdbUser c w rn list | stmibUser c w rn list | ldmda c w rn list | ldmia c w rn list
  | ldmdb c w rn list | ldmib c w rn list | ldmdaUser c w rn list | ldmiaUser c w rn list | ldmdbUser c w rn list
  | ldmibUser c w rn list =>
    obtain ⟨rfl, hclass, hp, hu, hs, rfl, hl, rfl, rfl⟩ := armBlock_eq_iff.mp (Code.arm.inj h)
    rw [decodeArm_block hclass]
    simp [decodeBlock, ← hp, ← hu, ← hs, ← hl]
  | b c o | bl c o | swi c o | cdpMcrMrc c o =>
    obtain ⟨⟨hc, hk⟩, rfl⟩ := And.imp_left append_eq_extractLsb'_iff.mp (append_eq_iff.mp (Code.arm.inj h))
    obtain rfl := code_eq_iff.mp hc
    have h24 := bit_of_field hk 0 (by decide)
    have hclass := extractLsb'_of_field hk 1 3 (by decide)
    simp [decodeArm, h24, hclass]
  | undefined c x y =>
    obtain ⟨rfl, hclass, rfl, h4, rfl⟩ := armUndefined_eq_iff.mp (Code.arm.inj h)
    simp [decodeArm, ← hclass, ← h4]
  | ldcStc c x =>
    obtain ⟨rfl, hclass, rfl⟩ := armLdcStc_eq_iff.mp (Code.arm.inj h)
    simp [decodeArm, ← hclass]
  | ldrt c u rn rd o | strt c u rn rd o | ldrbt c u rn rd o | strbt c u rn rd o =>
    obtain ⟨rfl, hclass, hp, rfl, hbyte, hw, hl, rfl, rfl, hoff, rfl⟩ := armTransfer_eq_iff.mp (Code.arm.inj h)
    rw [decodeArm_transfer hclass hoff]
    simp [decodeTransfer, decodeOffset, ← hp, ← hbyte, ← hw, ← hl]
  | ldr c p u w rn rd o | ldrb c p u w rn rd o | str c p u w rn rd o | strb c p u w rn rd o =>
    obtain ⟨rfl, hclass, rfl, rfl, hbyte, rfl, hl, rfl, rfl, hoff, rfl⟩ := armTransfer_eq_iff.mp (Code.arm.inj h)
    have hnotT : ¬ (bit x 24 = false ∧ bit x 21 = true) := transferFieldsOk_iff.mp hwf
    rw [decodeArm_transfer hclass hoff]
    simp [decodeTransfer, decodeOffset, hnotT, ← hbyte, ← hl]
  | swp c rn rd rm => exact decodeArm_swap (b := false) (Code.arm.inj h)
  | swpb c rn rd rm => exact decodeArm_swap (b := true) (Code.arm.inj h)
  | mul c sf rd rn rs rm | mla c sf rd rn rs rm | umull c sf hi lo rs rm | umlal c sf hi lo rs rm | smull c sf hi lo rs rm
  | smlal c sf hi lo rs rm =>
    obtain ⟨rfl, hop, rfl, rfl, rfl, rfl, h7, hsh, h4, rfl⟩ := armMultiply_eq_iff.mp (Code.arm.inj h)
    have hclass := extractLsb'_of_field hop 5 2 (by decide)
    have h25 := bit_of_field hop 4 (by decide)
    have h23 := extractLsb'_of_field hop 2 2 (by decide)
    have h22 := extractLsb'_of_field hop 1 3 (by decide)
    have h21 := extractLsb'_of_field hop 0 2 (by decide)
    have h21b := bit_of_field hop 0 (by decide)
    rw [decodeArm_mulSpace hclass.symm ⟨h25, h7.symm, h4.symm⟩]
    simp [decodeMulSpace, ← hsh, h23, h22, h21, h21b]
  | ldrh c p u w rn rd o | strh c p u w rn rd o | ldrsb c p u w rn rd o | ldrsh c p u w rn rd o =>
    obtain ⟨rfl, hclass, h25, rfl, rfl, rfl, hl, rfl, rfl, h7, hsh, h4, rfl⟩ := armHalf_eq_iff.mp (Code.arm.inj h)
    rw [decodeArm_mulSpace hclass ⟨h25.symm, h7.symm, h4.symm⟩]
    simp [decodeMulSpace, ← hsh, ← hl]
  | unallocMulSpace c a y z =>
    obtain ⟨rfl, hclass, h25, rfl, h7, rfl, h4, rfl⟩ := armUnallocMul_eq_iff.mp (Code.arm.inj h)
    rw [decodeArm_mulSpace hclass ⟨h25.symm, h7.symm, h4.symm⟩]
    exact decodeMulSpace_unalloc h7 h4 _ hwf
  | bx c rn =>
    obtain ⟨rfl, hclass, h25, hop, h21, h20, hlow, rfl⟩ := armBx_eq_iff.mp (Code.arm.inj h)
    have h7 := bit_of_field hlow 3 (by decide)
    rw [decodeArm_psrSpace hclass (by simp [inMulSpace, h7]) hop h20]
    simp [decodePsrSpace, ← h25, ← h21, ← hlow]
  | mrsCpsr c rd => exact decodeArm_mrs (spsr := false) (Code.arm.inj h)
  | mrsSpsr c rd => exact decodeArm_mrs (spsr := true) (Code.arm.inj h)
  | msrCpsrReg c m rm => exact decodeArm_msrReg (spsr := false) (Code.arm.inj h)
  | msrSpsrReg c m rm => exact decodeArm_msrReg (spsr := true) (Code.arm.inj h)
  | msrCpsrImm c m rot i => exact decodeArm_msrImm (spsr := false) (Code.arm.inj h)
  | msrSpsrImm c m rot i => exact decodeArm_msrImm (spsr := true) (Code.arm.inj h)
  | unallocPsrSpace c i a y =>
    obtain ⟨rfl, hclass, rfl, hop, rfl, h20, rfl⟩ := armUnallocPsr_eq_iff.mp (Code.arm.inj h)
    obtain ⟨hspace, hunalloc⟩ := decodePsrSpace_unalloc (.ofCode (x.extractLsb' 28 4)) hwf
    exact (decodeArm_psrSpace hclass hspace hop h20).trans hunalloc
  | and c sf rn rd o | eor c sf rn rd o | sub c sf rn rd o | rsb c sf rn rd o | add c sf rn rd o | adc c sf rn rd o
  | sbc c sf rn rd o | rsc c sf rn rd o | orr c sf rn rd o | mov c sf rn rd o | bic c sf rn rd o | mvn c sf rn rd o =>
    obtain ⟨rfl, hclass, hop, rfl, rfl, rfl, hspace, rfl⟩ := armDataProc_eq_iff.mp (Code.arm.inj h)
    have h23 := extractLsb'_of_field hop 2 2 (by decide)
    rw [decodeArm_dataProc hclass hspace (by simp [h23])]
    simp [decodeDataProc, ← hop]
  | tst c rn rd o | teq c rn rd o | cmp c rn rd o | cmn c rn rd o =>
    obtain ⟨rfl, hclass, hop, h20, rfl, rfl, hspace, rfl⟩ := armDataProc_eq_iff.mp (Code.arm.inj h)
    rw [decodeArm_dataProc hclass hspace (by simp [← h20])]
    simp [decodeDataProc, ← hop]
  | _ => cases h

/-! ## Every word is a code (R303) -/

/-- An instruction that its encoding admits, and its code. -/
def HasCode (i : Instr) (x : Code) : Prop := i.wellFormed = true ∧ encode i = x

theorem decodeBlock_hasCode {w : Word} (hclass : 0b100#3 = w.extractLsb' 25 3) :
    HasCode (decodeBlock (.ofCode (w.extractLsb' 28 4)) w) (.arm w) := by
  have hcode := congrArg Code.arm (armBlock_eq_iff.mpr ⟨rfl, hclass, rfl, rfl, rfl, rfl, rfl, rfl, rfl⟩)
  unfold decodeBlock
  dsimp only
  revert hcode
  cases bit w 20 <;> cases bit w 22 <;> cases bit w 24 <;> cases bit w 23 <;> exact fun hcode => ⟨rfl, hcode⟩

theorem decodeTransfer_hasCode {w : Word} (hclass : 0b01#2 = w.extractLsb' 26 2) (hoff : ¬ (bit w 25 = true ∧ bit w 4 = true)) :
    HasCode (decodeTransfer (.ofCode (w.extractLsb' 28 4)) w) (.arm w) := by
  have hcode := congrArg Code.arm (armTransfer_eq_iff.mpr ⟨rfl, hclass, rfl, rfl, rfl, rfl, rfl, rfl, rfl, hoff, rfl⟩)
  unfold decodeTransfer
  dsimp only
  by_cases hT : bit w 24 = false ∧ bit w 21 = true
  · rw [if_pos hT]
    rw [hT.1, hT.2] at hcode
    revert hcode
    cases bit w 20 <;> cases bit w 22 <;> exact fun hcode => ⟨rfl, hcode⟩
  · rw [if_neg hT]
    revert hcode
    cases bit w 20 <;> cases bit w 22 <;> exact fun hcode => ⟨transferFieldsOk_iff.mpr hT, hcode⟩

theorem decodeDataProc_hasCode {w : Word} (hclass : 0b00#2 = w.extractLsb' 26 2) (hspace : ¬ inMulSpace w)
    (hpsr : ¬ (w.extractLsb' 23 2 = 0b10#2 ∧ bit w 20 = false)) :
    HasCode (decodeDataProc (.ofCode (w.extractLsb' 28 4)) w) (.arm w) := by
  have hcode {op : BitVec 4} (hop : op = w.extractLsb' 21 4) :
      armDataProc (.ofCode (w.extractLsb' 28 4)) op (bit w 20) (nib16 w) (nib12 w) (decodeOperand2 w) = w :=
    armDataProc_eq_iff.mpr ⟨rfl, hclass, hop, rfl, rfl, rfl, hspace, rfl⟩
  have hcompare {op : BitVec 4} (hop : op = w.extractLsb' 21 4) (htop : op.extractLsb' 2 2 = 0b10#2) :
      armDataProc (.ofCode (w.extractLsb' 28 4)) op true (nib16 w) (nib12 w) (decodeOperand2 w) = w := by
    have hs : bit w 20 = true := by
      rw [← Bool.not_eq_false]
      exact fun hs => hpsr ⟨(extractLsb'_of_field hop 2 2 (by decide)).trans htop, hs⟩
    exact hs ▸ hcode hop
  unfold decodeDataProc
  dsimp only
  split
  case h_1 hop | h_2 hop | h_3 hop | h_4 hop | h_5 hop | h_6 hop | h_7 hop | h_8 hop | h_13 hop | h_14 hop | h_15 hop =>
    exact ⟨rfl, congrArg Code.arm (hcode (field_eq_of_toNat_eq hop))⟩
  case h_9 hop | h_10 hop | h_11 hop | h_12 hop =>
    exact ⟨rfl, congrArg Code.arm (hcompare (field_eq_of_toNat_eq hop) (by decide))⟩
  case h_16 =>
    have hop : 15#4 = w.extractLsb' 21 4 := by apply fifteen_eq_of_toNat_ne <;> assumption
    exact ⟨rfl, congrArg Code.arm (hcode hop)⟩

theorem decodePsrSpace_hasCode {w : Word} (hclass : 0b00#2 = w.extractLsb' 26 2) (hspace : ¬ inMulSpace w)
    (hop : w.extractLsb' 23 2 = 0b10#2) (hs : bit w 20 = false) :
    HasCode (decodePsrSpace (.ofCode (w.extractLsb' 28 4)) w) (.arm w) := by
  by_cases hok : unallocPsrFieldsOk (bit w 25) (w.extractLsb' 21 2) (w.extractLsb' 0 20) = true
  · rw [(decodePsrSpace_unalloc _ hok).2]
    exact ⟨hok, congrArg Code.arm (armUnallocPsr_eq_iff.mpr ⟨rfl, hclass, rfl, hop.symm, rfl, hs.symm, rfl⟩)⟩
  unfold decodePsrSpace
  dsimp only
  cases h25 : bit w 25 with
  | true =>
    have hmsr := not_not.mp (mt (unallocPsrFieldsOk_of_imm h25).mpr hok)
    have hcode := congrArg Code.arm
      (armMsrImm_eq_iff.mpr ⟨rfl, hclass, h25.symm, hop.symm, rfl, hmsr.1.symm, hs.symm, rfl, hmsr.2.symm, rfl, rfl⟩)
    rw [if_pos rfl, if_pos hmsr]
    revert hcode
    cases bit w 22 <;> exact fun hcode => ⟨rfl, hcode⟩
  | false =>
    have hrow := mt (unallocPsrFieldsOk_of_reg h25).mpr hok
    rw [if_neg Bool.false_ne_true]
    by_cases hbx : w.extractLsb' 21 2 = 0b01#2 ∧ w.extractLsb' 4 16 = 0xFFF1#16
    · rw [if_pos hbx]
      exact ⟨rfl, congrArg Code.arm
        (armBx_eq_iff.mpr ⟨rfl, hclass, h25.symm, hop.symm, hbx.1.symm, hs.symm, hbx.2.symm, rfl⟩)⟩
    rw [if_neg hbx]
    by_cases hmrs : w.extractLsb' 21 1 = 0#1 ∧ w.extractLsb' 16 4 = 0xF#4 ∧ w.extractLsb' 0 12 = 0#12
    · have hcode := congrArg Code.arm (armMrs_eq_iff.mpr
        ⟨rfl, hclass, h25.symm, hop.symm, rfl, hmrs.1.symm, hs.symm, hmrs.2.1.symm, rfl, hmrs.2.2.symm⟩)
      rw [if_pos hmrs]
      revert hcode
      cases bit w 22 <;> exact fun hcode => ⟨rfl, hcode⟩
    rw [if_neg hmrs]
    by_cases hmsr : w.extractLsb' 21 1 = 1#1 ∧ w.extractLsb' 4 12 = 0xF00#12
    · have hcode := congrArg Code.arm
        (armMsrReg_eq_iff.mpr ⟨rfl, hclass, h25.symm, hop.symm, rfl, hmsr.1.symm, hs.symm, rfl, hmsr.2.symm, rfl⟩)
      rw [if_pos hmsr]
      revert hcode
      cases bit w 22 <;> exact fun hcode => ⟨rfl, hcode⟩
    · exact absurd ⟨hspace, hbx, hmrs, hmsr⟩ hrow

section
variable {w : Word} (hclass : 0b00#2 = w.extractLsb' 26 2) (h25 : bit w 25 = false) (h7 : bit w 7 = true) (h4 : bit w 4 = true)
include hclass h25 h7 h4

theorem armMultiply_code {op : BitVec 4} (hop : op = w.extractLsb' 21 4) (hsh : 0b00#2 = w.extractLsb' 5 2) :
    Code.arm (armMultiply (.ofCode (w.extractLsb' 28 4)) (0b00#2 ++ flag false ++ op) (bit w 20) (nib16 w) (nib12 w) (nib8 w)
      (nib0 w)) = .arm w := by
  have hbits : 0b00#2 ++ flag false ++ op = w.extractLsb' 21 7 := by
    rw [append_eq_extractLsb'_iff, append_eq_extractLsb'_iff]
    exact ⟨⟨hclass, flag_eq_iff.mpr h25.symm⟩, hop⟩
  exact congrArg Code.arm (armMultiply_eq_iff.mpr ⟨rfl, hbits, rfl, rfl, rfl, rfl, h7.symm, hsh, h4.symm, rfl⟩)

variable (hok : ¬ unallocMulFieldsOk (w.extractLsb' 8 17) (w.extractLsb' 5 2) (nib0 w) = true)
include hok

/-- Bits 6:5 zero: swap, multiply, multiply long. -/
theorem decodeMulSpace_zero_hasCode (hsh : 0b00#2 = w.extractLsb' 5 2) :
    HasCode (decodeMulSpace (.ofCode (w.extractLsb' 28 4)) w) (.arm w) := by
  have hrow := mt (unallocMulFieldsOk_of_zero h7.symm h4.symm hsh.symm).mpr hok
  unfold decodeMulSpace
  rw [← hsh]
  change HasCode (if _ then _ else _) _
  by_cases hswap : w.extractLsb' 23 2 = 0b10#2 ∧ w.extractLsb' 20 2 = 0b00#2 ∧ w.extractLsb' 8 4 = 0#4
  · obtain ⟨hop, hlow, hzero⟩ := hswap
    have hcode := congrArg Code.arm (armSwap_eq_iff.mpr ⟨rfl, hclass, h25.symm, hop.symm, rfl, hlow.symm, rfl, rfl, hzero.symm,
      h7.symm, hsh, h4.symm, rfl⟩)
    rw [if_pos ⟨hop, hlow, hzero⟩]
    revert hcode
    cases bit w 22 <;> exact fun hcode => ⟨rfl, hcode⟩
  rw [if_neg hswap]
  by_cases hmul : w.extractLsb' 22 3 = 0b000#3
  · have hcode := armMultiply_code hclass h25 h7 h4 (append_flag_bit hmul.symm) hsh
    rw [if_pos hmul]
    revert hcode
    cases bit w 21 <;> exact fun hcode => ⟨rfl, hcode⟩
  rw [if_neg hmul]
  by_cases hlong : w.extractLsb' 23 2 = 0b01#2
  · rw [if_pos hlong]
    have hlayout {op : BitVec 2} (hop : op = w.extractLsb' 21 2) :=
      armMultiply_code hclass h25 h7 h4 (append_eq_extractLsb'_iff.mpr ⟨hlong.symm, hop⟩) hsh
    split
    case h_1 hop | h_2 hop | h_3 hop =>
      have hcode := hlayout (field_eq_of_toNat_eq hop)
      exact ⟨rfl, hcode⟩
    case h_4 =>
      have hcode := hlayout (three_eq_of_toNat_ne ‹_› ‹_› ‹_›)
      exact ⟨rfl, hcode⟩
  · exact absurd ⟨hswap, hmul, hlong⟩ hrow

/-- Bits 6:5 not zero: the halfword and signed transfers. -/
theorem decodeMulSpace_half_hasCode (hne : w.extractLsb' 5 2 ≠ 0#2) :
    HasCode (decodeMulSpace (.ofCode (w.extractLsb' 28 4)) w) (.arm w) := by
  have hlayout {sh : BitVec 2} (hsh : sh = w.extractLsb' 5 2) := congrArg Code.arm (armHalf_eq_iff.mpr
    ⟨rfl, hclass, h25.symm, rfl, rfl, rfl, rfl, rfl, rfl, h7.symm, hsh, h4.symm, rfl⟩)
  have hload {sh : BitVec 2} (hsh : sh = w.extractLsb' 5 2) (hsigned : sh.extractLsb' 1 1 = 1#1) : bit w 20 = true := by
    rw [← Bool.not_eq_false]
    exact fun hstore => hok ((unallocMulFieldsOk_of_ne_zero h7.symm h4.symm hne).mpr
      ⟨hstore, (extractLsb'_of_field hsh 1 1 (by decide)).trans hsigned⟩)
  unfold decodeMulSpace
  dsimp only
  split
  case h_1 hzero => exact absurd (field_eq_of_toNat_eq hzero).symm hne
  case h_2 hone =>
    have hcode := hlayout (field_eq_of_toNat_eq hone)
    revert hcode
    cases bit w 20 <;> exact fun hcode => ⟨rfl, hcode⟩
  case h_3 htwo =>
    have hsh := field_eq_of_toNat_eq htwo
    have hcode := hlayout hsh
    rw [hload hsh (by decide)] at hcode ⊢
    exact ⟨rfl, hcode⟩
  case h_4 =>
    have hsh := three_eq_of_toNat_ne ‹_› ‹_› ‹_›
    have hcode := hlayout hsh
    rw [hload hsh (by decide)] at hcode ⊢
    exact ⟨rfl, hcode⟩

end

theorem decodeMulSpace_hasCode {w : Word} (hclass : 0b00#2 = w.extractLsb' 26 2) (hspace : inMulSpace w) :
    HasCode (decodeMulSpace (.ofCode (w.extractLsb' 28 4)) w) (.arm w) := by
  obtain ⟨h25, h7, h4⟩ := hspace
  by_cases hok : unallocMulFieldsOk (w.extractLsb' 8 17) (w.extractLsb' 5 2) (nib0 w) = true
  · rw [decodeMulSpace_unalloc h7.symm h4.symm _ hok]
    exact ⟨hok, congrArg Code.arm (armUnallocMul_eq_iff.mpr ⟨rfl, hclass, h25.symm, rfl, h7.symm, rfl, h4.symm, rfl⟩)⟩
  · by_cases hsh : w.extractLsb' 5 2 = 0#2
    · exact decodeMulSpace_zero_hasCode hclass h25 h7 h4 hok hsh.symm
    · exact decodeMulSpace_half_hasCode hclass h25 h7 h4 hok hsh

theorem decodeDataSpace_hasCode {w : Word} (hclass : 0b00#2 = w.extractLsb' 26 2) :
    HasCode (decodeDataSpace (.ofCode (w.extractLsb' 28 4)) w) (.arm w) := by
  unfold decodeDataSpace
  split
  · next hspace => exact decodeMulSpace_hasCode hclass hspace
  · next hspace =>
    split
    · next hpsr => exact decodePsrSpace_hasCode hclass hspace hpsr.1 hpsr.2
    · next hpsr => exact decodeDataProc_hasCode hclass hspace hpsr

theorem decodeArm_hasCode (w : Word) : HasCode (decodeArm w) (.arm w) := by
  have hsplit {k : BitVec 2} {b : Bool} (h : k ++ flag b = w.extractLsb' 25 3) : k = w.extractLsb' 26 2 ∧ b = bit w 25 :=
    And.imp_right flag_eq_iff.mp (append_eq_extractLsb'_iff.mp h)
  have hfield24 {k : BitVec 3} {b : Bool} (h : k = w.extractLsb' 25 3) (hb : bit w 24 = b) :=
    congrArg Code.arm (armField24_eq_iff.mpr ⟨rfl, h, hb.symm, rfl⟩)
  unfold decodeArm
  dsimp only
  split
  case h_1 hop => exact decodeDataSpace_hasCode (hsplit (k := 0b00#2) (b := false) (field_eq_of_toNat_eq hop)).1
  case h_2 hop => exact decodeDataSpace_hasCode (hsplit (k := 0b00#2) (b := true) (field_eq_of_toNat_eq hop)).1
  case h_3 hop =>
    obtain ⟨hclass, h25⟩ := hsplit (k := 0b01#2) (b := false) (field_eq_of_toNat_eq hop)
    exact decodeTransfer_hasCode hclass fun hreg => Bool.noConfusion (h25.trans hreg.1)
  case h_4 hop =>
    have hclass := field_eq_of_toNat_eq hop
    split
    · next h4 => exact ⟨rfl, congrArg Code.arm (armUndefined_eq_iff.mpr ⟨rfl, hclass, rfl, h4.symm, rfl⟩)⟩
    · next h4 => exact decodeTransfer_hasCode (hsplit (k := 0b01#2) (b := true) hclass).1 fun hreg => h4 hreg.2
  case h_5 hop => exact decodeBlock_hasCode (field_eq_of_toNat_eq hop)
  case h_6 hop =>
    have hclass := field_eq_of_toNat_eq hop
    split
    · next h24 =>
      have hcode := hfield24 hclass h24
      exact ⟨rfl, hcode⟩
    · next h24 =>
      have hcode := hfield24 hclass (Bool.eq_false_of_not_eq_true h24)
      exact ⟨rfl, hcode⟩
  case h_7 hop => exact ⟨rfl, congrArg Code.arm (armLdcStc_eq_iff.mpr ⟨rfl, field_eq_of_toNat_eq hop, rfl⟩)⟩
  case h_8 =>
    have hclass : 7#3 = w.extractLsb' 25 3 := by apply seven_eq_of_toNat_ne <;> assumption
    split
    · next h24 =>
      have hcode := hfield24 hclass h24
      exact ⟨rfl, hcode⟩
    · next h24 =>
      have hcode := hfield24 hclass (Bool.eq_false_of_not_eq_true h24)
      exact ⟨rfl, hcode⟩

/-! ## The layouts of the THUMB halfwords (R330)

The fixed bits at the top of a halfword are one field `k`; the decoder tests parts of it. A layout of one fixed and one free
field is `append_eq_iff` itself. -/

section
variable {h : Half}

theorem thumbShift_eq_iff {k o : BitVec 5} {rs rd : LowReg} :
    (k ++ o ++ rs ++ rd : Half) = h ↔ k = h.extractLsb' 11 5 ∧ o = h.extractLsb' 6 5 ∧ rs = low3 h ∧ rd = low0 h := by
  rw [append_eq_iff, append_eq_extractLsb'_iff, append_eq_extractLsb'_iff]
  simp only [low0, low3, and_assoc, Nat.reduceAdd]

theorem thumbThreeRegs_eq_iff {k : BitVec 7} {rn rs rd : LowReg} :
    (k ++ rn ++ rs ++ rd : Half) = h ↔ k = h.extractLsb' 9 7 ∧ rn = low6 h ∧ rs = low3 h ∧ rd = low0 h := by
  rw [append_eq_iff, append_eq_extractLsb'_iff, append_eq_extractLsb'_iff]
  simp only [low0, low3, low6, and_assoc, Nat.reduceAdd]

theorem thumbTwoRegs_eq_iff {k : BitVec 10} {rs rd : LowReg} :
    (k ++ rs ++ rd : Half) = h ↔ k = h.extractLsb' 6 10 ∧ rs = low3 h ∧ rd = low0 h := by
  rw [append_eq_iff, append_eq_extractLsb'_iff]
  simp only [low0, low3, and_assoc, Nat.reduceAdd]

theorem thumbRegByte_eq_iff {k : BitVec 5} {rd : LowReg} {x : BitVec 8} :
    (k ++ rd ++ x : Half) = h ↔ k = h.extractLsb' 11 5 ∧ rd = low8 h ∧ x = h.extractLsb' 0 8 := by
  rw [append_eq_iff, append_eq_extractLsb'_iff]
  simp only [low8, and_assoc, Nat.reduceAdd]

/-- Format 5: H1 stands apart from the other bits of the destination. -/
theorem thumbHi_eq_iff {k : BitVec 8} {s d : Reg} :
    (k ++ d.extractLsb' 3 1 ++ s ++ d.extractLsb' 0 3 : Half) = h ↔
      k = h.extractLsb' 8 8 ∧ s = h.extractLsb' 3 4 ∧ d = h.extractLsb' 7 1 ++ low0 h := by
  have hsplit : d = h.extractLsb' 7 1 ++ low0 h ↔ d.extractLsb' 3 1 = h.extractLsb' 7 1 ∧ d.extractLsb' 0 3 = h.extractLsb' 0 3 :=
    eq_comm.trans (append_eq_iff.trans (and_congr eq_comm eq_comm))
  rw [append_eq_iff, append_eq_extractLsb'_iff, append_eq_extractLsb'_iff, hsplit]
  simp only [and_assoc, Nat.reduceAdd]
  tauto

theorem thumbPushPop_eq_iff {k : BitVec 7} {r : Bool} {list : BitVec 8} :
    (k ++ flag r ++ list : Half) = h ↔ k = h.extractLsb' 9 7 ∧ r = bit h 8 ∧ list = h.extractLsb' 0 8 := by
  rw [append_eq_iff, append_eq_extractLsb'_iff]
  simp only [flag_eq_iff, and_assoc, Nat.reduceAdd]

theorem thumbBCond_eq_iff {k : BitVec 4} {c : Cond} {o : BitVec 8} :
    (k ++ c.code ++ o : Half) = h ↔ k = h.extractLsb' 12 4 ∧ c = .ofCode (h.extractLsb' 8 4) ∧ o = h.extractLsb' 0 8 := by
  rw [append_eq_iff, append_eq_extractLsb'_iff]
  simp only [code_eq_iff, and_assoc, Nat.reduceAdd]

end

theorem branchCondOk_iff {c : Cond} : branchCondOk c = true ↔ c ≠ .nv ∧ c ≠ .al := by
  cases c <;> decide

/-! ## The THUMB decoder reads an instruction back -/

theorem decodeThumb_of_encode {i : Instr} {h : Half} (hwf : i.wellFormed = true) (hcode : encode i = .thumb h) :
    decodeThumb h = i := by
  cases i with
  | tLslImm o rs rd | tLsrImm o rs rd | tAsrImm o rs rd | tStrImm o rs rd | tLdrImm o rs rd | tStrbImm o rs rd | tLdrbImm o rs rd
  | tStrhImm o rs rd | tLdrhImm o rs rd =>
    obtain ⟨hk, rfl, rfl, rfl⟩ := thumbShift_eq_iff.mp (Code.thumb.inj hcode)
    have h13 := extractLsb'_of_field hk 2 3 (by decide)
    have h11 := extractLsb'_of_field hk 0 2 (by decide)
    simp [decodeThumb, decodeThumb000, decodeThumb011, decodeThumb100, h13, h11]
  | tAddReg x rs rd | tSubReg x rs rd | tAddImm3 x rs rd | tSubImm3 x rs rd =>
    obtain ⟨hk, rfl, rfl, rfl⟩ := thumbThreeRegs_eq_iff.mp (Code.thumb.inj hcode)
    have h13 := extractLsb'_of_field hk 4 3 (by decide)
    have h11 := extractLsb'_of_field hk 2 2 (by decide)
    have h9 := extractLsb'_of_field hk 0 2 (by decide)
    simp [decodeThumb, decodeThumb000, low6, h13, h11, h9]
  | tStrReg ro rb rd | tStrbReg ro rb rd | tLdrReg ro rb rd | tLdrbReg ro rb rd | tStrhReg ro rb rd | tLdsbReg ro rb rd
  | tLdrhReg ro rb rd | tLdshReg ro rb rd =>
    obtain ⟨hk, rfl, rfl, rfl⟩ := thumbThreeRegs_eq_iff.mp (Code.thumb.inj hcode)
    have h13 := extractLsb'_of_field hk 4 3 (by decide)
    have h12 := bit_of_field hk 3 (by decide)
    have h9 := extractLsb'_of_field hk 0 3 (by decide)
    simp [decodeThumb, decodeThumb010, h13, h12, h9]
  | tMovImm8 rd x | tCmpImm8 rd x | tAddImm8 rd x | tSubImm8 rd x | tStrSp rd x | tLdrSp rd x =>
    obtain ⟨hk, rfl, rfl⟩ := thumbRegByte_eq_iff.mp (Code.thumb.inj hcode)
    have h13 := extractLsb'_of_field hk 2 3 (by decide)
    have h11 := extractLsb'_of_field hk 0 2 (by decide)
    simp [decodeThumb, decodeThumb001, decodeThumb100, h13, h11]
  | tLdrPc rd x | tAddPc rd x | tAddSp rd x | tStmia rd x | tLdmia rd x =>
    obtain ⟨hk, rfl, rfl⟩ := thumbRegByte_eq_iff.mp (Code.thumb.inj hcode)
    have h13 := extractLsb'_of_field hk 2 3 (by decide)
    have h12 := bit_of_field hk 1 (by decide)
    have h11 := bit_of_field hk 0 (by decide)
    simp [decodeThumb, decodeThumb010, decodeThumb101, decodeThumb110, h13, h12, h11]
  | tAnd rs rd | tEor rs rd | tLslReg rs rd | tLsrReg rs rd | tAsrReg rs rd | tAdc rs rd | tSbc rs rd | tRorReg rs rd | tTst rs rd
  | tNeg rs rd | tCmpReg rs rd | tCmn rs rd | tOrr rs rd | tMul rs rd | tBic rs rd | tMvn rs rd =>
    obtain ⟨hk, rfl, rfl⟩ := thumbTwoRegs_eq_iff.mp (Code.thumb.inj hcode)
    have h13 := extractLsb'_of_field hk 7 3 (by decide)
    have h12 := bit_of_field hk 6 (by decide)
    have h11 := bit_of_field hk 5 (by decide)
    have h10 := bit_of_field hk 4 (by decide)
    have hop := extractLsb'_of_field hk 0 4 (by decide)
    simp [decodeThumb, decodeThumb010, decodeThumbAlu, h13, h12, h11, h10, hop]
  | tAddHi s d | tCmpHi s d | tMovHi s d | tBx s d =>
    obtain ⟨hk, rfl, rfl⟩ := thumbHi_eq_iff.mp (Code.thumb.inj hcode)
    have h13 := extractLsb'_of_field hk 5 3 (by decide)
    have h12 := bit_of_field hk 4 (by decide)
    have h11 := bit_of_field hk 3 (by decide)
    have h10 := bit_of_field hk 2 (by decide)
    have hop := extractLsb'_of_field hk 0 2 (by decide)
    simp [decodeThumb, decodeThumb010, decodeThumbHi, h13, h12, h11, h10, hop]
  | tAddSpImm x | tSubSpImm x =>
    obtain ⟨hk, rfl⟩ := append_eq_iff.mp (Code.thumb.inj hcode)
    have h13 := extractLsb'_of_field hk 6 3 (by decide)
    have h12 := bit_of_field hk 5 (by decide)
    have h8 := extractLsb'_of_field hk 1 4 (by decide)
    have h7 := bit_of_field hk 0 (by decide)
    simp [decodeThumb, decodeThumb101, decodeThumb1011, h13, h12, h8, h7]
  | tPush r list | tPop r list =>
    obtain ⟨hk, rfl, rfl⟩ := thumbPushPop_eq_iff.mp (Code.thumb.inj hcode)
    have h13 := extractLsb'_of_field hk 4 3 (by decide)
    have h12 := bit_of_field hk 3 (by decide)
    have h8 := append_flag_bit (extractLsb'_of_field hk 0 3 (by decide)).symm
    simp only [decodeThumb, decodeThumb101, decodeThumb1011, h13, h12, ← h8]
    cases bit h 8 <;> rfl
  | tUndefB1 x =>
    obtain ⟨hk, rfl⟩ := append_eq_iff.mp (Code.thumb.inj hcode)
    have h13 := extractLsb'_of_field hk 5 3 (by decide)
    have h12 := bit_of_field hk 4 (by decide)
    have h8 := extractLsb'_of_field hk 0 4 (by decide)
    simp [decodeThumb, decodeThumb101, decodeThumb1011, h13, h12, h8]
  | tUndefB2 x | tUndefB6 x | tUndefBE x =>
    obtain ⟨hk, rfl⟩ := append_eq_iff.mp (Code.thumb.inj hcode)
    have h13 := extractLsb'_of_field hk 4 3 (by decide)
    have h12 := bit_of_field hk 3 (by decide)
    have h8 := append_flag_bit (extractLsb'_of_field hk 0 3 (by decide)).symm
    simp only [decodeThumb, decodeThumb101, decodeThumb1011, h13, h12, ← h8]
    cases bit h 8 <;> rfl
  | tUndefB8 x =>
    obtain ⟨hk, rfl⟩ := append_eq_iff.mp (Code.thumb.inj hcode)
    have h13 := extractLsb'_of_field hk 3 3 (by decide)
    have h12 := bit_of_field hk 2 (by decide)
    have h8 := append_flag_bit (append_flag_bit (extractLsb'_of_field hk 0 2 (by decide)).symm)
    simp only [decodeThumb, decodeThumb101, decodeThumb1011, h13, h12, ← h8]
    cases bit h 9 <;> cases bit h 8 <;> rfl
  | tUndefDE x | tSwi x =>
    obtain ⟨hk, rfl⟩ := append_eq_iff.mp (Code.thumb.inj hcode)
    have h13 := extractLsb'_of_field hk 5 3 (by decide)
    have h12 := bit_of_field hk 4 (by decide)
    have h8 := extractLsb'_of_field hk 0 4 (by decide)
    simp [decodeThumb, decodeThumb110, h13, h12, h8, Cond.ofCode]
  | tBCond c o =>
    obtain ⟨hk, rfl, rfl⟩ := thumbBCond_eq_iff.mp (Code.thumb.inj hcode)
    have h13 := extractLsb'_of_field hk 1 3 (by decide)
    have h12 : bit h 12 = true := bit_of_field hk 0 (by decide)
    have hgroup : decodeThumb h = decodeThumb110 h := by simp [decodeThumb, h13]
    obtain ⟨hnotNv, hnotAl⟩ := branchCondOk_iff.mp hwf
    rw [hgroup, decodeThumb110, h12, if_pos rfl]
    split
    case h_1 hnv => exact absurd hnv hnotNv
    case h_2 hal => exact absurd hal hnotAl
    case h_3 => rfl
  | tB o | tUndefE8 o | tBlFirst o | tBlSecond o =>
    obtain ⟨hk, rfl⟩ := append_eq_iff.mp (Code.thumb.inj hcode)
    have h13 := extractLsb'_of_field hk 2 3 (by decide)
    have h11 := extractLsb'_of_field hk 0 2 (by decide)
    simp [decodeThumb, decodeThumb111, h13, h11]
  | _ => cases hcode

/-! ## Every halfword is a code (R333, R334) -/

theorem decodeThumbAlu_hasCode {h : Half} (htop : 0b010000#6 = h.extractLsb' 10 6) : HasCode (decodeThumbAlu h) (.thumb h) := by
  have hlayout {op : BitVec 4} (hop : op = h.extractLsb' 6 4) :=
    congrArg Code.thumb (thumbTwoRegs_eq_iff.mpr ⟨append_eq_extractLsb'_iff.mpr ⟨htop, hop⟩, rfl, rfl⟩)
  unfold decodeThumbAlu
  split
  case h_1 hop | h_2 hop | h_3 hop | h_4 hop | h_5 hop | h_6 hop | h_7 hop | h_8 hop | h_9 hop | h_10 hop | h_11 hop | h_12 hop
    | h_13 hop | h_14 hop | h_15 hop =>
    have hcode := hlayout (field_eq_of_toNat_eq hop)
    exact ⟨rfl, hcode⟩
  case h_16 =>
    have hop : 15#4 = h.extractLsb' 6 4 := by apply fifteen_eq_of_toNat_ne <;> assumption
    have hcode := hlayout hop
    exact ⟨rfl, hcode⟩

theorem decodeThumbHi_hasCode {h : Half} (htop : 0b010001#6 = h.extractLsb' 10 6) : HasCode (decodeThumbHi h) (.thumb h) := by
  have hlayout {op : BitVec 2} (hop : op = h.extractLsb' 8 2) :=
    congrArg Code.thumb (thumbHi_eq_iff.mpr ⟨append_eq_extractLsb'_iff.mpr ⟨htop, hop⟩, rfl, rfl⟩)
  unfold decodeThumbHi
  dsimp only
  split
  case h_1 hop | h_2 hop | h_3 hop =>
    have hcode := hlayout (field_eq_of_toNat_eq hop)
    exact ⟨rfl, hcode⟩
  case h_4 =>
    have hcode := hlayout (three_eq_of_toNat_ne ‹_› ‹_› ‹_›)
    exact ⟨rfl, hcode⟩

theorem decodeThumb000_hasCode {h : Half} (hclass : 0b000#3 = h.extractLsb' 13 3) : HasCode (decodeThumb000 h) (.thumb h) := by
  have htop {op : BitVec 2} (hop : op = h.extractLsb' 11 2) := append_eq_extractLsb'_iff.mpr ⟨hclass, hop⟩
  unfold decodeThumb000
  split
  case h_1 hop | h_2 hop | h_3 hop =>
    have hcode := thumbShift_eq_iff.mpr ⟨htop (field_eq_of_toNat_eq hop), rfl, rfl, rfl⟩
    exact ⟨rfl, congrArg Code.thumb hcode⟩
  case h_4 =>
    have hlayout {op : BitVec 2} (hop : op = h.extractLsb' 9 2) := congrArg Code.thumb
      (thumbThreeRegs_eq_iff.mpr ⟨append_eq_extractLsb'_iff.mpr ⟨htop (three_eq_of_toNat_ne ‹_› ‹_› ‹_›), hop⟩, rfl, rfl, rfl⟩)
    split
    case h_1 hop | h_2 hop | h_3 hop =>
      have hcode := hlayout (field_eq_of_toNat_eq hop)
      exact ⟨rfl, hcode⟩
    case h_4 =>
      have hcode := hlayout (three_eq_of_toNat_ne ‹_› ‹_› ‹_›)
      exact ⟨rfl, hcode⟩

theorem decodeThumb001_hasCode {h : Half} (hclass : 0b001#3 = h.extractLsb' 13 3) : HasCode (decodeThumb001 h) (.thumb h) := by
  have hlayout {op : BitVec 2} (hop : op = h.extractLsb' 11 2) :=
    congrArg Code.thumb (thumbRegByte_eq_iff.mpr ⟨append_eq_extractLsb'_iff.mpr ⟨hclass, hop⟩, rfl, rfl⟩)
  unfold decodeThumb001
  split
  case h_1 hop | h_2 hop | h_3 hop =>
    have hcode := hlayout (field_eq_of_toNat_eq hop)
    exact ⟨rfl, hcode⟩
  case h_4 =>
    have hcode := hlayout (three_eq_of_toNat_ne ‹_› ‹_› ‹_›)
    exact ⟨rfl, hcode⟩

theorem decodeThumb010_hasCode {h : Half} (hclass : 0b010#3 = h.extractLsb' 13 3) : HasCode (decodeThumb010 h) (.thumb h) := by
  have h12field := append_flag_bit hclass
  have h11field := append_flag_bit h12field
  have h10field := append_flag_bit h11field
  unfold decodeThumb010
  cases h12 : bit h 12 with
  | true =>
    rw [h12] at h12field
    have hlayout {op : BitVec 3} (hop : op = h.extractLsb' 9 3) := congrArg Code.thumb
      (thumbThreeRegs_eq_iff.mpr ⟨append_eq_extractLsb'_iff.mpr ⟨h12field, hop⟩, rfl, rfl, rfl⟩)
    rw [if_pos rfl]
    split
    case h_1 hop | h_2 hop | h_3 hop | h_4 hop | h_5 hop | h_6 hop | h_7 hop =>
      have hcode := hlayout (field_eq_of_toNat_eq hop)
      exact ⟨rfl, hcode⟩
    case h_8 =>
      have hop : 7#3 = h.extractLsb' 9 3 := by apply seven_eq_of_toNat_ne <;> assumption
      have hcode := hlayout hop
      exact ⟨rfl, hcode⟩
  | false =>
    rw [h12] at h11field h10field
    cases h11 : bit h 11 with
    | true =>
      rw [h11] at h11field
      have hcode := thumbRegByte_eq_iff.mpr ⟨h11field, rfl, rfl⟩
      exact ⟨rfl, congrArg Code.thumb hcode⟩
    | false =>
      rw [h11] at h10field
      cases h10 : bit h 10 with
      | true =>
        rw [h10] at h10field
        exact decodeThumbHi_hasCode h10field
      | false =>
        rw [h10] at h10field
        exact decodeThumbAlu_hasCode h10field

theorem decodeThumb011_hasCode {h : Half} (hclass : 0b011#3 = h.extractLsb' 13 3) : HasCode (decodeThumb011 h) (.thumb h) := by
  have hlayout {op : BitVec 2} (hop : op = h.extractLsb' 11 2) :=
    congrArg Code.thumb (thumbShift_eq_iff.mpr ⟨append_eq_extractLsb'_iff.mpr ⟨hclass, hop⟩, rfl, rfl, rfl⟩)
  unfold decodeThumb011
  split
  case h_1 hop | h_2 hop | h_3 hop =>
    have hcode := hlayout (field_eq_of_toNat_eq hop)
    exact ⟨rfl, hcode⟩
  case h_4 =>
    have hcode := hlayout (three_eq_of_toNat_ne ‹_› ‹_› ‹_›)
    exact ⟨rfl, hcode⟩

theorem decodeThumb100_hasCode {h : Half} (hclass : 0b100#3 = h.extractLsb' 13 3) : HasCode (decodeThumb100 h) (.thumb h) := by
  have htop {op : BitVec 2} (hop : op = h.extractLsb' 11 2) := append_eq_extractLsb'_iff.mpr ⟨hclass, hop⟩
  unfold decodeThumb100
  split
  case h_1 hop | h_2 hop =>
    have hcode := thumbShift_eq_iff.mpr ⟨htop (field_eq_of_toNat_eq hop), rfl, rfl, rfl⟩
    exact ⟨rfl, congrArg Code.thumb hcode⟩
  case h_3 hop =>
    have hcode := thumbRegByte_eq_iff.mpr ⟨htop (field_eq_of_toNat_eq hop), rfl, rfl⟩
    exact ⟨rfl, congrArg Code.thumb hcode⟩
  case h_4 =>
    have hcode := thumbRegByte_eq_iff.mpr ⟨htop (three_eq_of_toNat_ne ‹_› ‹_› ‹_›), rfl, rfl⟩
    exact ⟨rfl, congrArg Code.thumb hcode⟩

theorem bitVec3_cases (k : BitVec 3) : k = 0#3 ∨ k = 1#3 ∨ k = 2#3 ∨ k = 3#3 ∨ k = 4#3 ∨ k = 5#3 ∨ k = 6#3 ∨ k = 7#3 := by
  revert k
  decide

/-- Bits 11:9 name the row, but for the row of 000, which bit 8 parts in two, and the row that 100 and 101 share. -/
theorem decodeThumb1011_hasCode {h : Half} (htop : 0b1011#4 = h.extractLsb' 12 4) : HasCode (decodeThumb1011 h) (.thumb h) := by
  obtain ⟨k, hk⟩ : ∃ k, k = h.extractLsb' 9 3 := ⟨_, rfl⟩
  have h9field := append_eq_extractLsb'_iff.mpr ⟨htop, hk⟩
  have hrow8 := append_eq_iff.mpr ⟨append_flag_bit h9field, rfl⟩
  have hrow9 := append_eq_iff.mpr ⟨h9field, rfl⟩
  have hrow7 := append_eq_iff.mpr ⟨append_flag_bit (append_flag_bit h9field), rfl⟩
  have hrow10 := append_eq_iff.mpr ⟨append_eq_extractLsb'_iff.mpr ⟨htop, (extractLsb'_of_field hk 1 2 (by decide)).symm⟩, rfl⟩
  have hpushPop := thumbPushPop_eq_iff.mpr ⟨h9field, rfl, rfl⟩
  have hfield : h.extractLsb' 8 4 = k ++ flag (bit h 8) := (append_flag_bit hk).symm
  unfold decodeThumb1011
  rw [hfield]
  rcases bitVec3_cases k with rfl | rfl | rfl | rfl | rfl | rfl | rfl | rfl
  · cases h8 : bit h 8 with
    | true =>
      rw [h8] at hrow8
      exact ⟨rfl, congrArg Code.thumb hrow8⟩
    | false =>
      rw [h8] at hrow7
      revert hrow7
      cases bit h 7 <;> exact fun hrow7 => ⟨rfl, congrArg Code.thumb hrow7⟩
  · cases bit h 8 <;> exact ⟨rfl, congrArg Code.thumb hrow9⟩
  · revert hpushPop
    cases bit h 8 <;> exact fun hcode => ⟨rfl, congrArg Code.thumb hcode⟩
  · cases bit h 8 <;> exact ⟨rfl, congrArg Code.thumb hrow9⟩
  · cases bit h 8 <;> exact ⟨rfl, congrArg Code.thumb hrow10⟩
  · cases bit h 8 <;> exact ⟨rfl, congrArg Code.thumb hrow10⟩
  · revert hpushPop
    cases bit h 8 <;> exact fun hcode => ⟨rfl, congrArg Code.thumb hcode⟩
  · cases bit h 8 <;> exact ⟨rfl, congrArg Code.thumb hrow9⟩

theorem decodeThumb101_hasCode {h : Half} (hclass : 0b101#3 = h.extractLsb' 13 3) : HasCode (decodeThumb101 h) (.thumb h) := by
  have h12field := append_flag_bit hclass
  have h11field := append_flag_bit h12field
  unfold decodeThumb101
  cases h12 : bit h 12 with
  | true =>
    rw [h12] at h12field
    exact decodeThumb1011_hasCode h12field
  | false =>
    rw [h12] at h11field
    have hcode := congrArg Code.thumb (thumbRegByte_eq_iff.mpr ⟨h11field, rfl, rfl⟩)
    revert hcode
    cases bit h 11 <;> exact fun hcode => ⟨rfl, hcode⟩

theorem decodeThumb110_hasCode {h : Half} (hclass : 0b110#3 = h.extractLsb' 13 3) : HasCode (decodeThumb110 h) (.thumb h) := by
  have h12field := append_flag_bit hclass
  have h11field := append_flag_bit h12field
  unfold decodeThumb110
  cases h12 : bit h 12 with
  | true =>
    rw [h12] at h12field
    rw [if_pos rfl]
    split
    case h_1 hnv =>
      have hcode := append_eq_iff.mpr ⟨append_eq_extractLsb'_iff.mpr ⟨h12field, code_eq_iff.mpr hnv.symm⟩, rfl⟩
      exact ⟨rfl, congrArg Code.thumb hcode⟩
    case h_2 hal =>
      have hcode := append_eq_iff.mpr ⟨append_eq_extractLsb'_iff.mpr ⟨h12field, code_eq_iff.mpr hal.symm⟩, rfl⟩
      exact ⟨rfl, congrArg Code.thumb hcode⟩
    case h_3 hnv hal =>
      have hcode := thumbBCond_eq_iff.mpr ⟨h12field, rfl, rfl⟩
      exact ⟨branchCondOk_iff.mpr ⟨hnv, hal⟩, congrArg Code.thumb hcode⟩
  | false =>
    rw [h12] at h11field
    have hcode := congrArg Code.thumb (thumbRegByte_eq_iff.mpr ⟨h11field, rfl, rfl⟩)
    revert hcode
    cases bit h 11 <;> exact fun hcode => ⟨rfl, hcode⟩

theorem decodeThumb111_hasCode {h : Half} (hclass : 0b111#3 = h.extractLsb' 13 3) : HasCode (decodeThumb111 h) (.thumb h) := by
  have hlayout {op : BitVec 2} (hop : op = h.extractLsb' 11 2) :=
    congrArg Code.thumb (append_eq_iff.mpr ⟨append_eq_extractLsb'_iff.mpr ⟨hclass, hop⟩, rfl⟩)
  unfold decodeThumb111
  split
  case h_1 hop | h_2 hop | h_3 hop =>
    have hcode := hlayout (field_eq_of_toNat_eq hop)
    exact ⟨rfl, hcode⟩
  case h_4 =>
    have hcode := hlayout (three_eq_of_toNat_ne ‹_› ‹_› ‹_›)
    exact ⟨rfl, hcode⟩

theorem decodeThumb_hasCode (h : Half) : HasCode (decodeThumb h) (.thumb h) := by
  unfold decodeThumb
  split
  case h_1 hop => exact decodeThumb000_hasCode (field_eq_of_toNat_eq hop)
  case h_2 hop => exact decodeThumb001_hasCode (field_eq_of_toNat_eq hop)
  case h_3 hop => exact decodeThumb010_hasCode (field_eq_of_toNat_eq hop)
  case h_4 hop => exact decodeThumb011_hasCode (field_eq_of_toNat_eq hop)
  case h_5 hop => exact decodeThumb100_hasCode (field_eq_of_toNat_eq hop)
  case h_6 hop => exact decodeThumb101_hasCode (field_eq_of_toNat_eq hop)
  case h_7 hop => exact decodeThumb110_hasCode (field_eq_of_toNat_eq hop)
  case h_8 =>
    apply decodeThumb111_hasCode
    apply seven_eq_of_toNat_ne <;> assumption

end Sys2Proof.Machine

namespace Sys2Proof.Proofs

open Sys2Proof.Machine

/-- Settles O2: each layout read forwards gives the fields that the decoder tests. -/
theorem decodeEncode : Obligations.DecodeEncode := by
  unfold Obligations.DecodeEncode
  intro i hwf
  cases hcode : encode i with
  | arm w => exact decodeArm_of_encode hwf hcode
  | thumb h => exact decodeThumb_of_encode hwf hcode

/-- Settles O3: each layout read backwards rebuilds the code from the fields of the instruction decoded. -/
theorem encodeDecode : Obligations.EncodeDecode := by
  unfold Obligations.EncodeDecode
  exact ⟨decodeArm_hasCode, decodeThumb_hasCode⟩

end Sys2Proof.Proofs
